-- ==== Sys2Proof/Word.lean ====
section
/-! DEFINITION. The words of a command, and the data that stands for the real numbers of the block.

The spec computes on exact reals (R9, and decision D2: NUM, the reference is exact reals). State must be plain data, so a
real number is held here in one of three forms, each exact:
* `Rat` where every rule keeps the value rational (gains, the envelope value, the fade position, the sweep clock);
* `Alg` where the value is a rational combination of powers of 2^(1/3072) (rates, phase increments, source times);
* `SReal` for a sample: an `Alg`, or an expression over band-limiting kernel values, which are transcendental.
The real number each of them denotes is `Alg.toReal` and `SReal.toReal` (Machine/Denote.lean). Log entries 1 and 2. -/

namespace Sys2Proof

/-- A 32-bit command word (R120). -/
abbrev Word := BitVec 32

/-- A byte of the byte source (R80). -/
abbrev Byte := BitVec 8

/-- An element of the number field of 2^(1/3072): the entry (k, q) stands for q * 2^(k/3072). The exponents are those of
R206, R253 and R254: a semitone is 256/3072 of an octave and a pitch unit 1/3072 of one. Canonical form: exponents strictly
rising and below 3072, no coefficient 0, so that equal numbers are equal data. -/
structure Alg where
  terms : List (Nat × Rat)
deriving DecidableEq, Repr, Inhabited

/-- An exact real: the value of a sample (R9, R11). `kernSinc h inc d` is the windowed sinc h(d) of R295 with half-width h at
phase increment inc, `kernStep h inc u` the band-limited step Hn(u) of R296, `kernRamp h inc d` the smoothed triangle
(Λ * hn)(d) of R297, `coef n` the n-th coefficient symbol, which stands for any real (log entry 6); the other constructors
are arithmetic on the values of their arguments. -/
inductive SReal where
  | alg (a : Alg)
  | coef (n : Nat)
  | kernSinc (h : Nat) (inc d : Alg)
  | kernStep (h : Nat) (inc u : Alg)
  | kernRamp (h : Nat) (inc d : Alg)
  | add (a b : SReal)
  | mul (a b : SReal)
  | div (a b : SReal)
  | mag (a : SReal)
  | sup (a b : SReal)
deriving DecidableEq, Repr, Inhabited

/-- The number 0. -/
def SReal.zero : SReal := .alg ⟨[]⟩

/-- A sample frame: one stereo pair of reals (R11). -/
structure Frame where
  l : SReal
  r : SReal
deriving DecidableEq, Repr, Inhabited

/-- The frame {0, 0}. -/
def Frame.zero : Frame := ⟨.zero, .zero⟩

end Sys2Proof
end

