-- ==== Sys2Proof/Syntax.lean ====
section
/-! DEFINITION. The 17 commands of spec/opcode_table.json with their operands (R121 to R132), one constructor a row.
Every bit of a command's words is kept: a field that the spec marks "must be 0" or "reserved" is the operand `a`, `imm` or
`rsv…`, because a command that sets one is still that command and is rejected with E_RESERVED when it runs (R133). -/

namespace Sys2Proof

/-- Operand words W1 to W4 of every `CH_START_*`: the note (R124), its length and echo (R125), the ADSR (R126), the track
volumes and the pitch (R127). Signed fields (rhythmPan, length, pitch) are bit patterns here and are read with `toInt`. -/
structure Note where
  key : BitVec 8
  velocity : BitVec 8
  rhythmPan : BitVec 8
  priority : BitVec 8
  length : BitVec 16
  echoVol : BitVec 8
  echoLen : BitVec 8
  att : BitVec 8
  dec : BitVec 8
  sus : BitVec 8
  rel : BitVec 8
  volMR : BitVec 8
  volML : BitVec 8
  pitch : BitVec 16
deriving DecidableEq, Repr

/-- Operand words W5 to W9 of `CH_START_PCM`, the SampleInfo (R130); `rsv` is W9[31:3]. -/
structure SampleInfo where
  dataPos : BitVec 32
  freq : BitVec 32
  loopStart : BitVec 32
  endPos : BitVec 32
  loop : Bool
  compressed : Bool
  fixed : Bool
  rsv : BitVec 29
deriving DecidableEq, Repr

/-- A command of the block (R123). -/
inductive Instr where
  | nop (a : BitVec 8) (imm : BitVec 16)
  | cfgWr (a : BitVec 8) (index : BitVec 16) (value : Word)
  | reset (a : BitVec 8) (imm : BitVec 16)
  | chStartPcm (slot track rsv : BitVec 8) (note : Note) (info : SampleInfo)
  | chStartSq1 (slot track rsv : BitVec 8) (note : Note) (sweep : BitVec 8) (duty : BitVec 2) (rsv5 : BitVec 22)
  | chStartSq2 (slot track rsv : BitVec 8) (note : Note) (duty : BitVec 2) (rsv5 : BitVec 30)
  | chStartWave (slot track rsv : BitVec 8) (note : Note) (wavePos : BitVec 32)
  | chStartNoise (slot track rsv : BitVec 8) (note : Note) (width7 : Bool) (rsv5 : BitVec 31)
  | chSetVol (slot volMR volML : BitVec 8)
  | chSetPitch (slot : BitVec 8) (pitch : BitVec 16)
  | chTickNote (slot : BitVec 8) (imm : BitVec 16)
  | chRelease (slot : BitVec 8) (imm : BitVec 16)
  | chReleaseFast (slot : BitVec 8) (imm : BitVec 16)
  | mxTick (a : BitVec 8) (imm : BitVec 16)
  | mxFade (a : BitVec 8) (mode : BitVec 2) (rsv : BitVec 14) (length : Word)
  | trkMute (track : BitVec 8) (mute : Bool) (rsv : BitVec 15)
  | trkReverb (track : BitVec 8) (intensity : BitVec 7) (rsv : BitVec 9)
deriving DecidableEq, Repr

end Sys2Proof
end

