-- ==== Sys2Proof/WellFormed.lean ====
section
/-! DEFINITION. Well-formed commands: every field that R123 to R132 mark "must be 0" or "reserved" is 0, and `MX_FADE`'s
mode is not the reserved code 3. An ill-formed command can still be issued; it is rejected with E_RESERVED (R133). -/

namespace Sys2Proof

/-- No must-be-0 field, no reserved field and no reserved code is set (R133). -/
def WellFormed : Instr → Bool
  | .nop a imm => a == 0 && imm == 0
  | .cfgWr a _ _ => a == 0
  | .reset a imm => a == 0 && imm == 0
  | .chStartPcm _ _ rsv _ info => rsv == 0 && info.rsv == 0
  | .chStartSq1 _ _ rsv _ _ _ rsv5 => rsv == 0 && rsv5 == 0
  | .chStartSq2 _ _ rsv _ _ rsv5 => rsv == 0 && rsv5 == 0
  | .chStartWave _ _ rsv _ _ => rsv == 0
  | .chStartNoise _ _ rsv _ _ rsv5 => rsv == 0 && rsv5 == 0
  | .chSetVol _ _ _ => true
  | .chSetPitch _ _ => true
  | .chTickNote _ imm => imm == 0
  | .chRelease _ imm => imm == 0
  | .chReleaseFast _ imm => imm == 0
  | .mxTick a imm => a == 0 && imm == 0
  | .mxFade a mode rsv _ => a == 0 && mode != 3 && rsv == 0
  | .trkMute _ _ rsv => rsv == 0
  | .trkReverb _ _ rsv => rsv == 0

end Sys2Proof
end

