-- ==== Sys2Proof/Decode.lean ====
section
/-! DEFINITION. Decoding a command from its words (R120 to R134), and after it the encoder.

The decoder is total. A header whose opcode is not in R123 is refused by name (`badOpcode`: one word, R122, R133); a command
whose operand words have not all arrived is `incomplete`. A set reserved field is no reason to refuse here: the decoder keeps
the bits and the command itself is rejected with E_RESERVED after its full length is consumed (R133). -/

namespace Sys2Proof

/-! ## Fields (R121, R134) -/

/-- `OPC`, header bits [31:24] (R121). -/
def opcField (h : Word) : BitVec 8 := h.extractLsb' 24 8
/-- `A`, header bits [23:16] (R121). -/
def aField (h : Word) : BitVec 8 := h.extractLsb' 16 8
/-- `IMM`, header bits [15:0] (R121). -/
def immField (h : Word) : BitVec 16 := h.extractLsb' 0 16
/-- `IMM[7:0]` (R123). -/
def immLow (h : Word) : BitVec 8 := h.extractLsb' 0 8
/-- `IMM[15:8]` (R123). -/
def immHigh (h : Word) : BitVec 8 := h.extractLsb' 8 8

/-- Operand words W1 to W4 of a channel start (R124 to R127). -/
def noteOf (w1 w2 w3 w4 : Word) : Note where
  key := w1.extractLsb' 0 8
  velocity := w1.extractLsb' 8 8
  rhythmPan := w1.extractLsb' 16 8
  priority := w1.extractLsb' 24 8
  length := w2.extractLsb' 0 16
  echoVol := w2.extractLsb' 16 8
  echoLen := w2.extractLsb' 24 8
  att := w3.extractLsb' 0 8
  dec := w3.extractLsb' 8 8
  sus := w3.extractLsb' 16 8
  rel := w3.extractLsb' 24 8
  volMR := w4.extractLsb' 0 8
  volML := w4.extractLsb' 8 8
  pitch := w4.extractLsb' 16 16

/-- Operand words W5 to W9 of `CH_START_PCM` (R130). -/
def sampleInfoOf (w5 w6 w7 w8 w9 : Word) : SampleInfo where
  dataPos := w5
  freq := w6
  loopStart := w7
  endPos := w8
  loop := w9.getLsbD 0
  compressed := w9.getLsbD 1
  fixed := w9.getLsbD 2
  rsv := w9.extractLsb' 3 29

/-- `CH_START_SQ1`'s W5: [7:0] sweep byte, [9:8] duty, [31:10] reserved (R131). -/
def sq1Of (h : Word) (n : Note) (w5 : Word) : Instr :=
  .chStartSq1 (aField h) (immLow h) (immHigh h) n (w5.extractLsb' 0 8) (w5.extractLsb' 8 2) (w5.extractLsb' 10 22)

/-- `CH_START_SQ2`'s W5: [1:0] duty, [31:2] reserved (R131). -/
def sq2Of (h : Word) (n : Note) (w5 : Word) : Instr :=
  .chStartSq2 (aField h) (immLow h) (immHigh h) n (w5.extractLsb' 0 2) (w5.extractLsb' 2 30)

/-- `CH_START_WAVE`'s W5: wavePos (R131). -/
def waveOf (h : Word) (n : Note) (w5 : Word) : Instr :=
  .chStartWave (aField h) (immLow h) (immHigh h) n w5

/-- `CH_START_NOISE`'s W5: [0] width7, [31:1] reserved (R131). -/
def noiseOf (h : Word) (n : Note) (w5 : Word) : Instr :=
  .chStartNoise (aField h) (immLow h) (immHigh h) n (w5.getLsbD 0) (w5.extractLsb' 1 31)

/-! ## The decoder -/

/-- What the decoder finds at the front of the command stream. -/
inductive Decoded where
  /-- a command and its length in words -/
  | instr (i : Instr) (len : Nat)
  /-- the header's opcode is not in R123: one word, rejected with E_BAD_OPCODE (R133) -/
  | badOpcode
  /-- no header yet, or operand words still to come -/
  | incomplete
deriving DecidableEq, Repr

/-- A command without operand words (format H, R121). -/
def oneWord (i : Instr) : Decoded := .instr i 1

/-- A command with one operand word. -/
def twoWords (ops : List Word) (f : Word → Instr) : Decoded :=
  match ops with
  | w1 :: _ => .instr (f w1) 2
  | [] => .incomplete

/-- A tone-generator start: W1 to W4, then W5 (R131). -/
def sixWords (ops : List Word) (f : Note → Word → Instr) : Decoded :=
  match ops with
  | w1 :: w2 :: w3 :: w4 :: w5 :: _ => .instr (f (noteOf w1 w2 w3 w4) w5) 6
  | _ => .incomplete

/-- `CH_START_PCM`: W1 to W4, then W5 to W9 (R130). -/
def tenWords (ops : List Word) (f : Note → SampleInfo → Instr) : Decoded :=
  match ops with
  | w1 :: w2 :: w3 :: w4 :: w5 :: w6 :: w7 :: w8 :: w9 :: _ =>
    .instr (f (noteOf w1 w2 w3 w4) (sampleInfoOf w5 w6 w7 w8 w9)) 10
  | _ => .incomplete

/-- The opcode map of R123: the header h, then the operand words ops. -/
def decodeHeader (h : Word) (ops : List Word) : Decoded :=
  match (opcField h).toNat with
  | 0x00 => oneWord (.nop (aField h) (immField h))
  | 0x01 => twoWords ops fun w1 => .cfgWr (aField h) (immField h) w1
  | 0x02 => oneWord (.reset (aField h) (immField h))
  | 0x10 => tenWords ops fun n info => .chStartPcm (aField h) (immLow h) (immHigh h) n info
  | 0x11 => sixWords ops (sq1Of h)
  | 0x12 => sixWords ops (sq2Of h)
  | 0x13 => sixWords ops (waveOf h)
  | 0x14 => sixWords ops (noiseOf h)
  | 0x20 => oneWord (.chSetVol (aField h) (immLow h) (immHigh h))
  | 0x21 => oneWord (.chSetPitch (aField h) (immField h))
  | 0x22 => oneWord (.chTickNote (aField h) (immField h))
  | 0x23 => oneWord (.chRelease (aField h) (immField h))
  | 0x24 => oneWord (.chReleaseFast (aField h) (immField h))
  | 0x30 => oneWord (.mxTick (aField h) (immField h))
  | 0x31 => twoWords ops fun w1 => .mxFade (aField h) (h.extractLsb' 0 2) (h.extractLsb' 2 14) w1
  | 0x32 => oneWord (.trkMute (aField h) (h.getLsbD 0) (h.extractLsb' 1 15))
  | 0x33 => oneWord (.trkReverb (aField h) (h.extractLsb' 0 7) (h.extractLsb' 7 9))
  | _ => .badOpcode

/-- The command at the front of a stream of words (R120, R122). -/
def decode : List Word → Decoded
  | [] => .incomplete
  | h :: ops => decodeHeader h ops

/-! ## Words stored as bytes: little-endian (R120, decision D63) -/

/-- The word in four bytes, the first the least significant (R120). -/
def wordOfBytes (b0 b1 b2 b3 : Byte) : Word := b3 ++ b2 ++ b1 ++ b0

/-- The whole words in a string of bytes; one to three bytes left over at the end are no word yet. -/
def wordsOfBytes : List Byte → List Word
  | b0 :: b1 :: b2 :: b3 :: rest => wordOfBytes b0 b1 b2 b3 :: wordsOfBytes rest
  | _ => []

/-- The four bytes of a word as they are stored (R120). -/
def bytesOfWord (w : Word) : List Byte :=
  [w.extractLsb' 0 8, w.extractLsb' 8 8, w.extractLsb' 16 8, w.extractLsb' 24 8]

/-- Decoding from stored bytes (R120). -/
def decodeBytes (bs : List Byte) : Decoded := decode (wordsOfBytes bs)

/-- The words of the longest command (R122, V2). -/
def maxWords : Nat := 10

/-- The bytes of a table word: bit 0 of w is the least significant bit of the first word; bits from nbits on are 0, up to
the longest command. -/
def tableBytes (nbits w : Nat) : List Byte :=
  (List.range (4 * maxWords)).map fun i => BitVec.ofNat 8 ((w % 2 ^ nbits) >>> (8 * i))

/-- The command the decoder reads from an instruction whose bits are w, as spec/opcode_table.json numbers them. -/
def decodeTableWord (nbits w : Nat) : Option Instr :=
  match decodeBytes (tableBytes nbits w) with
  | .instr i _ => some i
  | .badOpcode => none
  | .incomplete => none

/-! ## The encoder, from the same tables -/

/-- `OPC` of each command (R123). -/
def opcodeOf : Instr → BitVec 8
  | .nop _ _ => 0x00
  | .cfgWr _ _ _ => 0x01
  | .reset _ _ => 0x02
  | .chStartPcm _ _ _ _ _ => 0x10
  | .chStartSq1 _ _ _ _ _ _ _ => 0x11
  | .chStartSq2 _ _ _ _ _ _ => 0x12
  | .chStartWave _ _ _ _ _ => 0x13
  | .chStartNoise _ _ _ _ _ _ => 0x14
  | .chSetVol _ _ _ => 0x20
  | .chSetPitch _ _ => 0x21
  | .chTickNote _ _ => 0x22
  | .chRelease _ _ => 0x23
  | .chReleaseFast _ _ => 0x24
  | .mxTick _ _ => 0x30
  | .mxFade _ _ _ _ => 0x31
  | .trkMute _ _ _ => 0x32
  | .trkReverb _ _ _ => 0x33

/-- A header word, `{OPC, A, IMM}` (R121). -/
def header (opc a : BitVec 8) (imm : BitVec 16) : Word := opc ++ a ++ imm

/-- W1 to W4 of a note (R124 to R127). -/
def noteWords (n : Note) : List Word :=
  [n.priority ++ n.rhythmPan ++ n.velocity ++ n.key,
   n.echoLen ++ n.echoVol ++ n.length,
   n.rel ++ n.sus ++ n.dec ++ n.att,
   n.pitch ++ n.volML ++ n.volMR]

/-- W5 to W9 of a SampleInfo (R130). -/
def sampleInfoWords (i : SampleInfo) : List Word :=
  [i.dataPos, i.freq, i.loopStart, i.endPos,
   i.rsv ++ BitVec.ofBool i.fixed ++ BitVec.ofBool i.compressed ++ BitVec.ofBool i.loop]

/-- The operand words after the header (R124 to R132). -/
def operandWords : Instr → List Word
  | .nop _ _ => []
  | .cfgWr _ _ value => [value]
  | .reset _ _ => []
  | .chStartPcm _ _ _ note info => noteWords note ++ sampleInfoWords info
  | .chStartSq1 _ _ _ note sweep duty rsv5 => noteWords note ++ [rsv5 ++ duty ++ sweep]
  | .chStartSq2 _ _ _ note duty rsv5 => noteWords note ++ [rsv5 ++ duty]
  | .chStartWave _ _ _ note wavePos => noteWords note ++ [wavePos]
  | .chStartNoise _ _ _ note width7 rsv5 => noteWords note ++ [rsv5 ++ BitVec.ofBool width7]
  | .chSetVol _ _ _ => []
  | .chSetPitch _ _ => []
  | .chTickNote _ _ => []
  | .chRelease _ _ => []
  | .chReleaseFast _ _ => []
  | .mxTick _ _ => []
  | .mxFade _ _ _ length => [length]
  | .trkMute _ _ _ => []
  | .trkReverb _ _ _ => []

/-- The field `A` of each command's header (R123). -/
def aOf : Instr → BitVec 8
  | .nop a _ => a
  | .cfgWr a _ _ => a
  | .reset a _ => a
  | .chStartPcm slot _ _ _ _ => slot
  | .chStartSq1 slot _ _ _ _ _ _ => slot
  | .chStartSq2 slot _ _ _ _ _ => slot
  | .chStartWave slot _ _ _ _ => slot
  | .chStartNoise slot _ _ _ _ _ => slot
  | .chSetVol slot _ _ => slot
  | .chSetPitch slot _ => slot
  | .chTickNote slot _ => slot
  | .chRelease slot _ => slot
  | .chReleaseFast slot _ => slot
  | .mxTick a _ => a
  | .mxFade a _ _ _ => a
  | .trkMute track _ _ => track
  | .trkReverb track _ _ => track

/-- The field `IMM` of each command's header (R123). -/
def immOf : Instr → BitVec 16
  | .nop _ imm => imm
  | .cfgWr _ index _ => index
  | .reset _ imm => imm
  | .chStartPcm _ track rsv _ _ => rsv ++ track
  | .chStartSq1 _ track rsv _ _ _ _ => rsv ++ track
  | .chStartSq2 _ track rsv _ _ _ => rsv ++ track
  | .chStartWave _ track rsv _ _ => rsv ++ track
  | .chStartNoise _ track rsv _ _ _ => rsv ++ track
  | .chSetVol _ volMR volML => volML ++ volMR
  | .chSetPitch _ pitch => pitch
  | .chTickNote _ imm => imm
  | .chRelease _ imm => imm
  | .chReleaseFast _ imm => imm
  | .mxTick _ imm => imm
  | .mxFade _ mode rsv _ => rsv ++ mode
  | .trkMute _ mute rsv => rsv ++ BitVec.ofBool mute
  | .trkReverb _ intensity rsv => rsv ++ intensity

/-- The words of a command. -/
def encode (i : Instr) : List Word := header (opcodeOf i) (aOf i) (immOf i) :: operandWords i

/-- A command as stored bytes (R120). -/
def encodeBytes (i : Instr) : List Byte := (encode i).flatMap bytesOfWord

/-- A command's length in words, `1 + NOPS(OPC)` (R122, R123). -/
def commandLength (opc : BitVec 8) : Nat :=
  match opc.toNat with
  | 0x01 => 2
  | 0x10 => 10
  | 0x11 => 6
  | 0x12 => 6
  | 0x13 => 6
  | 0x14 => 6
  | 0x31 => 2
  | _ => 1

end Sys2Proof
end

