-- ==== Sys2Proof/Config.lean ====
section
/-! DEFINITION. The implementation parameters of R7. Those that the source fixes are constants; those with a default that an
implementation may change are arguments: the fields of `Build`, which power-on takes, and of `Params`, which a state carries
and no command writes (log entry 11); the OPEN ones are constants without a body. -/

namespace Sys2Proof.Config

open Sys2Proof

/-! ## Parameters whose value is normative ("from source", R7) -/

/-- `PCM_LEVEL_MAX` (R7). -/
def pcmLevelMax : Nat := 0xFF
/-- `CGB_LEVEL_MAX` (R7). -/
def cgbLevelMax : Nat := 0xF
/-- `CGB_RATE_MAX` (R7, R241). -/
def cgbRateMax : Nat := 7
/-- `CGB_SUS_MAX` (R7, R241). -/
def cgbSusMax : Nat := 15
/-- `SUS_BUG_N` (R7, R183). -/
def susBugN : Nat := 7
/-- `SWEEP_MAX` (R7, R251). -/
def sweepMax : Nat := 2047
/-- Pitch steps in an octave: 12 semitones of 256 (R206). -/
def pitchSteps : Nat := 3072

/-! ## Parameters with a default (R7) -/

/-- The parameters with a default that rules read while the block runs (R7). DESIGN CHOICE (log entry 11): R7 gives them a
default and no number type; here each is a natural or a rational number, never an irrational one. -/
structure Params where
  /-- `INTERFRAMES`: render ticks per frame (decision D3). -/
  interframes : Nat
  /-- `PSG_GAIN` (decision D32): a rational number. `Params.Legal` asks that it be not negative (log entry 11). -/
  psgGain : Rat
  /-- `SINC_HALF`: the half-width H of the band-limiting kernels (decision D42). -/
  sincHalf : Nat
  /-- `SYNTH_CYCLE` (decision D15). -/
  synthCycle : Nat
  /-- `NOISE_BASE` in Hz (decision D39): a rational number, which `Params.Legal` asks to be positive (log entry 11). -/
  noiseBase : Rat
  /-- `WAVE_NIBBLES`: 16, or 32 (conflict C3, decision D37). -/
  waveNibbles : Nat
  /-- `FADE_EXP` (decision D50). DESIGN CHOICE (log entry 11): R7, R367 and D50 give the default 2 and no type; here it is any
  natural number, 0 included, and no other exponent. -/
  fadeExp : Nat
deriving DecidableEq, Repr

/-- The defaults of R7. -/
def Params.default : Params where
  interframes := 4
  psgGain := 1 / 2
  sincHalf := 16
  synthCycle := 64
  noiseBase := 4096
  waveNibbles := 16
  fadeExp := 2

/-- The values that R7 and C3 allow: 16 or 32 nibbles in a wave table. DEDUCED (log entry 11): a frame has a tick, a kernel a
width and a synth cycle a sample, rates are positive (R298), and gains are not negative (R44). -/
def Params.Legal (p : Params) : Prop :=
  1 ≤ p.interframes ∧ 1 ≤ p.sincHalf ∧ 1 ≤ p.synthCycle ∧ 0 ≤ p.psgGain ∧ 0 < p.noiseBase ∧
    (p.waveNibbles = 16 ∨ p.waveNibbles = 32)

/-- All the parameters of R7 that have a default. DESIGN CHOICE (log entry 11): FRAME_RATE is a rational number, and the numbers
of slots and tracks are any natural numbers; R7 gives them no type. -/
structure Build extends Params where
  /-- `FRAME_RATE` in Hz (decision D4), a rational number of any sign. Used only for the reset value of TICK_LEN (R33). -/
  frameRate : Rat
  /-- `CH_SLOTS` (decision D11), at most 32 (R41). -/
  chSlots : Nat
  /-- `N_TRACKS` (decision D11). -/
  nTracks : Nat
deriving DecidableEq, Repr

/-- The defaults of R7. -/
def Build.default : Build where
  toParams := .default
  frameRate := 16777216 / 280896
  chSlots := 32
  nTracks := 16

/-! ## Reset values of the configuration registers -/

/-- OUT_RATE (R32). -/
def resetOutRate : Word := 48000
/-- TICK_LEN: `floor(48000 / (FRAME_RATE × INTERFRAMES))`, 200 by default (R33). -/
def Build.resetTickLen (b : Build) : Word := BitVec.ofNat 32 (48000 / (b.frameRate * (b.interframes : Rat))).floor.toNat
/-- FIXED_RATE (R36). -/
def resetFixedRate : Word := 13379
/-- REV_NBUF (R37). -/
def resetRevNbuf : Word := 7
/-- REV_D: INTERFRAMES times the reset value of TICK_LEN, 800 by default (R38). -/
def Build.resetRevD (b : Build) : Word := BitVec.ofNat 32 (b.interframes * b.resetTickLen.toNat)

/-- DESIGN CHOICE (log entry 5): the size of the byte source before the host places an image, the whole 32-bit offset
space of R87. The image comes from outside (R455). -/
def resetSourceSize : Nat := 2 ^ 32

/-! ## OPEN parameters: no body, so that nothing can rest on a value (R7) -/

/-- The coefficient set of one accurate reverb (R340): the length L2 of the second buffer less one (a buffer has at least
one frame), the taps (integer delay, coefficient) on the main and on the second buffer, and cx, cy. A coefficient is any real:
an `SReal` may be a coefficient symbol, whose value is open too (log entry 6). -/
structure GameTaps where
  l2Pred : Nat
  taps : List (Int × SReal)
  taps2 : List (Int × SReal)
  cx : SReal
  cy : SReal
deriving DecidableEq, Repr, Inhabited

/-- L2, the length of the second buffer (R340). -/
def GameTaps.l2 (g : GameTaps) : Nat := g.l2Pred + 1

/-- The coefficients of the biquad (R341): any reals, as in `GameTaps` (log entry 6). -/
structure TestCoef where
  b0 : SReal
  b1 : SReal
  b2 : SReal
  a1 : SReal
  a2 : SReal
deriving DecidableEq, Repr, Inhabited

/-- `GAME1_TAPS`, OPEN (decision D48, log entry 6). -/
opaque game1Taps : GameTaps
/-- `GAME2_TAPS`, OPEN (decision D48, log entry 6). -/
opaque game2Taps : GameTaps
/-- `TEST_COEF`, OPEN (decision D48, log entry 6). -/
opaque testCoef : TestCoef
/-- The length of the second buffer of TEST. DESIGN CHOICE (log entry 6): R58 gives TEST a `buf2[0..L2-1]`, but R341's
`TEST_COEF` has no L2 and leaves `buf2` unused, so the length is open. -/
opaque testL2 : Nat
/-- `RING_BLOCKS`, OPEN (decision D55, log entry 7). -/
opaque ringBlocks : Nat
/-- `BLOCK_LEN`, OPEN (decision D55, log entry 7). -/
opaque blockLen : Nat

end Sys2Proof.Config
end

