-- ==== Sys2Proof/Machine/Numbers.lean ====
section
/-! DEFINITION. Exact arithmetic on the model's numbers (R9, decision D2): `Rat` helpers, the field `Alg`, the samples `SReal`.
What each operation means on real numbers is Machine/Denote.lean. Log entries 1 and 2. -/

namespace Sys2Proof

/-! ## Rationals (R9) -/

/-- `lerp(a, b, f) = a + (b − a) × f` (R9). -/
def lerp (a b f : Rat) : Rat := a + (b - a) * f

/-- q to a natural power, by repeated multiplication: the power law of the fade, whose exponent FADE_EXP is a natural number
here (R367; DESIGN CHOICE, log entry 11). -/
def ratPow (q : Rat) : Nat → Rat
  | 0 => 1
  | n + 1 => ratPow q n * q

/-- 2 to an integer power. -/
def pow2 : Int → Rat
  | .ofNat n => ((2 ^ n : Nat) : Rat)
  | .negSucc n => 1 / ((2 ^ (n + 1) : Nat) : Rat)

/-- `clamp(v, lo, hi)` on integers (R9). -/
def clampInt (v lo hi : Int) : Int := min hi (max lo v)

/-- The list with f applied to every entry and its number, counted from k. -/
def mapFrom {α β : Type} (f : Nat → α → β) (k : Nat) : List α → List β
  | [] => []
  | x :: xs => f k x :: mapFrom f (k + 1) xs

theorem length_mapFrom {α β : Type} (f : Nat → α → β) (k : Nat) (xs : List α) : (mapFrom f k xs).length = xs.length := by
  induction xs generalizing k with
  | nil => rfl
  | cons x xs ih => simp [mapFrom, ih]

/-! ## The field of 2^(1/3072) -/

/-- Adds q * 2^(k/3072) to a canonical sum. -/
def Alg.insert (k : Nat) (q : Rat) : List (Nat × Rat) → List (Nat × Rat)
  | [] => if q = 0 then [] else [(k, q)]
  | (k', q') :: r =>
    if k < k' then (if q = 0 then (k', q') :: r else (k, q) :: (k', q') :: r)
    else if k = k' then (if q' + q = 0 then r else (k, q' + q) :: r)
    else (k', q') :: Alg.insert k q r

/-- 0. -/
def Alg.zero : Alg := ⟨[]⟩

/-- Is it 0? In canonical form only the empty sum is. -/
def Alg.isZero (a : Alg) : Bool := a.terms.isEmpty

/-- A rational number. -/
def Alg.ofRat (q : Rat) : Alg := ⟨Alg.insert 0 q []⟩

/-- 2^(e/3072) (R206, R253, R254). -/
def Alg.exp2 (e : Int) : Alg :=
  ⟨[((e % (Config.pitchSteps : Int)).toNat, pow2 (e / (Config.pitchSteps : Int)))]⟩

/-- Sum. -/
def Alg.add (a b : Alg) : Alg := ⟨a.terms.foldr (fun kq acc => Alg.insert kq.1 kq.2 acc) b.terms⟩

/-- Product with a rational number. -/
def Alg.smul (q : Rat) (a : Alg) : Alg :=
  if q = 0 then .zero else ⟨a.terms.map fun kq => (kq.1, q * kq.2)⟩

/-- Difference. -/
def Alg.sub (a b : Alg) : Alg := a.add (b.smul (-1))

/-- The product of two terms: exponents add, and 2^(3072/3072) is the factor 2. -/
def Alg.mulTerm (x y : Nat × Rat) : Nat × Rat :=
  if x.1 + y.1 < Config.pitchSteps then (x.1 + y.1, x.2 * y.2)
  else (x.1 + y.1 - Config.pitchSteps, 2 * (x.2 * y.2))

/-- Product. -/
def Alg.mul (a b : Alg) : Alg :=
  ⟨a.terms.foldr
    (fun x acc => b.terms.foldr (fun y acc => Alg.insert (Alg.mulTerm x y).1 (Alg.mulTerm x y).2 acc) acc) []⟩

/-- Canonical form: exponents strictly rising and below 3072, no coefficient 0. -/
def Alg.wf (a : Alg) : Bool :=
  a.terms.all (fun kq => decide (kq.1 < Config.pitchSteps) && decide (kq.2 ≠ 0)) &&
    decide ((a.terms.map Prod.fst).Pairwise (· < ·))

/-- The bits below a leading one, chosen greedily so that the n-th power of the result stays at most `target`. -/
def rootBits (n target : Nat) : Nat → Nat → Nat
  | 0, r => r
  | i + 1, r => if (r + 2 ^ i) ^ n ≤ target then rootBits n target i (r + 2 ^ i) else rootBits n target i r

/-- ⌊2^P * 2^(k/3072)⌋ for k < 3072. -/
def rootLow (k P : Nat) : Nat :=
  let g := Nat.gcd k Config.pitchSteps
  let n := Config.pitchSteps / g
  rootBits n (2 ^ (k / g + n * P)) P (2 ^ P)

/-- A rational interval that holds q * 2^(k/3072), of width |q| / 2^P (0 for k = 0). -/
def termBounds (P : Nat) (kq : Nat × Rat) : Rat × Rat :=
  if kq.1 = 0 then (kq.2, kq.2)
  else
    let lo : Rat := (rootLow kq.1 P : Rat) / ((2 ^ P : Nat) : Rat)
    let hi : Rat := ((rootLow kq.1 P + 1 : Nat) : Rat) / ((2 ^ P : Nat) : Rat)
    if 0 ≤ kq.2 then (kq.2 * lo, kq.2 * hi) else (kq.2 * hi, kq.2 * lo)

/-- A rational interval that holds the number. -/
def Alg.bounds (P : Nat) (a : Alg) : Rat × Rat :=
  a.terms.foldr (fun kq acc => ((termBounds P kq).1 + acc.1, (termBounds P kq).2 + acc.2)) (0, 0)

/-- Doubles the precision until both ends of the interval have one floor. -/
def Alg.floorLoop (a : Alg) : Nat → Nat → Int
  | 0, P => (a.bounds P).1.floor
  | f + 1, P =>
    if (a.bounds P).1.floor = (a.bounds P).2.floor then (a.bounds P).1.floor else Alg.floorLoop a f (2 * P)

/-- A bound S on every conjugate of D * (a − n), for D the product of the denominators and n an integer next to a. As
x^3072 − 2 is irreducible, an a that is not rational differs from every integer by at least S^(−3072). -/
def Alg.height (a : Alg) : Nat :=
  let den := a.terms.foldr (fun kq d => kq.2.den * d) 1
  let num := a.terms.foldr (fun kq m => kq.2.num.natAbs + m) 0
  den * (4 * num + 1)

/-- The greatest integer at most a (R9). Exact: a rational a is decided at once, and otherwise the precision reaches
3073 * (log2 S + 2) bits, at which the interval is shorter than a's distance from every integer (log entry 1). -/
def Alg.floor (a : Alg) : Int :=
  a.floorLoop (Nat.log2 (3073 * (Nat.log2 a.height + 2)) + 2) 32

/-- a < n, for an integer n. -/
def Alg.ltInt (a : Alg) (n : Int) : Bool := decide (a.floor < n)

/-- a ≤ n, for an integer n: n − a ≥ 0. -/
def Alg.leInt (a : Alg) (n : Int) : Bool := decide (0 ≤ ((Alg.ofRat (n : Rat)).sub a).floor)

/-- The rational number that a is, if it is one. -/
def Alg.toRat? (a : Alg) : Option Rat :=
  match a.terms with
  | [] => some 0
  | [(0, q)] => some q
  | _ => none

/-! ## Samples

Each operation computes where both arguments are in `Alg` and keeps an expression otherwise. 0 is absorbed: 0 + a is a, and
0 * a is 0. -/

/-- A rational sample value. -/
def SReal.ofRat (q : Rat) : SReal := .alg (Alg.ofRat q)

/-- Is it written as the number 0? -/
def SReal.isZero : SReal → Bool
  | .alg x => x.isZero
  | _ => false

/-- Sum. -/
def SReal.plus : SReal → SReal → SReal
  | .alg x, .alg y => .alg (x.add y)
  | .alg x, b => if x.isZero then b else .add (.alg x) b
  | a, .alg y => if y.isZero then a else .add a (.alg y)
  | a, b => .add a b

/-- Product with a rational number. -/
def SReal.smul (q : Rat) (a : SReal) : SReal :=
  if a.isZero then .zero
  else if q = 0 then .zero
  else if q = 1 then a
  else
    match a with
    | .alg x => .alg (x.smul q)
    | b => .mul (SReal.ofRat q) b

/-- Product. -/
def SReal.times (a b : SReal) : SReal :=
  if b.isZero then .zero
  else if a.isZero then .zero
  else
    match a, b with
    | .alg x, .alg y => .alg (x.mul y)
    | c, d => .mul c d

/-- Difference. -/
def SReal.minus (a b : SReal) : SReal := a.plus (b.smul (-1))

/-- Quotient; computed where the divisor is a rational number other than 0. -/
def SReal.over (a b : SReal) : SReal :=
  match b with
  | .alg y =>
    match y.toRat? with
    | some q => if q = 0 then .div a b else a.smul (1 / q)
    | none => .div a b
  | _ => .div a b

/-- The rational number that a sample is written as, if it is one. -/
def SReal.toRat? : SReal → Option Rat
  | .alg x => x.toRat?
  | _ => none

/-- Magnitude (R433); computed where the argument is a rational number. -/
def SReal.magnitude (a : SReal) : SReal :=
  match a.toRat? with
  | some q => SReal.ofRat (if 0 ≤ q then q else -q)
  | none => .mag a

/-- The greater of two (R433); computed where both are rational numbers. -/
def SReal.larger (a b : SReal) : SReal :=
  match a.toRat?, b.toRat? with
  | some p, some q => SReal.ofRat (if p ≤ q then q else p)
  | _, _ => .sup a b

/-- Is it written as {0, 0}? -/
def Frame.isZero (f : Frame) : Bool := f.l.isZero && f.r.isZero

/-- Sum of two frames, side by side (R11). -/
def Frame.plus (a b : Frame) : Frame := ⟨a.l.plus b.l, a.r.plus b.r⟩

/-- A frame times a rational number (R11). -/
def Frame.smul (q : Rat) (f : Frame) : Frame := ⟨f.l.smul q, f.r.smul q⟩

/-- Adds the frames ys onto the buffer b from its start; a shorter ys leaves the rest of b as it is. -/
def addFrames : List Frame → List Frame → List Frame
  | b :: bs, y :: ys => b.plus y :: addFrames bs ys
  | bs, [] => bs
  | [], _ :: _ => []

end Sys2Proof
end

