-- ==== Sys2Proof/Machine/State.lean ====
section
/-! DEFINITION. All the state the spec gives the block (10_state.md), and the host side that 60_exceptions.md gives it: the
command port, the rendezvous and the ring buffer. Types and reset values only; the operations are in Ops.lean. -/

namespace Sys2Proof.Machine

open Sys2Proof

/-! ## Names the spec gives to values -/

/-- The error codes E_… of R410; their numbers are `ErrCode.code` (Flags.lean). -/
inductive ErrCode where
  | badOpcode
  | reserved
  | badSlot
  | slotBusy
  | noChannel
  | badTrack
  | badNote
  | badPointer
  | unsupportedEncoding
  | badLoop
  | badFreq
  | badCfg
  | badFade
deriving DecidableEq, Repr

/-- The envelope states, in the order of R160. -/
inductive EnvState where
  | init
  | atk
  | dec
  | sus
  | rel
  | pseudoEcho
  | die
  | dead
deriving DecidableEq, Repr

/-- The resampler kinds (R2, R35). -/
inductive ResKind where
  | nearest
  | linear
  | cubic
  | sinc
  | blep
  | blamp
deriving DecidableEq, Repr

/-- The reverb kinds (R2, R35). -/
inductive RevKind where
  | normal
  | game1
  | game2
  | test
  | noReverb
deriving DecidableEq, Repr

/-- `mx.fadeState` (R62): NONE, IN, OUT. -/
inductive FadeState where
  | idle
  | fadeIn
  | fadeOut
deriving DecidableEq, Repr

/-- `pan` of a tone-generator channel (R46, R248). -/
inductive Pan where
  | both
  | left
  | right
deriving DecidableEq, Repr

/-- The PCM sub-modes (R2, R45). -/
inductive PcmMode where
  | sample
  | dpcm
  | synthPulse
  | synthSaw
  | synthTri
deriving DecidableEq, Repr

/-- `width` of a noise channel's LFSR (R46). -/
inductive LfsrWidth where
  | w15
  | w7
deriving DecidableEq, Repr

/-- The channel types, the "closed set of tagged variants" (R2, R43). -/
inductive ChType where
  | pcm
  | sq1
  | sq2
  | wave
  | noise
deriving DecidableEq, Repr

/-! ## Configuration registers (R31 to R39) -/

/-- `SOUNDMODE` (R34), field by field; the word is `SoundMode.pack` (Operands.lean). -/
structure SoundMode where
  masterVol : BitVec 4
  dacCfg : BitVec 4
  forcedRevVal : BitVec 7
  forcedRevEn : Bool
deriving DecidableEq, Repr

/-- `MIXOPT` (R35), field by field; the word is `MixOpt.pack` (Operands.lean). -/
structure MixOpt where
  resNormal : ResKind
  resFixed : ResKind
  reverbType : RevKind
  cgbPoly : Bool
  accCh3Quant : Bool
  accCh3Vol : Bool
  susBug : Bool
deriving DecidableEq, Repr

/-- The configuration register file (R31). -/
structure Cfg where
  outRate : Word
  tickLen : Word
  soundmode : SoundMode
  fixedRate : Word
  mixopt : MixOpt
  revNbuf : Word
  revD : Word
deriving DecidableEq, Repr

/-! ## Channel slots (R42 to R47) -/

/-- PCM-only fields (R45). `synthDuty` is read in SYNTH_PULSE only. -/
structure PcmVoice where
  dataPos : BitVec 32
  freq : BitVec 32
  loopStart : BitVec 32
  endPos : BitVec 32
  loop : Bool
  compressed : Bool
  fixed : Bool
  mode : PcmMode
  synthDuty : BitVec 8
deriving DecidableEq, Repr

/-- SQ1-only fields (R46): `sweep`, `sweepActive`, `sweepReg`, `sweepAcc`. `reg` is read only while `active`. -/
structure Sweep where
  byte : BitVec 8
  active : Bool
  reg : Nat
  acc : Rat
deriving DecidableEq, Repr

/-- The variant payload (R45, R46). -/
inductive Voice where
  | pcm (v : PcmVoice)
  | sq1 (duty : BitVec 2) (sweep : Sweep)
  | sq2 (duty : BitVec 2)
  | wave (wavePos : BitVec 32) (nibbles : List (BitVec 4)) (mean : Rat)
  | noise (width : LfsrWidth)
deriving DecidableEq, Repr

/-- A channel record `ch[s]`: the common fields (R43), the envelope fields (R44), the resampler fields (R47), `pan` and the
variant payload (R45, R46). `envCount` to `pan` are read for tone-generator types only. -/
structure Chan where
  live : Bool
  track : Nat
  key : BitVec 7
  velocity : BitVec 7
  rhythmPan : BitVec 8
  priority : BitVec 8
  length : BitVec 16
  echoVol : BitVec 8
  echoLen : BitVec 8
  att : BitVec 8
  dec : BitVec 8
  sus : BitVec 8
  rel : BitVec 8
  volMR : BitVec 8
  volML : BitVec 8
  rightVol : BitVec 8
  leftVol : BitVec 8
  pitch : BitVec 16
  stop : Bool
  envState : EnvState
  envLevel : Nat
  fromEnvLevel : Nat
  envInterStep : Nat
  envCount : Nat
  susCount : Nat
  envPeak : Nat
  envSustain : Nat
  echoLevel : Nat
  pan : Pan
  lastGainL : Rat
  lastGainR : Rat
  rsKind : ResKind
  t : Alg
  inc : Alg
  voice : Voice
deriving DecidableEq, Repr

/-! ## Tracks and reverb instances (R48, R58) -/

/-- A track (R48): mute, reverb intensity and the transient track buffer. -/
structure Track where
  mute : Bool
  rev : BitVec 7
  buf : List Frame
deriving DecidableEq, Repr

/-- A circular buffer of frames, by position: the entries that are not {0, 0}, positions strictly rising. A position that is
not listed holds {0, 0}, the value RESET gives every entry (R58). -/
abbrev DelayBuf := List (Nat × Frame)

/-- A reverb instance `rv[t]` (R58): `nBuf`, `dLen`, `len` are N, D, L. -/
structure Reverb where
  kind : RevKind
  nBuf : Nat
  dLen : Nat
  len : Nat
  buf : DelayBuf
  p : Nat
  buf2 : DelayBuf
  p2 : Nat
  z1 : Frame
  z2 : Frame
deriving DecidableEq, Repr

/-! ## Mixer (R62) -/

/-- The mixer fields `mx` (R62). `lastErr = none` is code 0. -/
structure Mixer where
  rate : Word
  tickCount : BitVec 64
  fadeState : FadeState
  fadePos : Rat
  fadeStep : Rat
  fadeDone : Bool
  master : List Frame
  lastErr : Option ErrCode
  errCount : BitVec 16
deriving DecidableEq, Repr

/-! ## The byte source (R80) -/

/-- The byte source: `size()` bytes at offsets 0..size-1. `cells` lists the bytes that are not 0, offsets strictly rising;
an offset below `size` that is not listed holds 0, so that every image has exactly one such form. -/
structure Source where
  size : Nat
  cells : List Host.Cell
deriving DecidableEq, Repr

/-! ## The host side (R430 to R438) -/

/-- What another agent does before a step of the block (R430): nothing; the audio callback asks for m frames (R437); a
control agent asks for a rendezvous with the words of a command (R435); the render agent's own sequencer issues words (R120);
the host turns the export path on or off (R378). -/
inductive HostTurn where
  | quiet
  | audio (m : Nat)
  | invoke (words : List Word)
  | issue (words : List Word)
  | exporting (on : Bool)
deriving DecidableEq, Repr

/-- The host side of the block. `cmds`: the command stream, oldest word first (R120). `invocation`: the pending-invocation
slot, and `callers` the control agents that wait for it (R435). `pending`: output frames of a tick that the render agent
still waits to add, `ring` the queued frames, oldest first (R436), `heard` what the audio callback last received (R437).
`exporting`: a tick's output is returned to the export caller instead of pushed, `returned` what the last such tick returned
(R378, log entry 17). `turns`: what the other agents do before each coming step (log entry 8). -/
structure Port where
  cmds : List Word
  invocation : Option (List Word)
  callers : List (List Word)
  pending : List Frame
  ring : List Frame
  heard : List Frame
  exporting : Bool
  returned : List Frame
  turns : List HostTurn
deriving DecidableEq, Repr

/-! ## The state -/

/-- The state of the block. `par` are the parameters of R7 that it was built with; the number of records in `chans` is
CH_SLOTS, that in `tracks` and in `reverbs` N_TRACKS (R42, R48, R58). -/
structure State where
  par : Config.Params
  cfg : Cfg
  chans : List Chan
  tracks : List Track
  reverbs : List Reverb
  mx : Mixer
  src : Source
  port : Port
deriving DecidableEq, Repr

/-- Why the machine can stop. The spec gives it no fault (R414); this one guards the model's own unreachable states. -/
inductive Fault where
  /-- Raised by `MX_TICK` when a live channel's sample footprint is not inside the byte source, at the channel's data
  position. R86: every start validates the footprint, so no run from reset comes here. Safe: the model stops. -/
  | outsideByteSource (off : Nat)
deriving DecidableEq, Repr

/-- Why the model can decline an instruction. -/
inductive Refusal where
  /-- An instruction without a meaning in the model. No arm of `exec` answers it. Safe: the model stops. -/
  | notModelled (mnemonic : String)
deriving DecidableEq, Repr

/-! ## Reset (R450, R452) -/

/-- SOUNDMODE after power-on (R34): 0x0000000F. -/
def SoundMode.reset : SoundMode := ⟨15, 0, 0, false⟩

/-- MIXOPT after power-on (R35): 0x00070011. -/
def MixOpt.reset : MixOpt := ⟨.linear, .linear, .normal, false, true, true, true⟩

/-- The configuration registers after power-on (R450, R32 to R38). -/
def Cfg.powerOn (b : Config.Build) : Cfg where
  outRate := Config.resetOutRate
  tickLen := b.resetTickLen
  soundmode := .reset
  fixedRate := Config.resetFixedRate
  mixopt := .reset
  revNbuf := Config.resetRevNbuf
  revD := b.resetRevD

/-- A free slot (R42). DESIGN CHOICE (log entry 3): only `live` is given; every other field is 0 or the first name. -/
def Chan.free : Chan where
  live := false
  track := 0
  key := 0
  velocity := 0
  rhythmPan := 0
  priority := 0
  length := 0
  echoVol := 0
  echoLen := 0
  att := 0
  dec := 0
  sus := 0
  rel := 0
  volMR := 0
  volML := 0
  rightVol := 0
  leftVol := 0
  pitch := 0
  stop := false
  envState := .init
  envLevel := 0
  fromEnvLevel := 0
  envInterStep := 0
  envCount := 0
  susCount := 0
  envPeak := 0
  envSustain := 0
  echoLevel := 0
  pan := .both
  lastGainL := 0
  lastGainR := 0
  rsKind := .nearest
  t := ⟨[]⟩
  inc := ⟨[]⟩
  voice := .pcm ⟨0, 0, 0, 0, false, false, false, .sample, 0⟩

/-- A track after RESET (R48, R452). The transient buffer is unspecified there (R453): empty, DESIGN CHOICE, log entry 4. -/
def Track.reset : Track := ⟨false, 0, []⟩

/-- A reverb instance as RESET leaves it, for the latched kind, N and D (R452). -/
def Reverb.cleared (kind : RevKind) (nBuf dLen : Nat) : Reverb where
  kind := kind
  nBuf := nBuf
  dLen := dLen
  len := nBuf * dLen
  buf := []
  p := 0
  buf2 := []
  p2 := 0
  z1 := .zero
  z2 := .zero

/-- The mixer after power-on (R62, R452). `master` is unspecified there (R453): empty, DESIGN CHOICE, log entry 4. -/
def Mixer.reset : Mixer where
  rate := Config.resetOutRate
  tickCount := 0
  fadeState := .idle
  fadePos := 1
  fadeStep := 0
  fadeDone := false
  master := []
  lastErr := none
  errCount := 0

/-- The byte source with no image placed (log entry 5). -/
def Source.reset : Source := ⟨Config.resetSourceSize, []⟩

/-- No command issued, nothing queued (log entry 8). -/
def Port.reset : Port where
  cmds := []
  invocation := none
  callers := []
  pending := []
  ring := []
  heard := []
  exporting := false
  returned := []
  turns := []

/-- A block with the parameters b right after power-on (R450): the configuration registers at their reset values, then the
sequence of R452. -/
def State.powerOn (b : Config.Build) : State where
  par := b.toParams
  cfg := .powerOn b
  chans := List.replicate b.chSlots .free
  tracks := List.replicate b.nTracks .reset
  reverbs := List.replicate b.nTracks (.cleared .normal Config.resetRevNbuf.toNat b.resetRevD.toNat)
  mx := .reset
  src := .reset
  port := .reset

/-- The block right after power-on, with the default parameters of R7. -/
def State.reset : State := .powerOn .default

end Sys2Proof.Machine
end

