-- ==== Sys2Proof/Machine/Ops.lean ====
section
/-! DEFINITION. The named operations over the state: updates, slots and tracks, the rejection of a command (the block's one
error path, R411), reads of the byte source, circular buffers, and the ring buffer. -/

namespace Sys2Proof.Machine

open Sys2Proof

/-! ## Updates of one field of the state -/

/-- `cfg` replaced. -/
def State.setCfg (s : State) (x : Cfg) : State := { s with cfg := x }
/-- `chans` replaced. -/
def State.setChans (s : State) (x : List Chan) : State := { s with chans := x }
/-- `tracks` replaced. -/
def State.setTracks (s : State) (x : List Track) : State := { s with tracks := x }
/-- `reverbs` replaced. -/
def State.setReverbs (s : State) (x : List Reverb) : State := { s with reverbs := x }
/-- `mx` replaced. -/
def State.setMx (s : State) (x : Mixer) : State := { s with mx := x }
/-- `port` replaced. -/
def State.setPort (s : State) (x : Port) : State := { s with port := x }

/-! ## Slots and tracks -/

/-- `CH_SLOTS`: the number of slots there are (R7, R42). -/
def State.chSlots (s : State) : Nat := s.chans.length

/-- `N_TRACKS`: the number of tracks there are (R7, R48). -/
def State.nTracks (s : State) : Nat := s.tracks.length

/-- `ch[i]` (R10, R42). -/
def State.chan (s : State) (i : Nat) : Chan := s.chans.getD i .free

/-- `ch[i] <- c`. -/
def State.setChan (s : State) (i : Nat) (c : Chan) : State := s.setChans (s.chans.set i c)

/-- `trk[t]` (R10, R48). -/
def State.track (s : State) (t : Nat) : Track := s.tracks.getD t .reset

/-- `trk[t] <- x`. -/
def State.setTrack (s : State) (t : Nat) (x : Track) : State := s.setTracks (s.tracks.set t x)

/-- `rv[t]` (R10, R58). -/
def State.reverb (s : State) (t : Nat) : Reverb := s.reverbs.getD t (.cleared .noReverb 0 0)

/-! ## Channel type -/

/-- The variant tag of a payload (R43). -/
def Voice.type : Voice → ChType
  | .pcm _ => .pcm
  | .sq1 _ _ => .sq1
  | .sq2 _ => .sq2
  | .wave _ _ _ => .wave
  | .noise _ => .noise

/-- `ch.type` (R43). -/
def Chan.type (c : Chan) : ChType := c.voice.type

/-- Is it a PCM channel? -/
def Chan.isPcm (c : Chan) : Bool := c.type == .pcm

/-! ## Rejecting a command: the block's only error path (R411, R414) -/

/-- `min(0xFFFF, errCount + 1)` (R411). -/
def satIncr (n : BitVec 16) : BitVec 16 := if n = 0xFFFF then n else n + 1

/-- What `raise Err(code)` leaves: only LAST_ERR and ERR_COUNT change (R10, R411). -/
def reject (e : ErrCode) (s : State) : State :=
  s.setMx { s.mx with lastErr := some e, errCount := satIncr s.mx.errCount }

/-- The first failing check of a list, in its order (R412). -/
def firstError : List (Bool × ErrCode) → Option ErrCode
  | [] => none
  | (true, e) :: _ => some e
  | (false, _) :: rest => firstError rest

/-- A command with its checks: rejected with the first that fails, else it has its effect (R411, R412). -/
def checked (checks : List (Bool × ErrCode)) (s effect : State) : Host.Outcome State Fault Refusal :=
  match firstError checks with
  | some e => .next (reject e s)
  | none => .next effect

/-! ## The byte source (R80 to R85) -/

/-- The byte listed at an offset, if one is. -/
def lookupCell (off : Nat) : List Host.Cell → Option Byte
  | [] => none
  | (a, b) :: r => if a = off then some b else lookupCell off r

/-- The byte at an offset; none outside the source (R80). -/
def Source.byte (src : Source) (off : Nat) : Option Byte :=
  if off < src.size then some ((lookupCell off src.cells).getD 0) else none

/-- `validRange(off, len)` (R82). -/
def Source.validRange (src : Source) (off len : Nat) : Bool := decide (off + len ≤ src.size)

/-- `MemRead(off, n)`: n bytes, the lowest offset least significant (R81). -/
def Source.memRead (src : Source) (off : Nat) : Nat → Option Nat
  | 0 => some 0
  | n + 1 =>
    match src.byte off, src.memRead (off + 1) n with
    | some b, some hi => some (b.toNat + 256 * hi)
    | _, _ => none

/-- `sext_N(v)` of an N-bit pattern v (R8). -/
def sext (bits v : Nat) : Int := (BitVec.ofNat bits v).toInt

/-- `readU8`, `readU16`, `readU32` are `memRead` with 1, 2, 4 bytes (R81); this is `readS8`, `readS16`, `readS32`. -/
def Source.readSigned (src : Source) (off n : Nat) : Option Int := (src.memRead off n).map (sext (8 * n))

/-- A byte that playback reads. The footprint was validated at start (R86) and `MX_TICK` guards it (log entry 9), so the
offset is inside the source. -/
def Source.playByte (src : Source) (off : Nat) : Byte := (src.byte off).getD 0

/-- Canonical form: offsets strictly rising and inside the source, no byte 0 listed. -/
def Source.wf (src : Source) : Bool :=
  src.cells.all (fun c => decide (c.1 < src.size) && decide (c.2 ≠ 0)) &&
    decide ((src.cells.map Prod.fst).Pairwise (· < ·))

/-- The canonical list of the bytes bs from offset off on. -/
def cellsOfBytes (off : Nat) : List Byte → List Host.Cell
  | [] => []
  | b :: bs => if b = 0 then cellsOfBytes (off + 1) bs else (off, b) :: cellsOfBytes (off + 1) bs

/-- The byte source that holds exactly these bytes. -/
def Source.ofBytes (bs : List Byte) : Source := ⟨bs.length, cellsOfBytes 0 bs⟩

/-- The host places an image before the block runs (R455). -/
def State.withSource (s : State) (src : Source) : State := { s with src := src }

/-! ## Circular buffers (R58) -/

/-- Entry i of a circular buffer. -/
def DelayBuf.read (i : Nat) : DelayBuf → Frame
  | [] => .zero
  | (k, f) :: r => if k = i then f else DelayBuf.read i r

/-- Entry i replaced. An entry {0, 0} is not listed. -/
def DelayBuf.write (i : Nat) (f : Frame) : DelayBuf → DelayBuf
  | [] => if f.isZero then [] else [(i, f)]
  | (k, g) :: r =>
    if i < k then (if f.isZero then (k, g) :: r else (i, f) :: (k, g) :: r)
    else if k = i then (if f.isZero then r else (i, f) :: r)
    else (k, g) :: DelayBuf.write i f r

/-- Canonical form: positions strictly rising, no entry {0, 0} listed. -/
def DelayBuf.wf (b : DelayBuf) : Bool :=
  b.all (fun e => !e.2.isZero) && decide ((b.map Prod.fst).Pairwise (· < ·))

/-! ## The ring buffer (R436, R437) -/

/-- `RING_FRAMES = RING_BLOCKS × BLOCK_LEN` (R436). -/
def ringFrames : Nat := Config.ringBlocks * Config.blockLen

/-- Producer side: the frames that wait are added, in order, once all of them fit (R436). -/
def Port.flush (p : Port) : Port :=
  if p.pending = [] then p
  else if p.ring.length + p.pending.length ≤ ringFrames then { p with ring := p.ring ++ p.pending, pending := [] }
  else p

/-- Consumer side: a request for m frames takes the oldest m, or gets m frames of silence and takes nothing (R437). -/
def Port.request (m : Nat) (p : Port) : Port :=
  if m ≤ p.ring.length then { p with heard := p.ring.take m, ring := p.ring.drop m }
  else { p with heard := List.replicate m .zero }

/-- A tick's output: handed to the producer side (R369, R436), or returned to the export caller instead (R378). -/
def Port.push (frames : List Frame) (p : Port) : Port :=
  if p.exporting then { p with returned := frames } else { p with pending := p.pending ++ frames }

/-! ## Rendezvous and other agents (R430, R435) -/

/-- A free pending-invocation slot is taken by the caller that has waited longest (R435). -/
def Port.takeSlot (p : Port) : Port :=
  match p.invocation, p.callers with
  | none, w :: r => { p with invocation := some w, callers := r }
  | _, _ => p

/-- What one agent does (R430). -/
def Port.agent (turn : HostTurn) (p : Port) : Port :=
  match turn with
  | .quiet => p
  | .audio m => p.request m
  | .invoke words => { p with callers := p.callers ++ [words] }
  | .issue words => { p with cmds := p.cmds ++ words }
  | .exporting on => { p with exporting := on }

/-- The other agents' turn before a step: the producer adds what waits as soon as there is room, the next entry of `turns` is
carried out, a waiting caller takes a free slot. -/
def Port.hostTurn (p : Port) : Port :=
  match p.flush.turns with
  | [] => p.flush.takeSlot
  | turn :: rest => (({ p.flush with turns := rest }.agent turn).flush).takeSlot

/-- The render agent services the pending invocation, between two commands: its words come before the agent's own and the slot
is free again (R435). DESIGN CHOICE (log entry 8): R435 speaks of one whole command. Of an invocation whose words are several
commands, the next pending invocation may run before the rest; the words of an incomplete one take the words that follow in
the stream as their operands. -/
def Port.service (p : Port) : Port :=
  match p.invocation with
  | none => p
  | some words => { p with cmds := words ++ p.cmds, invocation := none }

/-- n words of the command stream are consumed (R122). -/
def State.consume (s : State) (n : Nat) : State := s.setPort { s.port with cmds := s.port.cmds.drop n }

end Sys2Proof.Machine
end

