-- ==== Sys2Proof/Machine/Flags.lean ====
section
/-! DEFINITION. The status flags and the status registers (R40, R41, R63). The block has no condition codes (R63). -/

namespace Sys2Proof.Machine

open Sys2Proof

/-- The number of an error code (R410). -/
def ErrCode.code : ErrCode → BitVec 8
  | .badOpcode => 0x01
  | .reserved => 0x02
  | .badSlot => 0x03
  | .slotBusy => 0x04
  | .noChannel => 0x05
  | .badTrack => 0x06
  | .badNote => 0x07
  | .badPointer => 0x08
  | .unsupportedEncoding => 0x09
  | .badLoop => 0x0A
  | .badFreq => 0x0B
  | .badCfg => 0x0C
  | .badFade => 0x0D

/-- LAST_ERR: the code of the most recent rejected command, 0 if none since RESET (R40). -/
def Mixer.lastErrCode (m : Mixer) : BitVec 8 :=
  match m.lastErr with
  | none => 0
  | some e => e.code

/-- FADE_ACTIVE: `mx.fadeState ≠ NONE` (R63). -/
def Mixer.fadeActive (m : Mixer) : Bool := m.fadeState != .idle

/-- `STATUS`: [7:0] LAST_ERR, [8] FADE_DONE, [9] FADE_ACTIVE, [15:10] 0, [31:16] ERR_COUNT (R40). -/
def State.status (s : State) : Word :=
  s.mx.errCount ++ (0 : BitVec 6) ++ BitVec.ofBool s.mx.fadeActive ++ BitVec.ofBool s.mx.fadeDone ++ s.mx.lastErrCode

/-- The bits of a list of flags, the first in bit 0. -/
def bitsOf : List Bool → Nat
  | [] => 0
  | b :: bs => b.toNat + 2 * bitsOf bs

/-- `SLOTS_LIVE`: bit s is `ch[s].live` (R41). -/
def State.slotsLive (s : State) : Word := BitVec.ofNat 32 (bitsOf (s.chans.map Chan.live))

/-- `TICK_COUNT`: `mx.tickCount mod 2^32` (R41). -/
def State.tickCount (s : State) : Word := s.mx.tickCount.extractLsb' 0 32

end Sys2Proof.Machine
end

