-- ==== Sys2Proof/Machine/Operands.lean ====
section
/-! DEFINITION. Operand forms: configuration values (R31 to R39), notes (R124 to R127), channel volume and pan (R204, R248),
the ADSR clamp (R241), and the checks that read them (R412). -/

namespace Sys2Proof.Machine

open Sys2Proof

/-! ## Register fields and their codes (R34, R35) -/

/-- The code of a resampler (R35). -/
def ResKind.code : ResKind → BitVec 3
  | .nearest => 0
  | .linear => 1
  | .cubic => 2
  | .sinc => 3
  | .blep => 4
  | .blamp => 5

/-- The resampler of a code; 6 and 7 are reserved (R35). -/
def ResKind.ofCode (c : BitVec 3) : Option ResKind :=
  match c.toNat with
  | 0 => some .nearest
  | 1 => some .linear
  | 2 => some .cubic
  | 3 => some .sinc
  | 4 => some .blep
  | 5 => some .blamp
  | _ => none

/-- The code of a reverb algorithm (R35). -/
def RevKind.code : RevKind → BitVec 3
  | .normal => 0
  | .game1 => 1
  | .game2 => 2
  | .test => 3
  | .noReverb => 4

/-- The reverb algorithm of a code; 5 to 7 are reserved (R35). -/
def RevKind.ofCode (c : BitVec 3) : Option RevKind :=
  match c.toNat with
  | 0 => some .normal
  | 1 => some .game1
  | 2 => some .game2
  | 3 => some .test
  | 4 => some .noReverb
  | _ => none

/-- The SOUNDMODE word (R34). -/
def SoundMode.pack (m : SoundMode) : Word :=
  (0 : BitVec 16) ++ BitVec.ofBool m.forcedRevEn ++ m.forcedRevVal ++ m.dacCfg ++ m.masterVol

/-- The SOUNDMODE fields of a word; none if a reserved bit is set (R34, R375). -/
def SoundMode.unpack (w : Word) : Option SoundMode :=
  if w.extractLsb' 16 16 = 0 then
    some ⟨w.extractLsb' 0 4, w.extractLsb' 4 4, w.extractLsb' 8 7, w.getLsbD 15⟩
  else none

/-- The MIXOPT word (R35). -/
def MixOpt.pack (m : MixOpt) : Word :=
  (0 : BitVec 13) ++ BitVec.ofBool m.susBug ++ BitVec.ofBool m.accCh3Vol ++ BitVec.ofBool m.accCh3Quant ++
    (0 : BitVec 3) ++ BitVec.ofBool m.cgbPoly ++ (0 : BitVec 1) ++ m.reverbType.code ++ (0 : BitVec 1) ++
    m.resFixed.code ++ (0 : BitVec 1) ++ m.resNormal.code

/-- The reserved bits of MIXOPT: [3], [7], [11], [15:13], [31:19] (R35). -/
def mixOptReserved : Word := 0xFFF8E888

/-- The MIXOPT fields of a word; none if a reserved bit or a reserved code is set (R35). -/
def MixOpt.unpack (w : Word) : Option MixOpt :=
  if w &&& mixOptReserved = 0 then
    match ResKind.ofCode (w.extractLsb' 0 3), ResKind.ofCode (w.extractLsb' 4 3), RevKind.ofCode (w.extractLsb' 8 3) with
    | some rn, some rf, some rv => some ⟨rn, rf, rv, w.getLsbD 12, w.getLsbD 16, w.getLsbD 17, w.getLsbD 18⟩
    | _, _, _ => none
  else none

/-- OUT_RATE's legal values (R32). -/
def legalOutRate (w : Word) : Bool := decide (1000 ≤ w.toNat ∧ w.toNat ≤ 384000)
/-- TICK_LEN's legal values: 1 to 65535, reserved bits 0 (R33). -/
def legalTickLen (w : Word) : Bool := decide (1 ≤ w.toNat ∧ w.toNat ≤ 65535)
/-- FIXED_RATE's legal values (R36). -/
def legalFixedRate (w : Word) : Bool := decide (1 ≤ w.toNat ∧ w.toNat ≤ 1048575)
/-- REV_NBUF's legal values: 1 to 255, reserved bits 0 (R37). -/
def legalRevNbuf (w : Word) : Bool := decide (1 ≤ w.toNat ∧ w.toNat ≤ 255)
/-- REV_D's legal values: 1 to 16777215, reserved bits 0 (R38). -/
def legalRevD (w : Word) : Bool := decide (1 ≤ w.toNat ∧ w.toNat ≤ 16777215)

/-- The register file after a write of w to register index; none if the index is not a read-write register of R31 or w is
not a legal value of it (R39, R375). -/
def Cfg.write (c : Cfg) (index : BitVec 16) (w : Word) : Option Cfg :=
  match index.toNat with
  | 0x00 => if legalOutRate w then some { c with outRate := w } else none
  | 0x01 => if legalTickLen w then some { c with tickLen := w } else none
  | 0x02 => (SoundMode.unpack w).map fun m => { c with soundmode := m }
  | 0x03 => if legalFixedRate w then some { c with fixedRate := w } else none
  | 0x04 => (MixOpt.unpack w).map fun m => { c with mixopt := m }
  | 0x05 => if legalRevNbuf w then some { c with revNbuf := w } else none
  | 0x06 => if legalRevD w then some { c with revD := w } else none
  | _ => none

/-! ## Notes (R124 to R127) -/

/-- `key > 127 or velocity > 127 or length < -1` (R124, R125). -/
def badNote (n : Note) : Bool := n.key.getLsbD 7 || n.velocity.getLsbD 7 || decide (n.length.toInt < -1)

/-- Saturation at an upper bound (R241). -/
def clampMax (v : BitVec 8) (hi : Nat) : BitVec 8 := BitVec.ofNat 8 (min v.toNat hi)

/-- `clampCGB` of W3 (R241). -/
def clampCgb (n : Note) : Note :=
  { n with
    att := clampMax n.att Config.cgbRateMax
    dec := clampMax n.dec Config.cgbRateMax
    sus := clampMax n.sus Config.cgbSusMax
    rel := clampMax n.rel Config.cgbRateMax }

/-- The record that every channel start writes (R200, R240), before `updateVol`. -/
def Chan.started (n : Note) (track : Nat) (kind : ResKind) (voice : Voice) : Chan :=
  { Chan.free with
    live := true
    track := track
    key := n.key.setWidth 7
    velocity := n.velocity.setWidth 7
    rhythmPan := n.rhythmPan
    priority := n.priority
    length := n.length
    echoVol := n.echoVol
    echoLen := n.echoLen
    att := n.att
    dec := n.dec
    sus := n.sus
    rel := n.rel
    volMR := n.volMR
    volML := n.volML
    pitch := n.pitch
    rsKind := kind
    voice := voice }

/-! ## Volume and pan (R204, R248) -/

/-- `min(255, (pan * velocity * vol) >> 14)` for a pan factor in 0..255 (R204). -/
def sideVol (pan : Int) (velocity : BitVec 7) (vol : BitVec 8) : BitVec 8 :=
  BitVec.ofNat 8 (min 255 ((pan.toNat * velocity.toNat * vol.toNat) >>> 14))

/-- `updateVol(ch)` (R204). -/
def Chan.updateVol (c : Chan) : Chan :=
  { c with
    rightVol := sideVol (c.rhythmPan.toInt + 128) c.velocity c.volMR
    leftVol := sideVol (127 - c.rhythmPan.toInt) c.velocity c.volML }

/-- The pan choice of R248 for a right and a left volume. -/
def panOf (r l : Nat) : Pan :=
  if l ≤ r then (if l ≤ r / 2 then .right else .both) else (if r ≤ l / 2 then .left else .both)

/-- `cgbPan(ch)` (R248). -/
def Chan.cgbPan (c : Chan) : Chan := { c with pan := panOf c.rightVol.toNat c.leftVol.toNat }

/-- The volume update of a channel of any type: `updateVol`, and for a tone generator `cgbPan` after it (R220, R240, R248). -/
def Chan.volumeUpdate (c : Chan) : Chan := if c.isPcm then c.updateVol else c.updateVol.cgbPan

/-! ## Check lists (R412) -/

/-- `s >= CH_SLOTS` (R200, R220). -/
def badSlot (s : State) (slot : BitVec 8) : Bool := decide (s.chSlots ≤ slot.toNat)

/-- `t >= N_TRACKS` (R200, R372). -/
def badTrack (s : State) (track : BitVec 8) : Bool := decide (s.nTracks ≤ track.toNat)

/-- The checks of a channel command: reserved bits, slot, live channel (R220 to R224). -/
def chanChecks (rsv : Bool) (slot : BitVec 8) (s : State) : List (Bool × ErrCode) :=
  [(rsv, .reserved), (badSlot s slot, .badSlot), (!(s.chan slot.toNat).live, .noChannel)]

/-- The checks that every channel start begins with: reserved bits, slot, track, busy, note (R412). -/
def startChecks (rsv : Bool) (slot track : BitVec 8) (n : Note) (s : State) : List (Bool × ErrCode) :=
  [(rsv, .reserved), (badSlot s slot, .badSlot), (badTrack s track, .badTrack),
   ((s.chan slot.toNat).live, .slotBusy), (badNote n, .badNote)]

end Sys2Proof.Machine
end

