-- ==== Sys2Proof/Machine/Envelope.lean ====
section
/-! DEFINITION. The envelope state machine and the gain targets (40_envelope.md, and R245, R249, R259). -/

namespace Sys2Proof.Machine

open Sys2Proof

/-- The position of a state in the order of R160. -/
def EnvState.rank : EnvState → Nat
  | .init => 0
  | .atk => 1
  | .dec => 2
  | .sus => 3
  | .rel => 4
  | .pseudoEcho => 5
  | .die => 6
  | .dead => 7

/-- ATK, DEC or SUS: the states a release acts on (R168). -/
def EnvState.held : EnvState → Bool
  | .atk => true
  | .dec => true
  | .sus => true
  | _ => false

/-- A channel that sounds, for the MONO policy: not DIE and not DEAD (R240). -/
def EnvState.sounding (e : EnvState) : Bool := e != .die && e != .dead

/-! ## PCM (R163, R166 to R170) -/

/-- `init_PCM` (R163). -/
def Chan.initPcm (c : Chan) : Chan :=
  if 0 < c.att.toNat then
    if Config.pcmLevelMax ≤ c.att.toNat then { c with envLevel := Config.pcmLevelMax, envState := .dec }
    else { c with envLevel := c.att.toNat, envState := .atk }
  else { c with envLevel := Config.pcmLevelMax, envState := if c.sus = 0xFF then .sus else .dec }

/-- PCM ATK (R166). -/
def Chan.atkPcm (c : Chan) : Chan :=
  if Config.pcmLevelMax ≤ c.envLevel + c.att.toNat then { c with envLevel := Config.pcmLevelMax, envState := .dec }
  else { c with envLevel := c.envLevel + c.att.toNat }

/-- PCM DEC (R167). -/
def Chan.decPcm (c : Chan) : Chan :=
  if (c.envLevel * c.dec.toNat) >>> 8 ≤ c.sus.toNat then { c with envLevel := c.sus.toNat, envState := .sus }
  else { c with envLevel := (c.envLevel * c.dec.toNat) >>> 8 }

/-- PCM REL (R170). -/
def Chan.relPcm (c : Chan) : Chan :=
  if (c.envLevel * c.rel.toNat) >>> 8 ≤ c.echoVol.toNat then
    if c.echoVol = 0 ∨ c.echoLen = 0 then { c with envState := .die }
    else { c with envLevel := c.echoVol.toNat, envState := .pseudoEcho }
  else { c with envLevel := (c.envLevel * c.rel.toNat) >>> 8 }

/-- PSEUDO_ECHO, PCM and CGB (R171, R185). -/
def Chan.echoFrame (c : Chan) : Chan :=
  { c with
    echoLen := c.echoLen - 1
    envState := if c.echoLen - 1 = 0 then .die else c.envState }

/-! ## Tone generators (R180 to R184, R245) -/

/-- `computeTargets(ch)` (R245). -/
def Chan.computeTargets (c : Chan) : Chan :=
  let peak := min Config.cgbLevelMax ((c.rightVol.toNat + c.leftVol.toNat) >>> 4)
  { c with
    envPeak := peak
    envSustain := (peak * c.sus.toNat + 15) >>> 4
    echoLevel := (c.echoVol.toNat * peak + 0xFF) >>> 8 }

/-- `init_CGB` (R180), on a channel whose targets are computed. -/
def Chan.initCgb (c : Chan) : Chan :=
  if 0 < c.att.toNat then { c with envCount := 0, susCount := 0, envState := .atk, envLevel := 0 }
  else if 0 < c.dec.toNat then { c with envCount := 0, susCount := 0, envState := .dec, envLevel := c.envPeak }
  else { c with envCount := 0, susCount := 0, envState := .sus, envLevel := c.envSustain }

/-- The level after an attack step: one up, below the peak (R181). -/
def Chan.atkLevel (c : Chan) : Nat := if c.envLevel < c.envPeak then c.envLevel + 1 else c.envLevel

/-- CGB ATK (R181). -/
def Chan.atkCgb (c : Chan) : Chan :=
  if c.att.toNat ≤ c.envCount + 1 then
    if c.envPeak ≤ c.atkLevel then
      if c.dec = 0 then { c with envCount := 0, envLevel := c.envSustain, envState := .sus }
      else { c with envCount := 0, envLevel := c.atkLevel, envState := .dec }
    else { c with envCount := 0, envLevel := c.atkLevel }
  else { c with envCount := c.envCount + 1 }

/-- The level after a decay step: one down, above the sustain target (R182). -/
def Chan.decLevel (c : Chan) : Nat := if c.envSustain < c.envLevel then c.envLevel - 1 else c.envLevel

/-- CGB DEC (R182). -/
def Chan.decCgb (c : Chan) : Chan :=
  if c.dec.toNat ≤ c.envCount + 1 then
    { c with
      envCount := 0
      envLevel := c.decLevel
      envState := if c.decLevel ≤ c.envSustain then .sus else c.envState }
  else { c with envCount := c.envCount + 1 }

/-- CGB SUS, with the sustain bug on or off (R183). -/
def Chan.susCgb (susBug : Bool) (c : Chan) : Chan :=
  if susBug = false ∨ Config.susBugN ≤ c.susCount + 1 then { c with susCount := 0, envLevel := c.envSustain }
  else { c with susCount := c.susCount + 1 }

/-- CGB REL (R184). A level of 0 stays 0. -/
def Chan.relCgb (c : Chan) : Chan :=
  if c.rel.toNat ≤ c.envCount + 1 then
    if c.envLevel - 1 ≤ c.echoLevel then
      if c.echoLevel = 0 ∨ c.echoLen = 0 then { c with envCount := 0, envLevel := c.envLevel - 1, envState := .die }
      else { c with envCount := 0, envLevel := c.echoLevel, envState := .pseudoEcho }
    else { c with envCount := 0, envLevel := c.envLevel - 1 }
  else { c with envCount := c.envCount + 1 }

/-! ## Frame update (R165, R168) -/

/-- The release transition at the head of a frame update (R168). -/
def Chan.releaseTransition (c : Chan) : Chan :=
  if c.stop && c.envState.held then
    if c.isPcm then { c with envState := .rel }
    else if c.rel = 0 then { c with envCount := 0, envState := .die }
    else { c with envCount := 0, envState := .rel }
  else c

/-- The PCM update of the state a frame finds (R166 to R171). -/
def Chan.framePcm (c : Chan) : Chan :=
  match c.envState with
  | .atk => c.atkPcm
  | .dec => c.decPcm
  | .sus => c
  | .rel => c.relPcm
  | .pseudoEcho => c.echoFrame
  | .init => c
  | .die => c
  | .dead => c

/-- The tone-generator update of the state a frame finds; in ATK, DEC and SUS the targets are computed first (R181). -/
def Chan.frameCgb (susBug : Bool) (c : Chan) : Chan :=
  match c.envState with
  | .atk => c.computeTargets.atkCgb
  | .dec => c.computeTargets.decCgb
  | .sus => c.computeTargets.susCgb susBug
  | .rel => c.relCgb
  | .pseudoEcho => c.echoFrame
  | .init => c
  | .die => c
  | .dead => c

/-- `frameUpdate(ch)` (R165). -/
def Chan.frameUpdate (susBug : Bool) (c : Chan) : Chan :=
  if c.isPcm then c.releaseTransition.framePcm else c.releaseTransition.frameCgb susBug

/-- The first step of a channel, from INIT (R161, R162). -/
def Chan.initStep (c : Chan) : Chan :=
  if c.stop then { c with envState := .dead }
  else
    { (if c.isPcm then c.initPcm else c.computeTargets.initCgb) with fromEnvLevel := 0, envInterStep := 0 }

/-- `stepEnvelope(ch)` (R161), with INTERFRAMES and the toggle MIXOPT.SUS_BUG. -/
def Chan.stepEnvelope (interframes : Nat) (susBug : Bool) (c : Chan) : Chan :=
  match c.envState with
  | .dead => c
  | .die => c
  | .init => c.initStep
  | _ =>
    if c.envInterStep + 1 < interframes then { c with envInterStep := c.envInterStep + 1 }
    else ({ c with envInterStep := 0, fromEnvLevel := c.envLevel } : Chan).frameUpdate susBug

/-! ## Envelope value and gain (R174 to R177, R249, R259) -/

/-- The volume codes of the wave channel (R259). -/
inductive VolCode where
  | mute
  | q25
  | q50
  | q75
  | q100
deriving DecidableEq, Repr

/-- The code of an envelope level (R259). -/
def volCode (level : Nat) : VolCode :=
  if level ≤ 1 then .mute
  else if level ≤ 5 then .q25
  else if level ≤ 9 then .q50
  else if level ≤ 13 then .q75
  else .q100

/-- The factor V of a code (R259). -/
def VolCode.factor : VolCode → Rat
  | .mute => 0
  | .q25 => 1 / 4
  | .q50 => 1 / 2
  | .q75 => 3 / 4
  | .q100 => 1

/-- `e_end(ch)` (R174); the wave channel in accurate-volume mode is not interpolated (R259). -/
def Chan.eEnd (interframes : Nat) (accVol : Bool) (c : Chan) : Rat :=
  if c.envState = .die then 0
  else if accVol && c.type == .wave then (c.envLevel : Rat)
  else lerp c.fromEnvLevel c.envLevel (((c.envInterStep + 1 : Nat) : Rat) / (interframes : Rat))

/-- The PCM gain of a side at envelope value e (R176). -/
def gainPcm (masterVol : BitVec 4) (e : Rat) (vol : BitVec 8) : Rat :=
  e / 256 * (((masterVol.toNat + 1 : Nat) : Rat) / 16) * ((vol.toNat : Rat) / 256)

/-- The accurate wave volume at envelope value e: the code is that of e, which is `envLevel`, and 0 in DIE (R258, R259). -/
def waveFactor (accQuant : Bool) (e : Rat) : Rat :=
  if accQuant then (if volCode e.floor.toNat = .mute then 0 else 1) else (volCode e.floor.toNat).factor

/-- `V(ch, e)` (R249). -/
def Chan.cgbFactor (accVol accQuant : Bool) (c : Chan) (e : Rat) : Rat :=
  if accVol && c.type == .wave then waveFactor accQuant e else e / 15

/-- `P_L(ch)` (R249). -/
def Pan.onLeft (p : Pan) : Rat := if p = .right then 0 else 1

/-- `P_R(ch)` (R249). -/
def Pan.onRight (p : Pan) : Rat := if p = .left then 0 else 1

/-- The parameters of the block, and what a tick fixes at its start for every channel (R360 step 2, R362). -/
structure TickArgs where
  par : Config.Params
  n : Nat
  rate : Word
  masterVol : BitVec 4
  fixedRate : Word
  accQuant : Bool
  accVol : Bool
  susBug : Bool
deriving DecidableEq, Repr

/-- The left gain target of a tick, `G_L(ch, e_end(ch))` (R175, R176, R249). -/
def Chan.gainL (a : TickArgs) (c : Chan) : Rat :=
  if c.isPcm then gainPcm a.masterVol (c.eEnd a.par.interframes a.accVol) c.leftVol
  else c.cgbFactor a.accVol a.accQuant (c.eEnd a.par.interframes a.accVol) * c.pan.onLeft * a.par.psgGain

/-- The right gain target of a tick, `G_R(ch, e_end(ch))` (R175, R176, R249). -/
def Chan.gainR (a : TickArgs) (c : Chan) : Rat :=
  if c.isPcm then gainPcm a.masterVol (c.eEnd a.par.interframes a.accVol) c.rightVol
  else c.cgbFactor a.accVol a.accQuant (c.eEnd a.par.interframes a.accVol) * c.pan.onRight * a.par.psgGain

end Sys2Proof.Machine
end

