-- ==== Sys2Proof/Machine/ChannelCommand.lean ====
section
/-! DEFINITION. The channel commands of every type (41_pcm_channel.md §5): `CH_SET_VOL`, `CH_SET_PITCH`, `CH_TICK_NOTE`,
`CH_RELEASE`, `CH_RELEASE_FAST`. -/

namespace Sys2Proof.Machine

open Sys2Proof

/-- A command that rewrites the record of one live channel (R220 to R224). -/
def onChannel (rsv : Bool) (slot : BitVec 8) (f : Chan → Chan) (s : State) : Host.Outcome State Fault Refusal :=
  checked (chanChecks rsv slot s) s (s.setChan slot.toNat (f (s.chan slot.toNat)))

/-- New track volumes, then the volume update (R220). -/
def Chan.setVol (volMR volML : BitVec 8) (c : Chan) : Chan := ({ c with volMR := volMR, volML := volML } : Chan).volumeUpdate

/-- `CH_SET_VOL` (R220). -/
def execChSetVol (slot volMR volML : BitVec 8) (s : State) : Host.Outcome State Fault Refusal :=
  onChannel false slot (Chan.setVol volMR volML) s

/-- A new pitch (R221). -/
def Chan.setPitch (pitch : BitVec 16) (c : Chan) : Chan := { c with pitch := pitch }

/-- `CH_SET_PITCH` (R221). -/
def execChSetPitch (slot : BitVec 8) (pitch : BitVec 16) (s : State) : Host.Outcome State Fault Refusal :=
  onChannel false slot (Chan.setPitch pitch) s

/-- A release is requested (R223). -/
def Chan.release (c : Chan) : Chan := { c with stop := true }

/-- The remaining length after a note tick: one less while positive (R222). -/
def Chan.nextLength (c : Chan) : BitVec 16 := if 0 < c.length.toInt then c.length - 1 else c.length

/-- A note tick (R222): a tie (−1) is untouched; else the length counts down and a length of 0 requests the release. -/
def Chan.tickNote (c : Chan) : Chan :=
  if c.length.toInt = -1 then c
  else { c with length := c.nextLength, stop := if c.nextLength = 0 then true else c.stop }

/-- `CH_TICK_NOTE` (R222). -/
def execChTickNote (slot : BitVec 8) (imm : BitVec 16) (s : State) : Host.Outcome State Fault Refusal :=
  onChannel (imm != 0) slot Chan.tickNote s

/-- `CH_RELEASE` (R223). -/
def execChRelease (slot : BitVec 8) (imm : BitVec 16) (s : State) : Host.Outcome State Fault Refusal :=
  onChannel (imm != 0) slot Chan.release s

/-- A fast release: `stop`, and DIE unless the channel is DIE or DEAD already (R224). -/
def Chan.releaseFast (c : Chan) : Chan :=
  { c with stop := true, envState := if c.envState.sounding then .die else c.envState }

/-- `CH_RELEASE_FAST` (R224). -/
def execChReleaseFast (slot : BitVec 8) (imm : BitVec 16) (s : State) : Host.Outcome State Fault Refusal :=
  onChannel (imm != 0) slot Chan.releaseFast s

end Sys2Proof.Machine
end

