-- ==== Sys2Proof/Machine/Sources.lean ====
section
/-! DEFINITION. The source sequence x_j of every channel type (R89 to R93, R210 to R213, R255 to R258, R262), the rates
(R206 to R208, R253, R254) and the sweep (R251). -/

namespace Sys2Proof.Machine

open Sys2Proof

/-! ## Sample data (R89 to R92) -/

/-- A table entry, by position. -/
def tableAt {α : Type} (table : List α) (i : Nat) (d : α) : α := table.getD i d

/-- `DPCM_LUT` (R91). -/
def dpcmLut : List Int := [0, 1, 4, 9, 16, 25, 36, 49, -64, -49, -36, -25, -16, -9, -4, -1]

/-- The nibble that step i of a DPCM block adds: low for odd i, high for even i (R90). -/
def dpcmNibble (b : Byte) (i : Nat) : Nat := if i % 2 = 1 then (b.extractLsb' 0 4).toNat else (b.extractLsb' 4 4).toNat

/-- `dec[i]` of the DPCM block at offset base, with 8-bit wrap-around (R90). -/
def dpcmDec (src : Source) (base : Nat) : Nat → BitVec 8
  | 0 => src.playByte base
  | i + 1 =>
    dpcmDec src base i +
      BitVec.ofInt 8 (tableAt dpcmLut (dpcmNibble (src.playByte (base + (1 + (i + 1) / 2))) (i + 1)) 0)

/-- `raw(j)`, the j-th decoded sample (R89, R90, R210). -/
def rawSample (src : Source) (v : PcmVoice) (j : Nat) : Int :=
  if v.mode = .dpcm then (dpcmDec src (v.dataPos.toNat + 33 * (j / 64)) (j % 64)).toInt
  else (src.playByte (v.dataPos.toNat + j)).toInt

/-- The index of the sample that plays at source index j ≥ 0, if one does (R210). -/
def playIndex (v : PcmVoice) (j : Nat) : Option Nat :=
  if j < v.endPos.toNat then some j
  else if v.loop then
    some (v.loopStart.toNat + (j - v.loopStart.toNat) % (v.endPos.toNat - v.loopStart.toNat))
  else none

/-- The source of a SAMPLE or DPCM channel (R210, R211). -/
def sampleSource (src : Source) (v : PcmVoice) (j : Int) : Rat :=
  if j < 0 then 0
  else
    match playIndex v j.toNat with
    | some k => (rawSample src v k : Rat) / 128
    | none => 0

/-- The synth sources, with C = SYNTH_CYCLE = `cycle` (R213). -/
def synthSource (cycle : Nat) (v : PcmVoice) (j : Int) : Rat :=
  if j < 0 then 0
  else
    let m := j.toNat % cycle
    let u : Rat := (m : Rat) / (cycle : Rat)
    match v.mode with
    | .synthPulse => if m * 256 < v.synthDuty.toNat * cycle then 1 else -1
    | .synthSaw => 2 * u - 1
    | _ => 1 - 4 * (if u < 1 / 2 then 1 / 2 - u else u - 1 / 2)

/-- The source of a PCM channel (R210, R213). -/
def pcmSource (cycle : Nat) (src : Source) (v : PcmVoice) (j : Int) : Rat :=
  match v.mode with
  | .sample => sampleSource src v j
  | .dpcm => sampleSource src v j
  | .synthPulse => synthSource cycle v j
  | .synthSaw => synthSource cycle v j
  | .synthTri => synthSource cycle v j

/-- The bytes a PCM channel's playback can read (R202). A synth's two bytes are read at the start only. -/
def footprint (v : PcmVoice) : Nat :=
  match v.mode with
  | .sample => v.endPos.toNat
  | .dpcm => 33 * ((v.endPos.toNat + 63) / 64)
  | _ => 2

/-! ## Pulse channels (R255) -/

/-- The duty patterns, step 0 first (R255). -/
def dutyTable : List (List Bool) :=
  [[false, false, false, false, false, false, false, true],
   [true, false, false, false, false, false, false, true],
   [true, false, false, false, false, true, true, true],
   [false, true, true, true, true, true, true, false]]

/-- The pulse source (R255). -/
def pulseSource (duty : BitVec 2) (j : Int) : Rat :=
  if j < 0 then 0
  else if tableAt (tableAt dutyTable duty.toNat []) (j.toNat % 8) false then 1 else -1

/-! ## Wavetable channel (R92, R256 to R258) -/

/-- Nibble k of the table at wavePos: the high nibble first (R92). -/
def waveNibble (src : Source) (wavePos k : Nat) : BitVec 4 :=
  if k % 2 = 0 then (src.playByte (wavePos + k / 2)).extractLsb' 4 4 else (src.playByte (wavePos + k / 2)).extractLsb' 0 4

/-- The wave table of n = WAVE_NIBBLES nibbles that a start copies (R246). -/
def waveTable (n : Nat) (src : Source) (wavePos : Nat) : List (BitVec 4) :=
  (List.range n).map (waveNibble src wavePos)

/-- The arithmetic mean of the table (R246, R256). -/
def tableMean (n : Nat) (ns : List Nat) : Rat := (ns.sum : Rat) / (n : Rat)

/-- `Q_c(n)` (R258). -/
def quantize (c : VolCode) (n : Nat) : Nat :=
  match c with
  | .mute => 0
  | .q25 => n >>> 2
  | .q50 => n >>> 1
  | .q75 => (3 * n) >>> 2
  | .q100 => n

/-- A wave source over n = WAVE_NIBBLES integer values and their mean (R257, R258). -/
def tableSource (n : Nat) (ns : List Nat) (mean : Rat) (j : Int) : Rat :=
  if j < 0 then 0 else (((tableAt ns (j.toNat % n) 0 : Nat) : Rat) - mean) / (15 / 2)

/-- The wave source (R257), or with accurate volume and quantization that of R258, by the code of the channel's level. -/
def waveSource (n : Nat) (accVol accQuant : Bool) (level : Nat) (nibbles : List (BitVec 4)) (mean : Rat) (j : Int) : Rat :=
  if accVol && accQuant then
    tableSource n (nibbles.map fun x => quantize (volCode level) x.toNat)
      (tableMean n (nibbles.map fun x => quantize (volCode level) x.toNat)) j
  else tableSource n (nibbles.map BitVec.toNat) mean j

/-! ## Noise channel (R262) -/

/-- The number w of LFSR bits (R46, R262). -/
def LfsrWidth.bits : LfsrWidth → Nat
  | .w15 => 15
  | .w7 => 7

/-- `r_{j+1}` from `r_j` (R262). -/
def lfsrNext (w r : Nat) : Nat := (r >>> 1) ||| ((r % 2 ^^^ (r >>> 1) % 2) <<< (w - 1))

/-- `r_j`, from all ones (R262). -/
def lfsrState (w : Nat) : Nat → Nat
  | 0 => 2 ^ w - 1
  | j + 1 => lfsrNext w (lfsrState w j)

/-- The noise source (R262). -/
def noiseSource (width : LfsrWidth) (j : Int) : Rat :=
  if j < 0 then 0 else if lfsrState width.bits j.toNat % 2 = 0 then 1 else -1

/-! ## The source of a channel (R290) -/

/-- x_j of a channel in a tick with the given toggles. -/
def Chan.source (a : TickArgs) (src : Source) (c : Chan) : Int → Rat :=
  match c.voice with
  | .pcm v => pcmSource a.par.synthCycle src v
  | .sq1 duty _ => pulseSource duty
  | .sq2 duty => pulseSource duty
  | .wave _ nibbles mean => waveSource a.par.waveNibbles a.accVol a.accQuant c.envLevel nibbles mean
  | .noise width => noiseSource width

/-! ## Rates (R206 to R208, R253, R254) -/

/-- `2^((key − ref) / 12 + pitch / 3072)` (R206, R253, R254). -/
def keyRatio (ref : Int) (key : BitVec 7) (pitch : BitVec 16) : Alg :=
  Alg.exp2 (256 * ((key.toNat : Int) - ref) + pitch.toInt)

/-- `rateHz(ch)` of a PCM channel (R206, R208). -/
def pcmRate (fixedRate : Word) (v : PcmVoice) (key : BitVec 7) (pitch : BitVec 16) : Alg :=
  if v.fixed then Alg.ofRat (fixedRate.toNat : Rat)
  else (keyRatio 60 key pitch).smul ((v.freq.toNat : Rat) / 1024)

/-- The tone frequency f(ch) from key and pitch (R253). -/
def toneFreq (key : BitVec 7) (pitch : BitVec 16) : Alg := (keyRatio 69 key pitch).smul 440

/-- The tone frequency of SQ1: by the sweep register while the sweep is active (R251 to R253). -/
def sq1Freq (sw : Sweep) (key : BitVec 7) (pitch : BitVec 16) : Alg :=
  if sw.active then Alg.ofRat (131072 / ((2048 : Rat) - (sw.reg : Rat))) else toneFreq key pitch

/-- The noise rate over NOISE_BASE, clamped to 4..524288 (R254). -/
def noiseRate (base : Rat) (key : BitVec 7) (pitch : BitVec 16) : Alg :=
  let r := (keyRatio 60 key pitch).smul base
  if r.ltInt 4 then Alg.ofRat 4 else if r.leInt 524288 then r else Alg.ofRat 524288

/-- Source samples per second (R206 to R208, R254). -/
def Chan.rateHz (p : Config.Params) (fixedRate : Word) (c : Chan) : Alg :=
  match c.voice with
  | .pcm v => pcmRate fixedRate v c.key c.pitch
  | .sq1 _ sw => (sq1Freq sw c.key c.pitch).smul 8
  | .sq2 _ => (toneFreq c.key c.pitch).smul 8
  | .wave _ _ _ => (toneFreq c.key c.pitch).smul (p.waveNibbles : Rat)
  | .noise _ => noiseRate p.noiseBase c.key c.pitch

/-! ## Sweep (R251) -/

/-- `time = sweep[6:4]`. -/
def sweepTime (byte : BitVec 8) : Nat := (byte.extractLsb' 4 3).toNat
/-- `dir = sweep[3]`: 0 ascends, 1 descends. -/
def sweepDown (byte : BitVec 8) : Bool := byte.getLsbD 3
/-- `shift = sweep[2:0]`. -/
def sweepShift (byte : BitVec 8) : Nat := (byte.extractLsb' 0 3).toNat

/-- The initial register: `clamp(round(2048 − 131072 / f0), 0, 2047)`, rounding half up (R251). As
f0 = 440 * 2^(e/3072), the quotient is 131072/440 * 2^(−e/3072). -/
def sweepStart (key : BitVec 7) (pitch : BitVec 16) : Nat :=
  let inv := Alg.exp2 (-(256 * ((key.toNat : Int) - 69) + pitch.toInt))
  let v := ((Alg.ofRat (2048 + 1 / 2)).sub (inv.smul (131072 / 440))).floor
  (clampInt v 0 (Config.sweepMax : Int)).toNat

/-- `sweepInit(ch)` (R251). An inactive sweep's register is never read: 0, log entry 3. -/
def sweepInit (byte : BitVec 8) (key : BitVec 7) (pitch : BitVec 16) : Sweep :=
  let active := sweepTime byte != 0 && sweepShift byte != 0
  ⟨byte, active, if active then sweepStart key pitch else 0, 0⟩

/-- One sweep step of the register (R251). -/
def sweepStep (byte : BitVec 8) (x : Nat) : Nat :=
  if sweepDown byte then x - (x >>> sweepShift byte) else min Config.sweepMax (x + (x >>> sweepShift byte))

/-- k sweep steps. -/
def sweepSteps (byte : BitVec 8) : Nat → Nat → Nat
  | 0, x => x
  | k + 1, x => sweepSteps byte k (sweepStep byte x)

/-- `sweepTick(ch)` of an SQ1 sweep (R251): the `while` loop runs ⌊acc / time⌋ times. -/
def Sweep.tick (n : Nat) (rate : Word) (sw : Sweep) : Sweep :=
  if sw.active then
    let acc := sw.acc + ((n * 128 : Nat) : Rat) / (rate.toNat : Rat)
    let k := (acc / (sweepTime sw.byte : Rat)).floor.toNat
    { sw with reg := sweepSteps sw.byte k sw.reg, acc := acc - (k : Rat) * (sweepTime sw.byte : Rat) }
  else sw

/-- `if ch.type == SQ1: sweepTick(ch)` (R260). -/
def Chan.sweepTick (a : TickArgs) (c : Chan) : Chan :=
  match c.voice with
  | .sq1 duty sw => { c with voice := .sq1 duty (sw.tick a.n a.rate) }
  | _ => c

end Sys2Proof.Machine
end

