-- ==== Sys2Proof/Machine/Resample.lean ====
section
/-! DEFINITION. The six resampler kernels (43_resamplers.md). The band-limiting weights of SINC, BLEP and BLAMP are `SReal`
constants whose real values Denote.lean gives; a weight that is exactly 0 or 1 is written so. -/

namespace Sys2Proof.Machine

open Sys2Proof

/-- NEAREST (R292). -/
def nearestAt (x : Int → Rat) (τ : Alg) : SReal := SReal.ofRat (x τ.floor)

/-- The fraction `f = τ − floor(τ)` (R290). -/
def fraction (τ : Alg) : Alg := τ.sub (Alg.ofRat (τ.floor : Rat))

/-- LINEAR (R293). -/
def linearAt (x : Int → Rat) (τ : Alg) : SReal :=
  let j := τ.floor
  .alg ((Alg.ofRat (x j)).add ((fraction τ).smul (x (j + 1) - x j)))

/-- CUBIC, Catmull-Rom (R294). -/
def cubicAt (x : Int → Rat) (τ : Alg) : SReal :=
  let j := τ.floor
  let f := fraction τ
  let p := x (j - 1)
  let q := x j
  let r := x (j + 1)
  let s := x (j + 2)
  let c3 := (f.smul (3 * (q - r) + s - p)).add (Alg.ofRat (2 * p - 5 * q + 4 * r - s))
  let c2 := (f.mul c3).add (Alg.ofRat (r - p))
  .alg ((Alg.ofRat q).add ((f.mul c2).smul (1 / 2)))

/-- `h(d)` with H = `half` (R295). At `inc ≤ 1` the cutoff is 1 and sinc vanishes at every integer but 0, where h is 1. -/
def sincWeight (half : Nat) (inc d : Alg) : SReal :=
  match d.toRat? with
  | some q => if q.den = 1 ∧ inc.leInt 1 = true then SReal.ofRat (if q = 0 then 1 else 0) else .kernSinc half inc d
  | none => .kernSinc half inc d

/-- `Hn(u)` (R296): 0 up to −H, 1 from H on. -/
def stepWeight (half : Nat) (inc u : Alg) : SReal :=
  if u.leInt (-(half : Int)) then .zero
  else if u.ltInt (half : Int) then .kernStep half inc u
  else SReal.ofRat 1

/-- `(Λ * hn)(d)` (R297). -/
def rampWeight (half : Nat) (inc d : Alg) : SReal := .kernRamp half inc d

/-- `Σ w_k` over `count` indices k from lo on. -/
def sumFrom (w : Int → SReal) (lo : Int) (count : Nat) : SReal :=
  (List.range count).foldl (fun acc (i : Nat) => acc.plus (w (lo + (i : Int)))) .zero

/-- `τ − k` for an integer k. -/
def offsetFrom (τ : Alg) (k : Int) : Alg := τ.sub (Alg.ofRat (k : Rat))

/-- SINC (R295): k from j−H+1 to j+H. -/
def sincAt (half : Nat) (x : Int → Rat) (τ inc : Alg) : SReal :=
  let lo := τ.floor - (half : Int) + 1
  (sumFrom (fun k => (sincWeight half inc (offsetFrom τ k)).smul (x k)) lo (2 * half)).over
    (sumFrom (fun k => sincWeight half inc (offsetFrom τ k)) lo (2 * half))

/-- BLEP (R296): k from j−H to j+H, weight `Hn(τ − k) − Hn(τ − k − 1)`. -/
def blepAt (half : Nat) (x : Int → Rat) (τ inc : Alg) : SReal :=
  sumFrom
    (fun k => ((stepWeight half inc (offsetFrom τ k)).minus (stepWeight half inc (offsetFrom τ (k + 1)))).smul (x k))
    (τ.floor - (half : Int)) (2 * half + 1)

/-- BLAMP (R297): the weight of x_k is 0 unless |τ − k| < H + 1, so k from j−H to j+H+1. -/
def blampAt (half : Nat) (x : Int → Rat) (τ inc : Alg) : SReal :=
  sumFrom (fun k => (rampWeight half inc (offsetFrom τ k)).smul (x k))
    (τ.floor - (half : Int)) (2 * half + 2)

/-- `F_kind(x, τ, inc)` with SINC_HALF = `half` (R291 to R297). -/
def kernelAt (half : Nat) (kind : ResKind) (x : Int → Rat) (τ inc : Alg) : SReal :=
  match kind with
  | .nearest => nearestAt x τ
  | .linear => linearAt x τ
  | .cubic => cubicAt x τ
  | .sinc => sincAt half x τ inc
  | .blep => blepAt half x τ inc
  | .blamp => blampAt half x τ inc

/-- `Resample(kind, x, t, inc, n)` (R291). -/
def resample (half : Nat) (kind : ResKind) (x : Int → Rat) (t inc : Alg) (n : Nat) : List SReal :=
  (List.range n).map fun i : Nat => kernelAt half kind x (t.add (inc.smul (i : Rat))) inc

end Sys2Proof.Machine
end

