-- ==== Sys2Proof/Machine/Channel.lean ====
section
/-! DEFINITION. `Process` of a channel within a tick (R214, R260). It is given as the channel's next record and the frames it
adds to its track's buffer. -/

namespace Sys2Proof.Machine

open Sys2Proof

/-- y[k] times the ramped gain of each side: `lerp(gFrom, gTo, k / n)` (R177). -/
def rampFrames (ys : List SReal) (fromL toL fromR toR : Rat) : List Frame :=
  mapFrom
    (fun k y =>
      ⟨y.smul (lerp fromL toL ((k : Rat) / (ys.length : Rat))), y.smul (lerp fromR toR ((k : Rat) / (ys.length : Rat)))⟩)
    0 ys

/-- A non-looping SAMPLE or DPCM channel whose source time reached its end is exhausted (R212). -/
def Chan.exhausted (c : Chan) : Bool :=
  match c.voice with
  | .pcm v => (v.mode == .sample || v.mode == .dpcm) && !v.loop && decide ((v.endPos.toNat : Int) ≤ c.t.floor)
  | _ => false

/-- The end of `Process`: DIE becomes DEAD (R172), an exhausted channel becomes DEAD (R212). -/
def Chan.afterTick (c : Chan) : Chan :=
  if c.envState = .die || c.exhausted then { c with envState := .dead } else c

/-- The sounding part of `Process`, after the envelope step: increment, gains, resampling, source time (R214, R260). -/
def Chan.render (a : TickArgs) (src : Source) (c : Chan) : Chan × List Frame :=
  let inc := (c.rateHz a.par a.fixedRate).smul (1 / (a.rate.toNat : Rat))
  let ys := resample a.par.sincHalf c.rsKind (c.source a src) c.t inc a.n
  (({ c with
      inc := inc
      t := c.t.add (inc.smul (a.n : Rat))
      lastGainL := c.gainL a
      lastGainR := c.gainR a } : Chan).afterTick,
   rampFrames ys c.lastGainL (c.gainL a) c.lastGainR (c.gainR a))

/-- `Process` (R214, R260): a channel that is DEAD after its envelope step adds nothing. -/
def Chan.process (a : TickArgs) (src : Source) (c : Chan) : Chan × List Frame :=
  if (c.stepEnvelope a.par.interframes a.susBug).envState = .dead then (c.stepEnvelope a.par.interframes a.susBug, [])
  else ((c.stepEnvelope a.par.interframes a.susBug).sweepTick a).render a src

end Sys2Proof.Machine
end

