-- ==== Sys2Proof/Machine/Reverb.lean ====
section
/-! DEFINITION. The reverb instances (44_reverb.md), frame by frame; R335's chunking gives the same result. -/

namespace Sys2Proof.Machine

open Sys2Proof

/-- I_t (R331). -/
def intensity (m : SoundMode) (rev : BitVec 7) : Rat :=
  if m.forcedRevEn then (m.forcedRevVal.toNat : Rat) / 128 else (rev.toNat : Rat) / 128

/-- `mono(u) = (u.L + u.R) / 2` (R340). -/
def mono (u : Frame) : SReal := (u.l.plus u.r).smul (1 / 2)

/-- A value added to both sides of a frame. -/
def addBoth (u : Frame) (x : SReal) : Frame := ⟨u.l.plus x, u.r.plus x⟩

/-- `rv.buf[rv.p] <- y; rv.p <- (rv.p + 1) mod rv.L` (R333, R340, R341). -/
def Reverb.store (rv : Reverb) (y : Frame) : Reverb :=
  { rv with buf := DelayBuf.write rv.p y rv.buf, p := (rv.p + 1) % rv.len }

/-- The feedback value of NORMAL: both taps, both sides, times I/4 (R333). -/
def Reverb.normalRev (i : Rat) (rv : Reverb) : SReal :=
  let a := DelayBuf.read rv.p rv.buf
  let b := DelayBuf.read ((rv.p + rv.dLen) % rv.len) rv.buf
  (((a.l.plus a.r).plus b.l).plus b.r).smul (i / 4)

/-- One frame of NORMAL (R333). -/
def Reverb.normalFrame (i : Rat) (rv : Reverb) (x : Frame) : Reverb × Frame :=
  let y := addBoth x (rv.normalRev i)
  (rv.store y, y)

/-- `Σ_i a_i * mono(buf[(p + d_i) mod len])` (R340). -/
def tapSum (buf : DelayBuf) (p len : Nat) (taps : List (Int × SReal)) : SReal :=
  taps.foldl (fun acc da => acc.plus (da.2.times (mono (DelayBuf.read (((p : Int) + da.1) % (len : Int)).toNat buf)))) .zero

/-- One frame of GAME1 or GAME2 with its coefficient set (R340). -/
def Reverb.gameFrame (g : Config.GameTaps) (i : Rat) (rv : Reverb) (x : Frame) : Reverb × Frame :=
  let r1 := tapSum rv.buf rv.p rv.len g.taps
  let r2 := tapSum rv.buf2 rv.p2 g.l2 g.taps2
  let rev := (r1.plus r2).smul i
  let y := addBoth x rev
  let z := (g.cx.times (mono x)).plus (g.cy.times rev)
  ({ rv.store y with buf2 := DelayBuf.write rv.p2 ⟨z, z⟩ rv.buf2, p2 := (rv.p2 + 1) % g.l2 }, y)

/-- One side of the biquad of TEST: the input v, the state z1 and z2; the output w and the next state (R341). -/
def biquad (k : Config.TestCoef) (v z1 z2 : SReal) : SReal × SReal × SReal :=
  let w := (k.b0.times v).plus z1
  (w, ((k.b1.times v).minus (k.a1.times w)).plus z2, (k.b2.times v).minus (k.a2.times w))

/-- One frame of TEST (R341). -/
def Reverb.testFrame (k : Config.TestCoef) (i : Rat) (rv : Reverb) (x : Frame) : Reverb × Frame :=
  let v := DelayBuf.read rv.p rv.buf
  let bl := biquad k v.l rv.z1.l rv.z2.l
  let br := biquad k v.r rv.z1.r rv.z2.r
  let y : Frame := ⟨x.l.plus (bl.1.smul i), x.r.plus (br.1.smul i)⟩
  ({ rv.store y with z1 := ⟨bl.2.1, br.2.1⟩, z2 := ⟨bl.2.2, br.2.2⟩ }, y)

/-- One frame through an instance of any kind (R333, R334, R340, R341). -/
def Reverb.frame (i : Rat) (rv : Reverb) (x : Frame) : Reverb × Frame :=
  match rv.kind with
  | .normal => rv.normalFrame i x
  | .game1 => rv.gameFrame Config.game1Taps i x
  | .game2 => rv.gameFrame Config.game2Taps i x
  | .test => rv.testFrame Config.testCoef i x
  | .noReverb => (rv, x)

/-- A track buffer through an instance, frames in order (R332, R333). -/
def Reverb.process (i : Rat) : Reverb → List Frame → Reverb × List Frame
  | rv, [] => (rv, [])
  | rv, x :: xs =>
    let step := rv.frame i x
    let rest := Reverb.process i step.1 xs
    (rest.1, step.2 :: rest.2)

end Sys2Proof.Machine
end

