-- ==== Sys2Proof/Machine/Mixer.lean ====
section
/-! DEFINITION. The render tick and the fade command (45_mixer.md §1, §2): `MX_TICK`, `MX_FADE`. -/

namespace Sys2Proof.Machine

open Sys2Proof

/-! ## The steps of a tick (R360) -/

/-- Step 2: the arguments that a tick fixes at its start (R362). -/
def State.tickArgs (s : State) : TickArgs where
  par := s.par
  n := s.cfg.tickLen.toNat
  rate := s.mx.rate
  masterVol := s.cfg.soundmode.masterVol
  fixedRate := s.cfg.fixedRate
  accQuant := s.cfg.mixopt.accCh3Quant
  accVol := s.cfg.mixopt.accCh3Vol
  susBug := s.cfg.mixopt.susBug

/-- Step 1: every track buffer is n frames of {0, 0} (R361). -/
def clearBuffers (n : Nat) (s : State) : State :=
  s.setTracks (s.tracks.map fun t => { t with buf := List.replicate n .zero })

/-- What the channels add to track t, in slot order (R363). -/
def mixInto (t : Nat) (rs : List (Chan × List Frame)) (buf : List Frame) : List Frame :=
  rs.foldl (fun b r => if r.1.track = t then addFrames b r.2 else b) buf

/-- `Process` for the live channels that `sel` selects; the others stay and add nothing. -/
def processSelected (sel : Chan → Bool) (a : TickArgs) (src : Source) (c : Chan) : Chan × List Frame :=
  if c.live && sel c then c.process a src else (c, [])

/-- Steps 3 and 5: the selected channels run and add to their tracks' buffers (R363). -/
def runChannels (sel : Chan → Bool) (a : TickArgs) (s : State) : State :=
  let rs := s.chans.map (processSelected sel a s.src)
  (s.setChans (s.chans.map fun c => (processSelected sel a s.src c).1)).setTracks
    (mapFrom (fun t trk => { trk with buf := mixInto t rs trk.buf }) 0 s.tracks)

/-- Step 4: each track's buffer goes through its reverb instance (R332). `out` lists, track by track, the instance after the
tick and the buffer. -/
def runReverbs (s : State) : State :=
  let out := mapFrom (fun t trk => (s.reverb t).process (intensity s.cfg.soundmode trk.rev) trk.buf) 0 s.tracks
  (s.setReverbs (mapFrom (fun t rv => ((out[t]?).map Prod.fst).getD rv) 0 s.reverbs)).setTracks
    (List.zipWith (fun trk o => { trk with buf := o.2 }) s.tracks out)

/-- Step 6: DEAD channels leave their slots (R366). -/
def purge (s : State) : State :=
  s.setChans (s.chans.map fun c => if c.live && c.envState == .dead then { c with live := false } else c)

/-- p1, the fade position after a tick (R367). -/
def Mixer.nextFadePos (m : Mixer) : Rat :=
  match m.fadeState with
  | .idle => m.fadePos
  | .fadeIn => min 1 (m.fadePos + m.fadeStep)
  | .fadeOut => max 0 (m.fadePos - m.fadeStep)

/-- The fade state after a tick (R367). -/
def Mixer.fadeTick (m : Mixer) : Mixer :=
  { m with
    fadePos := m.nextFadePos
    fadeState :=
      if m.fadeState = .fadeIn ∧ m.nextFadePos = 1 then .idle
      else if m.fadeState = .fadeOut ∧ m.nextFadePos = 0 then .idle
      else m.fadeState
    fadeDone := if m.fadeState = .fadeOut ∧ m.nextFadePos = 0 then true else m.fadeDone }

/-- A track buffer under the master fade from position p0 to p1, with E = FADE_EXP = `e` (R367). -/
def fadeFrames (e : Nat) (p0 p1 : Rat) (buf : List Frame) : List Frame :=
  mapFrom
    (fun k f => f.smul (lerp (ratPow p0 e) (ratPow p1 e) ((k : Rat) / (buf.length : Rat))))
    0 buf

/-- Step 7: the master fade (R367). -/
def fade (s : State) : State :=
  (s.setTracks (s.tracks.map fun t => { t with buf := fadeFrames s.par.fadeExp s.mx.fadePos s.mx.nextFadePos t.buf })).setMx s.mx.fadeTick

/-- Step 8: the sum of the unmuted tracks' buffers (R368). -/
def masterOf (n : Nat) (tracks : List Track) : List Frame :=
  tracks.foldl (fun m t => if t.mute then m else addFrames m t.buf) (List.replicate n .zero)

/-- Step 8 and the end of the tick: the master buffer, the tick count, the output (R360, R368, R369). -/
def finishTick (n : Nat) (s : State) : State :=
  let m := masterOf n s.tracks
  (s.setMx { s.mx with master := m, tickCount := s.mx.tickCount + 1 }).setPort (s.port.push m)

/-- One render tick: the steps of R360 in their order. -/
def mixTick (s : State) : State :=
  let a := s.tickArgs
  finishTick a.n
    (fade (purge (runChannels (fun c => !c.isPcm) a (runReverbs (runChannels Chan.isPcm a (clearBuffers a.n s))))))

/-! ## The guard (R86) -/

/-- A channel whose playback cannot leave the byte source: its footprint is inside it (R86, R202). -/
def Chan.playable (src : Source) (c : Chan) : Bool :=
  match c.voice with
  | .pcm v =>
    match v.mode with
    | .sample => src.validRange v.dataPos.toNat (footprint v)
    | .dpcm => src.validRange v.dataPos.toNat (footprint v)
    | _ => true
  | _ => true

/-- The data position of the first live channel whose playback could leave the byte source. -/
def firstUnplayable (src : Source) : List Chan → Option Nat
  | [] => none
  | c :: cs =>
    if c.live && !c.playable src then
      match c.voice with
      | .pcm v => some v.dataPos.toNat
      | _ => firstUnplayable src cs
    else firstUnplayable src cs

/-! ## Meanings -/

/-- `MX_TICK` (R360): E_RESERVED if A or IMM is set, else one render tick. The fault guards states that no run reaches (R86). -/
def execMxTick (a : BitVec 8) (imm : BitVec 16) (s : State) : Host.Outcome State Fault Refusal :=
  if a = 0 ∧ imm = 0 then
    match firstUnplayable s.src s.chans with
    | some off => .fault (.outsideByteSource off)
    | none => .next (mixTick s)
  else .next (reject .reserved s)

/-- The mixer after an accepted `MX_FADE` with mode and length (R370). -/
def Mixer.startFade (mode : BitVec 2) (length : Word) (m : Mixer) : Mixer :=
  if mode = 0 then { m with fadeState := .idle, fadePos := 1, fadeStep := 0, fadeDone := false }
  else if mode = 1 then
    { m with fadeState := .fadeIn, fadePos := 0, fadeStep := 1 / (length.toNat : Rat), fadeDone := false }
  else { m with fadeState := .fadeOut, fadeStep := 1 / (length.toNat : Rat), fadeDone := false }

/-- The checks of `MX_FADE` (R370). -/
def fadeChecks (a : BitVec 8) (mode : BitVec 2) (rsv : BitVec 14) (length : Word) : List (Bool × ErrCode) :=
  [(rsv != 0 || mode == 3 || a != 0, .reserved), (mode == 0 && length != 0, .badFade), (mode != 0 && length == 0, .badFade)]

/-- `MX_FADE` (R370). -/
def execMxFade (a : BitVec 8) (mode : BitVec 2) (rsv : BitVec 14) (length : Word) (s : State) :
    Host.Outcome State Fault Refusal :=
  checked (fadeChecks a mode rsv length) s (s.setMx (s.mx.startFade mode length))

end Sys2Proof.Machine
end

