-- ==== Sys2Proof/Machine/ChannelStart.lean ====
section
/-! DEFINITION. The channel starts: `CH_START_PCM` (R200 to R202, R215) and the four tone-generator starts (R240 to R250). -/

namespace Sys2Proof.Machine

open Sys2Proof

/-! ## PCM -/

/-- `loop and loopStart == 0 and end == 0`: a synth channel (R93, R201). -/
def isSynth (info : SampleInfo) : Bool := info.loop && info.loopStart == 0 && info.endPos == 0

/-- The sub-mode of a synth's first byte; other bytes are rejected before (R93, R201). -/
def synthMode (b : Byte) : PcmMode := if b = 0 then .synthPulse else if b = 1 then .synthSaw else .synthTri

/-- The mode that `selectMode` returns when it raises nothing (R201). -/
def selectMode (src : Source) (info : SampleInfo) : PcmMode :=
  if isSynth info then synthMode (src.playByte info.dataPos.toNat)
  else if info.compressed then .dpcm
  else .sample

/-- The PCM payload that a start writes (R200, R201). `synthDuty` is 0 for a channel that is no synth (log entry 3). -/
def pcmVoice (src : Source) (info : SampleInfo) : PcmVoice where
  dataPos := info.dataPos
  freq := info.freq
  loopStart := info.loopStart
  endPos := info.endPos
  loop := info.loop
  compressed := info.compressed
  fixed := info.fixed
  mode := selectMode src info
  synthDuty := if isSynth info then src.playByte (info.dataPos.toNat + 1) else 0

/-- The data checks of a PCM start: frequency (R200), then those of `selectMode`, in its order (R201, R202, R412). -/
def pcmDataChecks (src : Source) (info : SampleInfo) : List (Bool × ErrCode) :=
  [(!info.fixed && info.freq == 0, .badFreq),
   (isSynth info && info.compressed, .unsupportedEncoding),
   (isSynth info && !src.validRange info.dataPos.toNat 2, .badPointer),
   (isSynth info && decide (2 < (src.playByte info.dataPos.toNat).toNat), .unsupportedEncoding),
   (!isSynth info && info.loop && decide (info.endPos.toNat ≤ info.loopStart.toNat), .badLoop),
   (!isSynth info && !src.validRange info.dataPos.toNat (footprint (pcmVoice src info)), .badPointer)]

/-- The resampler of a PCM channel, chosen at start (R215). -/
def pcmResampler (m : MixOpt) (v : PcmVoice) : ResKind :=
  match v.mode with
  | .sample => if v.fixed then m.resFixed else m.resNormal
  | .dpcm => if v.fixed then m.resFixed else m.resNormal
  | .synthPulse => .blep
  | .synthSaw => .blep
  | .synthTri => .blamp

/-- The record of a new PCM channel (R200). -/
def newPcm (s : State) (track : BitVec 8) (n : Note) (info : SampleInfo) : Chan :=
  (Chan.started n track.toNat (pcmResampler s.cfg.mixopt (pcmVoice s.src info)) (.pcm (pcmVoice s.src info))).volumeUpdate

/-- `CH_START_PCM` (R200). -/
def execChStartPcm (slot track rsv : BitVec 8) (n : Note) (info : SampleInfo) (s : State) :
    Host.Outcome State Fault Refusal :=
  checked (startChecks (rsv != 0 || info.rsv != 0) slot track n s ++ pcmDataChecks s.src info) s
    (s.setChan slot.toNat (newPcm s track n info))

/-! ## Tone generators -/

/-- The resampler of a tone generator (R247). -/
def cgbResampler : Voice → ResKind
  | .noise _ => .nearest
  | _ => .blep

/-- The fast release of a stolen voice (R240): `stop`, and DIE. -/
def Chan.steal (c : Chan) : Chan := { c with stop := true, envState := .die }

/-- A voice that a start of type T on slot s steals: another live channel of type T that still sounds (R240). -/
def Chan.stolenBy (type : ChType) (slot u : Nat) (c : Chan) : Bool :=
  u != slot && c.live && c.type == type && c.envState.sounding

/-- The slots after the MONO policy; POLY touches none (R240, R242). -/
def stealVoices (type : ChType) (slot : Nat) (s : State) : State :=
  if s.cfg.mixopt.cgbPoly then s
  else s.setChans (mapFrom (fun u c => if c.stolenBy type slot u then c.steal else c) 0 s.chans)

/-- The record of a new tone-generator channel (R240, R241). -/
def newCgb (track : BitVec 8) (n : Note) (voice : Voice) : Chan :=
  (Chan.started (clampCgb n) track.toNat (cgbResampler voice) voice).volumeUpdate

/-- `cgbStart(T)` (R240): the common checks, the type's data checks, the MONO policy, the new record. -/
def cgbStart (rsv : Bool) (slot track : BitVec 8) (n : Note) (dataChecks : List (Bool × ErrCode)) (voice : Voice)
    (s : State) : Host.Outcome State Fault Refusal :=
  checked (startChecks rsv slot track n s ++ dataChecks) s
    ((stealVoices voice.type slot.toNat s).setChan slot.toNat (newCgb track n voice))

/-- The payload of a new SQ1 channel (R243, R251). -/
def sq1Voice (n : Note) (sweep : BitVec 8) (duty : BitVec 2) : Voice :=
  .sq1 duty (sweepInit sweep (n.key.setWidth 7) n.pitch)

/-- `CH_START_SQ1` (R243). -/
def execChStartSq1 (slot track rsv : BitVec 8) (n : Note) (sweep : BitVec 8) (duty : BitVec 2) (rsv5 : BitVec 22)
    (s : State) : Host.Outcome State Fault Refusal :=
  cgbStart (rsv != 0 || rsv5 != 0) slot track n [] (sq1Voice n sweep duty) s

/-- `CH_START_SQ2` (R244). -/
def execChStartSq2 (slot track rsv : BitVec 8) (n : Note) (duty : BitVec 2) (rsv5 : BitVec 30) (s : State) :
    Host.Outcome State Fault Refusal :=
  cgbStart (rsv != 0 || rsv5 != 0) slot track n [] (.sq2 duty) s

/-- The payload of a new WAVE channel with n = WAVE_NIBBLES: the copied table and its mean (R246). -/
def waveVoice (n : Nat) (src : Source) (wavePos : BitVec 32) : Voice :=
  .wave wavePos (waveTable n src wavePos.toNat) (tableMean n ((waveTable n src wavePos.toNat).map BitVec.toNat))

/-- `CH_START_WAVE` (R246): the table's footprint is validated (R240). -/
def execChStartWave (slot track rsv : BitVec 8) (n : Note) (wavePos : BitVec 32) (s : State) :
    Host.Outcome State Fault Refusal :=
  cgbStart (rsv != 0) slot track n [(!s.src.validRange wavePos.toNat (s.par.waveNibbles / 2), .badPointer)]
    (waveVoice s.par.waveNibbles s.src wavePos) s

/-- The LFSR width of a width7 bit (R250). -/
def lfsrWidth (width7 : Bool) : LfsrWidth := if width7 then .w7 else .w15

/-- `CH_START_NOISE` (R250). -/
def execChStartNoise (slot track rsv : BitVec 8) (n : Note) (width7 : Bool) (rsv5 : BitVec 31) (s : State) :
    Host.Outcome State Fault Refusal :=
  cgbStart (rsv != 0 || rsv5 != 0) slot track n [] (.noise (lfsrWidth width7)) s

end Sys2Proof.Machine
end

