-- ==== Sys2Proof/Machine/System.lean ====
section
/-! DEFINITION. `NOP`, `CFG_WR` and `RESET` (45_mixer.md §4, 70_reset_and_hazards.md §1), and the read port (R433). -/

namespace Sys2Proof.Machine

open Sys2Proof

/-- `NOP` (R374). -/
def execNop (a : BitVec 8) (imm : BitVec 16) (s : State) : Host.Outcome State Fault Refusal :=
  checked [(a != 0 || imm != 0, .reserved)] s s

/-- `CFG_WR` (R375): reserved bits, then the register and the value, then the write. -/
def execCfgWr (a : BitVec 8) (index : BitVec 16) (value : Word) (s : State) : Host.Outcome State Fault Refusal :=
  checked [(a != 0, .reserved), ((s.cfg.write index value).isNone, .badCfg)] s
    (s.setCfg ((s.cfg.write index value).getD s.cfg))

/-- The mixer after RESET: `mx.rate` latched, the tick count, the fade and STATUS cleared (R452). -/
def Mixer.afterReset (rate : Word) (m : Mixer) : Mixer :=
  { m with
    rate := rate
    tickCount := 0
    fadeState := .idle
    fadePos := 1
    fadeStep := 0
    fadeDone := false
    lastErr := none
    errCount := 0 }

/-- A reverb instance after RESET, with the latched kind and geometry (R330, R452). -/
def Cfg.freshReverb (c : Cfg) : Reverb := .cleared c.mixopt.reverbType c.revNbuf.toNat c.revD.toNat

/-- The sequence of R452. -/
def doReset (s : State) : State :=
  (((s.setChans (s.chans.map fun c => { c with live := false })).setTracks
    (s.tracks.map fun t => { t with mute := false, rev := 0 })).setReverbs
    (s.reverbs.map fun _ => s.cfg.freshReverb)).setMx (s.mx.afterReset s.cfg.outRate)

/-- `RESET` (R452). -/
def execReset (a : BitVec 8) (imm : BitVec 16) (s : State) : Host.Outcome State Fault Refusal :=
  checked [(a != 0 || imm != 0, .reserved)] s (doReset s)

/-! ## The read port (R31, R433): no side effect, so no command -/

/-- `READ(index)`: a register's 32-bit value; a reserved index reads 0 (R31, R433). -/
def State.readPort (s : State) (index : BitVec 16) : Word :=
  match index.toNat with
  | 0x00 => s.cfg.outRate
  | 0x01 => s.cfg.tickLen
  | 0x02 => s.cfg.soundmode.pack
  | 0x03 => s.cfg.fixedRate
  | 0x04 => s.cfg.mixopt.pack
  | 0x05 => s.cfg.revNbuf
  | 0x06 => s.cfg.revD
  | 0x10 => s.status
  | 0x11 => s.slotsLive
  | 0x12 => s.tickCount
  | _ => 0

/-- "Has the song ended": `STATUS.FADE_DONE` (R378). -/
def State.songEnded (s : State) : Bool := s.status.getLsbD 8

/-- A slot in the snapshot (R433). -/
structure SlotView where
  live : Bool
  type : ChType
  track : Nat
  key : BitVec 7
  envState : EnvState
  envLevel : Nat
deriving DecidableEq, Repr

/-- A track in the snapshot; `activeKeys` is a set: a list without repeats (R433). -/
structure TrackView where
  mute : Bool
  rev : BitVec 7
  activeKeys : List (BitVec 7)
deriving DecidableEq, Repr

/-- The snapshot: slots, tracks, the master peak of each side in the last tick, the number of live slots (R433). -/
structure Snapshot where
  slots : List SlotView
  tracks : List TrackView
  peakL : SReal
  peakR : SReal
  count : Nat
deriving DecidableEq, Repr

/-- A key is active while its channel is live and not in REL, PSEUDO_ECHO, DIE or DEAD (R433). -/
def Chan.keyActive (t : Nat) (c : Chan) : Bool :=
  c.live && decide (c.track = t) &&
    match c.envState with
    | .rel => false
    | .pseudoEcho => false
    | .die => false
    | .dead => false
    | _ => true

/-- The keys active on track t (R433). -/
def State.activeKeys (s : State) (t : Nat) : List (BitVec 7) :=
  ((s.chans.filter (Chan.keyActive t)).map Chan.key).dedup

/-- max over a list of magnitudes, 0 for none (R433). -/
def peakOf (xs : List SReal) : SReal := xs.foldl (fun m x => m.larger x.magnitude) .zero

/-- `SNAPSHOT()` (R433). -/
def State.snapshot (s : State) : Snapshot where
  slots := s.chans.map fun c => ⟨c.live, c.type, c.track, c.key, c.envState, c.envLevel⟩
  tracks := mapFrom (fun t trk => ⟨trk.mute, trk.rev, s.activeKeys t⟩) 0 s.tracks
  peakL := peakOf (s.mx.master.map Frame.l)
  peakR := peakOf (s.mx.master.map Frame.r)
  count := (s.chans.filter Chan.live).length

end Sys2Proof.Machine
end

