-- ==== Sys2Proof/Machine/Track.lean ====
section
/-! DEFINITION. The track commands (45_mixer.md §3): `TRK_MUTE`, `TRK_REVERB`. -/

namespace Sys2Proof.Machine

open Sys2Proof

/-- `TRK_MUTE` (R372). -/
def execTrkMute (track : BitVec 8) (mute : Bool) (rsv : BitVec 15) (s : State) : Host.Outcome State Fault Refusal :=
  checked [(rsv != 0, .reserved), (badTrack s track, .badTrack)] s
    (s.setTrack track.toNat { s.track track.toNat with mute := mute })

/-- `TRK_REVERB` (R373). -/
def execTrkReverb (track : BitVec 8) (intensity : BitVec 7) (rsv : BitVec 9) (s : State) :
    Host.Outcome State Fault Refusal :=
  checked [(rsv != 0, .reserved), (badTrack s track, .badTrack)] s
    (s.setTrack track.toNat { s.track track.toNat with rev := intensity })

end Sys2Proof.Machine
end

