-- ==== Sys2Proof/Machine/Dispatch.lean ====
section
/-! DEFINITION. One arm per command. -/

namespace Sys2Proof.Machine

open Sys2Proof

def exec (i : Instr) (s : State) : Host.Outcome State Fault Refusal :=
  match i with
  | .nop a imm => Sys2Proof.Machine.execNop a imm s
  | .cfgWr a index value => Sys2Proof.Machine.execCfgWr a index value s
  | .reset a imm => Sys2Proof.Machine.execReset a imm s
  | .chStartPcm slot track rsv note info => Sys2Proof.Machine.execChStartPcm slot track rsv note info s
  | .chStartSq1 slot track rsv note sweep duty rsv5 => Sys2Proof.Machine.execChStartSq1 slot track rsv note sweep duty rsv5 s
  | .chStartSq2 slot track rsv note duty rsv5 => Sys2Proof.Machine.execChStartSq2 slot track rsv note duty rsv5 s
  | .chStartWave slot track rsv note wavePos => Sys2Proof.Machine.execChStartWave slot track rsv note wavePos s
  | .chStartNoise slot track rsv note width7 rsv5 => Sys2Proof.Machine.execChStartNoise slot track rsv note width7 rsv5 s
  | .chSetVol slot volMR volML => Sys2Proof.Machine.execChSetVol slot volMR volML s
  | .chSetPitch slot pitch => Sys2Proof.Machine.execChSetPitch slot pitch s
  | .chTickNote slot imm => Sys2Proof.Machine.execChTickNote slot imm s
  | .chRelease slot imm => Sys2Proof.Machine.execChRelease slot imm s
  | .chReleaseFast slot imm => Sys2Proof.Machine.execChReleaseFast slot imm s
  | .mxTick a imm => Sys2Proof.Machine.execMxTick a imm s
  | .mxFade a mode rsv length => Sys2Proof.Machine.execMxFade a mode rsv length s
  | .trkMute track mute rsv => Sys2Proof.Machine.execTrkMute track mute rsv s
  | .trkReverb track intensity rsv => Sys2Proof.Machine.execTrkReverb track intensity rsv s

end Sys2Proof.Machine
end

