-- ==== Sys2Proof/Machine/Fetch.lean ====
section
/-! DEFINITION. Taking the next command (R100, R120, R133) and the render agent's turn (R435, R436). -/

namespace Sys2Proof.Machine

open Sys2Proof

/-- The command at the front of the stream runs, its words consumed whether or not it is rejected (R122, R411). An unknown
opcode is rejected with E_BAD_OPCODE and consumes one word (R133). A command still incomplete is left where it is. -/
def runFront (s : State) : Host.Outcome State Fault Refusal :=
  match decode s.port.cmds with
  | .instr i n => exec i (s.consume n)
  | .badOpcode => .next (reject .badOpcode (s.consume 1))
  | .incomplete => .next s

/-- The render agent's turn: it waits while frames wait (R436), else it services the rendezvous (R435) and runs a command. -/
def renderTurn (s : State) : Host.Outcome State Fault Refusal :=
  if s.port.pending = [] then runFront (s.setPort s.port.service) else .next s

/-- The command stream set to ws with nothing that would come before it. -/
def State.withCommands (s : State) (ws : List Word) : State :=
  s.setPort { s.port with cmds := ws, invocation := none, callers := [], pending := [], turns := [] }

end Sys2Proof.Machine
end

