-- ==== Sys2Proof/Machine/Step.lean ====
section
/-! DEFINITION. One step of the machine, and the placing of a command where the next step fetches. -/

namespace Sys2Proof.Machine

open Sys2Proof

/-- One step: the other agents' turn, then the render agent. While a tick's frames wait for room in the ring buffer the
render agent waits (R436). Else it services a pending invocation (R435) and takes the command at the front of the stream
(R100, R120); with no whole command there it stays idle (R443). -/
def step (s : State) : Host.Outcome State Fault Refusal := renderTurn (s.setPort s.port.hostTurn)

/-- s with the table's instruction as the command stream, and nothing that would come before it: no waiting frames, no
invocation or caller, no turn of another agent. -/
def State.withFetchWord (s : State) (nbits w : Nat) : State := s.withCommands (wordsOfBytes (tableBytes nbits w))

end Sys2Proof.Machine
end

