-- ==== Sys2Proof/Machine/Contract.lean ====
section
/-! DEFINITION. The spec's rules about whole commands, written a second time in the spec's own terms and apart from the
meanings: which error a command reports (R412), what a rejection leaves (R411), what may differ between the state before a
command and the state after it. Statements are made of these; nothing that runs uses this file. -/

namespace Sys2Proof.Machine

open Sys2Proof

/-! ## The opcode table (R123) -/

/-- Each opcode with its command's length in words, 1 + NOPS (R122, R123). -/
def opcodeTable : List (BitVec 8 × Nat) :=
  [(0x00, 1), (0x01, 2), (0x02, 1), (0x10, 10), (0x11, 6), (0x12, 6), (0x13, 6), (0x14, 6), (0x20, 1), (0x21, 1),
   (0x22, 1), (0x23, 1), (0x24, 1), (0x30, 1), (0x31, 2), (0x32, 1), (0x33, 1)]

/-! ## Which error a command reports (R133, R410, R412) -/

/-- The bits of MIXOPT that must be 0 (R35). -/
def mixOptZeroBits : List Nat := [3, 7, 11, 13, 14, 15, 19, 20, 21, 22, 23, 24, 25, 26, 27, 28, 29, 30, 31]

/-- A legal value of a read-write register, by its index; false for every other index (R31 to R38). -/
def legalValue (index : BitVec 16) (w : Word) : Bool :=
  match index.toNat with
  | 0x00 => decide (1000 ≤ w.toNat ∧ w.toNat ≤ 384000)
  | 0x01 => decide (1 ≤ w.toNat ∧ w.toNat ≤ 65535)
  | 0x02 => decide (w.toNat < 2 ^ 16)
  | 0x03 => decide (1 ≤ w.toNat ∧ w.toNat ≤ 1048575)
  | 0x04 =>
    decide (w.toNat % 8 ≤ 5 ∧ w.toNat / 2 ^ 4 % 8 ≤ 5 ∧ w.toNat / 2 ^ 8 % 8 ≤ 4) &&
      mixOptZeroBits.all fun b => !w.getLsbD b
  | 0x05 => decide (1 ≤ w.toNat ∧ w.toNat ≤ 255)
  | 0x06 => decide (1 ≤ w.toNat ∧ w.toNat ≤ 16777215)
  | _ => false

/-- Slot, track, busy, note: the checks that every channel start makes first, in this order (R200, R240, R412). -/
def startError (slot track : BitVec 8) (n : Note) (s : State) : Option ErrCode :=
  if s.chSlots ≤ slot.toNat then some .badSlot
  else if s.nTracks ≤ track.toNat then some .badTrack
  else if (s.chan slot.toNat).live = true then some .slotBusy
  else if 127 < n.key.toNat ∨ 127 < n.velocity.toNat ∨ n.length.toInt < -1 then some .badNote
  else none

/-- The bytes that a SampleInfo's playback can read, when it is no synth (R202). -/
def sampleBytes (info : SampleInfo) : Nat :=
  if info.compressed then 33 * ((info.endPos.toNat + 63) / 64) else info.endPos.toNat

/-- Is it the SampleInfo of a synth channel (R93)? -/
def SynthInfo (info : SampleInfo) : Prop := info.loop = true ∧ info.loopStart.toNat = 0 ∧ info.endPos.toNat = 0

/-- Frequency, then the checks of `selectMode`, in this order (R200, R201). -/
def sampleError (info : SampleInfo) (src : Source) : Option ErrCode :=
  if info.fixed = false ∧ info.freq.toNat = 0 then some .badFreq
  else if info.loop = true ∧ info.loopStart.toNat = 0 ∧ info.endPos.toNat = 0 then
    if info.compressed = true then some .unsupportedEncoding
    else if src.size < info.dataPos.toNat + 2 then some .badPointer
    else if 2 < (src.memRead info.dataPos.toNat 1).getD 0 then some .unsupportedEncoding
    else none
  else if info.loop = true ∧ info.endPos.toNat ≤ info.loopStart.toNat then some .badLoop
  else if src.size < info.dataPos.toNat + sampleBytes info then some .badPointer
  else none

/-- Slot, live channel: the checks of a channel command (R220 to R224). -/
def channelError (slot : BitVec 8) (s : State) : Option ErrCode :=
  if s.chSlots ≤ slot.toNat then some .badSlot
  else if (s.chan slot.toNat).live = false then some .noChannel
  else none

/-- The error that a command reports: the first failing check in the order of R412; none if it is accepted. -/
def commandError (i : Instr) (s : State) : Option ErrCode :=
  if WellFormed i = false then some .reserved
  else
    match i with
    | .nop _ _ => none
    | .cfgWr _ index value => if legalValue index value = true then none else some .badCfg
    | .reset _ _ => none
    | .chStartPcm slot track _ n info => (startError slot track n s).or (sampleError info s.src)
    | .chStartSq1 slot track _ n _ _ _ => startError slot track n s
    | .chStartSq2 slot track _ n _ _ => startError slot track n s
    | .chStartWave slot track _ n wavePos =>
      (startError slot track n s).or (if s.src.size < wavePos.toNat + s.par.waveNibbles / 2 then some .badPointer else none)
    | .chStartNoise slot track _ n _ _ => startError slot track n s
    | .chSetVol slot _ _ => channelError slot s
    | .chSetPitch slot _ => channelError slot s
    | .chTickNote slot _ => channelError slot s
    | .chRelease slot _ => channelError slot s
    | .chReleaseFast slot _ => channelError slot s
    | .mxTick _ _ => none
    | .mxFade _ mode _ length =>
      if mode = 0 ∧ length ≠ 0 then some .badFade else if mode ≠ 0 ∧ length = 0 then some .badFade else none
    | .trkMute track _ _ => if s.nTracks ≤ track.toNat then some .badTrack else none
    | .trkReverb track _ _ => if s.nTracks ≤ track.toNat then some .badTrack else none

/-- What a rejection with an error leaves: `mx.lastErr` and `mx.errCount` (R411). -/
def State.rejectedWith (e : ErrCode) (s : State) : State :=
  { s with mx := { s.mx with lastErr := some e, errCount := BitVec.ofNat 16 (min 0xFFFF (s.mx.errCount.toNat + 1)) } }

/-- The state after a command that reports err: the rejection, or its effect if it reports none. -/
def State.afterError (err : Option ErrCode) (s effect : State) : State :=
  match err with
  | some e => s.rejectedWith e
  | none => effect

/-- An error of R412 is reported by rejecting the command with it. -/
def Rejects (i : Instr) (s : State) : Prop := ∀ e, commandError i s = some e → exec i s = .next (s.rejectedWith e)

/-- k render ticks lead from s to t. -/
def TicksFrom : Nat → State → State → Prop
  | 0, s, t => t = s
  | k + 1, s, t => ∃ u, exec (.mxTick 0 0) s = .next u ∧ TicksFrom k u t

/-! ## What may differ after a command -/

/-- The byte source is untouched: every byte reads as before (R80). -/
def SameSource (s t : State) : Prop := t.src = s.src ∧ ∀ off, t.src.byte off = s.src.byte off

/-- t is s except, perhaps, in the records of the channel slots. -/
structure OnlySlots (s t : State) : Prop where
  par : t.par = s.par
  slots : t.chSlots = s.chSlots
  cfg : t.cfg = s.cfg
  tracks : t.tracks = s.tracks
  reverbs : t.reverbs = s.reverbs
  mx : t.mx = s.mx
  source : SameSource s t
  port : t.port = s.port

/-- t is s except, perhaps, in slot i. -/
structure OnlySlot (i : Nat) (s t : State) : Prop extends OnlySlots s t where
  others : ∀ u, u ≠ i → t.chan u = s.chan u

/-- t is s except, perhaps, in the mixer fields. -/
structure OnlyMixer (s t : State) : Prop where
  par : t.par = s.par
  cfg : t.cfg = s.cfg
  chans : t.chans = s.chans
  tracks : t.tracks = s.tracks
  reverbs : t.reverbs = s.reverbs
  source : SameSource s t
  port : t.port = s.port

/-- t is s except, perhaps, in the configuration registers. -/
structure OnlyCfg (s t : State) : Prop where
  par : t.par = s.par
  chans : t.chans = s.chans
  tracks : t.tracks = s.tracks
  reverbs : t.reverbs = s.reverbs
  mx : t.mx = s.mx
  source : SameSource s t
  port : t.port = s.port

/-- t is s except, perhaps, in track k. -/
structure OnlyTrack (k : Nat) (s t : State) : Prop where
  par : t.par = s.par
  count : t.nTracks = s.nTracks
  cfg : t.cfg = s.cfg
  chans : t.chans = s.chans
  reverbs : t.reverbs = s.reverbs
  mx : t.mx = s.mx
  source : SameSource s t
  port : t.port = s.port
  others : ∀ u, u ≠ k → t.track u = s.track u

/-- `min(255, (pan * velocity * vol) >> 14)` (R204), on integers. -/
def volumeRule (pan : Int) (velocity : BitVec 7) (vol : BitVec 8) : Int :=
  min 255 (pan * velocity.toNat * vol.toNat / 2 ^ 14)

/-- The channel volumes are those of R204 for the channel's own pan, velocity and track volumes. -/
def Chan.VolumesRuled (c : Chan) : Prop :=
  (c.rightVol.toNat : Int) = volumeRule (c.rhythmPan.toInt + 128) c.velocity c.volMR ∧
    (c.leftVol.toNat : Int) = volumeRule (127 - c.rhythmPan.toInt) c.velocity c.volML

/-- The pan is that of R248 for the channel's own volumes. -/
def Chan.PanRuled (c : Chan) : Prop :=
  (c.leftVol.toNat ≤ c.rightVol.toNat →
    (c.leftVol.toNat ≤ c.rightVol.toNat / 2 → c.pan = .right) ∧ (c.rightVol.toNat / 2 < c.leftVol.toNat → c.pan = .both)) ∧
  (c.rightVol.toNat < c.leftVol.toNat →
    (c.rightVol.toNat ≤ c.leftVol.toNat / 2 → c.pan = .left) ∧ (c.leftVol.toNat / 2 < c.rightVol.toNat → c.pan = .both))

/-- The record that every start writes from its operands, but for the ADSR, the payload, the resampler and the pan
(R200, R240). -/
structure Started (track : BitVec 8) (n : Note) (c : Chan) : Prop where
  live : c.live = true
  track_eq : c.track = track.toNat
  key : c.key.toNat = n.key.toNat
  velocity : c.velocity.toNat = n.velocity.toNat
  rhythmPan : c.rhythmPan = n.rhythmPan
  priority : c.priority = n.priority
  length : c.length = n.length
  echoVol : c.echoVol = n.echoVol
  echoLen : c.echoLen = n.echoLen
  volMR : c.volMR = n.volMR
  volML : c.volML = n.volML
  pitch : c.pitch = n.pitch
  volumes : c.VolumesRuled
  envState : c.envState = .init
  levels : c.envLevel = 0 ∧ c.fromEnvLevel = 0 ∧ c.envInterStep = 0
  stop : c.stop = false
  gains : c.lastGainL = 0 ∧ c.lastGainR = 0
  time : c.t = Alg.zero ∧ c.inc = Alg.zero

/-- The type, slot, track and note of a tone-generator start; none for every other command. -/
def cgbOperands : Instr → Option (ChType × BitVec 8 × BitVec 8 × Note)
  | .chStartSq1 slot track _ n _ _ _ => some (.sq1, slot, track, n)
  | .chStartSq2 slot track _ n _ _ => some (.sq2, slot, track, n)
  | .chStartWave slot track _ n _ => some (.wave, slot, track, n)
  | .chStartNoise slot track _ n _ _ => some (.noise, slot, track, n)
  | .nop _ _ => none
  | .cfgWr _ _ _ => none
  | .reset _ _ => none
  | .chStartPcm _ _ _ _ _ => none
  | .chSetVol _ _ _ => none
  | .chSetPitch _ _ => none
  | .chTickNote _ _ => none
  | .chRelease _ _ => none
  | .chReleaseFast _ _ => none
  | .mxTick _ _ => none
  | .mxFade _ _ _ _ => none
  | .trkMute _ _ _ => none
  | .trkReverb _ _ _ => none

/-- The ADSR of a tone generator: clamped (R241); its counters start at 0 (R240). -/
def Chan.ClampedFrom (n : Note) (c : Chan) : Prop :=
  c.att.toNat = min n.att.toNat 7 ∧ c.dec.toNat = min n.dec.toNat 7 ∧ c.sus.toNat = min n.sus.toNat 15 ∧
    c.rel.toNat = min n.rel.toNat 7 ∧ c.envCount = 0 ∧ c.susCount = 0

/-- What a tone-generator start of type T on slot i does to the other slots: with CGB_POLY = 0 every other sounding channel
of type T is fast-released, with CGB_POLY = 1 none is (R240, R242). -/
def Stolen (poly : Bool) (T : ChType) (i : Nat) (s t : State) : Prop :=
  ∀ u, u ≠ i →
    (poly = false ∧ (s.chan u).live = true ∧ (s.chan u).type = T ∧ (s.chan u).envState ≠ .die ∧ (s.chan u).envState ≠ .dead →
      t.chan u = { s.chan u with stop := true, envState := .die }) ∧
    (¬(poly = false ∧ (s.chan u).live = true ∧ (s.chan u).type = T ∧ (s.chan u).envState ≠ .die ∧
        (s.chan u).envState ≠ .dead) →
      t.chan u = s.chan u)

/-- The fields that no render tick writes: c' has them as c has. Of an SQ1 channel a tick writes the sweep register and the
sweep clock alone, and those only while the sweep is active (R251). -/
structure TickKeeps (c c' : Chan) : Prop where
  track : c'.track = c.track
  note : c'.key = c.key ∧ c'.velocity = c.velocity ∧ c'.rhythmPan = c.rhythmPan ∧ c'.priority = c.priority
  length : c'.length = c.length ∧ c'.echoVol = c.echoVol
  adsr : c'.att = c.att ∧ c'.dec = c.dec ∧ c'.sus = c.sus ∧ c'.rel = c.rel
  volumes : c'.volMR = c.volMR ∧ c'.volML = c.volML ∧ c'.rightVol = c.rightVol ∧ c'.leftVol = c.leftVol
  pitch : c'.pitch = c.pitch
  stop : c'.stop = c.stop
  pan : c'.pan = c.pan
  rsKind : c'.rsKind = c.rsKind
  type : c'.type = c.type
  voice : (∀ duty sw, c.voice ≠ .sq1 duty sw) → c'.voice = c.voice
  sweep : ∀ duty sw, c.voice = .sq1 duty sw →
    ∃ reg acc, c'.voice = .sq1 duty { sw with reg := reg, acc := acc } ∧ (sw.active = false → reg = sw.reg ∧ acc = sw.acc)

/-! ## Envelope value and gain, as R174, R176, R249 and R259 write them -/

/-- The envelope value at the end of a tick (R174, and R259 for the wave channel with accurate volume). -/
def envelopeRule (interframes : Nat) (accVol : Bool) (c : Chan) : Rat :=
  if c.envState = .die then 0
  else if accVol = true ∧ c.type = .wave then c.envLevel
  else c.fromEnvLevel + ((c.envLevel : Rat) - c.fromEnvLevel) * ((c.envInterStep + 1) / interframes)

/-- V of R259 by the level, 0 in DIE. -/
def waveVolumeRule (accQuant : Bool) (c : Chan) : Rat :=
  if c.envState = .die ∨ c.envLevel ≤ 1 then 0
  else if accQuant = true then 1
  else if c.envLevel ≤ 5 then 1 / 4
  else if c.envLevel ≤ 9 then 1 / 2
  else if c.envLevel ≤ 13 then 3 / 4
  else 1

/-- The gain target of a side, whose volume is `vol` and whose pan is not `away` (R176, R249). -/
def gainRule (a : TickArgs) (c : Chan) (vol : BitVec 8) (away : Pan) : Rat :=
  if c.type = .pcm then envelopeRule a.par.interframes a.accVol c / 256 * ((a.masterVol.toNat + 1) / 16) * (vol.toNat / 256)
  else
    (if a.accVol = true ∧ c.type = .wave then waveVolumeRule a.accQuant c else envelopeRule a.par.interframes a.accVol c / 15) *
      (if c.pan = away then 0 else 1) * a.par.psgGain

/-! ## Which parts of the state the rules read -/

/-- The two states agree on everything that R453 does not leave unspecified: all but the fields of free slots other than
`live`, the track buffers and the master buffer. -/
structure AgreeSpecified (s t : State) : Prop where
  par : t.par = s.par
  sizes : t.chSlots = s.chSlots ∧ t.nTracks = s.nTracks
  cfg : t.cfg = s.cfg
  slots : ∀ u, (t.chan u).live = (s.chan u).live ∧ ((s.chan u).live = true → t.chan u = s.chan u)
  tracks : ∀ k, (t.track k).mute = (s.track k).mute ∧ (t.track k).rev = (s.track k).rev
  reverbs : t.reverbs = s.reverbs
  mx : { t.mx with master := [] } = { s.mx with master := [] }
  src : t.src = s.src
  port : t.port = s.port

/-- The two states agree but for their mute flags and the output that depends on them. -/
structure AgreeButMute (s t : State) : Prop where
  par : t.par = s.par
  count : t.nTracks = s.nTracks
  cfg : t.cfg = s.cfg
  chans : t.chans = s.chans
  tracks : ∀ k, (t.track k).rev = (s.track k).rev ∧ (t.track k).buf = (s.track k).buf
  reverbs : t.reverbs = s.reverbs
  mx : { t.mx with master := [] } = { s.mx with master := [] }
  src : t.src = s.src

/-- s with the export path on or off (R378). -/
def State.withExport (on : Bool) (s : State) : State := { s with port := { s.port with exporting := on } }

/-- s with another DAC configuration field (R34, R377). -/
def State.withDac (d : BitVec 4) (s : State) : State :=
  { s with cfg := { s.cfg with soundmode := { s.cfg.soundmode with dacCfg := d } } }

/-- The two states agree on all that the reverb instances can see: everything but the tone-generator slots, and of the
mixer only the rate. -/
structure AgreeOnPcm (s t : State) : Prop where
  par : t.par = s.par
  sizes : t.chSlots = s.chSlots ∧ t.nTracks = s.nTracks
  cfg : t.cfg = s.cfg
  pcm : ∀ u, ((s.chan u).live = true ∧ (s.chan u).type = .pcm) ∨ ((t.chan u).live = true ∧ (t.chan u).type = .pcm) →
    t.chan u = s.chan u
  rev : ∀ k, (t.track k).rev = (s.track k).rev
  reverbs : t.reverbs = s.reverbs
  rate : t.mx.rate = s.mx.rate
  src : t.src = s.src

/-! ## What a step delivers, produces and runs (R378, R436, R437) -/

/-- The frames that the audio agent takes in the step from s: the oldest m if its turn asks for m and they are there. -/
def State.delivered (s : State) : List Frame :=
  match s.port.turns with
  | .audio m :: _ => if m ≤ s.port.flush.ring.length then s.port.flush.ring.take m else []
  | _ => []

/-- What the audio agent has received last, after the step from s: m frames of silence if m are not there. -/
def State.heardNext (s : State) : List Frame :=
  match s.port.turns with
  | .audio m :: _ => if m ≤ s.port.flush.ring.length then s.port.flush.ring.take m else List.replicate m .zero
  | _ => s.port.heard

/-- The command that the step from s runs, if it runs one. -/
def State.commandOfStep (s : State) : Option Instr :=
  if s.port.hostTurn.pending = [] then
    match decode s.port.hostTurn.service.cmds with
    | .instr i _ => some i
    | .badOpcode => none
    | .incomplete => none
  else none

end Sys2Proof.Machine
end

