-- ==== Sys2Proof/Machine/Denote.lean ====
section
/-! DEFINITION. The real number that each `Alg` and each `SReal` denotes: the spec's formulas of R295 to R297, written on
Mathlib's reals. Nothing that runs uses this file; statements about sample values do. -/

namespace Sys2Proof

open scoped Real

/-- Σ q * 2^(k/3072). -/
noncomputable def Alg.toReal (a : Alg) : ℝ :=
  (a.terms.map fun kq => (kq.2 : ℝ) * (2 : ℝ) ^ ((kq.1 : ℝ) / 3072)).sum

/-- The real number of the n-th coefficient symbol: open, as GAME1_TAPS, GAME2_TAPS and TEST_COEF are (R7, log entry 6). -/
opaque Config.coefValue : Nat → ℝ

/-- The cutoff `c = min(1, 1 / inc)` (R295). -/
noncomputable def kernelCutoff (inc : ℝ) : ℝ := min 1 (1 / inc)

/-- `sinc(z)` (R295). -/
noncomputable def sincFn (z : ℝ) : ℝ := if z = 0 then 1 else Real.sin (π * z) / (π * z)

/-- `win(v)`, the Blackman window (R295). -/
noncomputable def windowFn (v : ℝ) : ℝ :=
  if |v| < 1 then 0.42 + 0.5 * Real.cos (π * v) + 0.08 * Real.cos (2 * π * v) else 0

/-- `h(d) = c * sinc(c * d) * win(d / H)` with H = SINC_HALF = `half` (R295). -/
noncomputable def kernelH (half : Nat) (inc d : ℝ) : ℝ :=
  kernelCutoff inc * sincFn (kernelCutoff inc * d) * windowFn (d / half)

/-- `∫_{−H}^{H} h` (R296). -/
noncomputable def kernelMass (half : Nat) (inc : ℝ) : ℝ := ∫ v in (-(half : ℝ))..half, kernelH half inc v

/-- `Hn(u)`, the band-limited step (R296). -/
noncomputable def kernelHn (half : Nat) (inc u : ℝ) : ℝ :=
  if u < -(half : ℝ) then 0
  else if (half : ℝ) < u then 1
  else (∫ v in (-(half : ℝ))..u, kernelH half inc v) / kernelMass half inc

/-- `(Λ * hn)(d)` with the unit triangle `Λ(u) = max(0, 1 − |u|)` (R297). -/
noncomputable def kernelTri (half : Nat) (inc d : ℝ) : ℝ :=
  (∫ v in (-(half : ℝ))..half, max 0 (1 - |d - v|) * kernelH half inc v) / kernelMass half inc

/-- The real number a sample stands for. -/
noncomputable def SReal.toReal : SReal → ℝ
  | .alg a => a.toReal
  | .coef n => Config.coefValue n
  | .kernSinc half inc d => kernelH half inc.toReal d.toReal
  | .kernStep half inc u => kernelHn half inc.toReal u.toReal
  | .kernRamp half inc d => kernelTri half inc.toReal d.toReal
  | .add a b => a.toReal + b.toReal
  | .mul a b => a.toReal * b.toReal
  | .div a b => a.toReal / b.toReal
  | .mag a => |a.toReal|
  | .sup a b => max a.toReal b.toReal

end Sys2Proof
end

