-- ==== Sys2Proof/Safety.lean ====
section
/-! DEFINITION. What counts as a good state and a safe run: the predicates that statements about every step are made of. -/

namespace Sys2Proof.Machine

open Sys2Proof

/-- A step that does not stop the machine. -/
def stepsOn (o : Host.Outcome State Fault Refusal) : Prop := ∃ t, o = .next t

/-- Every live channel's sample footprint is inside the byte source (R86, R202). -/
def State.FootprintsValid (s : State) : Prop := ∀ c ∈ s.chans, c.live = true → c.playable s.src = true

/-- Every configuration register holds a legal value (R32 to R39), and so does the latched rate (R62). -/
def State.CfgLegal (s : State) : Prop :=
  legalOutRate s.cfg.outRate = true ∧ legalTickLen s.cfg.tickLen = true ∧ legalFixedRate s.cfg.fixedRate = true ∧
    legalRevNbuf s.cfg.revNbuf = true ∧ legalRevD s.cfg.revD = true ∧ legalOutRate s.mx.rate = true

/-- The level range of a channel's type: 0..0xFF for PCM, 0..0xF for a tone generator (R44). -/
def Chan.levelMax (c : Chan) : Nat := if c.isPcm then Config.pcmLevelMax else Config.cgbLevelMax

/-- The ranges of a tone generator's fields: the clamped ADSR (R241), the counters and targets (R44). -/
def Chan.CgbBounded (c : Chan) : Prop :=
  c.att.toNat ≤ 7 ∧ c.dec.toNat ≤ 7 ∧ c.sus.toNat ≤ 15 ∧ c.rel.toNat ≤ 7 ∧
    c.envCount < 7 ∧ c.susCount < Config.susBugN ∧ c.envPeak ≤ 15 ∧ c.envSustain ≤ 15 ∧ c.echoLevel ≤ 15

/-- What a start guarantees of a payload and a tick keeps: the sweep register in 0..2047, its clock not negative, an active
sweep with a time (R46, R251); a rate for every PCM channel and loops that end after their start (R200, R201); WAVE_NIBBLES
nibbles in a wave table (R246). -/
def Voice.Sound (p : Config.Params) : Voice → Prop
  | .pcm v =>
    (v.fixed = false → v.freq ≠ 0) ∧
      (v.mode = .sample ∨ v.mode = .dpcm → v.loop = true → v.loopStart.toNat < v.endPos.toNat)
  | .sq1 _ sw => sw.reg ≤ Config.sweepMax ∧ 0 ≤ sw.acc ∧ (sw.active = true → sweepTime sw.byte ≠ 0)
  | .sq2 _ => True
  | .wave _ nibbles _ => nibbles.length = p.waveNibbles
  | .noise _ => True

/-- The ranges of a live channel's fields, in a block with these parameters and tracks (R43, R44). -/
def Chan.Bounded (p : Config.Params) (nTracks : Nat) (c : Chan) : Prop :=
  c.track < nTracks ∧ c.envLevel ≤ c.levelMax ∧ c.fromEnvLevel ≤ c.levelMax ∧
    c.envInterStep < p.interframes ∧ (c.isPcm = false → c.CgbBounded) ∧ c.voice.Sound p ∧
    0 ≤ c.lastGainL ∧ 0 ≤ c.lastGainR ∧
    (c.envState = .pseudoEcho → c.echoLen ≠ 0)

/-- Every live channel is in its ranges. -/
def State.ChansBounded (s : State) : Prop := ∀ c ∈ s.chans, c.live = true → c.Bounded s.par s.nTracks

/-- No live channel is DEAD: DEAD channels leave in the tick in which they died (R366). -/
def State.NoDeadLive (s : State) : Prop := ∀ c ∈ s.chans, c.live = true → c.envState ≠ .dead

/-- The length L2 of the second buffer of a kind: GAME1 and GAME2 by their coefficient sets (R58, R340); TEST has one too
(R58), of open length, because R341 gives none (DESIGN CHOICE, log entry 6); NORMAL and NONE have none (R58). -/
def RevKind.l2 : RevKind → Nat
  | .normal => 0
  | .game1 => Config.game1Taps.l2
  | .game2 => Config.game2Taps.l2
  | .test => Config.testL2
  | .noReverb => 0

/-- A reverb instance in its geometry: L = N × D > 0, positions inside the buffers, the buffers in canonical form (R58, R340). A
kind without a second buffer leaves it empty, at position 0; so does TEST, if its open length is 0. -/
def Reverb.Bounded (rv : Reverb) : Prop :=
  rv.len = rv.nBuf * rv.dLen ∧ rv.p < rv.len ∧ DelayBuf.wf rv.buf = true ∧ (∀ e ∈ rv.buf, e.1 < rv.len) ∧
    DelayBuf.wf rv.buf2 = true ∧ (∀ e ∈ rv.buf2, e.1 < rv.kind.l2) ∧ (rv.p2 < rv.kind.l2 ∨ rv.p2 = 0)

/-- Every reverb instance is in its geometry. -/
def State.ReverbsBounded (s : State) : Prop := ∀ rv ∈ s.reverbs, rv.Bounded

/-- The fade position is in [0, 1] and the step is not negative (R62). -/
def State.FadeBounded (s : State) : Prop := 0 ≤ s.mx.fadePos ∧ s.mx.fadePos ≤ 1 ∧ 0 ≤ s.mx.fadeStep

/-- The source time of every live channel is in canonical form. -/
def State.TimesCanonical (s : State) : Prop := ∀ c ∈ s.chans, c.live = true → c.t.wf = true

/-- The block was built with legal parameters: CH_SLOTS at most 32, a reverb instance for every track (R41, R58, R7). -/
def State.Built (s : State) : Prop := s.par.Legal ∧ s.chSlots ≤ 32 ∧ s.reverbs.length = s.nTracks

/-- All of these. -/
structure State.Inv (s : State) : Prop where
  built : s.Built
  footprints : s.FootprintsValid
  cfg : s.CfgLegal
  chans : s.ChansBounded
  noDead : s.NoDeadLive
  reverbs : s.ReverbsBounded
  fade : s.FadeBounded
  times : s.TimesCanonical
  source : s.src.wf = true

/-- The queue never holds more than RING_FRAMES frames (R436). -/
def State.RingBounded (s : State) : Prop := s.port.ring.length ≤ ringFrames

/-- Two states with the same slots, tracks, reverb instances, mixer and registers: what a wait must keep (R436). -/
def State.SameBlock (s t : State) : Prop :=
  t.par = s.par ∧ t.cfg = s.cfg ∧ t.chans = s.chans ∧ t.tracks = s.tracks ∧ t.reverbs = s.reverbs ∧ t.mx = s.mx ∧ t.src = s.src

end Sys2Proof.Machine
end

