-- ==== Sys2Proof/Certificates/Slice0/Obligations.lean ====
section
/-! DEFINITION. The statements about the block, in the order of OBLIGATIONS.json. Each docstring names the rules it states. -/

open Sys2Proof Sys2Proof.Machine

/-! ## Encoding -/

/-- R120 to R132: the words of any command, followed by anything, decode to that command with every operand bit, and so do
its bytes stored little-endian; its length is that of its opcode. -/
def Obligations.DecodeInvertsEncode : Prop :=
  ∀ (i : Instr) (rest : List Word) (tail : List Byte),
    decode (encode i ++ rest) = .instr i (encode i).length ∧ (encode i).length = commandLength (opcodeOf i) ∧
      wordsOfBytes (encodeBytes i ++ tail) = encode i ++ wordsOfBytes tail ∧
      decodeBytes (encodeBytes i ++ tail) = .instr i (encode i).length

/-- The other direction: what decodes to a command of length n begins with that command's own n words. -/
def Obligations.EncodeInvertsDecode : Prop :=
  ∀ (ws : List Word) (i : Instr) (n : Nat),
    decode ws = .instr i n → n ≤ ws.length ∧ ws.take n = encode i ∧ n = (encode i).length

/-- R122: the opcode alone fixes the length; an opcode not in the table is refused. That a command short of words is
`incomplete`, and so waits, is the model's reading: log entry 15 (DEDUCED). -/
def Obligations.LengthByOpcodeAlone : Prop :=
  ∀ (h : Word) (ops : List Word),
    (∀ p ∈ opcodeTable, h.extractLsb' 24 8 = p.1 →
      commandLength p.1 = p.2 ∧
      (ops.length + 1 < p.2 → decode (h :: ops) = .incomplete) ∧
      (p.2 ≤ ops.length + 1 → ∃ i, decode (h :: ops) = .instr i p.2 ∧ opcodeOf i = p.1)) ∧
    ((∀ p ∈ opcodeTable, h.extractLsb' 24 8 ≠ p.1) →
      decode (h :: ops) = .badOpcode ∧ commandLength (h.extractLsb' 24 8) = 1)

/-- Words of the spec's vector V1, written out from R121 to R131, decode to the commands they stand for. -/
def Obligations.SampleWordsDecode : Prop :=
  decode [0x00000000] = .instr (.nop 0 0) 1 ∧
  decode [0x01000004, 0x00070011] = .instr (.cfgWr 0 4 0x00070011) 2 ∧
  decode [0x32030001] = .instr (.trkMute 3 true 0) 1 ∧
  decode [0x33000040] = .instr (.trkReverb 0 64 0) 1 ∧
  decode [0x2100FF00] = .instr (.chSetPitch 0 0xFF00) 1 ∧
  decode [0x31000002, 0x00000004] = .instr (.mxFade 0 2 0 4) 2 ∧
  decode [0x11010001, 0x00007F2D, 0x0000FFFF, 0x000F0000, 0x00007F7F, 0x00000232] =
    .instr (.chStartSq1 1 1 0 ⟨45, 127, 0, 0, 0xFFFF, 0, 0, 0, 0, 15, 0, 127, 127, 0⟩ 0x32 2 0) 6

/-! ## Rejection and status -/

/-- R133: an opcode of no row is rejected with E_BAD_OPCODE and consumes one word; a command with a reserved field set is
rejected with E_RESERVED and consumes its full length; the opcodes of no row are the four ranges that R133 lists. -/
def Obligations.IllegalEncodingsRejected : Prop :=
  (∀ (s : State) (h : Word) (ops : List Word),
    s.port.cmds = h :: ops → (∀ p ∈ opcodeTable, h.extractLsb' 24 8 ≠ p.1) →
      runFront s = .next ((s.rejectedWith .badOpcode).consume 1)) ∧
  (∀ (s : State) (i : Instr) (n : Nat),
    decode s.port.cmds = .instr i n → WellFormed i = false →
      runFront s = .next ((s.rejectedWith .reserved).consume n) ∧ n = (encode i).length) ∧
  (∀ opc : BitVec 8,
    (∀ p ∈ opcodeTable, opc ≠ p.1) ↔
      (0x03 ≤ opc.toNat ∧ opc.toNat ≤ 0x0F) ∨ (0x15 ≤ opc.toNat ∧ opc.toNat ≤ 0x1F) ∨
        (0x25 ≤ opc.toNat ∧ opc.toNat ≤ 0x2F) ∨ 0x34 ≤ opc.toNat)

/-- R411: a rejected command changes LAST_ERR and ERR_COUNT and nothing else, and consumes its full length; an accepted one
(RESET apart, which clears them by R452) changes neither. `commandError` is the first failing check in the order of R412. -/
def Obligations.RejectionChangesOnlyStatus : Prop :=
  ∀ (i : Instr) (s : State),
    Rejects i s ∧
    (∀ n e, decode s.port.cmds = .instr i n → commandError i s = some e →
      runFront s = .next ((s.rejectedWith e).consume n)) ∧
    (commandError i s = none → (∀ a imm, i ≠ .reset a imm) → ∀ t, exec i s = .next t →
      t.mx.lastErr = s.mx.lastErr ∧ t.mx.errCount = s.mx.errCount)

/-- R40, R41, R410, R433: what the read port and the snapshot show. The model's choice, log entry 16 (DEDUCED): the snapshot
gives the stored fields of free slots as they stand, and the active keys as a list without repeats. -/
def Obligations.ReadPortAndSnapshot : Prop :=
  ∀ s : State,
    (s.readPort 0x10).toNat =
      s.mx.errCount.toNat * 2 ^ 16 + (if s.mx.fadeState ≠ .idle then 2 ^ 9 else 0) +
        (if s.mx.fadeDone = true then 2 ^ 8 else 0) +
        (match s.mx.lastErr with
          | none => 0
          | some .badOpcode => 0x01
          | some .reserved => 0x02
          | some .badSlot => 0x03
          | some .slotBusy => 0x04
          | some .noChannel => 0x05
          | some .badTrack => 0x06
          | some .badNote => 0x07
          | some .badPointer => 0x08
          | some .unsupportedEncoding => 0x09
          | some .badLoop => 0x0A
          | some .badFreq => 0x0B
          | some .badCfg => 0x0C
          | some .badFade => 0x0D) ∧
    (∀ u, u < 32 → (s.readPort 0x11).getLsbD u = (s.chan u).live) ∧
    (s.readPort 0x12).toNat = s.mx.tickCount.toNat % 2 ^ 32 ∧
    (∀ index : BitVec 16, index ∉ [0x00, 0x01, 0x02, 0x03, 0x04, 0x05, 0x06, 0x10, 0x11, 0x12] → s.readPort index = 0) ∧
    s.snapshot.slots.length = s.chSlots ∧ s.snapshot.tracks.length = s.nTracks ∧
    (∀ u, u < s.chSlots → s.snapshot.slots[u]? =
      some ⟨(s.chan u).live, (s.chan u).type, (s.chan u).track, (s.chan u).key, (s.chan u).envState, (s.chan u).envLevel⟩) ∧
    (∀ k, k < s.nTracks → ∃ v, s.snapshot.tracks[k]? = some v ∧ v.mute = (s.track k).mute ∧ v.rev = (s.track k).rev ∧
      v.activeKeys.Nodup ∧
      ∀ key, key ∈ v.activeKeys ↔
        ∃ u, u < s.chSlots ∧ (s.chan u).live = true ∧ (s.chan u).track = k ∧ (s.chan u).key = key ∧
          (s.chan u).envState ∉ [.rel, .pseudoEcho, .die, .dead]) ∧
    (∀ f ∈ s.mx.master, |f.l.toReal| ≤ s.snapshot.peakL.toReal ∧ |f.r.toReal| ≤ s.snapshot.peakR.toReal) ∧
    (s.mx.master ≠ [] →
      (∃ f ∈ s.mx.master, s.snapshot.peakL.toReal = |f.l.toReal|) ∧
      (∃ f ∈ s.mx.master, s.snapshot.peakR.toReal = |f.r.toReal|)) ∧
    s.snapshot.count = ((List.range s.chSlots).filter fun u => (s.chan u).live).length

/-! ## Reset -/

/-- R450, R32 to R38: after power-on every register reads its reset value, and the RESET sequence has been performed: doing
it again changes nothing. That holds of a block with any parameters of R7 (log entry 11), whose CH_SLOTS and N_TRACKS are the
numbers of its slots and tracks; the values here are those of the default parameters. -/
def Obligations.PowerOnState : Prop :=
  State.reset.readPort 0x00 = 48000 ∧ State.reset.readPort 0x01 = 200 ∧ State.reset.readPort 0x02 = 0x0000000F ∧
  State.reset.readPort 0x03 = 13379 ∧ State.reset.readPort 0x04 = 0x00070011 ∧ State.reset.readPort 0x05 = 7 ∧
  State.reset.readPort 0x06 = 800 ∧ State.reset.readPort 0x10 = 0 ∧ State.reset.readPort 0x11 = 0 ∧
  State.reset.readPort 0x12 = 0 ∧ State.reset.chSlots = 32 ∧ State.reset.nTracks = 16 ∧
  ∀ b : Config.Build,
    exec (.reset 0 0) (.powerOn b) = .next (.powerOn b) ∧
    (State.powerOn b).chSlots = b.chSlots ∧ (State.powerOn b).nTracks = b.nTracks

/-- R452: the RESET sequence, and E_RESERVED if A or IMM is set. -/
def Obligations.ResetSequence : Prop :=
  ∀ (a : BitVec 8) (imm : BitVec 16) (s : State),
    Rejects (.reset a imm) s ∧ (a ≠ 0 ∨ imm ≠ 0 → commandError (.reset a imm) s = some .reserved) ∧
    ∃ t, exec (.reset 0 0) s = .next t ∧ t.par = s.par ∧ t.chSlots = s.chSlots ∧ t.nTracks = s.nTracks ∧
      t.reverbs.length = s.reverbs.length ∧ t.cfg = s.cfg ∧ t.port = s.port ∧ SameSource s t ∧
      t.mx.rate = s.cfg.outRate ∧
      (∀ u, (t.chan u).live = false) ∧
      (∀ k, (t.track k).mute = false ∧ (t.track k).rev = 0) ∧
      (∀ k, k < s.reverbs.length →
        (t.reverb k).kind = s.cfg.mixopt.reverbType ∧ (t.reverb k).nBuf = s.cfg.revNbuf.toNat ∧
        (t.reverb k).dLen = s.cfg.revD.toNat ∧ (t.reverb k).len = s.cfg.revNbuf.toNat * s.cfg.revD.toNat ∧
        (∀ j, DelayBuf.read j (t.reverb k).buf = Frame.zero) ∧ (t.reverb k).p = 0 ∧
        (∀ j, DelayBuf.read j (t.reverb k).buf2 = Frame.zero) ∧ (t.reverb k).p2 = 0 ∧
        (t.reverb k).z1 = Frame.zero ∧ (t.reverb k).z2 = Frame.zero) ∧
      t.mx.tickCount = 0 ∧ t.mx.fadeState = .idle ∧ t.mx.fadePos = 1 ∧ t.mx.fadeStep = 0 ∧ t.mx.fadeDone = false ∧
      t.mx.lastErr = none ∧ t.mx.errCount = 0

/-- R454: what RESET leaves depends on the configuration registers alone: two states of one block (its parameters, slots,
tracks and instances) that share them (and what is outside the block: the byte source and the host side) agree after RESET
on all that R453 does not leave unspecified. -/
def Obligations.ResetDependsOnConfigurationOnly : Prop :=
  ∀ s s' t t' : State,
    s'.par = s.par → s'.chSlots = s.chSlots → s'.nTracks = s.nTracks → s'.reverbs.length = s.reverbs.length →
    s'.cfg = s.cfg → s'.src = s.src → s'.port = s.port → exec (.reset 0 0) s = .next t → exec (.reset 0 0) s' = .next t' →
      AgreeSpecified t t'

/-- R453: no rule reads an unspecified value. Two states that agree on all the rest agree after every command, and a render
tick gives the same output in both. -/
def Obligations.NoRuleReadsUnspecified : Prop :=
  ∀ (i : Instr) (s s' t : State),
    AgreeSpecified s s' → exec i s = .next t →
      ∃ t', exec i s' = .next t' ∧ AgreeSpecified t t' ∧
        (∀ a imm, i = .mxTick a imm → commandError i s = none → t'.mx.master = t.mx.master ∧ t'.tracks = t.tracks)

/-! ## NOP and configuration -/

/-- R374: NOP with A and IMM 0 changes no state; else it is rejected with E_RESERVED. -/
def Obligations.NopChangesNothing : Prop :=
  ∀ (a : BitVec 8) (imm : BitVec 16) (s : State),
    exec (.nop 0 0) s = .next s ∧ (a ≠ 0 ∨ imm ≠ 0 → exec (.nop a imm) s = .next (s.rejectedWith .reserved))

/-- R375, R39: CFG_WR stores a legal value in the register it names, which reads back at once; every other register and all
other state stays; an illegal index or value is rejected with E_BAD_CFG, and a set A with E_RESERVED. -/
def Obligations.CfgWrStoresOneRegister : Prop :=
  ∀ (index : BitVec 16) (w : Word) (s : State),
    (legalValue index w = true →
      ∃ t, exec (.cfgWr 0 index w) s = .next t ∧ t.readPort index = w ∧
        (∀ j, j ≠ index → t.readPort j = s.readPort j) ∧ OnlyCfg s t) ∧
    (legalValue index w = false → exec (.cfgWr 0 index w) s = .next (s.rejectedWith .badCfg)) ∧
    (∀ a : BitVec 8, a ≠ 0 → exec (.cfgWr a index w) s = .next (s.rejectedWith .reserved))

/-- R377: the DAC configuration is stored and read back, and no command does anything else with it: with any other value of
it, every command gives the same state but for that field. -/
def Obligations.DacConfigurationHasNoEffect : Prop :=
  ∀ (i : Instr) (s t : State) (d : BitVec 4),
    (s.readPort 0x02).extractLsb' 4 4 = s.cfg.soundmode.dacCfg ∧
      (exec i s = .next t → ∃ d', exec i (s.withDac d) = .next (t.withDac d'))

/-! ## Channel starts -/

/-- R200, R201, R204, R215: a CH_START_PCM that no check rejects writes the slot's record and touches nothing else. -/
def Obligations.PcmStartWritesSlot : Prop :=
  ∀ (slot track rsv : BitVec 8) (n : Note) (info : SampleInfo) (s : State),
    Rejects (.chStartPcm slot track rsv n info) s ∧
    (commandError (.chStartPcm slot track rsv n info) s = none →
      ∃ t v, exec (.chStartPcm slot track rsv n info) s = .next t ∧ OnlySlot slot.toNat s t ∧
        Started track n (t.chan slot.toNat) ∧ (t.chan slot.toNat).voice = .pcm v ∧
        (t.chan slot.toNat).att = n.att ∧ (t.chan slot.toNat).dec = n.dec ∧ (t.chan slot.toNat).sus = n.sus ∧
        (t.chan slot.toNat).rel = n.rel ∧
        v.dataPos = info.dataPos ∧ v.freq = info.freq ∧ v.loopStart = info.loopStart ∧ v.endPos = info.endPos ∧
        v.loop = info.loop ∧ v.compressed = info.compressed ∧ v.fixed = info.fixed ∧
        (SynthInfo info →
          (s.src.memRead info.dataPos.toNat 1 = some 0 → v.mode = .synthPulse ∧ (t.chan slot.toNat).rsKind = .blep) ∧
          (s.src.memRead info.dataPos.toNat 1 = some 1 → v.mode = .synthSaw ∧ (t.chan slot.toNat).rsKind = .blep) ∧
          (s.src.memRead info.dataPos.toNat 1 = some 2 → v.mode = .synthTri ∧ (t.chan slot.toNat).rsKind = .blamp) ∧
          (∃ b, b ≤ 2 ∧ s.src.memRead info.dataPos.toNat 1 = some b) ∧
          s.src.memRead (info.dataPos.toNat + 1) 1 = some v.synthDuty.toNat) ∧
        (¬SynthInfo info →
          v.mode = (if info.compressed = true then .dpcm else .sample) ∧
          (t.chan slot.toNat).rsKind =
            (if info.fixed = true then s.cfg.mixopt.resFixed else s.cfg.mixopt.resNormal)))

/-- R240, R241, R242, R247: a tone-generator start that no check rejects writes the common fields of the slot's record with
the clamped ADSR, the volumes and the pan, steals the voices that the polyphony policy says, and touches nothing else. -/
def Obligations.CgbStartCommonProcedure : Prop :=
  ∀ (i : Instr) (T : ChType) (slot track : BitVec 8) (n : Note) (s : State),
    cgbOperands i = some (T, slot, track, n) →
    Rejects i s ∧
    (commandError i s = none →
      ∃ t, exec i s = .next t ∧ OnlySlots s t ∧ Stolen s.cfg.mixopt.cgbPoly T slot.toNat s t ∧
        Started track n (t.chan slot.toNat) ∧ (t.chan slot.toNat).ClampedFrom n ∧ (t.chan slot.toNat).PanRuled ∧
        (t.chan slot.toNat).type = T ∧ (t.chan slot.toNat).rsKind = (if T = .noise then .nearest else .blep))

/-- R243 with R251: CH_START_SQ1's duty and sweep. An active sweep's register starts at 2048 − 131072 / f0, rounded half up
and clamped to 0..2047: the model's floor of that number and 1/2, which is the floor where the ends of its interval agree. -/
def Obligations.Sq1StartPayload : Prop :=
  ∀ (slot track rsv : BitVec 8) (n : Note) (sweep : BitVec 8) (duty : BitVec 2) (rsv5 : BitVec 22) (s : State),
    commandError (.chStartSq1 slot track rsv n sweep duty rsv5) s = none →
      ∃ t sw, exec (.chStartSq1 slot track rsv n sweep duty rsv5) s = .next t ∧
        (t.chan slot.toNat).voice = .sq1 duty sw ∧ sw.byte = sweep ∧ sw.acc = 0 ∧ sw.reg ≤ 2047 ∧
        (sw.active = true ↔ sweep.toNat / 16 % 8 ≠ 0 ∧ sweep.toNat % 8 ≠ 0) ∧
        (sw.active = true → ∀ f0 : ℝ,
          f0 = 440 * (2 : ℝ) ^ (((n.key.toNat : ℝ) - 69) / 12 + (n.pitch.toInt : ℝ) / 3072) →
          ∃ a : Alg, a.wf = true ∧ a.toReal = 2048 - 131072 / f0 + 1 / 2 ∧
            (sw.reg : Int) = min 2047 (max 0 a.floor) ∧
            ((a.bounds 32).1.floor = (a.bounds 32).2.floor →
              (sw.reg : Int) = min 2047 (max 0 ⌊2048 - 131072 / f0 + 1 / 2⌋)))

/-- R244, R250: CH_START_SQ2's duty and CH_START_NOISE's width, on top of the common procedure. -/
def Obligations.Sq2AndNoiseStartPayload : Prop :=
  ∀ (slot track rsv : BitVec 8) (n : Note) (s : State),
    (∀ (duty : BitVec 2) (rsv5 : BitVec 30),
      Rejects (.chStartSq2 slot track rsv n duty rsv5) s ∧
      (commandError (.chStartSq2 slot track rsv n duty rsv5) s = none →
        ∃ t, exec (.chStartSq2 slot track rsv n duty rsv5) s = .next t ∧
          (t.chan slot.toNat).voice = .sq2 duty ∧ Started track n (t.chan slot.toNat) ∧
          Stolen s.cfg.mixopt.cgbPoly .sq2 slot.toNat s t ∧ OnlySlots s t)) ∧
    (∀ (width7 : Bool) (rsv5 : BitVec 31),
      Rejects (.chStartNoise slot track rsv n width7 rsv5) s ∧
      (commandError (.chStartNoise slot track rsv n width7 rsv5) s = none →
        ∃ t, exec (.chStartNoise slot track rsv n width7 rsv5) s = .next t ∧
          (t.chan slot.toNat).voice = .noise (if width7 = true then .w7 else .w15) ∧
          Started track n (t.chan slot.toNat) ∧ Stolen s.cfg.mixopt.cgbPoly .noise slot.toNat s t ∧ OnlySlots s t))

/-- R246, R92, R256: CH_START_WAVE copies the WAVE_NIBBLES nibbles of the table, high nibble first, and their mean; over one
table cycle the source of R257 then sums to 0. -/
def Obligations.WaveStartCopiesTable : Prop :=
  ∀ (slot track rsv : BitVec 8) (n : Note) (wavePos : BitVec 32) (s : State) (N : Nat), N = s.par.waveNibbles →
    Rejects (.chStartWave slot track rsv n wavePos) s ∧
    (commandError (.chStartWave slot track rsv n wavePos) s = none →
      ∃ t ns mean, exec (.chStartWave slot track rsv n wavePos) s = .next t ∧
        (t.chan slot.toNat).voice = .wave wavePos ns mean ∧ ns.length = N ∧
        (N % 2 = 0 → ∀ k, k < N → ∃ b, s.src.memRead (wavePos.toNat + k / 2) 1 = some b ∧
          (ns.getD k 0).toNat = (if k % 2 = 0 then b / 16 else b % 16)) ∧
        mean = (((ns.map BitVec.toNat).sum : Nat) : Rat) / N ∧
        (∀ j : Int, 0 ≤ j →
          ((List.range N).map fun k : Nat => waveSource N false false 0 ns mean (j + (k : Int))).sum = 0) ∧
        Started track n (t.chan slot.toNat) ∧ Stolen s.cfg.mixopt.cgbPoly .wave slot.toNat s t ∧ OnlySlots s t)

/-! ## Channel commands -/

/-- R220: CH_SET_VOL stores the track volumes and recomputes the channel's volumes, and a tone generator's pan. -/
def Obligations.ChSetVolRule : Prop :=
  ∀ (slot volMR volML : BitVec 8) (s : State),
    Rejects (.chSetVol slot volMR volML) s ∧
    (commandError (.chSetVol slot volMR volML) s = none →
      ∃ t r l p, exec (.chSetVol slot volMR volML) s = .next t ∧ OnlySlot slot.toNat s t ∧
        t.chan slot.toNat =
          { s.chan slot.toNat with volMR := volMR, volML := volML, rightVol := r, leftVol := l, pan := p } ∧
        (t.chan slot.toNat).VolumesRuled ∧
        ((s.chan slot.toNat).type = .pcm → p = (s.chan slot.toNat).pan) ∧
        ((s.chan slot.toNat).type ≠ .pcm → (t.chan slot.toNat).PanRuled))

/-- R221: CH_SET_PITCH stores the pitch. -/
def Obligations.ChSetPitchRule : Prop :=
  ∀ (slot : BitVec 8) (pitch : BitVec 16) (s : State),
    Rejects (.chSetPitch slot pitch) s ∧
    (commandError (.chSetPitch slot pitch) s = none →
      ∃ t, exec (.chSetPitch slot pitch) s = .next t ∧ OnlySlot slot.toNat s t ∧
        t.chan slot.toNat = { s.chan slot.toNat with pitch := pitch })

/-- R222: CH_TICK_NOTE counts the length down and requests the release at 0; a tie stays as it is. -/
def Obligations.ChTickNoteRule : Prop :=
  ∀ (slot : BitVec 8) (imm : BitVec 16) (s : State),
    Rejects (.chTickNote slot imm) s ∧
    (commandError (.chTickNote slot imm) s = none →
      ∃ t, exec (.chTickNote slot imm) s = .next t ∧ OnlySlot slot.toNat s t ∧
        ((s.chan slot.toNat).length.toInt = -1 → t.chan slot.toNat = s.chan slot.toNat) ∧
        ((s.chan slot.toNat).length.toInt ≠ -1 →
          ∃ len, t.chan slot.toNat =
              { s.chan slot.toNat with length := len, stop := (s.chan slot.toNat).stop || decide (len.toInt = 0) } ∧
            (0 < (s.chan slot.toNat).length.toInt → len.toInt = (s.chan slot.toNat).length.toInt - 1) ∧
            ((s.chan slot.toNat).length.toInt ≤ 0 → len = (s.chan slot.toNat).length)))

/-- R223, R224: CH_RELEASE requests the release; CH_RELEASE_FAST does too, and sets DIE unless the channel is DIE or DEAD. -/
def Obligations.ChReleaseRules : Prop :=
  ∀ (slot : BitVec 8) (imm : BitVec 16) (s : State),
    Rejects (.chRelease slot imm) s ∧ Rejects (.chReleaseFast slot imm) s ∧
    (commandError (.chRelease slot imm) s = none →
      ∃ t, exec (.chRelease slot imm) s = .next t ∧ OnlySlot slot.toNat s t ∧
        t.chan slot.toNat = { s.chan slot.toNat with stop := true }) ∧
    (commandError (.chReleaseFast slot imm) s = none →
      ∃ t, exec (.chReleaseFast slot imm) s = .next t ∧ OnlySlot slot.toNat s t ∧
        t.chan slot.toNat =
          { s.chan slot.toNat with
            stop := true
            envState := if (s.chan slot.toNat).envState = .dead then .dead else .die })

/-! ## The render tick -/

/-- R360, R361, R369, R378, R86: where every live channel's footprint is inside the byte source, MX_TICK completes: it counts,
it outputs TICK_LEN frames, it writes no configuration register, no byte, and of a channel only what `TickKeeps` does not
list; a free slot is untouched. That it stops with a fault where a footprint leaves the byte source is the model's choice, log
entry 9 (DESIGN CHOICE): the spec has no fault, and R86 excludes the case in every run. -/
def Obligations.TickCompletesAndFrame : Prop :=
  ∀ s : State,
    (s.FootprintsValid →
      ∃ t, exec (.mxTick 0 0) s = .next t ∧ t.par = s.par ∧ t.cfg = s.cfg ∧ SameSource s t ∧
        t.chSlots = s.chSlots ∧ t.nTracks = s.nTracks ∧ t.reverbs.length = s.reverbs.length ∧
        t.mx.tickCount = s.mx.tickCount + 1 ∧ t.mx.master.length = s.cfg.tickLen.toNat ∧
        t.mx.rate = s.mx.rate ∧ t.mx.fadeStep = s.mx.fadeStep ∧ t.mx.lastErr = s.mx.lastErr ∧
        t.mx.errCount = s.mx.errCount ∧
        t.port =
          (if s.port.exporting = true then { s.port with returned := t.mx.master }
           else { s.port with pending := s.port.pending ++ t.mx.master }) ∧
        (∀ k, k < s.nTracks → (t.track k).mute = (s.track k).mute ∧ (t.track k).rev = (s.track k).rev ∧
          (t.track k).buf.length = s.cfg.tickLen.toNat) ∧
        (∀ k, k < s.reverbs.length →
          (t.reverb k).kind = (s.reverb k).kind ∧ (t.reverb k).nBuf = (s.reverb k).nBuf ∧
          (t.reverb k).dLen = (s.reverb k).dLen ∧ (t.reverb k).len = (s.reverb k).len) ∧
        (∀ u, TickKeeps (s.chan u) (t.chan u) ∧ ((s.chan u).live = false → t.chan u = s.chan u))) ∧
    ((∃ off, exec (.mxTick 0 0) s = .fault (.outsideByteSource off)) ↔ ¬s.FootprintsValid)

/-- R360, R362, R363, R332, R214, R260, R366, R367: what MX_TICK does with its channels and buffers, wherever it completes.
Every live channel's record becomes that of its `Process` with the arguments fixed at the start of the tick, then the purge;
what the PCM channels of a track add goes through the track's reverb instance; what its tone generators add is added to that;
and the fade multiplies the sum. `Process` is the envelope step, then for a channel that is not DEAD the sweep tick (of an
SQ1) and the rendering that `ChannelOutputRamp` states. -/
def Obligations.TickRunsEveryStageInOrder : Prop :=
  (∀ (s t : State) (a : TickArgs), exec (.mxTick 0 0) s = .next t →
    a = ⟨s.par, s.cfg.tickLen.toNat, s.mx.rate, s.cfg.soundmode.masterVol, s.cfg.fixedRate, s.cfg.mixopt.accCh3Quant,
      s.cfg.mixopt.accCh3Vol, s.cfg.mixopt.susBug⟩ →
    (∀ u,
      ((s.chan u).live = false → t.chan u = s.chan u) ∧
      ((s.chan u).live = true → ∀ c, c = ((s.chan u).process a s.src).1 →
        t.chan u = if c.envState = .dead then { c with live := false } else c)) ∧
    (∀ k, k < s.nTracks →
      ∃ (pcm wet : List Frame) (rv : Reverb),
        pcm.length = a.n ∧
        (∀ i, i < a.n →
          (pcm.getD i .zero).l.toReal = ((List.range s.chSlots).map fun u : Nat =>
            if (s.chan u).live = true ∧ (s.chan u).track = k ∧ (s.chan u).type = .pcm then
              (((s.chan u).process a s.src).2.getD i .zero).l.toReal else 0).sum ∧
          (pcm.getD i .zero).r.toReal = ((List.range s.chSlots).map fun u : Nat =>
            if (s.chan u).live = true ∧ (s.chan u).track = k ∧ (s.chan u).type = .pcm then
              (((s.chan u).process a s.src).2.getD i .zero).r.toReal else 0).sum) ∧
        (s.reverb k).process (intensity s.cfg.soundmode (s.track k).rev) pcm = (rv, wet) ∧
        (k < s.reverbs.length → t.reverb k = rv) ∧
        (t.track k).buf.length = a.n ∧
        (∀ i, i < a.n → ∀ g : Rat,
          g = s.mx.fadePos ^ s.par.fadeExp + (t.mx.fadePos ^ s.par.fadeExp - s.mx.fadePos ^ s.par.fadeExp) * (i / a.n) →
          ((t.track k).buf.getD i .zero).l.toReal =
            ((wet.getD i .zero).l.toReal + ((List.range s.chSlots).map fun u : Nat =>
              if (s.chan u).live = true ∧ (s.chan u).track = k ∧ (s.chan u).type ≠ .pcm then
                (((s.chan u).process a s.src).2.getD i .zero).l.toReal else 0).sum) * (g : ℝ) ∧
          ((t.track k).buf.getD i .zero).r.toReal =
            ((wet.getD i .zero).r.toReal + ((List.range s.chSlots).map fun u : Nat =>
              if (s.chan u).live = true ∧ (s.chan u).track = k ∧ (s.chan u).type ≠ .pcm then
                (((s.chan u).process a s.src).2.getD i .zero).r.toReal else 0).sum) * (g : ℝ)))) ∧
  (∀ (a : TickArgs) (src : Source) (c e : Chan), e = c.stepEnvelope a.par.interframes a.susBug →
    (e.envState = .dead → c.process a src = (e, [])) ∧
    (e.envState ≠ .dead →
      (∀ duty sw, e.voice = .sq1 duty sw →
        c.process a src = ({ e with voice := .sq1 duty (sw.tick a.n a.rate) } : Chan).render a src) ∧
      ((∀ duty sw, e.voice ≠ .sq1 duty sw) → c.process a src = e.render a src)))

/-- R366: the purge frees exactly the live DEAD slots, and after a tick no slot is live and DEAD. -/
def Obligations.TickPurgesDeadChannels : Prop :=
  (∀ (s : State) (u : Nat),
    (purge s).chan u =
      if (s.chan u).live = true ∧ (s.chan u).envState = .dead then { s.chan u with live := false } else s.chan u) ∧
  (∀ s t : State, exec (.mxTick 0 0) s = .next t → t.NoDeadLive)

/-- R162, R172, R212, R224, R366, R459: a channel in DIE has gain target 0 and is DEAD at the end of its tick, which frees the
slot, so a fast release frees it at the next tick; a channel released before its first tick is freed in it, having added
nothing; a non-looping SAMPLE or DPCM channel is DEAD at the end of the tick in which the model's floor of its source time
reached its end, and no other channel dies of exhaustion. A tick frees exactly the slots whose channel it leaves DEAD. -/
def Obligations.DyingChannelsAreFreed : Prop :=
  (∀ (a : TickArgs) (src : Source) (c : Chan), c.envState = .die →
    (c.process a src).1.envState = .dead ∧ (c.process a src).1.lastGainL = 0 ∧ (c.process a src).1.lastGainR = 0) ∧
  (∀ (s t : State) (u : Nat), exec (.mxTick 0 0) s = .next t →
    ((t.chan u).live = true ↔
      (s.chan u).live = true ∧ ((s.chan u).process s.tickArgs s.src).1.envState ≠ .dead) ∧
    ((s.chan u).envState = .die → (t.chan u).live = false)) ∧
  (∀ (s t t' : State) (slot : BitVec 8),
    exec (.chReleaseFast slot 0) s = .next t → commandError (.chReleaseFast slot 0) s = none →
      exec (.mxTick 0 0) t = .next t' → (t'.chan slot.toNat).live = false) ∧
  (∀ (s t : State) (u : Nat), exec (.mxTick 0 0) s = .next t → (s.chan u).envState = .init → (s.chan u).stop = true →
    (t.chan u).live = false ∧ ((s.chan u).process s.tickArgs s.src).2 = []) ∧
  (∀ (a : TickArgs) (src : Source) (c d : Chan) (frames : List Frame), c.render a src = (d, frames) → c.envState ≠ .die →
    (∀ v, c.voice = .pcm v → v.mode = .sample ∨ v.mode = .dpcm → v.loop = false →
      ((v.endPos.toNat : Int) ≤ d.t.floor → d.envState = .dead) ∧
      (d.t.floor < (v.endPos.toNat : Int) → d.envState = c.envState)) ∧
    (∀ v, c.voice = .pcm v → v.loop = true ∨ (v.mode ≠ .sample ∧ v.mode ≠ .dpcm) → d.envState = c.envState) ∧
    (c.type ≠ .pcm → d.envState = c.envState)) ∧
  (∀ (s t : State) (u : Nat) (v : PcmVoice), exec (.mxTick 0 0) s = .next t → (s.chan u).voice = .pcm v →
    v.mode = .sample ∨ v.mode = .dpcm → v.loop = false →
    (v.endPos.toNat : Int) ≤ ((s.chan u).process s.tickArgs s.src).1.t.floor → (t.chan u).live = false)

/-- R367: the fade of a tick: the new position, the state and FADE_DONE, and the factor of every frame of every track. -/
def Obligations.FadeOfATick : Prop :=
  ∀ s : State,
    ∃ p : Rat,
      (s.mx.fadeState = .idle → p = s.mx.fadePos) ∧
      (s.mx.fadeState = .fadeIn → p = min 1 (s.mx.fadePos + s.mx.fadeStep)) ∧
      (s.mx.fadeState = .fadeOut → p = max 0 (s.mx.fadePos - s.mx.fadeStep)) ∧
      (∀ (u e : Nat), u < s.nTracks → e = s.par.fadeExp →
        ((fade s).track u).buf.length = (s.track u).buf.length ∧
        ∀ (k : Nat) (f : Frame), (s.track u).buf[k]? = some f →
          ∃ g, ((fade s).track u).buf[k]? = some g ∧
            g.l.toReal = f.l.toReal * (((s.mx.fadePos ^ e + (p ^ e - s.mx.fadePos ^ e) * (k / (s.track u).buf.length) : Rat) : ℝ)) ∧
            g.r.toReal = f.r.toReal * (((s.mx.fadePos ^ e + (p ^ e - s.mx.fadePos ^ e) * (k / (s.track u).buf.length) : Rat) : ℝ))) ∧
      (∀ t, exec (.mxTick 0 0) s = .next t →
        t.mx.fadePos = p ∧
        t.mx.fadeState =
          (if (s.mx.fadeState = .fadeIn ∧ p = 1) ∨ (s.mx.fadeState = .fadeOut ∧ p = 0) then .idle else s.mx.fadeState) ∧
        t.mx.fadeDone = (s.mx.fadeDone || decide (s.mx.fadeState = .fadeOut ∧ p = 0)))

/-- R370 with R367 and R378: a fade-out of length W from position 1 lasts exactly W ticks: after j of them the position is 1 − j/W,
and only after the W-th is the fade over, FADE_DONE set and the song ended (R378). -/
def Obligations.FadeOutLastsItsLength : Prop :=
  ∀ (s u t : State) (W : Word) (j : Nat),
    s.mx.fadePos = 1 → W ≠ 0 → exec (.mxFade 0 2 0 W) s = .next u → TicksFrom j u t → j ≤ W.toNat →
      t.mx.fadePos = 1 - (j : Rat) / W.toNat ∧
      (j < W.toNat → t.mx.fadeState = .fadeOut ∧ t.mx.fadeDone = false ∧ t.songEnded = false) ∧
      (j = W.toNat → t.mx.fadeState = .idle ∧ t.mx.fadeDone = true ∧ t.songEnded = true)

/-- R370: MX_FADE's checks and its three modes. -/
def Obligations.MxFadeRule : Prop :=
  ∀ (a : BitVec 8) (mode : BitVec 2) (rsv : BitVec 14) (W : Word) (s : State),
    Rejects (.mxFade a mode rsv W) s ∧
    (rsv ≠ 0 ∨ mode = 3 ∨ a ≠ 0 → commandError (.mxFade a mode rsv W) s = some .reserved) ∧
    (commandError (.mxFade a mode rsv W) s = none →
      ∃ t, exec (.mxFade a mode rsv W) s = .next t ∧ OnlyMixer s t ∧
        (mode = 0 → t.mx = { s.mx with fadeState := .idle, fadePos := 1, fadeStep := 0, fadeDone := false }) ∧
        (mode = 1 →
          t.mx = { s.mx with fadeState := .fadeIn, fadePos := 0, fadeStep := 1 / (W.toNat : Rat), fadeDone := false }) ∧
        (mode = 2 → t.mx = { s.mx with fadeState := .fadeOut, fadeStep := 1 / (W.toNat : Rat), fadeDone := false }))

/-- R372, R373: TRK_MUTE and TRK_REVERB write their field of their track. -/
def Obligations.TrackCommandRules : Prop :=
  ∀ (track : BitVec 8) (s : State),
    (∀ (mute : Bool) (rsv : BitVec 15),
      Rejects (.trkMute track mute rsv) s ∧
      (commandError (.trkMute track mute rsv) s = none →
        ∃ t, exec (.trkMute track mute rsv) s = .next t ∧ OnlyTrack track.toNat s t ∧
          t.track track.toNat = { s.track track.toNat with mute := mute })) ∧
    (∀ (intensity : BitVec 7) (rsv : BitVec 9),
      Rejects (.trkReverb track intensity rsv) s ∧
      (commandError (.trkReverb track intensity rsv) s = none →
        ∃ t, exec (.trkReverb track intensity rsv) s = .next t ∧ OnlyTrack track.toNat s t ∧
          t.track track.toNat = { s.track track.toNat with rev := intensity }))

/-- R368: a mute flag is seen by the master buffer alone. Two states that differ in mute flags (and so in output) only, differ
in no more after any command. -/
def Obligations.MuteSilencesOnlyTheMaster : Prop :=
  ∀ (i : Instr) (s s' t : State),
    AgreeButMute s s' → exec i s = .next t → ∃ t', exec i s' = .next t' ∧ AgreeButMute t t'

/-- R368, R369, R378: each master frame is the sum, per side, of the unmuted tracks' frames; those are what the tick outputs,
to the producer side of the ring buffer or to the export caller instead; and nothing else of the state depends on which. -/
def Obligations.MasterSumsUnmutedTracks : Prop :=
  (∀ s t : State, exec (.mxTick 0 0) s = .next t →
    (s.port.exporting = false → t.port = { s.port with pending := s.port.pending ++ t.mx.master }) ∧
    (s.port.exporting = true → t.port = { s.port with returned := t.mx.master }) ∧
    ∀ k, k < s.cfg.tickLen.toNat →
      ∃ f, t.mx.master[k]? = some f ∧
        f.l.toReal = ((List.range s.nTracks).map fun u : Nat =>
          if (t.track u).mute = true then 0 else ((t.track u).buf.getD k .zero).l.toReal).sum ∧
        f.r.toReal = ((List.range s.nTracks).map fun u : Nat =>
          if (t.track u).mute = true then 0 else ((t.track u).buf.getD k .zero).r.toReal).sum) ∧
  (∀ (i : Instr) (s t : State) (on : Bool), exec i s = .next t →
    ∃ t', exec i (s.withExport on) = .next t' ∧ { t' with port := t.port } = t)

/-- R260, R332, R363: tone generators bypass the reverb. Two states that differ in tone-generator slots only (and in what no
reverb instance sees) have the same reverb instances after a tick. -/
def Obligations.ToneGeneratorsBypassReverb : Prop :=
  ∀ s s' t t' : State,
    AgreeOnPcm s s' → exec (.mxTick 0 0) s = .next t → exec (.mxTick 0 0) s' = .next t' → t'.reverbs = t.reverbs

/-! ## Reverb -/

/-- R331, R333, R334, R340, R341: the intensity and its range; one frame of NORMAL: both taps, both sides, a quarter of the
intensity, the output written back, the position advanced; one frame of GAME1 and GAME2: the taps of the coefficient set on
both buffers, each written back and advanced; one frame of TEST: the biquad of each side on the delayed tap; a buffer is
processed frame by frame in order; NONE passes it unchanged. -/
def Obligations.ReverbFrameOfEachKind : Prop :=
  (∀ (m : SoundMode) (rev : BitVec 7),
    intensity m rev = (if m.forcedRevEn = true then m.forcedRevVal.toNat else rev.toNat) / 128 ∧
      0 ≤ intensity m rev ∧ intensity m rev ≤ 127 / 128) ∧
  (∀ (i : Rat) (rv : Reverb) (x : Frame), rv.kind ≠ .noReverb →
    ∃ rv' y, rv.frame i x = (rv', y) ∧ rv'.p = (rv.p + 1) % rv.len ∧
      rv'.kind = rv.kind ∧ rv'.nBuf = rv.nBuf ∧ rv'.dLen = rv.dLen ∧ rv'.len = rv.len ∧
      (DelayBuf.wf rv.buf = true →
        ∀ j, DelayBuf.read j rv'.buf = if j = rv.p then y else DelayBuf.read j rv.buf)) ∧
  (∀ (i : Rat) (rv : Reverb) (x : Frame), rv.kind = .normal →
    ∃ rv' y, rv.frame i x = (rv', y) ∧ rv' = { rv with buf := rv'.buf, p := rv'.p } ∧
      ∀ rev : ℝ,
        rev = ((DelayBuf.read rv.p rv.buf).l.toReal + (DelayBuf.read rv.p rv.buf).r.toReal +
          (DelayBuf.read ((rv.p + rv.dLen) % rv.len) rv.buf).l.toReal +
          (DelayBuf.read ((rv.p + rv.dLen) % rv.len) rv.buf).r.toReal) * (i : ℝ) / 4 →
        y.l.toReal = x.l.toReal + rev ∧ y.r.toReal = x.r.toReal + rev) ∧
  (∀ (i : Rat) (rv : Reverb) (x : Frame) (g : Config.GameTaps),
    (rv.kind = .game1 ∧ g = Config.game1Taps) ∨ (rv.kind = .game2 ∧ g = Config.game2Taps) →
    ∃ rv' y z, rv.frame i x = (rv', y) ∧
      rv' = { rv with buf := rv'.buf, p := rv'.p, buf2 := rv'.buf2, p2 := (rv.p2 + 1) % g.l2 } ∧
      (DelayBuf.wf rv.buf2 = true →
        ∀ j, DelayBuf.read j rv'.buf2 = if j = rv.p2 then ⟨z, z⟩ else DelayBuf.read j rv.buf2) ∧
      ∀ r1 r2 rev : ℝ,
        r1 = (g.taps.map fun da => da.2.toReal *
          (((DelayBuf.read (((rv.p : Int) + da.1) % (rv.len : Int)).toNat rv.buf).l.toReal +
            (DelayBuf.read (((rv.p : Int) + da.1) % (rv.len : Int)).toNat rv.buf).r.toReal) / 2)).sum →
        r2 = (g.taps2.map fun eb => eb.2.toReal *
          (((DelayBuf.read (((rv.p2 : Int) + eb.1) % (g.l2 : Int)).toNat rv.buf2).l.toReal +
            (DelayBuf.read (((rv.p2 : Int) + eb.1) % (g.l2 : Int)).toNat rv.buf2).r.toReal) / 2)).sum →
        rev = (i : ℝ) * (r1 + r2) →
        y.l.toReal = x.l.toReal + rev ∧ y.r.toReal = x.r.toReal + rev ∧
        z.toReal = g.cx.toReal * ((x.l.toReal + x.r.toReal) / 2) + g.cy.toReal * rev) ∧
  (∀ (i : Rat) (rv : Reverb) (x v : Frame) (k : Config.TestCoef), rv.kind = .test → k = Config.testCoef →
    v = DelayBuf.read rv.p rv.buf →
    ∃ rv' y, rv.frame i x = (rv', y) ∧ rv' = { rv with buf := rv'.buf, p := rv'.p, z1 := rv'.z1, z2 := rv'.z2 } ∧
      ∀ wl wr : ℝ,
        wl = k.b0.toReal * v.l.toReal + rv.z1.l.toReal → wr = k.b0.toReal * v.r.toReal + rv.z1.r.toReal →
        y.l.toReal = x.l.toReal + (i : ℝ) * wl ∧ y.r.toReal = x.r.toReal + (i : ℝ) * wr ∧
        rv'.z1.l.toReal = k.b1.toReal * v.l.toReal - k.a1.toReal * wl + rv.z2.l.toReal ∧
        rv'.z1.r.toReal = k.b1.toReal * v.r.toReal - k.a1.toReal * wr + rv.z2.r.toReal ∧
        rv'.z2.l.toReal = k.b2.toReal * v.l.toReal - k.a2.toReal * wl ∧
        rv'.z2.r.toReal = k.b2.toReal * v.r.toReal - k.a2.toReal * wr) ∧
  (∀ (i : Rat) (rv rv' : Reverb) (x y : Frame) (xs : List Frame), rv.frame i x = (rv', y) →
    rv.process i (x :: xs) = ((rv'.process i xs).1, y :: (rv'.process i xs).2)) ∧
  (∀ (i : Rat) (rv : Reverb), rv.process i [] = (rv, [])) ∧
  (∀ (i : Rat) (rv : Reverb) (xs : List Frame), rv.kind = .noReverb → rv.process i xs = (rv, xs))

/-- R342: no spontaneous energy. From empty buffers an all-zero input gives an all-zero output and leaves the buffers empty,
in every variant. -/
def Obligations.ReverbHasNoSpontaneousEnergy : Prop :=
  ∀ (i : Rat) (rv : Reverb) (n : Nat),
    rv.buf = [] → rv.buf2 = [] → rv.z1 = Frame.zero → rv.z2 = Frame.zero →
      (rv.process i (List.replicate n Frame.zero)).2 = List.replicate n Frame.zero ∧
      (rv.process i (List.replicate n Frame.zero)).1.buf = [] ∧ (rv.process i (List.replicate n Frame.zero)).1.buf2 = [] ∧
      (rv.process i (List.replicate n Frame.zero)).1.z1 = Frame.zero ∧
      (rv.process i (List.replicate n Frame.zero)).1.z2 = Frame.zero

/-- R342: the tail of NORMAL decays. With zero input for L frames, the largest magnitude in the buffer and in the output is
at most I times what it was. -/
def Obligations.NormalReverbTailDecays : Prop :=
  ∀ (i : Rat) (rv : Reverb) (M : ℝ),
    rv.kind = .normal → rv.Bounded → 0 ≤ i → i ≤ 1 →
    (∀ j, |(DelayBuf.read j rv.buf).l.toReal| ≤ M ∧ |(DelayBuf.read j rv.buf).r.toReal| ≤ M) →
      (∀ y ∈ (rv.process i (List.replicate rv.len Frame.zero)).2,
        |y.l.toReal| ≤ (i : ℝ) * M ∧ |y.r.toReal| ≤ (i : ℝ) * M) ∧
      (∀ j, j < rv.len →
        |(DelayBuf.read j (rv.process i (List.replicate rv.len Frame.zero)).1.buf).l.toReal| ≤ (i : ℝ) * M ∧
        |(DelayBuf.read j (rv.process i (List.replicate rv.len Frame.zero)).1.buf).r.toReal| ≤ (i : ℝ) * M)

/-! ## Byte source and channel sources -/

/-- R81, R82, R83: a read of n bytes is little-endian and defined exactly where the range is inside the source, at any offset;
a signed read is its two's complement value. -/
def Obligations.MemReadLittleEndian : Prop :=
  ∀ (src : Source) (off n : Nat),
    (src.validRange off n = true ↔ off + n ≤ src.size) ∧
    (off + n ≤ src.size →
      ∃ v, src.memRead off n = some v ∧
        v = ((List.range n).map fun i : Nat => ((src.byte (off + i)).getD 0).toNat * 2 ^ (8 * i)).sum ∧
        v < 2 ^ (8 * n) ∧
        (0 < n → src.readSigned off n =
          some (if v < 2 ^ (8 * n - 1) then (v : Int) else (v : Int) - ((2 ^ (8 * n) : Nat) : Int)))) ∧
    (src.size < off + n → 0 < n → src.memRead off n = none)

/-- R210, R211, R213, R255, R257, R258: the source sequence of a channel, 0 before index 0. SAMPLE and DPCM: the samples, then
silence or the loop, which repeats with the loop's length, every value in [−1, 127/128]. The synth modes over SYNTH_CYCLE
samples. The pulse channels by their duty pattern. The wave channel around the mean of its table, and with both accurate
toggles around that of its quantized table, by the code of its level; that a DIE tick quantizes by that code too is the
model's choice, log entry 10 (DEDUCED). The noise channel's is `noiseSource` (R262). -/
def Obligations.ChannelSourceRules : Prop :=
  ∀ (a : TickArgs) (src : Source) (c : Chan) (j : Int),
    (j < 0 → c.source a src j = 0) ∧
    (∀ v, c.voice = .pcm v → v.mode = .sample ∨ v.mode = .dpcm →
      (0 ≤ j → j < v.endPos.toNat → c.source a src j = (rawSample src v j.toNat : Rat) / 128) ∧
      (v.endPos.toNat ≤ j → v.loop = false → c.source a src j = 0) ∧
      (v.endPos.toNat ≤ j → v.loop = true → v.loopStart.toNat < v.endPos.toNat →
        c.source a src j =
          (rawSample src v
            (v.loopStart.toNat + (j - v.loopStart.toNat) % ((v.endPos.toNat : Int) - v.loopStart.toNat)).toNat : Rat) / 128) ∧
      ((v.loopStart.toNat : Int) ≤ j → v.loop = true → v.loopStart.toNat < v.endPos.toNat →
        c.source a src (j + (v.endPos.toNat - v.loopStart.toNat)) = c.source a src j) ∧
      -1 ≤ c.source a src j ∧ c.source a src j ≤ 127 / 128) ∧
    (∀ v (m : Nat) (u : Rat), c.voice = .pcm v → 0 ≤ j → m = (j % (a.par.synthCycle : Int)).toNat → u = m / a.par.synthCycle →
      (v.mode = .synthPulse →
        c.source a src j = if m * 256 < v.synthDuty.toNat * a.par.synthCycle then 1 else -1) ∧
      (v.mode = .synthSaw → c.source a src j = 2 * u - 1) ∧
      (v.mode = .synthTri → c.source a src j = 1 - 4 * |u - 1 / 2|)) ∧
    (∀ duty, (c.voice = .sq2 duty ∨ ∃ sw, c.voice = .sq1 duty sw) → 0 ≤ j →
      c.source a src j =
        if ((([[0, 0, 0, 0, 0, 0, 0, 1], [1, 0, 0, 0, 0, 0, 0, 1], [1, 0, 0, 0, 0, 1, 1, 1], [0, 1, 1, 1, 1, 1, 1, 0]] :
          List (List Nat)).getD duty.toNat []).getD (j % 8).toNat 0) = 1 then 1 else -1) ∧
    (∀ p ns mean (N n : Nat), c.voice = .wave p ns mean → 0 ≤ j → N = a.par.waveNibbles →
      n = (ns.getD (j % (N : Int)).toNat 0).toNat →
      (a.accVol = false ∨ a.accQuant = false → c.source a src j = ((n : Rat) - mean) / (15 / 2)) ∧
      (a.accVol = true → a.accQuant = true → ∀ Q : Nat → Nat,
        (∀ x, Q x =
          if c.envLevel ≤ 1 then 0 else if c.envLevel ≤ 5 then x / 4 else if c.envLevel ≤ 9 then x / 2
          else if c.envLevel ≤ 13 then 3 * x / 4 else x) →
        c.source a src j = ((Q n : Rat) - (((ns.map fun x => Q x.toNat).sum : Nat) : Rat) / N) / (15 / 2))) ∧
    (∀ w, c.voice = .noise w → c.source a src j = noiseSource w j)

/-- R89, R90, R91: sample j of plain data is a signed byte; sample j of compressed data is sample j mod 64 of its 33-byte
block, where each sample adds a table entry to the one before, wrapping at 8 bits. -/
def Obligations.SampleDecoding : Prop :=
  ∀ (src : Source) (v : PcmVoice) (j : Nat),
    (v.mode = .sample → v.dataPos.toNat + j < src.size →
      src.readSigned (v.dataPos.toNat + j) 1 = some (rawSample src v j)) ∧
    (v.mode = .dpcm → rawSample src v j = (dpcmDec src (v.dataPos.toNat + 33 * (j / 64)) (j % 64)).toInt) ∧
    (∀ B, B + 33 ≤ src.size →
      src.memRead B 1 = some (dpcmDec src B 0).toNat ∧
      ∀ i, 1 ≤ i → i < 64 →
        ∃ b, src.memRead (B + (1 + i / 2)) 1 = some b ∧
          (dpcmDec src B i).toNat =
            (((dpcmDec src B (i - 1)).toNat : Int) +
              ([0, 1, 4, 9, 16, 25, 36, 49, -64, -49, -36, -25, -16, -9, -4, -1] : List Int).getD
                (if i % 2 = 1 then b % 16 else b / 16) 0) % 256)

/-- R262: the noise source and its LFSR, with the two periods. -/
def Obligations.NoiseLfsrPeriods : Prop :=
  (∀ w, w = 7 ∨ w = 15 →
    lfsrState w 0 = 2 ^ w - 1 ∧
    (∀ j, lfsrState w (j + 1) = lfsrState w j / 2 + (if lfsrState w j % 2 = lfsrState w j / 2 % 2 then 0 else 2 ^ (w - 1))) ∧
    (∀ j, lfsrState w (j + (2 ^ w - 1)) = lfsrState w j) ∧
    (∀ k, 0 < k → k < 2 ^ w - 1 → lfsrState w k ≠ lfsrState w 0)) ∧
  (∀ j : Int, (j < 0 → noiseSource .w7 j = 0 ∧ noiseSource .w15 j = 0) ∧
    (0 ≤ j → noiseSource .w7 j = (if lfsrState 7 j.toNat % 2 = 0 then 1 else -1) ∧
      noiseSource .w15 j = (if lfsrState 15 j.toNat % 2 = 0 then 1 else -1)))

/-- R251: the sweep register stays in 0..2047; ascending it does not fall and reaches 2047 from any register of at least
2^shift, descending it does not rise and ends below 2^shift; a tick adds to the clock and takes out whole sweep times. -/
def Obligations.SweepConverges : Prop :=
  (∀ (byte : BitVec 8) (x k : Nat), x ≤ 2047 →
    sweepSteps byte k x ≤ 2047 ∧
    (byte.getLsbD 3 = false → x ≤ sweepSteps byte k x) ∧
    (byte.getLsbD 3 = true → sweepSteps byte k x ≤ x)) ∧
  (∀ (byte : BitVec 8) (x : Nat), x ≤ 2047 → byte.toNat % 8 ≠ 0 →
    (byte.getLsbD 3 = false → 2 ^ (byte.toNat % 8) ≤ x → ∃ K, ∀ k, K ≤ k → sweepSteps byte k x = 2047) ∧
    (byte.getLsbD 3 = true → ∃ K, ∀ k, K ≤ k → sweepSteps byte k x < 2 ^ (byte.toNat % 8))) ∧
  (∀ (n : Nat) (rate : Word) (sw : Sweep), sw.active = true → sw.byte.toNat / 16 % 8 ≠ 0 → rate ≠ 0 → 0 ≤ sw.acc →
    ∃ k : Nat, (sw.tick n rate).reg = sweepSteps sw.byte k sw.reg ∧
      (sw.tick n rate).acc + k * ((sw.byte.toNat / 16 % 8 : Nat) : Rat) = sw.acc + n * 128 / rate.toNat ∧
      0 ≤ (sw.tick n rate).acc ∧ (sw.tick n rate).acc < ((sw.byte.toNat / 16 % 8 : Nat) : Rat))

/-- R206, R208, R253, R254, R298: the rates as real numbers, and that an increment is always positive. The noise rate is
clamped to 4..524288 by the model's comparisons, which are exact for the default NOISE_BASE. -/
def Obligations.RatesAreTheFormulas : Prop :=
  (∀ (fixedRate : Word) (v : PcmVoice) (key : BitVec 7) (pitch : BitVec 16),
    (v.fixed = false → (pcmRate fixedRate v key pitch).toReal =
      (v.freq.toNat : ℝ) / 1024 * (2 : ℝ) ^ (((key.toNat : ℝ) - 60) / 12 + (pitch.toInt : ℝ) / 3072)) ∧
    (v.fixed = true → (pcmRate fixedRate v key pitch).toReal = fixedRate.toNat)) ∧
  (∀ (key : BitVec 7) (pitch : BitVec 16),
    (toneFreq key pitch).toReal = 440 * (2 : ℝ) ^ (((key.toNat : ℝ) - 69) / 12 + (pitch.toInt : ℝ) / 3072)) ∧
  (∀ (p : Config.Params) (fixedRate : Word) (c : Chan),
    (∀ v, c.voice = .pcm v → c.rateHz p fixedRate = pcmRate fixedRate v c.key c.pitch) ∧
    (∀ duty sw, c.voice = .sq1 duty sw → sw.active = false →
      (c.rateHz p fixedRate).toReal = 8 * (toneFreq c.key c.pitch).toReal) ∧
    (∀ duty sw, c.voice = .sq1 duty sw → sw.active = true →
      (c.rateHz p fixedRate).toReal = 8 * (131072 / (2048 - (sw.reg : ℝ)))) ∧
    (∀ duty, c.voice = .sq2 duty → (c.rateHz p fixedRate).toReal = 8 * (toneFreq c.key c.pitch).toReal) ∧
    (∀ w ns m, c.voice = .wave w ns m →
      (c.rateHz p fixedRate).toReal = p.waveNibbles * (toneFreq c.key c.pitch).toReal) ∧
    (∀ w (x : ℝ), c.voice = .noise w →
      x = (p.noiseBase : ℝ) * (2 : ℝ) ^ (((c.key.toNat : ℝ) - 60) / 12 + (c.pitch.toInt : ℝ) / 3072) →
      (∃ r : Alg, r.wf = true ∧ r.toReal = x ∧
        c.rateHz p fixedRate =
          if r.ltInt 4 = true then .ofRat 4 else if r.leInt 524288 = true then r else .ofRat 524288) ∧
      (p.noiseBase = 4096 → (c.rateHz p fixedRate).toReal = max 4 (min 524288 x))) ∧
    (0 < p.noiseBase → 1 ≤ p.waveNibbles → c.voice.Sound p → fixedRate ≠ 0 → 0 < (c.rateHz p fixedRate).toReal))

/-! ## Envelope and gain -/

/-- R160: a channel moves through its envelope states in their order only. Whatever the command, a slot that is live before
and after it is in the same or a later state, and a DEAD channel's step changes nothing. -/
def Obligations.EnvelopeStatesMoveForward : Prop :=
  (∀ (i : Instr) (s t : State) (u : Nat), exec i s = .next t → (s.chan u).live = true → (t.chan u).live = true →
    (s.chan u).envState.rank ≤ (t.chan u).envState.rank) ∧
  (∀ (n : Nat) (b : Bool) (c : Chan),
    c.envState.rank ≤ (c.stepEnvelope n b).envState.rank ∧ (c.envState = .dead → c.stepEnvelope n b = c))

/-- R161 to R171: the envelope step of a PCM channel, with n = INTERFRAMES. -/
def Obligations.PcmEnvelopeStep : Prop :=
  ∀ (n : Nat) (b : Bool) (c : Chan), c.type = .pcm →
    (c.envState = .die ∨ c.envState = .dead → c.stepEnvelope n b = c) ∧
    (c.envState = .init → c.stop = true → c.stepEnvelope n b = { c with envState := .dead }) ∧
    (c.envState = .init → c.stop = false →
      c.stepEnvelope n b =
        { c with
          fromEnvLevel := 0
          envInterStep := 0
          envLevel := if c.att.toNat = 0 then 255 else c.att.toNat
          envState :=
            if c.att.toNat = 0 then (if c.sus.toNat = 255 then .sus else .dec)
            else if c.att.toNat = 255 then .dec else .atk }) ∧
    (c.envState ∈ [.atk, .dec, .sus, .rel, .pseudoEcho] →
      (c.envInterStep + 1 < n → c.stepEnvelope n b = { c with envInterStep := c.envInterStep + 1 }) ∧
      (n ≤ c.envInterStep + 1 →
        (c.envState = .atk → c.stop = false →
          c.stepEnvelope n b =
            { c with
              envInterStep := 0
              fromEnvLevel := c.envLevel
              envLevel := min 255 (c.envLevel + c.att.toNat)
              envState := if 255 ≤ c.envLevel + c.att.toNat then .dec else .atk }) ∧
        (c.envState = .dec → c.stop = false →
          c.stepEnvelope n b =
            { c with
              envInterStep := 0
              fromEnvLevel := c.envLevel
              envLevel := max c.sus.toNat (c.envLevel * c.dec.toNat / 256)
              envState := if c.envLevel * c.dec.toNat / 256 ≤ c.sus.toNat then .sus else .dec }) ∧
        (c.envState = .sus → c.stop = false →
          c.stepEnvelope n b = { c with envInterStep := 0, fromEnvLevel := c.envLevel }) ∧
        (c.envState = .rel ∨ (c.stop = true ∧ c.envState ∈ [.atk, .dec, .sus]) →
          c.stepEnvelope n b =
            { c with
              envInterStep := 0
              fromEnvLevel := c.envLevel
              envLevel :=
                if c.echoVol.toNat < c.envLevel * c.rel.toNat / 256 then c.envLevel * c.rel.toNat / 256
                else if c.echoVol.toNat = 0 ∨ c.echoLen.toNat = 0 then c.envLevel
                else c.echoVol.toNat
              envState :=
                if c.echoVol.toNat < c.envLevel * c.rel.toNat / 256 then .rel
                else if c.echoVol.toNat = 0 ∨ c.echoLen.toNat = 0 then .die
                else .pseudoEcho }) ∧
        (c.envState = .pseudoEcho →
          c.stepEnvelope n b =
            { c with
              envInterStep := 0
              fromEnvLevel := c.envLevel
              echoLen := c.echoLen - 1
              envState := if c.echoLen.toNat = 1 then .die else .pseudoEcho })))

/-- R168, R180 to R185, R245: the envelope step of a tone generator at a frame boundary and at INIT, with
n = INTERFRAMES. -/
def Obligations.CgbEnvelopeStep : Prop :=
  ∀ (n : Nat) (b : Bool) (c : Chan) (peak sustain echo : Nat), c.type ≠ .pcm →
    peak = min 15 ((c.rightVol.toNat + c.leftVol.toNat) / 16) → sustain = (peak * c.sus.toNat + 15) / 16 →
    echo = (c.echoVol.toNat * peak + 255) / 256 →
    (c.envState = .init → c.stop = false →
      c.stepEnvelope n b =
        { c with
          envPeak := peak
          envSustain := sustain
          echoLevel := echo
          envCount := 0
          susCount := 0
          fromEnvLevel := 0
          envInterStep := 0
          envLevel := if 0 < c.att.toNat then 0 else if 0 < c.dec.toNat then peak else sustain
          envState := if 0 < c.att.toNat then .atk else if 0 < c.dec.toNat then .dec else .sus }) ∧
    (c.envState ∈ [.atk, .dec, .sus, .rel, .pseudoEcho] → c.envInterStep + 1 < n →
      c.stepEnvelope n b = { c with envInterStep := c.envInterStep + 1 }) ∧
    (n ≤ c.envInterStep + 1 →
      (c.envState = .atk → c.stop = false → ∀ l, l = (if c.envLevel < peak then c.envLevel + 1 else c.envLevel) →
        c.stepEnvelope n b =
          { c with
            envInterStep := 0
            fromEnvLevel := c.envLevel
            envPeak := peak
            envSustain := sustain
            echoLevel := echo
            envCount := if c.envCount + 1 < c.att.toNat then c.envCount + 1 else 0
            envLevel :=
              if c.envCount + 1 < c.att.toNat then c.envLevel
              else if l < peak then l else if c.dec.toNat = 0 then sustain else l
            envState :=
              if c.envCount + 1 < c.att.toNat then .atk
              else if l < peak then .atk else if c.dec.toNat = 0 then .sus else .dec }) ∧
      (c.envState = .dec → c.stop = false → ∀ l, l = (if sustain < c.envLevel then c.envLevel - 1 else c.envLevel) →
        c.stepEnvelope n b =
          { c with
            envInterStep := 0
            fromEnvLevel := c.envLevel
            envPeak := peak
            envSustain := sustain
            echoLevel := echo
            envCount := if c.envCount + 1 < c.dec.toNat then c.envCount + 1 else 0
            envLevel := if c.envCount + 1 < c.dec.toNat then c.envLevel else l
            envState := if c.envCount + 1 < c.dec.toNat then .dec else if l ≤ sustain then .sus else .dec }) ∧
      (c.envState = .sus → c.stop = false →
        c.stepEnvelope n b =
          { c with
            envInterStep := 0
            fromEnvLevel := c.envLevel
            envPeak := peak
            envSustain := sustain
            echoLevel := echo
            susCount := if b = false ∨ 7 ≤ c.susCount + 1 then 0 else c.susCount + 1
            envLevel := if b = false ∨ 7 ≤ c.susCount + 1 then sustain else c.envLevel }) ∧
      (c.stop = true → c.envState ∈ [.atk, .dec, .sus] → c.rel.toNat = 0 →
        c.stepEnvelope n b =
          { c with envInterStep := 0, fromEnvLevel := c.envLevel, envCount := 0, envState := .die }) ∧
      (∀ k, (c.envState = .rel ∧ k = c.envCount + 1) ∨
          (c.stop = true ∧ c.envState ∈ [.atk, .dec, .sus] ∧ 0 < c.rel.toNat ∧ k = 1) →
        c.stepEnvelope n b =
          { c with
            envInterStep := 0
            fromEnvLevel := c.envLevel
            envCount := if k < c.rel.toNat then k else 0
            envLevel :=
              if k < c.rel.toNat then c.envLevel
              else if c.echoLevel < c.envLevel - 1 ∨ c.echoLevel = 0 ∨ c.echoLen.toNat = 0 then c.envLevel - 1
              else c.echoLevel
            envState :=
              if k < c.rel.toNat then .rel
              else if c.echoLevel < c.envLevel - 1 then .rel
              else if c.echoLevel = 0 ∨ c.echoLen.toNat = 0 then .die
              else .pseudoEcho }) ∧
      (c.envState = .pseudoEcho →
        c.stepEnvelope n b =
          { c with
            envInterStep := 0
            fromEnvLevel := c.envLevel
            echoLen := c.echoLen - 1
            envState := if c.echoLen.toNat = 1 then .die else .pseudoEcho }))

/-- R178: while the state stays ATK the level does not fall; while it stays DEC or REL it does not rise. -/
def Obligations.EnvelopeLevelMonotone : Prop :=
  ∀ (n : Nat) (b : Bool) (c : Chan),
    (c.envState = .atk → (c.stepEnvelope n b).envState = .atk → c.envLevel ≤ (c.stepEnvelope n b).envLevel) ∧
    (c.envState = .dec → (c.stepEnvelope n b).envState = .dec → (c.stepEnvelope n b).envLevel ≤ c.envLevel) ∧
    (c.envState = .rel → (c.stepEnvelope n b).envState = .rel → (c.stepEnvelope n b).envLevel ≤ c.envLevel)

/-- R174 to R177, R207, R214, R249, R259, R260: the sounding part of a channel's tick: the increment, n output frames with
the gain ramped linearly from the last tick's target to this tick's, the source time advanced by n increments. Frame k is read
at the source time c.t + k × inc as the model computes it, whose real value is that sum and whose form is canonical if c.t's
is, as the new source time's is. -/
def Obligations.ChannelOutputRamp : Prop :=
  ∀ (a : TickArgs) (src : Source) (c d : Chan) (frames : List Frame),
    c.render a src = (d, frames) →
      frames.length = a.n ∧ d.inc.toReal = (c.rateHz a.par a.fixedRate).toReal / a.rate.toNat ∧
      d.inc.wf = true ∧ d.t.toReal = c.t.toReal + a.n * d.inc.toReal ∧ (c.t.wf = true → d.t.wf = true) ∧
      d.lastGainL = gainRule a c c.leftVol .right ∧ d.lastGainR = gainRule a c c.rightVol .left ∧
      ∀ (k : Nat) (τ : Alg), k < a.n → τ = c.t.add (d.inc.smul k) → ∃ f, frames[k]? = some f ∧
        τ.toReal = c.t.toReal + k * d.inc.toReal ∧ (c.t.wf = true → τ.wf = true) ∧
        f.l.toReal = (kernelAt a.par.sincHalf c.rsKind (c.source a src) τ d.inc).toReal *
          (((c.lastGainL + (d.lastGainL - c.lastGainL) * (k / a.n) : Rat)) : ℝ) ∧
        f.r.toReal = (kernelAt a.par.sincHalf c.rsKind (c.source a src) τ d.inc).toReal *
          (((c.lastGainR + (d.lastGainR - c.lastGainR) * (k / a.n) : Rat)) : ℝ)

/-! ## Resamplers and exact numbers -/

/-- R292, R293, R294: NEAREST, LINEAR and CUBIC at the source time τ, with j and f the model's floor and fraction of τ; at a
rational τ that floor is the floor. -/
def Obligations.PolynomialKernels : Prop :=
  (∀ q : Rat, (Alg.ofRat q).floor = ⌊q⌋) ∧
  ∀ (half : Nat) (x : Int → Rat) (τ inc : Alg) (j : Int) (f : ℝ), j = τ.floor → f = τ.toReal - j →
    (kernelAt half .nearest x τ inc).toReal = x j ∧
    (kernelAt half .linear x τ inc).toReal = x j + f * (x (j + 1) - x j) ∧
    (kernelAt half .cubic x τ inc).toReal =
      x j + 1 / 2 * f * ((x (j + 1) - x (j - 1)) +
        f * ((2 * x (j - 1) - 5 * x j + 4 * x (j + 1) - x (j + 2)) +
          f * (3 * (x j - x (j + 1)) + x (j + 2) - x (j - 1))))

/-- R299: a constant source gives that constant, and as many values as were asked for. NEAREST, LINEAR and CUBIC at any source
time; SINC where its weights do not sum to 0; BLEP and BLAMP at any source time below the model's floor of it and 1, where the
integral of the kernel is not 0; BLEP at a rational source time wherever SINC_HALF is not 0, as it is in no block. -/
def Obligations.ResamplersPreserveConstants : Prop :=
  ∀ (half : Nat) (x : Int → Rat) (C : Rat) (inc : Alg), (∀ j, x j = C) →
    (∀ (kind : ResKind) (t : Alg) (n : Nat), (resample half kind x t inc n).length = n) ∧
    (∀ τ : Alg, (kernelAt half .nearest x τ inc).toReal = C ∧ (kernelAt half .linear x τ inc).toReal = C ∧
      (kernelAt half .cubic x τ inc).toReal = C) ∧
    (∀ τ : Alg, inc.wf = true → 0 < inc.toReal →
      ((List.range (2 * half)).map fun i : Nat =>
        kernelH half inc.toReal (τ.toReal - (τ.floor - half + 1 + i : Int))).sum ≠ 0 →
      (kernelAt half .sinc x τ inc).toReal = C) ∧
    (∀ τ : Alg, τ.wf = true → τ.toReal < τ.floor + 1 → kernelMass half inc.toReal ≠ 0 →
      (kernelAt half .blep x τ inc).toReal = C ∧ (kernelAt half .blamp x τ inc).toReal = C) ∧
    (0 < half → ∀ q : Rat, (kernelAt half .blep x (Alg.ofRat q) inc).toReal = C)

/-- R295, R296, R297: SINC, BLEP and BLAMP at any source time τ and positive increment, with j the model's floor of τ: the
weighted sums of the rules, with the real kernels h, Hn and (triangle * hn). At an increment of at most 1 SINC at an integer
source time returns the source value there. BLAMP's weights outside the sum are 0 where that floor is right. -/
def Obligations.BandLimitedKernels : Prop :=
  (∀ (half : Nat) (x : Int → Rat) (τ inc : Alg) (j : Int), τ.wf = true → inc.wf = true → 0 < inc.toReal → j = τ.floor →
    (kernelAt half .sinc x τ inc).toReal =
      ((List.range (2 * half)).map fun i : Nat =>
        (x (j - half + 1 + i) : ℝ) * kernelH half inc.toReal (τ.toReal - (j - half + 1 + i : Int))).sum /
      ((List.range (2 * half)).map fun i : Nat => kernelH half inc.toReal (τ.toReal - (j - half + 1 + i : Int))).sum ∧
    (kernelMass half inc.toReal ≠ 0 →
      (kernelAt half .blep x τ inc).toReal =
        ((List.range (2 * half + 1)).map fun i : Nat =>
          (x (j - half + i) : ℝ) * (kernelHn half inc.toReal (τ.toReal - (j - half + i : Int)) -
            kernelHn half inc.toReal (τ.toReal - (j - half + i : Int) - 1))).sum) ∧
    (kernelAt half .blamp x τ inc).toReal =
      ((List.range (2 * half + 2)).map fun i : Nat =>
        (x (j - half + i) : ℝ) * kernelTri half inc.toReal (τ.toReal - (j - half + i : Int))).sum ∧
    ((j : ℝ) ≤ τ.toReal → τ.toReal < j + 1 →
      ∀ k : Int, k < j - half ∨ j + half + 1 < k → kernelTri half inc.toReal (τ.toReal - k) = 0)) ∧
  (∀ (half : Nat) (x : Int → Rat) (inc : Rat) (m : Int), 0 < half → 0 < inc → inc ≤ 1 →
    (kernelAt half .sinc x (Alg.ofRat m) (Alg.ofRat inc)).toReal = x m)

/-- R9: the interval that the floor is read from holds the number, so the floor is right wherever its two ends agree. -/
def Obligations.FloorIsReadFromAnEnclosure : Prop :=
  ∀ a : Alg, a.wf = true →
    (∀ P, (((a.bounds P).1 : Rat) : ℝ) ≤ a.toReal ∧ a.toReal ≤ (((a.bounds P).2 : Rat) : ℝ)) ∧
    (∀ P, (a.bounds P).1.floor = (a.bounds P).2.floor → ∀ fuel, a.floorLoop fuel P = ⌊a.toReal⌋)

/-! ## The host side and the step -/

/-- R100, R120, R122, R443: a step runs the decoded command. The order inside a step and `withFetchWord` are the model's choice,
log entry 8 (DESIGN CHOICE); that an incomplete command waits is log entry 15 (DEDUCED). After the other agents' turn, if no frames wait for the ring
buffer, it services the rendezvous and runs exactly the command at the front of the stream, its words consumed; with no whole
command there it is idle; an unknown opcode costs one word. With nothing pending and no turn to come that command is the one
at the front now; and placing a table word makes the next step run it. -/
def Obligations.StepRunsTheDecodedCommand : Prop :=
  (∀ (s u : State) (i : Instr) (n : Nat),
    s.port.hostTurn.pending = [] → u = s.setPort s.port.hostTurn.service →
    (decode u.port.cmds = .instr i n → step s = exec i (u.consume n)) ∧
    (decode u.port.cmds = .incomplete → step s = .next u) ∧
    (decode u.port.cmds = .badOpcode → step s = .next ((u.rejectedWith .badOpcode).consume 1))) ∧
  (∀ (s : State) (i : Instr) (n : Nat),
    s.port.pending = [] → s.port.turns = [] → s.port.invocation = none → s.port.callers = [] →
    decode s.port.cmds = .instr i n → step s = exec i (s.consume n)) ∧
  (∀ (s : State) (nbits w : Nat) (i : Instr), decodeTableWord nbits w = some i →
    ∃ n, step (s.withFetchWord nbits w) = exec i ((s.withFetchWord nbits w).consume n))

/-- R436: while a tick's frames do not fit, the render agent waits and no block state changes; they enter the queue as soon
as all of them fit, in order; the queue never exceeds its capacity. -/
def Obligations.RenderAgentWaitsForRoom : Prop :=
  (∀ s : State, s.port.hostTurn.pending ≠ [] → ∃ t, step s = .next t ∧ s.SameBlock t) ∧
  (∀ p : Port,
    (p.ring.length + p.pending.length ≤ ringFrames →
      p.flush = { p with ring := p.ring ++ p.pending, pending := [] }) ∧
    (ringFrames < p.ring.length + p.pending.length → p.flush = p)) ∧
  (∀ s t : State, s.RingBounded → step s = .next t → t.RingBounded)

/-- R437: a request of the audio agent for m frames. -/
def Obligations.AudioRequestRule : Prop :=
  ∀ (p : Port) (m : Nat),
    (m ≤ p.ring.length →
      p.agent (.audio m) = { p with heard := p.ring.take m, ring := p.ring.drop m }) ∧
    (p.ring.length < m → p.agent (.audio m) = { p with heard := List.replicate m Frame.zero })

/-- R438, R437, R378: every frame is delivered once and in order. Over any step, the queue and the waiting frames, followed by
what the step produced, are what was delivered to the audio agent, followed by the new queue and the new waiting frames.
Delivered are the oldest m queued frames if the other agent's turn is a request for m and they are there, and none else;
produced are the frames of an accepted MX_TICK, which on the export path are returned to the export caller instead. What the
audio agent has received last changes with its requests only. The order inside a step is log entry 8 (DESIGN CHOICE). -/
def Obligations.FramesDeliveredOnceInOrder : Prop :=
  ∀ (s t : State) (produced exported : List Frame), step s = .next t →
    produced =
      (if s.commandOfStep = some (.mxTick 0 0) ∧ s.port.hostTurn.exporting = false then t.mx.master else []) →
    exported =
      (if s.commandOfStep = some (.mxTick 0 0) ∧ s.port.hostTurn.exporting = true then t.mx.master else s.port.returned) →
      s.port.ring ++ s.port.pending ++ produced = s.delivered ++ (t.port.ring ++ t.port.pending) ∧
      t.port.heard = s.heardNext ∧ t.port.returned = exported ∧ t.port.exporting = s.port.hostTurn.exporting

/-- R435: invocations are serviced one at a time, between two commands: a caller enters the slot only when it is free. That a
pending invocation is serviced before the render agent's own next command, and that the longest waiting caller comes first,
are the model's choices, log entry 8 (DESIGN CHOICE); R435 fixes neither. -/
def Obligations.RendezvousServicedFirst : Prop :=
  (∀ (s : State) (ws : List Word) (i : Instr) (n : Nat),
    s.port.pending = [] → s.port.turns = [] → s.port.invocation = some ws → decode ws = .instr i n →
      step s = exec i ((s.setPort { s.port with cmds := ws ++ s.port.cmds, invocation := none }).consume n)) ∧
  (∀ (p : Port) (ws : List Word), p.invocation = some ws → p.takeSlot = p) ∧
  (∀ (p : Port) (ws : List Word) (rest : List (List Word)), p.invocation = none → p.callers = ws :: rest →
    p.takeSlot = { p with invocation := some ws, callers := rest })

/-! ## Invariants -/

/-- The state after power-on is a good state, and its queue is within its capacity. -/
def Obligations.InvariantAtReset : Prop := State.reset.Inv ∧ State.reset.RingBounded

/-- Every step keeps a good state good: legal parameters and configuration, channel fields, levels and counters in their
ranges, no negative gain, a frequency for every PCM channel that needs one, loops that end after their start, an active sweep with a time and a
clock that is not negative, whole wave tables, validated footprints, no live DEAD channel, reverb geometry with both positions
inside canonical buffers, the fade position in [0, 1], canonical source times and byte source (R39, R43, R44, R46, R58, R62,
R86, R178, R200, R201, R246, R251, R340, R366). -/
def Obligations.InvariantKeptByEveryStep : Prop :=
  ∀ s t : State, s.Inv → step s = .next t → t.Inv

/-- R80, R414: from a state with valid footprints the block never stops, and no step writes the byte source. -/
def Obligations.StepNeverStopsAndOnlyReads : Prop :=
  ∀ s : State,
    (s.FootprintsValid → stepsOn (step s)) ∧ (∀ t, step s = .next t → SameSource s t)
end

