-- ==== Sys2Proof/Laws/State.lean ====
section
/-! SUPPORT. One lemma per field per update, each true by `rfl`, so that no proof unfolds a record update. -/

namespace Sys2Proof.Machine

open Sys2Proof

/-! ## `State.setCfg` -/

@[simp] theorem State.setCfg_par (s : State) (x : Cfg) : (s.setCfg x).par = s.par := rfl
@[simp] theorem State.setCfg_cfg (s : State) (x : Cfg) : (s.setCfg x).cfg = x := rfl
@[simp] theorem State.setCfg_chans (s : State) (x : Cfg) : (s.setCfg x).chans = s.chans := rfl
@[simp] theorem State.setCfg_tracks (s : State) (x : Cfg) : (s.setCfg x).tracks = s.tracks := rfl
@[simp] theorem State.setCfg_reverbs (s : State) (x : Cfg) : (s.setCfg x).reverbs = s.reverbs := rfl
@[simp] theorem State.setCfg_mx (s : State) (x : Cfg) : (s.setCfg x).mx = s.mx := rfl
@[simp] theorem State.setCfg_src (s : State) (x : Cfg) : (s.setCfg x).src = s.src := rfl
@[simp] theorem State.setCfg_port (s : State) (x : Cfg) : (s.setCfg x).port = s.port := rfl

/-! ## `State.setChans` -/

@[simp] theorem State.setChans_par (s : State) (x : List Chan) : (s.setChans x).par = s.par := rfl
@[simp] theorem State.setChans_cfg (s : State) (x : List Chan) : (s.setChans x).cfg = s.cfg := rfl
@[simp] theorem State.setChans_chans (s : State) (x : List Chan) : (s.setChans x).chans = x := rfl
@[simp] theorem State.setChans_tracks (s : State) (x : List Chan) : (s.setChans x).tracks = s.tracks := rfl
@[simp] theorem State.setChans_reverbs (s : State) (x : List Chan) : (s.setChans x).reverbs = s.reverbs := rfl
@[simp] theorem State.setChans_mx (s : State) (x : List Chan) : (s.setChans x).mx = s.mx := rfl
@[simp] theorem State.setChans_src (s : State) (x : List Chan) : (s.setChans x).src = s.src := rfl
@[simp] theorem State.setChans_port (s : State) (x : List Chan) : (s.setChans x).port = s.port := rfl

/-! ## `State.setTracks` -/

@[simp] theorem State.setTracks_par (s : State) (x : List Track) : (s.setTracks x).par = s.par := rfl
@[simp] theorem State.setTracks_cfg (s : State) (x : List Track) : (s.setTracks x).cfg = s.cfg := rfl
@[simp] theorem State.setTracks_chans (s : State) (x : List Track) : (s.setTracks x).chans = s.chans := rfl
@[simp] theorem State.setTracks_tracks (s : State) (x : List Track) : (s.setTracks x).tracks = x := rfl
@[simp] theorem State.setTracks_reverbs (s : State) (x : List Track) : (s.setTracks x).reverbs = s.reverbs := rfl
@[simp] theorem State.setTracks_mx (s : State) (x : List Track) : (s.setTracks x).mx = s.mx := rfl
@[simp] theorem State.setTracks_src (s : State) (x : List Track) : (s.setTracks x).src = s.src := rfl
@[simp] theorem State.setTracks_port (s : State) (x : List Track) : (s.setTracks x).port = s.port := rfl

/-! ## `State.setReverbs` -/

@[simp] theorem State.setReverbs_par (s : State) (x : List Reverb) : (s.setReverbs x).par = s.par := rfl
@[simp] theorem State.setReverbs_cfg (s : State) (x : List Reverb) : (s.setReverbs x).cfg = s.cfg := rfl
@[simp] theorem State.setReverbs_chans (s : State) (x : List Reverb) : (s.setReverbs x).chans = s.chans := rfl
@[simp] theorem State.setReverbs_tracks (s : State) (x : List Reverb) : (s.setReverbs x).tracks = s.tracks := rfl
@[simp] theorem State.setReverbs_reverbs (s : State) (x : List Reverb) : (s.setReverbs x).reverbs = x := rfl
@[simp] theorem State.setReverbs_mx (s : State) (x : List Reverb) : (s.setReverbs x).mx = s.mx := rfl
@[simp] theorem State.setReverbs_src (s : State) (x : List Reverb) : (s.setReverbs x).src = s.src := rfl
@[simp] theorem State.setReverbs_port (s : State) (x : List Reverb) : (s.setReverbs x).port = s.port := rfl

/-! ## `State.setMx` -/

@[simp] theorem State.setMx_par (s : State) (x : Mixer) : (s.setMx x).par = s.par := rfl
@[simp] theorem State.setMx_cfg (s : State) (x : Mixer) : (s.setMx x).cfg = s.cfg := rfl
@[simp] theorem State.setMx_chans (s : State) (x : Mixer) : (s.setMx x).chans = s.chans := rfl
@[simp] theorem State.setMx_tracks (s : State) (x : Mixer) : (s.setMx x).tracks = s.tracks := rfl
@[simp] theorem State.setMx_reverbs (s : State) (x : Mixer) : (s.setMx x).reverbs = s.reverbs := rfl
@[simp] theorem State.setMx_mx (s : State) (x : Mixer) : (s.setMx x).mx = x := rfl
@[simp] theorem State.setMx_src (s : State) (x : Mixer) : (s.setMx x).src = s.src := rfl
@[simp] theorem State.setMx_port (s : State) (x : Mixer) : (s.setMx x).port = s.port := rfl

/-! ## `State.setPort` -/

@[simp] theorem State.setPort_par (s : State) (x : Port) : (s.setPort x).par = s.par := rfl
@[simp] theorem State.setPort_cfg (s : State) (x : Port) : (s.setPort x).cfg = s.cfg := rfl
@[simp] theorem State.setPort_chans (s : State) (x : Port) : (s.setPort x).chans = s.chans := rfl
@[simp] theorem State.setPort_tracks (s : State) (x : Port) : (s.setPort x).tracks = s.tracks := rfl
@[simp] theorem State.setPort_reverbs (s : State) (x : Port) : (s.setPort x).reverbs = s.reverbs := rfl
@[simp] theorem State.setPort_mx (s : State) (x : Port) : (s.setPort x).mx = s.mx := rfl
@[simp] theorem State.setPort_src (s : State) (x : Port) : (s.setPort x).src = s.src := rfl
@[simp] theorem State.setPort_port (s : State) (x : Port) : (s.setPort x).port = x := rfl

/-! ## `State.withSource` -/

@[simp] theorem State.withSource_par (s : State) (x : Source) : (s.withSource x).par = s.par := rfl
@[simp] theorem State.withSource_cfg (s : State) (x : Source) : (s.withSource x).cfg = s.cfg := rfl
@[simp] theorem State.withSource_chans (s : State) (x : Source) : (s.withSource x).chans = s.chans := rfl
@[simp] theorem State.withSource_tracks (s : State) (x : Source) : (s.withSource x).tracks = s.tracks := rfl
@[simp] theorem State.withSource_reverbs (s : State) (x : Source) : (s.withSource x).reverbs = s.reverbs := rfl
@[simp] theorem State.withSource_mx (s : State) (x : Source) : (s.withSource x).mx = s.mx := rfl
@[simp] theorem State.withSource_src (s : State) (x : Source) : (s.withSource x).src = x := rfl
@[simp] theorem State.withSource_port (s : State) (x : Source) : (s.withSource x).port = s.port := rfl

/-! ## `State.setChan`, `State.setTrack`, `State.consume`, `State.withCommands`, `reject` -/

@[simp] theorem State.setChan_par (s : State) (i : Nat) (c : Chan) : (s.setChan i c).par = s.par := rfl
@[simp] theorem State.setChan_cfg (s : State) (i : Nat) (c : Chan) : (s.setChan i c).cfg = s.cfg := rfl
@[simp] theorem State.setChan_chans (s : State) (i : Nat) (c : Chan) : (s.setChan i c).chans = s.chans.set i c := rfl
@[simp] theorem State.setChan_tracks (s : State) (i : Nat) (c : Chan) : (s.setChan i c).tracks = s.tracks := rfl
@[simp] theorem State.setChan_reverbs (s : State) (i : Nat) (c : Chan) : (s.setChan i c).reverbs = s.reverbs := rfl
@[simp] theorem State.setChan_mx (s : State) (i : Nat) (c : Chan) : (s.setChan i c).mx = s.mx := rfl
@[simp] theorem State.setChan_src (s : State) (i : Nat) (c : Chan) : (s.setChan i c).src = s.src := rfl
@[simp] theorem State.setChan_port (s : State) (i : Nat) (c : Chan) : (s.setChan i c).port = s.port := rfl

@[simp] theorem State.setTrack_par (s : State) (k : Nat) (x : Track) : (s.setTrack k x).par = s.par := rfl
@[simp] theorem State.setTrack_cfg (s : State) (k : Nat) (x : Track) : (s.setTrack k x).cfg = s.cfg := rfl
@[simp] theorem State.setTrack_chans (s : State) (k : Nat) (x : Track) : (s.setTrack k x).chans = s.chans := rfl
@[simp] theorem State.setTrack_tracks (s : State) (k : Nat) (x : Track) : (s.setTrack k x).tracks = s.tracks.set k x := rfl
@[simp] theorem State.setTrack_reverbs (s : State) (k : Nat) (x : Track) : (s.setTrack k x).reverbs = s.reverbs := rfl
@[simp] theorem State.setTrack_mx (s : State) (k : Nat) (x : Track) : (s.setTrack k x).mx = s.mx := rfl
@[simp] theorem State.setTrack_src (s : State) (k : Nat) (x : Track) : (s.setTrack k x).src = s.src := rfl
@[simp] theorem State.setTrack_port (s : State) (k : Nat) (x : Track) : (s.setTrack k x).port = s.port := rfl

@[simp] theorem State.consume_par (s : State) (n : Nat) : (s.consume n).par = s.par := rfl
@[simp] theorem State.consume_cfg (s : State) (n : Nat) : (s.consume n).cfg = s.cfg := rfl
@[simp] theorem State.consume_chans (s : State) (n : Nat) : (s.consume n).chans = s.chans := rfl
@[simp] theorem State.consume_tracks (s : State) (n : Nat) : (s.consume n).tracks = s.tracks := rfl
@[simp] theorem State.consume_reverbs (s : State) (n : Nat) : (s.consume n).reverbs = s.reverbs := rfl
@[simp] theorem State.consume_mx (s : State) (n : Nat) : (s.consume n).mx = s.mx := rfl
@[simp] theorem State.consume_src (s : State) (n : Nat) : (s.consume n).src = s.src := rfl
@[simp] theorem State.consume_port_cmds (s : State) (n : Nat) : (s.consume n).port.cmds = s.port.cmds.drop n := rfl
@[simp] theorem State.consume_port_invocation (s : State) (n : Nat) : (s.consume n).port.invocation = s.port.invocation := rfl
@[simp] theorem State.consume_port_callers (s : State) (n : Nat) : (s.consume n).port.callers = s.port.callers := rfl
@[simp] theorem State.consume_port_pending (s : State) (n : Nat) : (s.consume n).port.pending = s.port.pending := rfl
@[simp] theorem State.consume_port_ring (s : State) (n : Nat) : (s.consume n).port.ring = s.port.ring := rfl
@[simp] theorem State.consume_port_heard (s : State) (n : Nat) : (s.consume n).port.heard = s.port.heard := rfl
@[simp] theorem State.consume_port_exporting (s : State) (n : Nat) : (s.consume n).port.exporting = s.port.exporting := rfl
@[simp] theorem State.consume_port_returned (s : State) (n : Nat) : (s.consume n).port.returned = s.port.returned := rfl
@[simp] theorem State.consume_port_turns (s : State) (n : Nat) : (s.consume n).port.turns = s.port.turns := rfl

@[simp] theorem State.withCommands_par (s : State) (ws : List Word) : (s.withCommands ws).par = s.par := rfl
@[simp] theorem State.withCommands_cfg (s : State) (ws : List Word) : (s.withCommands ws).cfg = s.cfg := rfl
@[simp] theorem State.withCommands_chans (s : State) (ws : List Word) : (s.withCommands ws).chans = s.chans := rfl
@[simp] theorem State.withCommands_tracks (s : State) (ws : List Word) : (s.withCommands ws).tracks = s.tracks := rfl
@[simp] theorem State.withCommands_reverbs (s : State) (ws : List Word) : (s.withCommands ws).reverbs = s.reverbs := rfl
@[simp] theorem State.withCommands_mx (s : State) (ws : List Word) : (s.withCommands ws).mx = s.mx := rfl
@[simp] theorem State.withCommands_src (s : State) (ws : List Word) : (s.withCommands ws).src = s.src := rfl
@[simp] theorem State.withCommands_port_cmds (s : State) (ws : List Word) : (s.withCommands ws).port.cmds = ws := rfl
@[simp] theorem State.withCommands_port_invocation (s : State) (ws : List Word) : (s.withCommands ws).port.invocation = none := rfl
@[simp] theorem State.withCommands_port_callers (s : State) (ws : List Word) : (s.withCommands ws).port.callers = [] := rfl
@[simp] theorem State.withCommands_port_pending (s : State) (ws : List Word) : (s.withCommands ws).port.pending = [] := rfl
@[simp] theorem State.withCommands_port_ring (s : State) (ws : List Word) : (s.withCommands ws).port.ring = s.port.ring := rfl
@[simp] theorem State.withCommands_port_heard (s : State) (ws : List Word) : (s.withCommands ws).port.heard = s.port.heard := rfl
@[simp] theorem State.withCommands_port_exporting (s : State) (ws : List Word) : (s.withCommands ws).port.exporting = s.port.exporting := rfl
@[simp] theorem State.withCommands_port_returned (s : State) (ws : List Word) : (s.withCommands ws).port.returned = s.port.returned := rfl
@[simp] theorem State.withCommands_port_turns (s : State) (ws : List Word) : (s.withCommands ws).port.turns = [] := rfl

@[simp] theorem reject_par (e : ErrCode) (s : State) : (reject e s).par = s.par := rfl
@[simp] theorem reject_cfg (e : ErrCode) (s : State) : (reject e s).cfg = s.cfg := rfl
@[simp] theorem reject_chans (e : ErrCode) (s : State) : (reject e s).chans = s.chans := rfl
@[simp] theorem reject_tracks (e : ErrCode) (s : State) : (reject e s).tracks = s.tracks := rfl
@[simp] theorem reject_reverbs (e : ErrCode) (s : State) : (reject e s).reverbs = s.reverbs := rfl
@[simp] theorem reject_src (e : ErrCode) (s : State) : (reject e s).src = s.src := rfl
@[simp] theorem reject_port (e : ErrCode) (s : State) : (reject e s).port = s.port := rfl
@[simp] theorem reject_mx_rate (e : ErrCode) (s : State) : (reject e s).mx.rate = s.mx.rate := rfl
@[simp] theorem reject_mx_tickCount (e : ErrCode) (s : State) : (reject e s).mx.tickCount = s.mx.tickCount := rfl
@[simp] theorem reject_mx_fadeState (e : ErrCode) (s : State) : (reject e s).mx.fadeState = s.mx.fadeState := rfl
@[simp] theorem reject_mx_fadePos (e : ErrCode) (s : State) : (reject e s).mx.fadePos = s.mx.fadePos := rfl
@[simp] theorem reject_mx_fadeStep (e : ErrCode) (s : State) : (reject e s).mx.fadeStep = s.mx.fadeStep := rfl
@[simp] theorem reject_mx_fadeDone (e : ErrCode) (s : State) : (reject e s).mx.fadeDone = s.mx.fadeDone := rfl
@[simp] theorem reject_mx_master (e : ErrCode) (s : State) : (reject e s).mx.master = s.mx.master := rfl
@[simp] theorem reject_mx_lastErr (e : ErrCode) (s : State) : (reject e s).mx.lastErr = some e := rfl
@[simp] theorem reject_mx_errCount (e : ErrCode) (s : State) : (reject e s).mx.errCount = satIncr s.mx.errCount := rfl

/-! ## How many slots and tracks there are -/

@[simp] theorem State.chSlots_setCfg (s : State) (x : Cfg) : (s.setCfg x).chSlots = s.chSlots := rfl
@[simp] theorem State.chSlots_setTracks (s : State) (x : List Track) : (s.setTracks x).chSlots = s.chSlots := rfl
@[simp] theorem State.chSlots_setReverbs (s : State) (x : List Reverb) : (s.setReverbs x).chSlots = s.chSlots := rfl
@[simp] theorem State.chSlots_setMx (s : State) (x : Mixer) : (s.setMx x).chSlots = s.chSlots := rfl
@[simp] theorem State.chSlots_setPort (s : State) (x : Port) : (s.setPort x).chSlots = s.chSlots := rfl
@[simp] theorem State.chSlots_consume (s : State) (n : Nat) : (s.consume n).chSlots = s.chSlots := rfl
@[simp] theorem State.nTracks_setCfg (s : State) (x : Cfg) : (s.setCfg x).nTracks = s.nTracks := rfl
@[simp] theorem State.nTracks_setChans (s : State) (x : List Chan) : (s.setChans x).nTracks = s.nTracks := rfl
@[simp] theorem State.nTracks_setReverbs (s : State) (x : List Reverb) : (s.setReverbs x).nTracks = s.nTracks := rfl
@[simp] theorem State.nTracks_setMx (s : State) (x : Mixer) : (s.setMx x).nTracks = s.nTracks := rfl
@[simp] theorem State.nTracks_setPort (s : State) (x : Port) : (s.setPort x).nTracks = s.nTracks := rfl
@[simp] theorem State.nTracks_consume (s : State) (n : Nat) : (s.consume n).nTracks = s.nTracks := rfl
@[simp] theorem State.chSlots_reject (e : ErrCode) (s : State) : (reject e s).chSlots = s.chSlots := rfl
@[simp] theorem State.nTracks_reject (e : ErrCode) (s : State) : (reject e s).nTracks = s.nTracks := rfl
@[simp] theorem State.chSlots_setChan (s : State) (i : Nat) (c : Chan) : (s.setChan i c).chSlots = s.chSlots := List.length_set
@[simp] theorem State.nTracks_setChan (s : State) (i : Nat) (c : Chan) : (s.setChan i c).nTracks = s.nTracks := rfl
@[simp] theorem State.chSlots_setTrack (s : State) (k : Nat) (x : Track) : (s.setTrack k x).chSlots = s.chSlots := rfl
@[simp] theorem State.nTracks_setTrack (s : State) (k : Nat) (x : Track) : (s.setTrack k x).nTracks = s.nTracks := List.length_set

/-! ## Reads of a slot, a track, an instance -/

@[simp] theorem State.chan_setCfg (s : State) (x : Cfg) (i : Nat) : (s.setCfg x).chan i = s.chan i := rfl
@[simp] theorem State.track_setCfg (s : State) (x : Cfg) (i : Nat) : (s.setCfg x).track i = s.track i := rfl
@[simp] theorem State.reverb_setCfg (s : State) (x : Cfg) (i : Nat) : (s.setCfg x).reverb i = s.reverb i := rfl
@[simp] theorem State.track_setChans (s : State) (x : List Chan) (i : Nat) : (s.setChans x).track i = s.track i := rfl
@[simp] theorem State.reverb_setChans (s : State) (x : List Chan) (i : Nat) : (s.setChans x).reverb i = s.reverb i := rfl
@[simp] theorem State.chan_setTracks (s : State) (x : List Track) (i : Nat) : (s.setTracks x).chan i = s.chan i := rfl
@[simp] theorem State.reverb_setTracks (s : State) (x : List Track) (i : Nat) : (s.setTracks x).reverb i = s.reverb i := rfl
@[simp] theorem State.chan_setReverbs (s : State) (x : List Reverb) (i : Nat) : (s.setReverbs x).chan i = s.chan i := rfl
@[simp] theorem State.track_setReverbs (s : State) (x : List Reverb) (i : Nat) : (s.setReverbs x).track i = s.track i := rfl
@[simp] theorem State.chan_setMx (s : State) (x : Mixer) (i : Nat) : (s.setMx x).chan i = s.chan i := rfl
@[simp] theorem State.track_setMx (s : State) (x : Mixer) (i : Nat) : (s.setMx x).track i = s.track i := rfl
@[simp] theorem State.reverb_setMx (s : State) (x : Mixer) (i : Nat) : (s.setMx x).reverb i = s.reverb i := rfl
@[simp] theorem State.chan_setPort (s : State) (x : Port) (i : Nat) : (s.setPort x).chan i = s.chan i := rfl
@[simp] theorem State.track_setPort (s : State) (x : Port) (i : Nat) : (s.setPort x).track i = s.track i := rfl
@[simp] theorem State.reverb_setPort (s : State) (x : Port) (i : Nat) : (s.setPort x).reverb i = s.reverb i := rfl
@[simp] theorem State.chan_withSource (s : State) (x : Source) (i : Nat) : (s.withSource x).chan i = s.chan i := rfl
@[simp] theorem State.track_withSource (s : State) (x : Source) (i : Nat) : (s.withSource x).track i = s.track i := rfl
@[simp] theorem State.reverb_withSource (s : State) (x : Source) (i : Nat) : (s.withSource x).reverb i = s.reverb i := rfl
@[simp] theorem State.chan_reject (e : ErrCode) (s : State) (i : Nat) : (reject e s).chan i = s.chan i := rfl
@[simp] theorem State.chan_consume (s : State) (n i : Nat) : (s.consume n).chan i = s.chan i := rfl
@[simp] theorem State.track_reject (e : ErrCode) (s : State) (i : Nat) : (reject e s).track i = s.track i := rfl
@[simp] theorem State.track_consume (s : State) (n i : Nat) : (s.consume n).track i = s.track i := rfl
@[simp] theorem State.reverb_reject (e : ErrCode) (s : State) (i : Nat) : (reject e s).reverb i = s.reverb i := rfl
@[simp] theorem State.reverb_consume (s : State) (n i : Nat) : (s.consume n).reverb i = s.reverb i := rfl
@[simp] theorem State.track_setChan (s : State) (i k : Nat) (c : Chan) : (s.setChan i c).track k = s.track k := rfl
@[simp] theorem State.reverb_setChan (s : State) (i k : Nat) (c : Chan) : (s.setChan i c).reverb k = s.reverb k := rfl
@[simp] theorem State.chan_setTrack (s : State) (i k : Nat) (x : Track) : (s.setTrack k x).chan i = s.chan i := rfl
@[simp] theorem State.reverb_setTrack (s : State) (i k : Nat) (x : Track) : (s.setTrack k x).reverb i = s.reverb i := rfl

end Sys2Proof.Machine
end

