-- ==== Sys2Proof/Laws/Ops.lean ====
section
/-! SUPPORT. One lemma per shared operation that says all it can do: lists, slots, rejection, the byte source, circular
buffers, the ring buffer and the rendezvous. -/

namespace Sys2Proof

/-! ## Lists read by position -/

theorem getD_mem {α : Type} (b : List α) {i : Nat} (h : i < b.length) (d : α) : b.getD i d ∈ b := by
  simp [List.getD_eq_getElem?_getD, List.getElem?_eq_getElem h]

theorem getD_of_le {α : Type} (b : List α) {i : Nat} (h : b.length ≤ i) (d : α) : b.getD i d = d := by
  simp [List.getD_eq_getElem?_getD, List.getElem?_eq_none h]

theorem exists_getD_of_mem {α : Type} {b : List α} {x : α} (h : x ∈ b) (d : α) : ∃ i, i < b.length ∧ b.getD i d = x := by
  obtain ⟨i, hi, rfl⟩ := List.mem_iff_getElem.mp h
  exact ⟨i, hi, by simp [List.getD_eq_getElem?_getD, List.getElem?_eq_getElem hi]⟩

theorem ext_getD {α : Type} {a b : List α} (d : α) (hl : a.length = b.length)
    (h : ∀ i, i < a.length → a.getD i d = b.getD i d) : a = b := by
  apply List.ext_getElem hl
  intro i h1 h2
  simpa [List.getD_eq_getElem?_getD, List.getElem?_eq_getElem h1, List.getElem?_eq_getElem h2] using h i h1

theorem getD_set_self {α : Type} (b : List α) {i : Nat} (h : i < b.length) (x d : α) : (b.set i x).getD i d = x := by
  simp [List.getD_eq_getElem?_getD, h]

theorem getD_set_ne {α : Type} (b : List α) {i u : Nat} (h : u ≠ i) (x d : α) : (b.set i x).getD u d = b.getD u d := by
  simp [List.getD_eq_getElem?_getD, List.getElem?_set_ne (Ne.symm h)]

theorem getD_map {α β : Type} (f : α → β) (b : List α) {i : Nat} (h : i < b.length) (d : α) (e : β) :
    (b.map f).getD i e = f (b.getD i d) := by
  simp [List.getD_eq_getElem?_getD, List.getElem?_eq_getElem h]

theorem getElem?_mapFrom {α β : Type} (f : Nat → α → β) (xs : List α) (k i : Nat) :
    (mapFrom f k xs)[i]? = (xs[i]?).map (f (k + i)) := by
  induction xs generalizing k i with
  | nil => simp [mapFrom]
  | cons x xs ih =>
    cases i with
    | zero => simp [mapFrom]
    | succ i => simp [mapFrom, ih, Nat.add_assoc, Nat.add_comm 1 i]

theorem getD_mapFrom {α β : Type} (f : Nat → α → β) (b : List α) {i : Nat} (h : i < b.length) (d : α) (e : β) :
    (mapFrom f 0 b).getD i e = f i (b.getD i d) := by
  simp [List.getD_eq_getElem?_getD, getElem?_mapFrom, List.getElem?_eq_getElem h]

theorem getD_zipWith {α β γ : Type} (f : α → β → γ) (a : List α) (b : List β) {i : Nat} (ha : i < a.length)
    (hb : i < b.length) (d : α) (e : β) (g : γ) : (List.zipWith f a b).getD i g = f (a.getD i d) (b.getD i e) := by
  simp [List.getD_eq_getElem?_getD, List.getElem?_zipWith, List.getElem?_eq_getElem ha, List.getElem?_eq_getElem hb]

end Sys2Proof

namespace Sys2Proof.Machine

open Sys2Proof

/-! ## Slots and tracks -/

theorem State.chan_of_le (s : State) {i : Nat} (h : s.chSlots ≤ i) : s.chan i = .free := getD_of_le _ h _

theorem State.chan_mem (s : State) {i : Nat} (h : i < s.chSlots) : s.chan i ∈ s.chans := getD_mem _ h _

theorem State.exists_chan_of_mem {s : State} {c : Chan} (h : c ∈ s.chans) : ∃ i, i < s.chSlots ∧ s.chan i = c :=
  exists_getD_of_mem h _

/-- A live slot is one of the CH_SLOTS. -/
theorem State.lt_of_live {s : State} {i : Nat} (h : (s.chan i).live = true) : i < s.chSlots := by
  by_contra hn
  rw [s.chan_of_le (Nat.le_of_not_lt hn)] at h
  exact absurd h (by decide)

theorem State.track_of_le (s : State) {k : Nat} (h : s.nTracks ≤ k) : s.track k = .reset := getD_of_le _ h _

theorem State.reverb_of_le (s : State) {k : Nat} (h : s.reverbs.length ≤ k) : s.reverb k = .cleared .noReverb 0 0 :=
  getD_of_le _ h _

theorem State.chan_setChan_self (s : State) {i : Nat} (h : i < s.chSlots) (c : Chan) : (s.setChan i c).chan i = c :=
  getD_set_self _ h _ _

theorem State.chan_setChan_ne (s : State) {i u : Nat} (h : u ≠ i) (c : Chan) : (s.setChan i c).chan u = s.chan u :=
  getD_set_ne _ h _ _

theorem State.track_setTrack_self (s : State) {k : Nat} (h : k < s.nTracks) (x : Track) : (s.setTrack k x).track k = x :=
  getD_set_self _ h _ _

theorem State.track_setTrack_ne (s : State) {k u : Nat} (h : u ≠ k) (x : Track) : (s.setTrack k x).track u = s.track u :=
  getD_set_ne _ h _ _

theorem onlySlot_setChan (s : State) (i : Nat) (c : Chan) : OnlySlot i s (s.setChan i c) where
  par := rfl
  slots := s.chSlots_setChan i c
  cfg := rfl
  tracks := rfl
  reverbs := rfl
  mx := rfl
  source := ⟨rfl, fun _ => rfl⟩
  port := rfl
  others _ h := s.chan_setChan_ne h c

theorem onlyTrack_setTrack (s : State) (k : Nat) (x : Track) : OnlyTrack k s (s.setTrack k x) where
  par := rfl
  count := s.nTracks_setTrack k x
  cfg := rfl
  chans := rfl
  reverbs := rfl
  mx := rfl
  source := ⟨rfl, fun _ => rfl⟩
  port := rfl
  others _ h := s.track_setTrack_ne h x

theorem onlyMixer_setMx (s : State) (m : Mixer) : OnlyMixer s (s.setMx m) where
  par := rfl
  cfg := rfl
  chans := rfl
  tracks := rfl
  reverbs := rfl
  source := ⟨rfl, fun _ => rfl⟩
  port := rfl

/-! ## Rejection -/

/-- ERR_COUNT after a rejection, as R411 writes it. -/
theorem satIncr_eq (n : BitVec 16) : satIncr n = BitVec.ofNat 16 (min 0xFFFF (n.toNat + 1)) := by
  unfold satIncr
  split
  · next h => subst h; rfl
  · next h =>
    have hn : n.toNat ≠ 65535 := fun e => h (BitVec.eq_of_toNat_eq e)
    apply BitVec.eq_of_toNat_eq
    simp
    omega

theorem reject_eq_rejectedWith (e : ErrCode) (s : State) : reject e s = s.rejectedWith e := by
  simp only [reject, State.rejectedWith, State.setMx, satIncr_eq]

@[simp] theorem firstError_nil : firstError [] = none := rfl

@[simp] theorem firstError_cons (b : Bool) (e : ErrCode) (r : List (Bool × ErrCode)) :
    firstError ((b, e) :: r) = if b = true then some e else firstError r := by
  cases b <;> rfl

theorem firstError_append (a b : List (Bool × ErrCode)) : firstError (a ++ b) = (firstError a).or (firstError b) := by
  induction a with
  | nil => rfl
  | cons x r ih =>
    obtain ⟨c, e⟩ := x
    cases c <;> simp [ih]

/-- All that `checked` can answer. -/
theorem checked_eq (cs : List (Bool × ErrCode)) (s t : State) :
    checked cs s t = .next (match firstError cs with | some e => reject e s | none => t) := by
  unfold checked
  cases firstError cs <;> rfl

theorem checked_of_none {cs : List (Bool × ErrCode)} (h : firstError cs = none) (s t : State) : checked cs s t = .next t := by
  rw [checked_eq, h]

theorem checked_of_some {cs : List (Bool × ErrCode)} {e : ErrCode} (h : firstError cs = some e) (s t : State) :
    checked cs s t = .next (reject e s) := by
  rw [checked_eq, h]

/-- What a command with checks leaves, if it answers next u: the effect, or the rejection with the first failing check. -/
theorem checked_next {cs : List (Bool × ErrCode)} {s t u : State} (h : checked cs s t = .next u) :
    (firstError cs = none ∧ u = t) ∨ ∃ e, firstError cs = some e ∧ u = reject e s := by
  rw [checked_eq] at h
  cases hf : firstError cs with
  | none => rw [hf] at h; left; exact ⟨rfl, by simpa using h.symm⟩
  | some e => rw [hf] at h; right; exact ⟨e, rfl, by simpa using h.symm⟩

/-! ## The byte source -/

theorem Source.byte_of_lt (src : Source) {off : Nat} (h : off < src.size) :
    src.byte off = some ((lookupCell off src.cells).getD 0) := by
  simp [Source.byte, h]

theorem Source.byte_of_le (src : Source) {off : Nat} (h : src.size ≤ off) : src.byte off = none := by
  simp [Source.byte, Nat.not_lt.mpr h]

theorem Source.byte_isSome_iff (src : Source) (off : Nat) : (src.byte off).isSome = true ↔ off < src.size := by
  unfold Source.byte; split <;> simp_all

/-- Inside the source a byte is there, and it is the one that playback reads. -/
theorem Source.byte_eq_playByte (src : Source) {off : Nat} (h : off < src.size) : src.byte off = some (src.playByte off) := by
  simp [Source.playByte, Source.byte, h]

theorem Source.validRange_iff (src : Source) (off len : Nat) : src.validRange off len = true ↔ off + len ≤ src.size := by
  simp [Source.validRange]

theorem Source.memRead_one (src : Source) {off : Nat} (h : off < src.size) :
    src.memRead off 1 = some (src.playByte off).toNat := by
  simp [Source.memRead, Source.byte_eq_playByte src h]

theorem lookupCell_cellsOfBytes (bs : List Byte) (o off : Nat) :
    (lookupCell off (cellsOfBytes o bs)).getD 0 = if off < o then 0 else bs.getD (off - o) 0 := by
  induction bs generalizing o with
  | nil => simp [cellsOfBytes, lookupCell]
  | cons b bs ih =>
    unfold cellsOfBytes
    split
    · next hb =>
      rw [ih]
      rcases Nat.lt_trichotomy off o with h | h | h
      · simp [h, Nat.lt_succ_of_lt h]
      · subst h; simp [hb]
      · have h1 : ¬off < o + 1 := by omega
        have h2 : ¬off < o := by omega
        rw [if_neg h1, if_neg h2, show off - o = (off - (o + 1)) + 1 by omega]
        simp
    · next hb =>
      simp only [lookupCell]
      rcases Nat.lt_trichotomy off o with h | h | h
      · rw [if_neg (by omega), ih]; simp [h, Nat.lt_succ_of_lt h]
      · subst h; simp
      · have h1 : ¬off < o + 1 := by omega
        have h2 : ¬off < o := by omega
        rw [if_neg (by omega), ih, if_neg h1, if_neg h2, show off - o = (off - (o + 1)) + 1 by omega]
        simp

/-- The source made from bytes reads as those bytes. -/
theorem Source.byte_ofBytes (bs : List Byte) (off : Nat) : (Source.ofBytes bs).byte off = bs[off]? := by
  unfold Source.byte Source.ofBytes
  by_cases h : off < bs.length
  · have e := lookupCell_cellsOfBytes bs 0 off
    rw [if_neg (Nat.not_lt_zero _), Nat.sub_zero] at e
    rw [if_pos h]
    show some ((lookupCell off (cellsOfBytes 0 bs)).getD 0) = _
    rw [e, List.getElem?_eq_getElem h, List.getD_eq_getElem?_getD, List.getElem?_eq_getElem h]
    rfl
  · simp [h]

theorem cellsOfBytes_wf (bs : List Byte) (o : Nat) :
    (∀ c ∈ cellsOfBytes o bs, o ≤ c.1 ∧ c.1 < o + bs.length ∧ c.2 ≠ 0) ∧
      ((cellsOfBytes o bs).map Prod.fst).Pairwise (· < ·) := by
  induction bs generalizing o with
  | nil => simp [cellsOfBytes]
  | cons b bs ih =>
    obtain ⟨h1, h2⟩ := ih (o + 1)
    have h1' : ∀ c ∈ cellsOfBytes (o + 1) bs, o ≤ c.1 ∧ c.1 < o + (b :: bs).length ∧ c.2 ≠ 0 := by
      intro c hc
      obtain ⟨a1, a2, a3⟩ := h1 c hc
      exact ⟨by omega, by simp only [List.length_cons]; omega, a3⟩
    unfold cellsOfBytes
    split
    · exact ⟨h1', h2⟩
    · next hb =>
      refine ⟨?_, ?_⟩
      · intro c hc
        rcases List.mem_cons.mp hc with rfl | hc
        · exact ⟨Nat.le_refl _, by simp, hb⟩
        · exact h1' c hc
      · simp only [List.map_cons, List.pairwise_cons]
        refine ⟨?_, h2⟩
        intro k hk
        obtain ⟨c, hc, rfl⟩ := List.mem_map.mp hk
        have := (h1 c hc).1
        omega

/-- The source made from bytes is in canonical form. -/
theorem Source.wf_ofBytes (bs : List Byte) : (Source.ofBytes bs).wf = true := by
  obtain ⟨h1, h2⟩ := cellsOfBytes_wf bs 0
  unfold Source.wf Source.ofBytes
  simp only [Bool.and_eq_true, List.all_eq_true, decide_eq_true_eq]
  exact ⟨fun c hc => ⟨by have := (h1 c hc).2.1; omega, (h1 c hc).2.2⟩, h2⟩

theorem Source.wf_reset : Source.reset.wf = true := rfl

/-! ## Circular buffers -/

/-- No position of b is at or below i. -/
def DelayBuf.Above (i : Nat) (b : DelayBuf) : Prop := ∀ e ∈ b, i < e.1

theorem DelayBuf.read_of_above {i : Nat} {b : DelayBuf} (h : DelayBuf.Above i b) : DelayBuf.read i b = .zero := by
  induction b with
  | nil => rfl
  | cons e r ih =>
    obtain ⟨k, f⟩ := e
    have hk : i < k := h (k, f) (by simp)
    simp only [DelayBuf.read]
    rw [if_neg (by omega)]
    exact ih fun e he => h e (List.mem_cons_of_mem _ he)

theorem DelayBuf.wf_iff (b : DelayBuf) :
    DelayBuf.wf b = true ↔ (∀ e ∈ b, e.2.isZero = false) ∧ (b.map Prod.fst).Pairwise (· < ·) := by
  simp [DelayBuf.wf, List.all_eq_true]

theorem DelayBuf.wf_cons {k : Nat} {f : Frame} {r : DelayBuf} :
    DelayBuf.wf ((k, f) :: r) = true ↔ f.isZero = false ∧ DelayBuf.Above k r ∧ DelayBuf.wf r = true := by
  rw [DelayBuf.wf_iff, DelayBuf.wf_iff]
  simp only [List.mem_cons, forall_eq_or_imp, List.map_cons, List.pairwise_cons, DelayBuf.Above]
  constructor
  · rintro ⟨⟨h1, h2⟩, h3, h4⟩
    exact ⟨h1, fun e he => h3 _ (List.mem_map_of_mem he), h2, h4⟩
  · rintro ⟨h1, h3, h2, h4⟩
    refine ⟨⟨h1, h2⟩, fun a ha => ?_, h4⟩
    obtain ⟨e, he, rfl⟩ := List.mem_map.mp ha
    exact h3 e he

theorem Frame.eq_zero_of_isZero {f : Frame} (h : f.isZero = true) : f = .zero := by
  obtain ⟨l, r⟩ := f
  simp only [Frame.isZero, Bool.and_eq_true] at h
  have aux : ∀ x : SReal, x.isZero = true → x = .zero := by
    intro x hx
    cases x with
    | alg a =>
      obtain ⟨ts⟩ := a
      simp only [SReal.isZero, Alg.isZero, List.isEmpty_iff] at hx
      subst hx; rfl
    | _ => exact absurd hx (by simp [SReal.isZero])
  rw [Frame.zero, aux l h.1, aux r h.2]

theorem DelayBuf.mem_write {i : Nat} {f : Frame} {b : DelayBuf} {e : Nat × Frame} (h : e ∈ DelayBuf.write i f b) :
    e ∈ b ∨ (e = (i, f) ∧ f.isZero = false) := by
  induction b with
  | nil =>
    simp only [DelayBuf.write] at h
    split at h <;> simp_all
  | cons x r ih =>
    obtain ⟨k, g⟩ := x
    simp only [DelayBuf.write] at h
    split at h
    · split at h <;> simp_all
      tauto
    · split at h
      · split at h <;> simp_all
        tauto
      · rcases List.mem_cons.mp h with rfl | h
        · exact .inl (by simp)
        · rcases ih h with h | h
          · exact .inl (List.mem_cons_of_mem _ h)
          · exact .inr h

/-- Reading back what was written, and nothing else changed. -/
theorem DelayBuf.read_write {b : DelayBuf} (hb : DelayBuf.wf b = true) (i j : Nat) (f : Frame) :
    DelayBuf.read j (DelayBuf.write i f b) = if j = i then f else DelayBuf.read j b := by
  induction b with
  | nil =>
    simp only [DelayBuf.write]
    split
    · next hz => rw [Frame.eq_zero_of_isZero hz]; split <;> rfl
    · simp only [DelayBuf.read]
      by_cases h : i = j
      · simp [h]
      · simp [h, Ne.symm h]
  | cons x r ih =>
    obtain ⟨k, g⟩ := x
    obtain ⟨hg, hk, hr⟩ := DelayBuf.wf_cons.mp hb
    simp only [DelayBuf.write]
    split
    · next hik =>
      split
      · next hz =>
        by_cases h : j = i
        · subst h
          rw [if_pos rfl, Frame.eq_zero_of_isZero hz]
          apply DelayBuf.read_of_above
          intro e he
          rcases List.mem_cons.mp he with rfl | he
          · exact hik
          · exact Nat.lt_trans hik (hk e he)
        · rw [if_neg h]
      · simp only [DelayBuf.read]
        by_cases h : i = j
        · simp [h]
        · simp [h, Ne.symm h]
    · split
      · next hik hki =>
        subst hki
        split
        · next hz =>
          by_cases h : j = k
          · subst h
            rw [if_pos rfl, Frame.eq_zero_of_isZero hz]
            exact DelayBuf.read_of_above hk
          · rw [if_neg h]; simp only [DelayBuf.read]; rw [if_neg (Ne.symm h)]
        · simp only [DelayBuf.read]
          by_cases h : k = j
          · simp [h]
          · simp [h, Ne.symm h]
      · next hik hki =>
        simp only [DelayBuf.read]
        by_cases h : k = j
        · subst h
          rw [if_pos rfl, if_neg hki, if_pos rfl]
        · rw [if_neg h, ih hr, if_neg h]

theorem DelayBuf.wf_write {b : DelayBuf} (hb : DelayBuf.wf b = true) (i : Nat) (f : Frame) :
    DelayBuf.wf (DelayBuf.write i f b) = true := by
  induction b with
  | nil =>
    simp only [DelayBuf.write]
    split
    · rfl
    · next hz => simp [DelayBuf.wf, hz]
  | cons x r ih =>
    obtain ⟨k, g⟩ := x
    obtain ⟨hg, hk, hr⟩ := DelayBuf.wf_cons.mp hb
    simp only [DelayBuf.write]
    split
    · next hik =>
      split
      · exact hb
      · next hz =>
        refine DelayBuf.wf_cons.mpr ⟨by simpa using hz, ?_, hb⟩
        intro e he
        rcases List.mem_cons.mp he with rfl | he
        · exact hik
        · exact Nat.lt_trans hik (hk e he)
    · split
      · next hki =>
        subst hki
        split
        · exact hr
        · next hz => exact DelayBuf.wf_cons.mpr ⟨by simpa using hz, hk, hr⟩
      · next hik hki =>
        refine DelayBuf.wf_cons.mpr ⟨hg, ?_, ih hr⟩
        intro e he
        rcases DelayBuf.mem_write he with he | ⟨rfl, _⟩
        · exact hk e he
        · show k < i; omega

/-! ## The ring buffer and the other agents -/

/-- All that `flush` can do: nothing, or every waiting frame is added and they fit. -/
theorem Port.flush_cases (p : Port) :
    (p.flush = p ∧ (p.pending = [] ∨ ringFrames < p.ring.length + p.pending.length)) ∨
      (p.flush = { p with ring := p.ring ++ p.pending, pending := [] } ∧
        p.ring.length + p.pending.length ≤ ringFrames) := by
  unfold Port.flush
  split
  · next h => exact .inl ⟨rfl, .inl h⟩
  · split
    · next h => exact .inr ⟨rfl, h⟩
    · next h => exact .inl ⟨rfl, .inr (by omega)⟩

/-- `flush` keeps the sequence of frames. -/
theorem Port.flush_frames (p : Port) : p.flush.ring ++ p.flush.pending = p.ring ++ p.pending := by
  rcases p.flush_cases with ⟨h, _⟩ | ⟨h, _⟩ <;> rw [h]
  simp

@[simp] theorem Port.flush_cmds (p : Port) : p.flush.cmds = p.cmds := by
  rcases p.flush_cases with ⟨h, _⟩ | ⟨h, _⟩ <;> rw [h]
@[simp] theorem Port.flush_invocation (p : Port) : p.flush.invocation = p.invocation := by
  rcases p.flush_cases with ⟨h, _⟩ | ⟨h, _⟩ <;> rw [h]
@[simp] theorem Port.flush_callers (p : Port) : p.flush.callers = p.callers := by
  rcases p.flush_cases with ⟨h, _⟩ | ⟨h, _⟩ <;> rw [h]
@[simp] theorem Port.flush_heard (p : Port) : p.flush.heard = p.heard := by
  rcases p.flush_cases with ⟨h, _⟩ | ⟨h, _⟩ <;> rw [h]
@[simp] theorem Port.flush_exporting (p : Port) : p.flush.exporting = p.exporting := by
  rcases p.flush_cases with ⟨h, _⟩ | ⟨h, _⟩ <;> rw [h]
@[simp] theorem Port.flush_returned (p : Port) : p.flush.returned = p.returned := by
  rcases p.flush_cases with ⟨h, _⟩ | ⟨h, _⟩ <;> rw [h]
@[simp] theorem Port.flush_turns (p : Port) : p.flush.turns = p.turns := by
  rcases p.flush_cases with ⟨h, _⟩ | ⟨h, _⟩ <;> rw [h]

/-- All that `push` can do: the frames wait for the queue, or they are returned to the export caller. -/
theorem Port.push_cases (frames : List Frame) (p : Port) :
    (p.exporting = false ∧ p.push frames = { p with pending := p.pending ++ frames }) ∨
      (p.exporting = true ∧ p.push frames = { p with returned := frames }) := by
  unfold Port.push
  cases h : p.exporting <;> simp

theorem Port.flush_of_nil {p : Port} (h : p.pending = []) : p.flush = p := by simp [Port.flush, h]

/-- A request leaves everything but the queue and what was heard. -/
theorem Port.request_rest (m : Nat) (p : Port) :
    (p.request m).cmds = p.cmds ∧ (p.request m).invocation = p.invocation ∧ (p.request m).callers = p.callers ∧
      (p.request m).pending = p.pending ∧ (p.request m).exporting = p.exporting ∧ (p.request m).returned = p.returned ∧
      (p.request m).turns = p.turns := by
  unfold Port.request; split <;> simp

@[simp] theorem Port.takeSlot_cmds (p : Port) : p.takeSlot.cmds = p.cmds := by unfold Port.takeSlot; split <;> rfl
@[simp] theorem Port.takeSlot_pending (p : Port) : p.takeSlot.pending = p.pending := by unfold Port.takeSlot; split <;> rfl
@[simp] theorem Port.takeSlot_ring (p : Port) : p.takeSlot.ring = p.ring := by unfold Port.takeSlot; split <;> rfl
@[simp] theorem Port.takeSlot_heard (p : Port) : p.takeSlot.heard = p.heard := by unfold Port.takeSlot; split <;> rfl
@[simp] theorem Port.takeSlot_exporting (p : Port) : p.takeSlot.exporting = p.exporting := by unfold Port.takeSlot; split <;> rfl
@[simp] theorem Port.takeSlot_returned (p : Port) : p.takeSlot.returned = p.returned := by unfold Port.takeSlot; split <;> rfl
@[simp] theorem Port.takeSlot_turns (p : Port) : p.takeSlot.turns = p.turns := by unfold Port.takeSlot; split <;> rfl

@[simp] theorem Port.service_pending (p : Port) : p.service.pending = p.pending := by unfold Port.service; split <;> rfl
@[simp] theorem Port.service_ring (p : Port) : p.service.ring = p.ring := by unfold Port.service; split <;> rfl
@[simp] theorem Port.service_heard (p : Port) : p.service.heard = p.heard := by unfold Port.service; split <;> rfl
@[simp] theorem Port.service_exporting (p : Port) : p.service.exporting = p.exporting := by unfold Port.service; split <;> rfl
@[simp] theorem Port.service_returned (p : Port) : p.service.returned = p.returned := by unfold Port.service; split <;> rfl
@[simp] theorem Port.service_turns (p : Port) : p.service.turns = p.turns := by unfold Port.service; split <;> rfl
@[simp] theorem Port.service_callers (p : Port) : p.service.callers = p.callers := by unfold Port.service; split <;> rfl

theorem Port.service_of_none {p : Port} (h : p.invocation = none) : p.service = p := by simp [Port.service, h]
theorem Port.service_of_some {p : Port} {ws : List Word} (h : p.invocation = some ws) :
    p.service = { p with cmds := ws ++ p.cmds, invocation := none } := by simp [Port.service, h]

theorem Port.hostTurn_quiet {p : Port} (h : p.turns = []) : p.hostTurn = p.flush.takeSlot := by
  unfold Port.hostTurn; rw [Port.flush_turns, h]

end Sys2Proof.Machine
end

