-- ==== Sys2Proof/Laws/Commands.lean ====
section
/-! SUPPORT. For every command: its checks report the error that R412 names (`commandError`), and so its meaning is its effect
or the rejection with that error. -/

namespace Sys2Proof.Machine

open Sys2Proof

theorem badSlot_eq (s : State) (slot : BitVec 8) : badSlot s slot = decide (s.chSlots ≤ slot.toNat) := rfl
theorem badTrack_eq (s : State) (track : BitVec 8) : badTrack s track = decide (s.nTracks ≤ track.toNat) := rfl

/-- Bit 7 of a byte is set exactly from 128 on. -/
theorem getLsbD_seven (k : BitVec 8) : k.getLsbD 7 = decide (127 < k.toNat) := by
  revert k; decide

theorem badNote_eq (n : Note) :
    badNote n = decide (127 < n.key.toNat ∨ 127 < n.velocity.toNat ∨ n.length.toInt < -1) := by
  unfold badNote
  rw [getLsbD_seven, getLsbD_seven]
  simp [Bool.or_assoc]

theorem firstError_startChecks (rsv : Bool) (slot track : BitVec 8) (n : Note) (s : State)
    (rest : List (Bool × ErrCode)) :
    firstError (startChecks rsv slot track n s ++ rest) =
      if rsv = true then some .reserved else (startError slot track n s).or (firstError rest) := by
  simp only [startChecks, startError, List.cons_append, List.nil_append, firstError_cons, badSlot_eq, badTrack_eq,
    badNote_eq, decide_eq_true_eq]
  split_ifs <;> rfl

theorem firstError_chanChecks (rsv : Bool) (slot : BitVec 8) (s : State) :
    firstError (chanChecks rsv slot s) = if rsv = true then some .reserved else channelError slot s := by
  simp only [chanChecks, channelError, firstError_cons, firstError_nil, badSlot_eq, decide_eq_true_eq, Bool.not_eq_true']

theorem isSynth_iff (info : SampleInfo) :
    isSynth info = true ↔ info.loop = true ∧ info.loopStart.toNat = 0 ∧ info.endPos.toNat = 0 := by
  simp only [isSynth, Bool.and_eq_true, beq_iff_eq, and_assoc]
  constructor
  · rintro ⟨a, b, c⟩; exact ⟨a, by rw [b]; rfl, by rw [c]; rfl⟩
  · rintro ⟨a, b, c⟩; exact ⟨a, BitVec.eq_of_toNat_eq b, BitVec.eq_of_toNat_eq c⟩

/-- The footprint of a channel that is no synth is that of R202. -/
theorem footprint_pcmVoice (src : Source) (info : SampleInfo) (h : isSynth info = false) :
    footprint (pcmVoice src info) = sampleBytes info := by
  unfold footprint sampleBytes pcmVoice selectMode
  simp only [h]
  cases info.compressed <;> rfl

theorem firstError_pcmDataChecks (src : Source) (info : SampleInfo) :
    firstError (pcmDataChecks src info) = sampleError info src := by
  have hf : (info.freq == 0) = decide (info.freq.toNat = 0) := by
    by_cases h : info.freq = 0
    · simp [h]
    · have : info.freq.toNat ≠ 0 := fun e => h (BitVec.eq_of_toNat_eq e)
      rw [decide_eq_false this]
      exact beq_eq_false_iff_ne.mpr h
  unfold pcmDataChecks sampleError
  simp only [firstError_cons, firstError_nil, hf]
  by_cases h1 : info.fixed = false ∧ info.freq.toNat = 0
  · simp [h1]
  · have h1' : (!info.fixed && decide (info.freq.toNat = 0)) = false := by
      cases hx : info.fixed <;> simp_all
    rw [if_neg h1, h1']
    simp only [Bool.false_eq_true, if_false]
    cases hs : isSynth info with
    | true =>
      rw [if_pos ((isSynth_iff info).mp hs)]
      simp only [Bool.true_and, Bool.not_true, Bool.false_and, Bool.false_eq_true, if_false, Source.validRange,
        Bool.not_eq_true', decide_eq_false_iff_not, decide_eq_true_eq, Nat.not_le]
      by_cases hr : src.size < info.dataPos.toNat + 2
      · simp only [hr, if_true]
      · simp only [hr, if_false]
        rw [Source.memRead_one src (by omega)]
        rfl
    | false =>
      have hn : ¬(info.loop = true ∧ info.loopStart.toNat = 0 ∧ info.endPos.toNat = 0) := fun h => by
        rw [(isSynth_iff info).mpr h] at hs; exact absurd hs (by decide)
      rw [if_neg hn]
      simp only [Bool.false_and, Bool.not_false, Bool.true_and, Bool.false_eq_true, if_false, Bool.and_eq_true,
        decide_eq_true_eq, Source.validRange, Bool.not_eq_true', decide_eq_false_iff_not, Nat.not_le,
        footprint_pcmVoice src info hs]

/-! ## Register values (R31 to R39) -/

theorem SoundMode.unpack_isSome (w : Word) : (SoundMode.unpack w).isSome = decide (w.toNat < 2 ^ 16) := by
  unfold SoundMode.unpack
  have : w.extractLsb' 16 16 = 0 ↔ w.toNat < 2 ^ 16 := by
    rw [← BitVec.toNat_inj]
    simp only [BitVec.extractLsb'_toNat, Nat.shiftRight_eq_div_pow]
    have := w.isLt
    show _ = 0 ↔ _
    omega
  split
  · next h => exact (decide_eq_true (this.mp h)).symm
  · next h => exact (decide_eq_false (mt this.mpr h)).symm

theorem ResKind.ofCode_isSome (c : BitVec 3) : (ResKind.ofCode c).isSome = decide (c.toNat ≤ 5) := by
  revert c; decide

theorem RevKind.ofCode_isSome (c : BitVec 3) : (RevKind.ofCode c).isSome = decide (c.toNat ≤ 4) := by
  revert c; decide

/-- The reserved-bit mask of MIXOPT holds exactly the reserved bits. -/
theorem mixOptReserved_iff (w : Word) :
    w &&& mixOptReserved = 0 ↔ (mixOptZeroBits.all fun b => !w.getLsbD b) = true := by
  rw [List.all_eq_true]
  simp only [Bool.not_eq_true']
  constructor
  · intro h b hb
    have hm : mixOptReserved.getLsbD b = true := by revert b; decide
    have := congrArg (fun v => v.getLsbD b) h
    simpa [BitVec.getLsbD_and, hm] using this
  · intro h
    apply BitVec.eq_of_getLsbD_eq
    intro b hb
    rw [BitVec.getLsbD_and]
    by_cases hm : b ∈ mixOptZeroBits
    · simp [h b hm]
    · have : mixOptReserved.getLsbD b = false := by revert b; decide
      simp [this]

theorem MixOpt.unpack_isSome (w : Word) :
    (MixOpt.unpack w).isSome =
      (decide (w.toNat % 8 ≤ 5 ∧ w.toNat / 2 ^ 4 % 8 ≤ 5 ∧ w.toNat / 2 ^ 8 % 8 ≤ 4) &&
        mixOptZeroBits.all fun b => !w.getLsbD b) := by
  unfold MixOpt.unpack
  have e0 : (w.extractLsb' 0 3).toNat = w.toNat % 8 := by simp [BitVec.extractLsb'_toNat]
  have e4 : (w.extractLsb' 4 3).toNat = w.toNat / 2 ^ 4 % 8 := by
    simp [BitVec.extractLsb'_toNat, Nat.shiftRight_eq_div_pow]
  have e8 : (w.extractLsb' 8 3).toNat = w.toNat / 2 ^ 8 % 8 := by
    simp [BitVec.extractLsb'_toNat, Nat.shiftRight_eq_div_pow]
  split
  · next h =>
    rw [(mixOptReserved_iff w).mp h, Bool.and_true]
    have h0 := ResKind.ofCode_isSome (w.extractLsb' 0 3)
    have h4 := ResKind.ofCode_isSome (w.extractLsb' 4 3)
    have h8 := RevKind.ofCode_isSome (w.extractLsb' 8 3)
    rw [e0] at h0; rw [e4] at h4; rw [e8] at h8
    rcases ho0 : ResKind.ofCode (w.extractLsb' 0 3) with _ | a <;>
      rcases ho4 : ResKind.ofCode (w.extractLsb' 4 3) with _ | b <;>
      rcases ho8 : RevKind.ofCode (w.extractLsb' 8 3) with _ | c <;>
      simp_all
  · next h =>
    have := mt (mixOptReserved_iff w).mpr h
    rw [Bool.not_eq_true] at this
    rw [this, Bool.and_false]; rfl

theorem isSome_guard {α : Type} (b : Bool) (x : α) : (if b = true then some x else none).isSome = b := by
  cases b <;> rfl

/-- A write is accepted exactly for the legal values of the read-write registers. -/
theorem Cfg.write_isSome (c : Cfg) (index : BitVec 16) (w : Word) : (c.write index w).isSome = legalValue index w := by
  unfold Cfg.write legalValue
  generalize index.toNat = k
  match k with
  | 0 => exact isSome_guard (legalOutRate w) _
  | 1 => exact isSome_guard (legalTickLen w) _
  | 2 => exact (Option.isSome_map).trans (SoundMode.unpack_isSome w)
  | 3 => exact isSome_guard (legalFixedRate w) _
  | 4 => exact (Option.isSome_map).trans (MixOpt.unpack_isSome w)
  | 5 => exact isSome_guard (legalRevNbuf w) _
  | 6 => exact isSome_guard (legalRevD w) _
  | _ + 7 => rfl

/-! ## Every command: its effect, or the rejection with the error of R412 -/

/-- The answer of a command whose checks report `err` and whose effect is t. -/
theorem checked_of_error {cs : List (Bool × ErrCode)} {err : Option ErrCode} (h : firstError cs = err) (s t : State) :
    checked cs s t = .next (s.afterError err t) := by
  subst h
  rw [checked_eq]
  cases firstError cs with
  | none => rfl
  | some e => simp only [reject_eq_rejectedWith, State.afterError]

theorem if_reserved {b w : Bool} (h : w = !b) (x : Option ErrCode) :
    (if b = true then some ErrCode.reserved else x) = if w = false then some .reserved else x := by
  subst h; cases b <;> rfl

theorem wf_two (a : BitVec 8) {k : Nat} (b : BitVec k) : (a == 0 && b == 0) = !(a != 0 || b != 0) := by
  simp [bne]

theorem wf_one {k : Nat} (b : BitVec k) : (b == 0) = !(b != 0) := by simp [bne]

theorem exec_nop (a : BitVec 8) (imm : BitVec 16) (s : State) :
    exec (.nop a imm) s =
      .next (s.afterError (commandError (.nop a imm) s)
        (s)) := by
  refine checked_of_error ?_ s s
  simp only [firstError_cons, firstError_nil]
  exact if_reserved (wf_two a imm) _

theorem exec_cfgWr (a : BitVec 8) (index : BitVec 16) (value : Word) (s : State) :
    exec (.cfgWr a index value) s =
      .next (s.afterError (commandError (.cfgWr a index value) s)
        (s.setCfg ((s.cfg.write index value).getD s.cfg))) := by
  refine checked_of_error ?_ _ _
  simp only [firstError_cons, firstError_nil]
  rw [if_reserved (wf_one a)]
  have h := Cfg.write_isSome s.cfg index value
  simp only [commandError, WellFormed, ← h]
  cases s.cfg.write index value <;> rfl

theorem exec_reset (a : BitVec 8) (imm : BitVec 16) (s : State) :
    exec (.reset a imm) s =
      .next (s.afterError (commandError (.reset a imm) s)
        (doReset s)) := by
  refine checked_of_error ?_ s _
  simp only [firstError_cons, firstError_nil]
  exact if_reserved (wf_two a imm) _

theorem exec_chStartPcm (slot track rsv : BitVec 8) (n : Note) (info : SampleInfo) (s : State) :
    exec (.chStartPcm slot track rsv n info) s =
      .next (s.afterError (commandError (.chStartPcm slot track rsv n info) s)
        (s.setChan slot.toNat (newPcm s track n info))) := by
  refine checked_of_error ?_ _ _
  rw [firstError_startChecks, firstError_pcmDataChecks]
  exact if_reserved (wf_two rsv info.rsv) _

theorem exec_chStartSq1 (slot track rsv : BitVec 8) (n : Note) (sweep : BitVec 8) (duty : BitVec 2) (rsv5 : BitVec 22)
    (s : State) :
    exec (.chStartSq1 slot track rsv n sweep duty rsv5) s =
      .next (s.afterError (commandError (.chStartSq1 slot track rsv n sweep duty rsv5) s)
        ((stealVoices .sq1 slot.toNat s).setChan slot.toNat (newCgb track n (sq1Voice n sweep duty)))) := by
  refine checked_of_error ?_ _ _
  rw [firstError_startChecks, firstError_nil, Option.or_none]
  exact if_reserved (wf_two rsv rsv5) _

theorem exec_chStartSq2 (slot track rsv : BitVec 8) (n : Note) (duty : BitVec 2) (rsv5 : BitVec 30) (s : State) :
    exec (.chStartSq2 slot track rsv n duty rsv5) s =
      .next (s.afterError (commandError (.chStartSq2 slot track rsv n duty rsv5) s)
        ((stealVoices .sq2 slot.toNat s).setChan slot.toNat (newCgb track n (.sq2 duty)))) := by
  refine checked_of_error ?_ _ _
  rw [firstError_startChecks, firstError_nil, Option.or_none]
  exact if_reserved (wf_two rsv rsv5) _

theorem exec_chStartWave (slot track rsv : BitVec 8) (n : Note) (wavePos : BitVec 32) (s : State) :
    exec (.chStartWave slot track rsv n wavePos) s =
      .next (s.afterError (commandError (.chStartWave slot track rsv n wavePos) s)
        ((stealVoices .wave slot.toNat s).setChan slot.toNat (newCgb track n (waveVoice s.par.waveNibbles s.src wavePos)))) := by
  refine checked_of_error ?_ _ _
  rw [firstError_startChecks, firstError_cons, firstError_nil]
  rw [if_reserved (wf_one rsv)]
  simp only [commandError, WellFormed, Source.validRange, Bool.not_eq_true', decide_eq_false_iff_not, Nat.not_le]
  rfl

theorem exec_chStartNoise (slot track rsv : BitVec 8) (n : Note) (width7 : Bool) (rsv5 : BitVec 31) (s : State) :
    exec (.chStartNoise slot track rsv n width7 rsv5) s =
      .next (s.afterError (commandError (.chStartNoise slot track rsv n width7 rsv5) s)
        ((stealVoices .noise slot.toNat s).setChan slot.toNat (newCgb track n (.noise (lfsrWidth width7))))) := by
  refine checked_of_error ?_ _ _
  rw [firstError_startChecks, firstError_nil, Option.or_none]
  exact if_reserved (wf_two rsv rsv5) _

theorem exec_chSetVol (slot volMR volML : BitVec 8) (s : State) :
    exec (.chSetVol slot volMR volML) s =
      .next (s.afterError (commandError (.chSetVol slot volMR volML) s)
        (s.setChan slot.toNat ((s.chan slot.toNat).setVol volMR volML))) := by
  refine checked_of_error ?_ _ _
  rw [firstError_chanChecks]; rfl

theorem exec_chSetPitch (slot : BitVec 8) (pitch : BitVec 16) (s : State) :
    exec (.chSetPitch slot pitch) s =
      .next (s.afterError (commandError (.chSetPitch slot pitch) s)
        (s.setChan slot.toNat ((s.chan slot.toNat).setPitch pitch))) := by
  refine checked_of_error ?_ _ _
  rw [firstError_chanChecks]; rfl

theorem exec_chTickNote (slot : BitVec 8) (imm : BitVec 16) (s : State) :
    exec (.chTickNote slot imm) s =
      .next (s.afterError (commandError (.chTickNote slot imm) s)
        (s.setChan slot.toNat (s.chan slot.toNat).tickNote)) := by
  refine checked_of_error ?_ _ _
  rw [firstError_chanChecks]
  exact if_reserved (wf_one imm) _

theorem exec_chRelease (slot : BitVec 8) (imm : BitVec 16) (s : State) :
    exec (.chRelease slot imm) s =
      .next (s.afterError (commandError (.chRelease slot imm) s)
        (s.setChan slot.toNat (s.chan slot.toNat).release)) := by
  refine checked_of_error ?_ _ _
  rw [firstError_chanChecks]
  exact if_reserved (wf_one imm) _

theorem exec_chReleaseFast (slot : BitVec 8) (imm : BitVec 16) (s : State) :
    exec (.chReleaseFast slot imm) s =
      .next (s.afterError (commandError (.chReleaseFast slot imm) s)
        (s.setChan slot.toNat (s.chan slot.toNat).releaseFast)) := by
  refine checked_of_error ?_ _ _
  rw [firstError_chanChecks]
  exact if_reserved (wf_one imm) _

theorem commandError_mxTick (a : BitVec 8) (imm : BitVec 16) (s : State) :
    commandError (.mxTick a imm) s = if a = 0 ∧ imm = 0 then none else some .reserved := by
  have hw : WellFormed (.mxTick a imm) = decide (a = 0 ∧ imm = 0) := by
    simp only [WellFormed, Bool.decide_and]; rfl
  unfold commandError
  rw [hw]
  by_cases h : a = 0 ∧ imm = 0
  · rw [if_neg (by simp [h]), if_pos h]
  · rw [if_pos (decide_eq_false h), if_neg h]

/-- `MX_TICK`: a render tick, the rejection, or the guard's fault. -/
theorem exec_mxTick (a : BitVec 8) (imm : BitVec 16) (s : State) :
    exec (.mxTick a imm) s =
      if a = 0 ∧ imm = 0 then
        match firstUnplayable s.src s.chans with
        | some off => .fault (.outsideByteSource off)
        | none => .next (mixTick s)
      else .next (s.rejectedWith .reserved) := by
  rw [← reject_eq_rejectedWith]; rfl

theorem exec_mxFade (a : BitVec 8) (mode : BitVec 2) (rsv : BitVec 14) (length : Word) (s : State) :
    exec (.mxFade a mode rsv length) s =
      .next (s.afterError (commandError (.mxFade a mode rsv length) s)
        (s.setMx (s.mx.startFade mode length))) := by
  refine checked_of_error ?_ _ _
  simp only [fadeChecks, firstError_cons, firstError_nil]
  have hw : WellFormed (.mxFade a mode rsv length) = !(rsv != 0 || mode == 3 || a != 0) := by
    simp only [WellFormed, bne]
    cases a == 0 <;> cases mode == 3 <;> cases rsv == 0 <;> rfl
  rw [if_reserved hw]
  simp only [commandError]
  simp only [Bool.and_eq_true, beq_iff_eq, bne_iff_ne, ne_eq]

theorem exec_trkMute (track : BitVec 8) (mute : Bool) (rsv : BitVec 15) (s : State) :
    exec (.trkMute track mute rsv) s =
      .next (s.afterError (commandError (.trkMute track mute rsv) s)
        (s.setTrack track.toNat { s.track track.toNat with mute := mute })) := by
  refine checked_of_error ?_ _ _
  simp only [firstError_cons, firstError_nil, badTrack_eq, decide_eq_true_eq]
  exact if_reserved (wf_one rsv) _

theorem exec_trkReverb (track : BitVec 8) (intensity : BitVec 7) (rsv : BitVec 9) (s : State) :
    exec (.trkReverb track intensity rsv) s =
      .next (s.afterError (commandError (.trkReverb track intensity rsv) s)
        (s.setTrack track.toNat { s.track track.toNat with rev := intensity })) := by
  refine checked_of_error ?_ _ _
  simp only [firstError_cons, firstError_nil, badTrack_eq, decide_eq_true_eq]
  exact if_reserved (wf_one rsv) _

end Sys2Proof.Machine
end

