-- ==== Sys2Proof/Laws/Channels.lean ====
section
/-! SUPPORT. What the channel starts and the channel commands write: volumes, pan, the started record, stolen voices, and what
an accepted command says about its operands. -/

namespace Sys2Proof.Machine

open Sys2Proof

/-! ## Accepted operands -/

theorem or_eq_none {α : Type} {a b : Option α} (h : a.or b = none) : a = none ∧ b = none := by cases a <;> simp_all

theorem none_of_reserved {w : Bool} {x : Option ErrCode} (h : (if w = false then some ErrCode.reserved else x) = none) :
    w = true ∧ x = none := by
  cases w <;> simp_all

/-- A check in front of others reports nothing exactly if it passes and they report nothing (R412). -/
theorem check_eq_none {p : Prop} [Decidable p] {e : ErrCode} {later : Option ErrCode} :
    (if p then some e else later) = none ↔ ¬p ∧ later = none := by
  by_cases hp : p <;> simp [hp]

theorem channelError_none {slot : BitVec 8} {s : State} (h : channelError slot s = none) :
    slot.toNat < s.chSlots ∧ (s.chan slot.toNat).live = true := by
  simp only [channelError, check_eq_none, and_true] at h
  exact ⟨by omega, by simpa using h.2⟩

theorem startError_none {slot track : BitVec 8} {n : Note} {s : State} (h : startError slot track n s = none) :
    slot.toNat < s.chSlots ∧ track.toNat < s.nTracks ∧ (s.chan slot.toNat).live = false ∧ n.key.toNat < 128 ∧ n.velocity.toNat < 128 ∧
      -1 ≤ n.length.toInt := by
  simp only [startError, check_eq_none, and_true] at h
  obtain ⟨hslot, htrack, hbusy, hnote⟩ := h
  exact ⟨by omega, by omega, by simpa using hbusy, by omega⟩

/-- What a synth's SampleInfo must meet to be accepted (R93, R201). -/
theorem synth_of_sampleError_none {src : Source} {info : SampleInfo} (h : sampleError info src = none) (hs : SynthInfo info) :
    info.dataPos.toNat + 2 ≤ src.size ∧ (src.playByte info.dataPos.toNat).toNat ≤ 2 := by
  unfold SynthInfo at hs
  simp only [sampleError, hs, and_self, if_true, check_eq_none, and_true] at h
  obtain ⟨-, -, hsize, hmode⟩ := h
  rw [Source.memRead_one src (by omega)] at hmode
  exact ⟨by omega, by simpa using hmode⟩

/-- What any other SampleInfo must meet to be accepted (R201, R202). -/
theorem sample_of_sampleError_none {src : Source} {info : SampleInfo} (h : sampleError info src = none) (hs : ¬SynthInfo info) :
    info.dataPos.toNat + sampleBytes info ≤ src.size ∧ (info.loop = true → info.loopStart.toNat < info.endPos.toNat) := by
  unfold SynthInfo at hs
  simp only [sampleError, hs, if_false, check_eq_none, and_true] at h
  exact ⟨by omega, fun hl => by have := h.2.1; simp only [hl, true_and] at this; omega⟩

/-- A sample that `sampleError` accepts has its footprint inside the source, whatever its mode (R86, R202). -/
theorem footprint_of_sampleError_none {src : Source} {info : SampleInfo} (h : sampleError info src = none) :
    (isSynth info = true → info.dataPos.toNat + 2 ≤ src.size ∧ (src.playByte info.dataPos.toNat).toNat ≤ 2) ∧
      (isSynth info = false → info.dataPos.toNat + sampleBytes info ≤ src.size ∧
        (info.loop = true → info.loopStart.toNat < info.endPos.toNat)) :=
  ⟨fun hy => synth_of_sampleError_none h ((isSynth_iff info).mp hy),
    fun hn => sample_of_sampleError_none h fun hs => by simp [(isSynth_iff info).mpr hs] at hn⟩

/-! ## Volume and pan (R204, R248) -/

/-- The side volume is the one of R204. -/
theorem sideVol_toNat {pan : Int} (h0 : 0 ≤ pan) (v : BitVec 7) (vol : BitVec 8) :
    ((sideVol pan v vol).toNat : Int) = volumeRule pan v vol := by
  unfold sideVol volumeRule
  obtain ⟨p, rfl⟩ := Int.eq_ofNat_of_zero_le h0
  simp only [Int.toNat_natCast, BitVec.toNat_ofNat, Nat.shiftRight_eq_div_pow]
  have : min 255 (p * v.toNat * vol.toNat / 2 ^ 14) % 2 ^ 8 = min 255 (p * v.toNat * vol.toNat / 2 ^ 14) := by omega
  rw [this]
  push_cast
  rfl

theorem volumesRuled_updateVol (c : Chan) : c.updateVol.VolumesRuled := by
  have h1 := c.rhythmPan.le_toInt
  have h2 := c.rhythmPan.toInt_lt
  norm_num at h1 h2
  exact ⟨sideVol_toNat (by omega) _ _, sideVol_toNat (by omega) _ _⟩

theorem volumesRuled_volumeUpdate (c : Chan) : c.volumeUpdate.VolumesRuled := by
  unfold Chan.volumeUpdate
  split
  · exact volumesRuled_updateVol c
  · exact volumesRuled_updateVol c

theorem panRuled_cgbPan (c : Chan) : c.cgbPan.PanRuled := by
  unfold Chan.PanRuled Chan.cgbPan panOf
  simp only
  refine ⟨fun h => ⟨fun h2 => ?_, fun h2 => ?_⟩, fun h => ⟨fun h2 => ?_, fun h2 => ?_⟩⟩
  · rw [if_pos h, if_pos h2]
  · rw [if_pos h, if_neg (by omega)]
  · rw [if_neg (by omega), if_pos h2]
  · rw [if_neg (by omega), if_neg (by omega)]

theorem Chan.isPcm_iff (c : Chan) : c.isPcm = true ↔ c.type = .pcm := by simp [Chan.isPcm]

/-- All that a volume update can do: three fields, the pan of a tone generator only. -/
theorem volumeUpdate_cases (c : Chan) :
    (c.type = .pcm ∧ c.volumeUpdate = c.updateVol) ∨ (c.type ≠ .pcm ∧ c.volumeUpdate = c.updateVol.cgbPan) := by
  unfold Chan.volumeUpdate
  split
  · next h => exact .inl ⟨c.isPcm_iff.mp h, rfl⟩
  · next h => exact .inr ⟨mt c.isPcm_iff.mpr h, rfl⟩

@[simp] theorem volumeUpdate_voice (c : Chan) : c.volumeUpdate.voice = c.voice := by
  rcases volumeUpdate_cases c with ⟨-, h⟩ | ⟨-, h⟩ <;> rw [h] <;> rfl

@[simp] theorem volumeUpdate_type (c : Chan) : c.volumeUpdate.type = c.type := by
  rw [Chan.type, volumeUpdate_voice]; rfl

@[simp] theorem volumeUpdate_rsKind (c : Chan) : c.volumeUpdate.rsKind = c.rsKind := by
  rcases volumeUpdate_cases c with ⟨-, h⟩ | ⟨-, h⟩ <;> rw [h] <;> rfl

/-! ## The started record (R200, R240) -/

theorem started_updateVol (n : Note) (track : BitVec 8) (kind : ResKind) (v : Voice) (hk : n.key.toNat < 128)
    (hv : n.velocity.toNat < 128) : Started track n (Chan.started n track.toNat kind v).updateVol where
  live := rfl
  track_eq := rfl
  key := by show (n.key.setWidth 7).toNat = _; rw [BitVec.toNat_setWidth]; omega
  velocity := by show (n.velocity.setWidth 7).toNat = _; rw [BitVec.toNat_setWidth]; omega
  rhythmPan := rfl
  priority := rfl
  length := rfl
  echoVol := rfl
  echoLen := rfl
  volMR := rfl
  volML := rfl
  pitch := rfl
  volumes := volumesRuled_updateVol _
  envState := rfl
  levels := ⟨rfl, rfl, rfl⟩
  stop := rfl
  gains := ⟨rfl, rfl⟩
  time := ⟨rfl, rfl⟩

theorem started_volumeUpdate (n : Note) (track : BitVec 8) (kind : ResKind) (v : Voice) (hk : n.key.toNat < 128)
    (hv : n.velocity.toNat < 128) : Started track n (Chan.started n track.toNat kind v).volumeUpdate := by
  have h := started_updateVol n track kind v hk hv
  rcases volumeUpdate_cases (Chan.started n track.toNat kind v) with ⟨-, e⟩ | ⟨-, e⟩ <;> rw [e]
  · exact h
  · exact ⟨h.live, h.track_eq, h.key, h.velocity, h.rhythmPan, h.priority, h.length, h.echoVol, h.echoLen, h.volMR,
      h.volML, h.pitch, h.volumes, h.envState, h.levels, h.stop, h.gains, h.time⟩

theorem clampMax_toNat (x : BitVec 8) {k : Nat} (hk : k < 256) : (clampMax x k).toNat = min x.toNat k := by
  unfold clampMax
  rw [BitVec.toNat_ofNat]
  omega

/-- The record of a new tone-generator channel. -/
theorem newCgb_spec (track : BitVec 8) (n : Note) (v : Voice) (hv : v.type ≠ .pcm) (hk : n.key.toNat < 128)
    (hvel : n.velocity.toNat < 128) :
    Started track n (newCgb track n v) ∧ (newCgb track n v).ClampedFrom n ∧ (newCgb track n v).PanRuled ∧
      (newCgb track n v).voice = v ∧ (newCgb track n v).rsKind = cgbResampler v := by
  have hs := started_volumeUpdate (clampCgb n) track (cgbResampler v) v hk hvel
  have ht : (Chan.started (clampCgb n) track.toNat (cgbResampler v) v).type ≠ .pcm := hv
  have he : newCgb track n v = (Chan.started (clampCgb n) track.toNat (cgbResampler v) v).updateVol.cgbPan := by
    rcases volumeUpdate_cases (Chan.started (clampCgb n) track.toNat (cgbResampler v) v) with ⟨h, -⟩ | ⟨-, e⟩
    · exact absurd h ht
    · exact e
  refine ⟨⟨hs.live, hs.track_eq, hs.key, hs.velocity, hs.rhythmPan, hs.priority, hs.length, hs.echoVol, hs.echoLen,
    hs.volMR, hs.volML, hs.pitch, hs.volumes, hs.envState, hs.levels, hs.stop, hs.gains, hs.time⟩, ?_, ?_, ?_, ?_⟩
  · rw [he]
    exact ⟨clampMax_toNat _ (by decide), clampMax_toNat _ (by decide), clampMax_toNat _ (by decide),
      clampMax_toNat _ (by decide), rfl, rfl⟩
  · rw [he]; exact panRuled_cgbPan _
  · rw [he]; rfl
  · rw [he]; rfl

/-! ## Stolen voices (R240, R242) -/

@[simp] theorem chSlots_stealVoices (T : ChType) (i : Nat) (s : State) : (stealVoices T i s).chSlots = s.chSlots := by
  unfold stealVoices State.chSlots
  split
  · rfl
  · exact length_mapFrom _ _ _

theorem chan_stealVoices (T : ChType) (i : Nat) (s : State) {u : Nat} (hu : u < s.chSlots) :
    (stealVoices T i s).chan u =
      if s.cfg.mixopt.cgbPoly = false ∧ (s.chan u).stolenBy T i u = true then (s.chan u).steal else s.chan u := by
  unfold stealVoices
  cases hp : s.cfg.mixopt.cgbPoly with
  | true => simp
  | false =>
    simp only [Bool.false_eq_true, if_false, true_and]
    exact getD_mapFrom _ _ hu _ _

theorem stolen_setChan (T : ChType) (i : Nat) (s : State) (c : Chan) :
    Stolen s.cfg.mixopt.cgbPoly T i s ((stealVoices T i s).setChan i c) := by
  intro u hu
  rw [State.chan_setChan_ne _ hu]
  by_cases h32 : u < s.chSlots
  · rw [chan_stealVoices _ _ _ h32]
    constructor
    · rintro ⟨h1, h2, h3, h4, h5⟩
      rw [if_pos ⟨h1, by simp [Chan.stolenBy, EnvState.sounding, *]⟩]
      rfl
    · intro h
      rw [if_neg]
      rintro ⟨h1, h2⟩
      simp only [Chan.stolenBy, EnvState.sounding, Bool.and_eq_true, bne_iff_ne, beq_iff_eq] at h2
      exact h ⟨h1, h2.1.1.2, h2.1.2, h2.2.1, h2.2.2⟩
  · have hle : s.chSlots ≤ u := by omega
    rw [s.chan_of_le hle, State.chan_of_le _ (by rwa [chSlots_stealVoices])]
    exact ⟨fun h => absurd h.2.1 (by decide), fun _ => rfl⟩

theorem onlySlots_stealVoices (T : ChType) (i : Nat) (s : State) (c : Chan) :
    OnlySlots s ((stealVoices T i s).setChan i c) := by
  refine ⟨?_, by simp, ?_, ?_, ?_, ?_, ?_, ?_⟩ <;> unfold stealVoices <;> split <;> first | rfl | exact ⟨rfl, fun _ => rfl⟩

end Sys2Proof.Machine
end

