-- ==== Sys2Proof/Laws/Encoding.lean ====
section
/-! SUPPORT. The fields of a header and of the operand words read back what was packed into them. -/

namespace Sys2Proof

@[simp] theorem opcField_header (opc a : BitVec 8) (imm : BitVec 16) : opcField (header opc a imm) = opc := by
  apply BitVec.eq_of_getLsbD_eq
  intro i hi
  simp only [opcField, header, BitVec.getLsbD_extractLsb', BitVec.getLsbD_append]
  grind

@[simp] theorem aField_header (opc a : BitVec 8) (imm : BitVec 16) : aField (header opc a imm) = a := by
  apply BitVec.eq_of_getLsbD_eq
  intro i hi
  simp only [aField, header, BitVec.getLsbD_extractLsb', BitVec.getLsbD_append]
  grind

@[simp] theorem immField_header (opc a : BitVec 8) (imm : BitVec 16) : immField (header opc a imm) = imm := by
  apply BitVec.eq_of_getLsbD_eq
  intro i hi
  simp only [immField, header, BitVec.getLsbD_extractLsb', BitVec.getLsbD_append]
  grind

/-- The low part of a two-part word. -/
theorem extractLsb'_append_low {m n : Nat} (x : BitVec m) (y : BitVec n) : (x ++ y).extractLsb' 0 n = y := by
  apply BitVec.eq_of_getLsbD_eq
  intro i hi
  simp only [BitVec.getLsbD_extractLsb', BitVec.getLsbD_append]
  grind

/-- The high part of a two-part word. -/
theorem extractLsb'_append_high {m n : Nat} (x : BitVec m) (y : BitVec n) : (x ++ y).extractLsb' n m = x := by
  apply BitVec.eq_of_getLsbD_eq
  intro i hi
  simp only [BitVec.getLsbD_extractLsb', BitVec.getLsbD_append]
  grind

/-- A word is its high part followed by its low part. -/
theorem append_extractLsb' {m n : Nat} (w : BitVec (m + n)) : w.extractLsb' n m ++ w.extractLsb' 0 n = w := by
  apply BitVec.eq_of_getLsbD_eq
  intro i hi
  simp only [BitVec.getLsbD_extractLsb', BitVec.getLsbD_append]
  grind

/-- A header is made of its three fields. -/
theorem header_fields (h : Word) : header (opcField h) (aField h) (immField h) = h := by
  apply BitVec.eq_of_getLsbD_eq
  intro i hi
  simp only [header, opcField, aField, immField, BitVec.getLsbD_extractLsb', BitVec.getLsbD_append]
  grind

theorem noteWords_length (n : Note) : (noteWords n).length = 4 := rfl

theorem sampleInfoWords_length (i : SampleInfo) : (sampleInfoWords i).length = 5 := rfl

/-- W1 to W4 read back the note. -/
theorem noteOf_noteWords (n : Note) :
    noteOf (n.priority ++ n.rhythmPan ++ n.velocity ++ n.key) (n.echoLen ++ n.echoVol ++ n.length)
      (n.rel ++ n.sus ++ n.dec ++ n.att) (n.pitch ++ n.volML ++ n.volMR) = n := by
  obtain ⟨k, v, p, q, len, ev, el, a, d, s, r, vr, vl, pi⟩ := n
  simp only [noteOf, Note.mk.injEq]
  refine ⟨?_, ?_, ?_, ?_, ?_, ?_, ?_, ?_, ?_, ?_, ?_, ?_, ?_, ?_⟩ <;>
    (apply BitVec.eq_of_getLsbD_eq; intro i hi
     simp only [BitVec.getLsbD_extractLsb', BitVec.getLsbD_append]; grind)

/-- W5 to W9 read back the SampleInfo. -/
theorem sampleInfoOf_sampleInfoWords (i : SampleInfo) :
    sampleInfoOf i.dataPos i.freq i.loopStart i.endPos
      (i.rsv ++ BitVec.ofBool i.fixed ++ BitVec.ofBool i.compressed ++ BitVec.ofBool i.loop) = i := by
  obtain ⟨dp, f, ls, ep, l, c, fx, rsv⟩ := i
  simp only [sampleInfoOf, SampleInfo.mk.injEq, true_and]
  refine ⟨?_, ?_, ?_, ?_⟩
  · simp only [BitVec.getLsbD_append, BitVec.getLsbD_ofBool]; simp
  · simp only [BitVec.getLsbD_append, BitVec.getLsbD_ofBool]; simp
  · simp only [BitVec.getLsbD_append, BitVec.getLsbD_ofBool]; simp
  · apply BitVec.eq_of_getLsbD_eq
    intro i hi
    simp only [BitVec.getLsbD_extractLsb', BitVec.getLsbD_append]
    grind

/-- The bytes of a word are read back as the word. -/
theorem wordOfBytes_bytesOfWord (w : Word) :
    wordOfBytes (w.extractLsb' 0 8) (w.extractLsb' 8 8) (w.extractLsb' 16 8) (w.extractLsb' 24 8) = w := by
  apply BitVec.eq_of_getLsbD_eq
  intro i hi
  simp only [wordOfBytes, BitVec.getLsbD_extractLsb', BitVec.getLsbD_append]
  grind

theorem wordsOfBytes_bytesOfWord (w : Word) (bs : List Byte) :
    wordsOfBytes (bytesOfWord w ++ bs) = w :: wordsOfBytes bs := by
  show wordOfBytes _ _ _ _ :: wordsOfBytes bs = _
  rw [wordOfBytes_bytesOfWord]

end Sys2Proof
end

