-- ==== Sys2Proof/Laws/Envelope.lean ====
section
/-! SUPPORT. What the envelope step can change, and the ranges that it keeps. -/

namespace Sys2Proof.Machine

open Sys2Proof

/-- c with other envelope fields: all that an envelope step writes (R44, R171). -/
def Chan.withEnvelope (c : Chan) (e : EnvState) (level from_ inter count sus peak sustain echo : Nat) (len : BitVec 8) : Chan :=
  { c with
    envState := e
    envLevel := level
    fromEnvLevel := from_
    envInterStep := inter
    envCount := count
    susCount := sus
    envPeak := peak
    envSustain := sustain
    echoLevel := echo
    echoLen := len }

/-- d is c but for its envelope fields. -/
def EnvelopeOnly (c d : Chan) : Prop :=
  ∃ e level from_ inter count sus peak sustain echo len,
    d = c.withEnvelope e level from_ inter count sus peak sustain echo len

theorem EnvelopeOnly.refl (c : Chan) : EnvelopeOnly c c :=
  ⟨c.envState, c.envLevel, c.fromEnvLevel, c.envInterStep, c.envCount, c.susCount, c.envPeak, c.envSustain, c.echoLevel,
    c.echoLen, rfl⟩

theorem EnvelopeOnly.trans {c d e : Chan} (h : EnvelopeOnly c d) (h' : EnvelopeOnly d e) : EnvelopeOnly c e := by
  obtain ⟨a1, a2, a3, a4, a5, a6, a7, a8, a9, a10, rfl⟩ := h
  obtain ⟨b1, b2, b3, b4, b5, b6, b7, b8, b9, b10, rfl⟩ := h'
  exact ⟨b1, b2, b3, b4, b5, b6, b7, b8, b9, b10, rfl⟩

/-- A record update of envelope fields is envelope only. -/
theorem envelopeOnly_mk (c : Chan) (e : EnvState) (level from_ inter count sus peak sustain echo : Nat) (len : BitVec 8) :
    EnvelopeOnly c (c.withEnvelope e level from_ inter count sus peak sustain echo len) :=
  ⟨e, level, from_, inter, count, sus, peak, sustain, echo, len, rfl⟩

theorem envelopeOnly_initPcm (c : Chan) : EnvelopeOnly c c.initPcm := by
  unfold Chan.initPcm; split
  · split <;> exact envelopeOnly_mk ..
  · exact envelopeOnly_mk ..

theorem envelopeOnly_computeTargets (c : Chan) : EnvelopeOnly c c.computeTargets := envelopeOnly_mk ..

theorem envelopeOnly_initCgb (c : Chan) : EnvelopeOnly c c.initCgb := by
  unfold Chan.initCgb; split
  · exact envelopeOnly_mk ..
  · split <;> exact envelopeOnly_mk ..

theorem envelopeOnly_relPcm (c : Chan) : EnvelopeOnly c c.relPcm := by
  unfold Chan.relPcm; split
  · split <;> exact envelopeOnly_mk ..
  · exact envelopeOnly_mk ..

theorem envelopeOnly_atkCgb (c : Chan) : EnvelopeOnly c c.atkCgb := by
  unfold Chan.atkCgb; split
  · split
    · split <;> exact envelopeOnly_mk ..
    · exact envelopeOnly_mk ..
  · exact envelopeOnly_mk ..

theorem envelopeOnly_relCgb (c : Chan) : EnvelopeOnly c c.relCgb := by
  unfold Chan.relCgb; split
  · split
    · split <;> exact envelopeOnly_mk ..
    · exact envelopeOnly_mk ..
  · exact envelopeOnly_mk ..

theorem envelopeOnly_framePcm (c : Chan) : EnvelopeOnly c c.framePcm := by
  unfold Chan.framePcm
  split
  · unfold Chan.atkPcm; split <;> exact envelopeOnly_mk ..
  · unfold Chan.decPcm; split <;> exact envelopeOnly_mk ..
  · exact .refl c
  · exact envelopeOnly_relPcm c
  · exact envelopeOnly_mk ..
  · exact .refl c
  · exact .refl c
  · exact .refl c

theorem envelopeOnly_frameCgb (b : Bool) (c : Chan) : EnvelopeOnly c (c.frameCgb b) := by
  unfold Chan.frameCgb
  split
  · exact (envelopeOnly_computeTargets c).trans (envelopeOnly_atkCgb _)
  · refine (envelopeOnly_computeTargets c).trans ?_
    unfold Chan.decCgb; split <;> exact envelopeOnly_mk ..
  · refine (envelopeOnly_computeTargets c).trans ?_
    unfold Chan.susCgb; split <;> exact envelopeOnly_mk ..
  · exact envelopeOnly_relCgb c
  · exact envelopeOnly_mk ..
  · exact .refl c
  · exact .refl c
  · exact .refl c

theorem envelopeOnly_releaseTransition (c : Chan) : EnvelopeOnly c c.releaseTransition := by
  unfold Chan.releaseTransition; split
  · split
    · exact envelopeOnly_mk ..
    · split <;> exact envelopeOnly_mk ..
  · exact .refl c

/-- The envelope step of any channel writes envelope fields only. -/
theorem envelopeOnly_stepEnvelope (n : Nat) (b : Bool) (c : Chan) : EnvelopeOnly c (c.stepEnvelope n b) := by
  unfold Chan.stepEnvelope
  split
  · exact .refl c
  · exact .refl c
  · unfold Chan.initStep; split
    · exact envelopeOnly_mk ..
    · split
      · exact (envelopeOnly_initPcm c).trans (envelopeOnly_mk ..)
      · exact ((envelopeOnly_computeTargets c).trans (envelopeOnly_initCgb _)).trans (envelopeOnly_mk ..)
  · split
    · exact envelopeOnly_mk ..
    · unfold Chan.frameUpdate; split
      · exact ((envelopeOnly_mk c c.envState c.envLevel c.envLevel 0 c.envCount c.susCount c.envPeak c.envSustain
          c.echoLevel c.echoLen).trans (envelopeOnly_releaseTransition _)).trans (envelopeOnly_framePcm _)
      · exact ((envelopeOnly_mk c c.envState c.envLevel c.envLevel 0 c.envCount c.susCount c.envPeak c.envSustain
          c.echoLevel c.echoLen).trans (envelopeOnly_releaseTransition _)).trans (envelopeOnly_frameCgb b _)

@[simp] theorem stepEnvelope_live (n : Nat) (b : Bool) (c : Chan) : (c.stepEnvelope n b).live = c.live := by
  obtain ⟨_, _, _, _, _, _, _, _, _, _, h⟩ := envelopeOnly_stepEnvelope n b c; rw [h]; rfl

@[simp] theorem stepEnvelope_track (n : Nat) (b : Bool) (c : Chan) : (c.stepEnvelope n b).track = c.track := by
  obtain ⟨_, _, _, _, _, _, _, _, _, _, h⟩ := envelopeOnly_stepEnvelope n b c; rw [h]; rfl

@[simp] theorem stepEnvelope_voice (n : Nat) (b : Bool) (c : Chan) : (c.stepEnvelope n b).voice = c.voice := by
  obtain ⟨_, _, _, _, _, _, _, _, _, _, h⟩ := envelopeOnly_stepEnvelope n b c; rw [h]; rfl

@[simp] theorem stepEnvelope_t (n : Nat) (b : Bool) (c : Chan) : (c.stepEnvelope n b).t = c.t := by
  obtain ⟨_, _, _, _, _, _, _, _, _, _, h⟩ := envelopeOnly_stepEnvelope n b c; rw [h]; rfl

/-! ## Gains are not negative (R44) -/

theorem lerp_nonneg {a b f : Rat} (ha : 0 ≤ a) (hb : 0 ≤ b) (h0 : 0 ≤ f) (h1 : f ≤ 1) : 0 ≤ lerp a b f := by
  have h : lerp a b f = a * (1 - f) + b * f := by unfold lerp; ring
  rw [h]
  exact add_nonneg (mul_nonneg ha (by linarith)) (mul_nonneg hb h0)

theorem Chan.eEnd_nonneg {n : Nat} (acc : Bool) {c : Chan} (h : c.envInterStep < n) : 0 ≤ c.eEnd n acc := by
  have hn : (0 : Rat) < n := by exact_mod_cast (by omega : 0 < n)
  have hle : ((c.envInterStep + 1 : Nat) : Rat) ≤ n := by exact_mod_cast h
  unfold Chan.eEnd
  split
  · exact le_refl 0
  · split
    · exact Nat.cast_nonneg _
    · exact lerp_nonneg (Nat.cast_nonneg _) (Nat.cast_nonneg _) (by positivity) ((div_le_one hn).mpr hle)

theorem Chan.cgbFactor_nonneg (acc quant : Bool) (c : Chan) {e : Rat} (h : 0 ≤ e) : 0 ≤ c.cgbFactor acc quant e := by
  unfold Chan.cgbFactor waveFactor
  split
  · split
    · split <;> norm_num
    · cases volCode e.floor.toNat <;> norm_num [VolCode.factor]
  · positivity

/-- Both gain targets of a channel within its frame are not negative, if PSG_GAIN is not. -/
theorem Chan.gains_nonneg {a : TickArgs} {c : Chan} (hp : 0 ≤ a.par.psgGain) (h : c.envInterStep < a.par.interframes) :
    0 ≤ c.gainL a ∧ 0 ≤ c.gainR a := by
  have he := Chan.eEnd_nonneg a.accVol h
  have hf := Chan.cgbFactor_nonneg a.accVol a.accQuant c he
  have hl : 0 ≤ c.pan.onLeft := by unfold Pan.onLeft; split <;> norm_num
  have hr : 0 ≤ c.pan.onRight := by unfold Pan.onRight; split <;> norm_num
  unfold Chan.gainL Chan.gainR gainPcm
  constructor <;> split <;> positivity

end Sys2Proof.Machine
end

