-- ==== Sys2Proof/Laws/Numbers.lean ====
section
/-! SUPPORT. What the exact arithmetic means on real numbers, the canonical form of `Alg`, and the floor. -/

namespace Sys2Proof

/-! ## `Rat` helpers -/

theorem ratPow_eq (q : Rat) (n : Nat) : ratPow q n = q ^ n := by
  induction n with
  | zero => rw [ratPow, pow_zero]
  | succ n ih => rw [ratPow, ih, pow_succ]

theorem pow2_eq (e : Int) : (pow2 e : Rat) = (2 : Rat) ^ e := by
  cases e with
  | ofNat n => simp [pow2]
  | negSucc n => simp [pow2, zpow_negSucc]

theorem pow2_pos (e : Int) : 0 < pow2 e := by rw [pow2_eq]; positivity

/-! ## `Alg.toReal` -/

/-- The real number of one entry. -/
noncomputable def termReal (kq : Nat × Rat) : ℝ := (kq.2 : ℝ) * (2 : ℝ) ^ ((kq.1 : ℝ) / 3072)

theorem Alg.toReal_mk (ts : List (Nat × Rat)) : Alg.toReal ⟨ts⟩ = (ts.map termReal).sum := rfl

theorem termReal_add (k : Nat) (p q : Rat) : termReal (k, p + q) = termReal (k, p) + termReal (k, q) := by
  simp only [termReal]; push_cast; ring

theorem sum_insert (k : Nat) (q : Rat) (ts : List (Nat × Rat)) :
    ((Alg.insert k q ts).map termReal).sum = termReal (k, q) + (ts.map termReal).sum := by
  induction ts with
  | nil =>
    simp only [Alg.insert]
    split
    · next h => subst h; simp [termReal]
    · rfl
  | cons x r ih =>
    obtain ⟨k', q'⟩ := x
    simp only [Alg.insert]
    split
    · split
      · next h => subst h; simp [termReal]
      · rfl
    · split
      · next h =>
        subst h
        split
        · next hz =>
          have := termReal_add k q' q
          rw [hz] at this
          simp only [termReal, Rat.cast_zero, zero_mul] at this
          simp only [List.map_cons, List.sum_cons, termReal]
          linarith
        · simp only [List.map_cons, List.sum_cons, termReal_add]; ring
      · simp only [List.map_cons, List.sum_cons, ih]; ring

@[simp] theorem Alg.toReal_zero : Alg.toReal ⟨[]⟩ = 0 := by simp [Alg.toReal_mk]

@[simp] theorem Alg.toReal_zero' : Alg.toReal .zero = 0 := Alg.toReal_zero

@[simp] theorem Alg.toReal_ofRat (q : Rat) : (Alg.ofRat q).toReal = (q : ℝ) := by
  rw [Alg.ofRat, Alg.toReal_mk, sum_insert]
  simp [termReal]

@[simp] theorem Alg.toReal_add (a b : Alg) : (a.add b).toReal = a.toReal + b.toReal := by
  obtain ⟨as⟩ := a
  obtain ⟨bs⟩ := b
  simp only [Alg.add, Alg.toReal_mk]
  induction as with
  | nil => simp
  | cons x r ih => simp only [List.foldr_cons, sum_insert, ih, List.map_cons, List.sum_cons]; ring

@[simp] theorem Alg.toReal_smul (q : Rat) (a : Alg) : (a.smul q).toReal = (q : ℝ) * a.toReal := by
  unfold Alg.smul
  split
  · next h => subst h; simp
  · obtain ⟨ts⟩ := a
    simp only [Alg.toReal_mk]
    induction ts with
    | nil => simp
    | cons x r ih =>
      simp only [List.map_cons, List.sum_cons, List.map_map] at ih ⊢
      rw [ih]
      simp only [termReal]
      push_cast
      ring

@[simp] theorem Alg.toReal_sub (a b : Alg) : (a.sub b).toReal = a.toReal - b.toReal := by
  simp only [Alg.sub, Alg.toReal_add, Alg.toReal_smul]; push_cast; ring

theorem termReal_mulTerm (x y : Nat × Rat) : termReal (Alg.mulTerm x y) = termReal x * termReal y := by
  have h2 : (0 : ℝ) < 2 := by norm_num
  unfold Alg.mulTerm
  split
  · simp only [termReal]
    push_cast
    rw [show ((x.1 : ℝ) + y.1) / 3072 = (x.1 : ℝ) / 3072 + (y.1 : ℝ) / 3072 by ring, Real.rpow_add h2]
    ring
  · next h =>
    have h' : Config.pitchSteps ≤ x.1 + y.1 := Nat.le_of_not_lt h
    simp only [termReal]
    rw [Nat.cast_sub h']
    push_cast
    rw [show (((x.1 : ℝ) + y.1 - (Config.pitchSteps : ℝ)) / 3072) = (x.1 : ℝ) / 3072 + (y.1 : ℝ) / 3072 - 1 by
      rw [show (Config.pitchSteps : ℝ) = 3072 by norm_num [Config.pitchSteps]]; ring]
    rw [Real.rpow_sub h2, Real.rpow_add h2, Real.rpow_one]
    ring

@[simp] theorem Alg.toReal_mul (a b : Alg) : (a.mul b).toReal = a.toReal * b.toReal := by
  obtain ⟨as⟩ := a
  obtain ⟨bs⟩ := b
  simp only [Alg.mul, Alg.toReal_mk]
  have inner : ∀ (x : Nat × Rat) (acc : List (Nat × Rat)),
      ((bs.foldr (fun y acc => Alg.insert (Alg.mulTerm x y).1 (Alg.mulTerm x y).2 acc) acc).map termReal).sum =
        termReal x * (bs.map termReal).sum + (acc.map termReal).sum := by
    intro x acc
    induction bs with
    | nil => simp
    | cons y r ih =>
      simp only [List.foldr_cons, sum_insert, ih, List.map_cons, List.sum_cons]
      rw [show ((Alg.mulTerm x y).1, (Alg.mulTerm x y).2) = Alg.mulTerm x y from rfl, termReal_mulTerm]
      ring
  induction as with
  | nil => simp
  | cons x r ih => simp only [List.foldr_cons, inner, ih, List.map_cons, List.sum_cons]; ring

/-- 2^(e/3072), as a real number. -/
theorem Alg.toReal_exp2 (e : Int) : (Alg.exp2 e).toReal = (2 : ℝ) ^ ((e : ℝ) / 3072) := by
  have h2 : (0 : ℝ) < 2 := by norm_num
  have hp : ((Config.pitchSteps : Nat) : Int) = 3072 := rfl
  simp only [Alg.exp2, Alg.toReal_mk, List.map_cons, List.map_nil, List.sum_cons, List.sum_nil, add_zero, termReal,
    hp, pow2_eq]
  have hm : 0 ≤ e % 3072 := Int.emod_nonneg e (by norm_num)
  have hk : (((e % 3072).toNat : Nat) : ℝ) = ((e % 3072 : Int) : ℝ) := by
    have : (((e % 3072).toNat : Int) : ℝ) = ((e % 3072 : Int) : ℝ) := by rw [Int.toNat_of_nonneg hm]
    rw [← this]; push_cast; ring
  have he : (e : ℝ) = 3072 * ((e / 3072 : Int) : ℝ) + ((e % 3072 : Int) : ℝ) := by
    exact_mod_cast (Int.mul_ediv_add_emod e 3072).symm
  rw [hk, he, show (3072 * ((e / 3072 : Int) : ℝ) + ((e % 3072 : Int) : ℝ)) / 3072 =
    ((e / 3072 : Int) : ℝ) + ((e % 3072 : Int) : ℝ) / 3072 by ring, Real.rpow_add h2, Real.rpow_intCast]
  push_cast
  norm_num

theorem Alg.toReal_exp2_pos (e : Int) : 0 < (Alg.exp2 e).toReal := by
  rw [Alg.toReal_exp2]; positivity

/-! ## Canonical form -/

theorem Alg.wf_iff (a : Alg) :
    a.wf = true ↔ (∀ kq ∈ a.terms, kq.1 < 3072 ∧ kq.2 ≠ 0) ∧ (a.terms.map Prod.fst).Pairwise (· < ·) := by
  simp only [Alg.wf, Bool.and_eq_true, List.all_eq_true, decide_eq_true_eq]; rfl

theorem mem_insert {k : Nat} {q : Rat} {ts : List (Nat × Rat)} {e : Nat × Rat} (h : e ∈ Alg.insert k q ts) :
    e ∈ ts ∨ (e.1 = k ∧ e.2 ≠ 0) := by
  induction ts with
  | nil =>
    simp only [Alg.insert] at h
    split at h <;> simp_all
  | cons x r ih =>
    obtain ⟨k', q'⟩ := x
    simp only [Alg.insert] at h
    split at h
    · split at h
      · exact .inl h
      · rcases List.mem_cons.mp h with rfl | h
        · exact .inr ⟨rfl, by assumption⟩
        · exact .inl h
    · split at h
      · split at h
        · exact .inl (List.mem_cons_of_mem _ h)
        · rcases List.mem_cons.mp h with rfl | h
          · exact .inr ⟨rfl, by assumption⟩
          · exact .inl (List.mem_cons_of_mem _ h)
      · rcases List.mem_cons.mp h with rfl | h
        · exact .inl (by simp)
        · rcases ih h with h | h
          · exact .inl (List.mem_cons_of_mem _ h)
          · exact .inr h

theorem pairwise_insert {k : Nat} {q : Rat} {ts : List (Nat × Rat)} (h : (ts.map Prod.fst).Pairwise (· < ·)) :
    ((Alg.insert k q ts).map Prod.fst).Pairwise (· < ·) := by
  induction ts with
  | nil => simp only [Alg.insert]; split <;> simp
  | cons x r ih =>
    obtain ⟨k', q'⟩ := x
    have hr : (r.map Prod.fst).Pairwise (· < ·) := (List.pairwise_cons.mp h).2
    have hk : ∀ e ∈ r, k' < e.1 := fun e he => (List.pairwise_cons.mp h).1 _ (List.mem_map_of_mem he)
    simp only [Alg.insert]
    split
    · next hlt =>
      split
      · exact h
      · refine List.pairwise_cons.mpr ⟨?_, h⟩
        intro a ha
        rcases List.mem_cons.mp ha with rfl | ha
        · exact hlt
        · obtain ⟨e, he, rfl⟩ := List.mem_map.mp ha
          exact Nat.lt_trans hlt (hk e he)
    · split
      · next heq =>
        split
        · exact hr
        · refine List.pairwise_cons.mpr ⟨?_, hr⟩
          intro a ha
          obtain ⟨e, he, rfl⟩ := List.mem_map.mp ha
          rw [heq]; exact hk e he
      · next hnlt hne =>
        refine List.pairwise_cons.mpr ⟨?_, ih hr⟩
        intro a ha
        obtain ⟨e, he, rfl⟩ := List.mem_map.mp ha
        rcases mem_insert he with he | ⟨rfl, _⟩
        · exact hk e he
        · omega

theorem wf_insert {k : Nat} (hk : k < 3072) {q : Rat} {a : Alg} (h : a.wf = true) :
    Alg.wf ⟨Alg.insert k q a.terms⟩ = true := by
  obtain ⟨h1, h2⟩ := (Alg.wf_iff a).mp h
  refine (Alg.wf_iff _).mpr ⟨?_, pairwise_insert h2⟩
  intro e he
  rcases mem_insert he with he | ⟨rfl, hq⟩
  · exact h1 e he
  · exact ⟨hk, hq⟩

theorem Alg.wf_zero : Alg.wf .zero = true := rfl

theorem Alg.wf_ofRat (q : Rat) : (Alg.ofRat q).wf = true := wf_insert (by norm_num) Alg.wf_zero

theorem Alg.wf_add {a b : Alg} (ha : a.wf = true) (hb : b.wf = true) : (a.add b).wf = true := by
  obtain ⟨as⟩ := a
  obtain ⟨h1, -⟩ := (Alg.wf_iff _).mp ha
  clear ha
  simp only [Alg.add]
  induction as with
  | nil => exact hb
  | cons x r ih =>
    exact wf_insert (h1 x (by simp)).1 (ih fun e he => h1 e (List.mem_cons_of_mem _ he))

theorem Alg.wf_smul {q : Rat} {a : Alg} (ha : a.wf = true) : (a.smul q).wf = true := by
  unfold Alg.smul
  split
  · rfl
  · next hq =>
    obtain ⟨h1, h2⟩ := (Alg.wf_iff _).mp ha
    refine (Alg.wf_iff _).mpr ⟨?_, ?_⟩
    · intro e he
      obtain ⟨x, hx, rfl⟩ := List.mem_map.mp he
      exact ⟨(h1 x hx).1, mul_ne_zero hq (h1 x hx).2⟩
    · rw [List.map_map]; exact h2

theorem Alg.wf_exp2 (e : Int) : (Alg.exp2 e).wf = true := by
  have hp : ((Config.pitchSteps : Nat) : Int) = 3072 := rfl
  refine (Alg.wf_iff _).mpr ⟨?_, by simp [Alg.exp2]⟩
  intro x hx
  simp only [Alg.exp2, List.mem_singleton] at hx
  subst hx
  refine ⟨?_, (pow2_pos _).ne'⟩
  have h1 := Int.emod_lt_of_pos e (show (0 : Int) < 3072 by norm_num)
  have h0 := Int.emod_nonneg e (show (3072 : Int) ≠ 0 by norm_num)
  simp only [hp]
  omega

/-! ## Samples -/

@[simp] theorem SReal.toReal_zero : SReal.zero.toReal = 0 := Alg.toReal_zero

@[simp] theorem SReal.toReal_ofRat (q : Rat) : (SReal.ofRat q).toReal = (q : ℝ) := Alg.toReal_ofRat q

theorem SReal.toReal_of_isZero {a : SReal} (h : a.isZero = true) : a.toReal = 0 := by
  cases a with
  | alg x =>
    obtain ⟨ts⟩ := x
    simp only [SReal.isZero, Alg.isZero, List.isEmpty_iff] at h
    subst h; exact Alg.toReal_zero
  | _ => exact absurd h (by simp [SReal.isZero])

theorem Alg.toReal_of_isZero {x : Alg} (h : x.isZero = true) : x.toReal = 0 :=
  SReal.toReal_of_isZero (a := .alg x) h

@[simp] theorem SReal.toReal_plus (a b : SReal) : (a.plus b).toReal = a.toReal + b.toReal := by
  unfold SReal.plus
  split
  · exact Alg.toReal_add _ _
  · split
    · next h => simp [SReal.toReal, Alg.toReal_of_isZero h]
    · rfl
  · split
    · next h => simp [SReal.toReal, Alg.toReal_of_isZero h]
    · rfl
  · rfl

@[simp] theorem SReal.toReal_smul (q : Rat) (a : SReal) : (a.smul q).toReal = (q : ℝ) * a.toReal := by
  unfold SReal.smul
  split
  · next h => rw [SReal.toReal_of_isZero h]; simp
  · split
    · next h => subst h; simp
    · split
      · next h => subst h; simp
      · split
        · exact Alg.toReal_smul _ _
        · simp [SReal.toReal]

@[simp] theorem SReal.toReal_times (a b : SReal) : (a.times b).toReal = a.toReal * b.toReal := by
  unfold SReal.times
  split
  · next h => rw [SReal.toReal_of_isZero h]; simp
  · split
    · next h => rw [SReal.toReal_of_isZero h]; simp
    · split
      · exact Alg.toReal_mul _ _
      · rfl

@[simp] theorem SReal.toReal_minus (a b : SReal) : (a.minus b).toReal = a.toReal - b.toReal := by
  simp only [SReal.minus, SReal.toReal_plus, SReal.toReal_smul]; push_cast; ring

theorem Alg.toReal_of_toRat? {x : Alg} {q : Rat} (h : x.toRat? = some q) : x.toReal = (q : ℝ) := by
  obtain ⟨ts⟩ := x
  unfold Alg.toRat? at h
  split at h
  · next h' => simp only at h'; subst h'; simp at h; subst h; simp
  · next q' h' =>
    simp only at h'; subst h'
    simp only [Option.some.injEq] at h
    subst h
    simp [Alg.toReal_mk, termReal]
  · exact absurd h (by simp)

@[simp] theorem SReal.toReal_over (a b : SReal) : (a.over b).toReal = a.toReal / b.toReal := by
  unfold SReal.over
  split
  · next y =>
    split
    · next q hq =>
      split
      · rfl
      · rw [SReal.toReal_smul, SReal.toReal, Alg.toReal_of_toRat? hq]; push_cast; ring
    · rfl
  · rfl

theorem SReal.toReal_of_toRat? {a : SReal} {q : Rat} (h : a.toRat? = some q) : a.toReal = (q : ℝ) := by
  cases a with
  | alg x => exact Alg.toReal_of_toRat? h
  | _ => exact absurd h (by simp [SReal.toRat?])

@[simp] theorem SReal.toReal_magnitude (a : SReal) : a.magnitude.toReal = |a.toReal| := by
  unfold SReal.magnitude
  cases h : a.toRat? with
  | none => rfl
  | some q =>
    rw [SReal.toReal_of_toRat? h]
    simp only [SReal.toReal_ofRat]
    split
    · next hq => rw [abs_of_nonneg (by exact_mod_cast hq)]
    · next hq => rw [abs_of_nonpos (by exact_mod_cast (le_of_lt (not_le.mp hq)))]; push_cast; rfl

@[simp] theorem SReal.toReal_larger (a b : SReal) : (a.larger b).toReal = max a.toReal b.toReal := by
  unfold SReal.larger
  split
  · next p q hp hq =>
    rw [SReal.toReal_of_toRat? hp, SReal.toReal_of_toRat? hq, SReal.toReal_ofRat]
    split
    · next h => rw [max_eq_right (by exact_mod_cast h)]
    · next h => rw [max_eq_left (by exact_mod_cast (le_of_lt (not_le.mp h)))]
  · rfl

theorem toReal_foldl_plus {α : Type} (f : α → SReal) (xs : List α) (acc : SReal) :
    (xs.foldl (fun a x => a.plus (f x)) acc).toReal = acc.toReal + (xs.map fun x => (f x).toReal).sum := by
  induction xs generalizing acc with
  | nil => simp
  | cons x r ih => simp [ih, add_assoc]

/-- Adding buffers adds the frames that both have, and keeps the rest. -/
theorem getElem?_addFrames (b y : List Frame) (k : Nat) :
    (addFrames b y)[k]? = (b[k]?).map fun f => match y[k]? with | some g => f.plus g | none => f := by
  induction b generalizing y k with
  | nil => cases y <;> simp [addFrames]
  | cons f b ih =>
    cases y with
    | nil => cases h : (f :: b)[k]? <;> simp [addFrames, h]
    | cons g y =>
      cases k with
      | zero => simp [addFrames]
      | succ k => simp [addFrames, ih]

@[simp] theorem length_addFrames (b y : List Frame) : (addFrames b y).length = b.length := by
  induction b generalizing y with
  | nil => cases y <;> rfl
  | cons f b ih => cases y <;> simp [addFrames, ih]

@[simp] theorem addFrames_nil (b : List Frame) : addFrames b [] = b := by cases b <;> rfl

/-! ## The floor -/

/-- A number with no irrational part: at most the entry 0. -/
def Alg.Rational (a : Alg) : Prop := ∀ kq ∈ a.terms, kq.1 = 0

theorem Alg.rational_ofRat (q : Rat) : (Alg.ofRat q).Rational := by
  intro e he
  rcases mem_insert he with he | ⟨h, _⟩
  · exact absurd he (by simp)
  · exact h

theorem Alg.Rational.sub {a b : Alg} (ha : a.Rational) (hb : b.Rational) : (a.sub b).Rational := by
  have hneg : (b.smul (-1)).Rational := by
    intro e he
    obtain ⟨t, ht, rfl⟩ := List.mem_map.mp (show e ∈ b.terms.map fun kq => (kq.1, -1 * kq.2) from he)
    exact hb t ht
  obtain ⟨ts⟩ := a
  unfold Alg.Rational at ha
  unfold Alg.Rational Alg.sub Alg.add
  induction ts with
  | nil => exact hneg
  | cons x r ih =>
    intro e he
    obtain he | ⟨hk, -⟩ := mem_insert he
    · exact ih (fun t ht => ha t (List.mem_cons_of_mem _ ht)) e he
    · rw [hk]; exact ha x List.mem_cons_self

theorem termBounds_zero (P : Nat) (q : Rat) : termBounds P (0, q) = (q, q) := rfl

/-- For a rational number both ends of the interval are the number. -/
theorem Alg.bounds_rational {a : Alg} (h : a.Rational) (P : Nat) :
    (a.bounds P).1 = (a.bounds P).2 ∧ (((a.bounds P).1 : Rat) : ℝ) = a.toReal := by
  obtain ⟨ts⟩ := a
  unfold Alg.Rational at h
  simp only [Alg.bounds, Alg.toReal_mk]
  induction ts with
  | nil => simp
  | cons x r ih =>
    obtain ⟨k, q⟩ := x
    have hk : k = 0 := h (k, q) (by simp)
    subst hk
    obtain ⟨h1, h2⟩ := ih fun e he => h e (List.mem_cons_of_mem _ he)
    simp only [List.foldr_cons, termBounds_zero, List.map_cons, List.sum_cons, termReal]
    refine ⟨by rw [h1], ?_⟩
    push_cast
    rw [h2]
    simp

theorem Alg.floorLoop_of_agree {a : Alg} {P : Nat} (h : (a.bounds P).1.floor = (a.bounds P).2.floor) (f : Nat) :
    a.floorLoop f P = (a.bounds P).1.floor := by
  cases f <;> simp [Alg.floorLoop, h]

/-- The floor of a rational number is exact. -/
theorem Alg.floor_rational {a : Alg} (h : a.Rational) : a.floor = ⌊a.toReal⌋ := by
  obtain ⟨h1, h2⟩ := Alg.bounds_rational h 32
  unfold Alg.floor
  rw [Alg.floorLoop_of_agree (by rw [h1]), ← h2]
  exact (Rat.floor_cast _).symm

theorem Alg.floor_ofRat (q : Rat) : (Alg.ofRat q).floor = ⌊q⌋ := by
  rw [Alg.floor_rational (Alg.rational_ofRat q), Alg.toReal_ofRat, Rat.floor_cast]

end Sys2Proof
end

