-- ==== Sys2Proof/Laws/Kernels.lean ====
section
/-! SUPPORT. The band-limiting kernels of R295 to R297 as functions of reals: continuity, the values at integers, the support. -/

namespace Sys2Proof

open scoped Real

theorem sincFn_eq (z : ℝ) : sincFn z = Real.sinc (π * z) := by
  unfold sincFn
  split
  · next h => simp [h]
  · next h => rw [Real.sinc_of_ne_zero (mul_ne_zero Real.pi_ne_zero h)]

theorem continuous_sincFn : Continuous sincFn := by
  rw [show sincFn = fun z => Real.sinc (π * z) from funext sincFn_eq]
  exact Real.continuous_sinc.comp (continuous_const.mul continuous_id)

@[simp] theorem sincFn_zero : sincFn 0 = 1 := if_pos rfl

/-- sinc vanishes at every integer but 0. -/
theorem sincFn_int {m : Int} (h : m ≠ 0) : sincFn m = 0 := by
  unfold sincFn
  rw [if_neg (by exact_mod_cast h), mul_comm, Real.sin_int_mul_pi, zero_div]

/-- The Blackman window is 0 at the ends of its support, so it is continuous. -/
theorem continuous_windowFn : Continuous windowFn := by
  have h : windowFn = fun v => if |v| ≤ 1 then 0.42 + 0.5 * Real.cos (π * v) + 0.08 * Real.cos (2 * π * v) else 0 := by
    funext v
    unfold windowFn
    rcases lt_trichotomy |v| 1 with h | h | h
    · rw [if_pos h, if_pos h.le]
    · rw [if_neg h.not_lt, if_pos h.le]
      have hv : Real.cos (π * v) = -1 ∧ Real.cos (2 * π * v) = 1 := by
        rcases (abs_eq (zero_le_one' ℝ)).mp h with rfl | rfl
        · rw [mul_one, mul_one]; exact ⟨Real.cos_pi, Real.cos_two_pi⟩
        · rw [mul_neg_one, mul_neg_one, Real.cos_neg, Real.cos_neg]; exact ⟨Real.cos_pi, Real.cos_two_pi⟩
      rw [hv.1, hv.2]; norm_num
    · rw [if_neg (not_lt.mpr h.le), if_neg (not_le.mpr h)]
  rw [h]
  refine Continuous.if_le (by fun_prop) continuous_const continuous_abs continuous_const fun v hv => ?_
  have hv : Real.cos (π * v) = -1 ∧ Real.cos (2 * π * v) = 1 := by
    rcases (abs_eq (zero_le_one' ℝ)).mp hv with rfl | rfl
    · rw [mul_one, mul_one]; exact ⟨Real.cos_pi, Real.cos_two_pi⟩
    · rw [mul_neg_one, mul_neg_one, Real.cos_neg, Real.cos_neg]; exact ⟨Real.cos_pi, Real.cos_two_pi⟩
  rw [hv.1, hv.2]; norm_num

@[simp] theorem windowFn_zero : windowFn 0 = 1 := by norm_num [windowFn]

/-- The window is positive inside its support: it is (y + 1)(0.16 y + 0.34) for y = cos (π v). -/
theorem windowFn_pos {v : ℝ} (h : |v| < 1) : 0 < windowFn v := by
  unfold windowFn
  rw [if_pos h, mul_assoc, Real.cos_two_mul]
  have h1 : -1 < Real.cos (π * v) := by
    have hv : |π * v| < π := by
      rw [abs_mul, abs_of_pos Real.pi_pos]; nlinarith [Real.pi_pos]
    rw [← Real.cos_abs, ← Real.cos_pi]
    exact Real.cos_lt_cos_of_nonneg_of_le_pi (abs_nonneg _) le_rfl hv
  nlinarith [Real.cos_le_one (π * v)]

theorem continuous_kernelH (half : Nat) (inc : ℝ) : Continuous (kernelH half inc) := by
  unfold kernelH
  exact (continuous_const.mul (continuous_sincFn.comp (continuous_const.mul continuous_id))).mul
    (continuous_windowFn.comp (continuous_id.div_const _))

/-- At an increment of at most 1 the kernel's value at an integer is 1 at 0 and 0 elsewhere. -/
theorem kernelH_int (half : Nat) {inc : ℝ} (h0 : 0 < inc) (h1 : inc ≤ 1) (m : Int) :
    kernelH half inc m = if m = 0 then 1 else 0 := by
  have hc : kernelCutoff inc = 1 := min_eq_left (by rw [le_div_iff₀ h0]; linarith)
  unfold kernelH
  rw [hc, one_mul, one_mul]
  split
  · next h => subst h; simp
  · next h => rw [sincFn_int h, zero_mul]

/-- At the increment 2 H the kernel is positive inside its support, so its integral is not 0. -/
theorem kernelMass_pos {half : Nat} (h : 0 < half) : 0 < kernelMass half (2 * half) := by
  have hh : (0 : ℝ) < half := by exact_mod_cast h
  have h1 : (1 : ℝ) ≤ half := by exact_mod_cast h
  have hc : kernelCutoff (2 * half) = 1 / (2 * half) := min_eq_right (by rw [div_le_one (by positivity)]; linarith)
  refine intervalIntegral.intervalIntegral_pos_of_pos_on ((continuous_kernelH _ _).intervalIntegrable _ _) ?_ (by linarith)
  intro v hv
  have hv' : |v / half| < 1 := by
    rw [abs_div, abs_of_pos hh, div_lt_one hh, abs_lt]; exact ⟨hv.1, hv.2⟩
  unfold kernelH
  rw [hc, sincFn_eq]
  refine mul_pos (mul_pos (by positivity) ?_) (windowFn_pos hv')
  have ha : |1 / (2 * (half : ℝ)) * v| < 1 := by
    have : 1 / (2 * (half : ℝ)) * v = v / half / 2 := by field_simp
    rw [this, abs_div, abs_of_pos (zero_lt_two' ℝ)]; linarith
  by_cases hz : 1 / (2 * (half : ℝ)) * v = 0
  · rw [hz]; simp
  · have hp : π * (1 / (2 * (half : ℝ)) * v) ≠ 0 := mul_ne_zero Real.pi_ne_zero hz
    rw [Real.sinc_of_ne_zero hp]
    generalize 1 / (2 * (half : ℝ)) * v = z at *
    have hpi := Real.pi_pos
    rcases lt_or_gt_of_ne hz with hn | hn
    · refine div_pos_of_neg_of_neg (Real.sin_neg_of_neg_of_neg_pi_lt (by nlinarith) ?_) (by nlinarith)
      nlinarith [(abs_lt.mp ha).1]
    · refine div_pos (Real.sin_pos_of_pos_of_lt_pi (by nlinarith) ?_) (by nlinarith)
      nlinarith [(abs_lt.mp ha).2]

end Sys2Proof
end

