-- ==== Sys2Proof/Laws/PerInstr.lean ====
section
/-! SUPPORT. The per-command family EncLen: a command's encoding has the length that its opcode fixes (R122, R123). -/

namespace Sys2Proof.Laws.EncLen

open Sys2Proof

/-- R122: the words of a command are as many as its opcode says. -/
def Statement (i : Instr) : Prop := (encode i).length = commandLength (opcodeOf i)

theorem nop (a : BitVec 8) (imm : BitVec 16) : Statement (.nop a imm) := rfl
theorem cfgWr (a : BitVec 8) (index : BitVec 16) (value : Word) : Statement (.cfgWr a index value) := rfl
theorem reset (a : BitVec 8) (imm : BitVec 16) : Statement (.reset a imm) := rfl
theorem chStartPcm (slot track rsv : BitVec 8) (note : Note) (info : SampleInfo) :
    Statement (.chStartPcm slot track rsv note info) := rfl
theorem chStartSq1 (slot track rsv : BitVec 8) (note : Note) (sweep : BitVec 8) (duty : BitVec 2) (rsv5 : BitVec 22) :
    Statement (.chStartSq1 slot track rsv note sweep duty rsv5) := rfl
theorem chStartSq2 (slot track rsv : BitVec 8) (note : Note) (duty : BitVec 2) (rsv5 : BitVec 30) :
    Statement (.chStartSq2 slot track rsv note duty rsv5) := rfl
theorem chStartWave (slot track rsv : BitVec 8) (note : Note) (wavePos : BitVec 32) :
    Statement (.chStartWave slot track rsv note wavePos) := rfl
theorem chStartNoise (slot track rsv : BitVec 8) (note : Note) (width7 : Bool) (rsv5 : BitVec 31) :
    Statement (.chStartNoise slot track rsv note width7 rsv5) := rfl
theorem chSetVol (slot volMR volML : BitVec 8) : Statement (.chSetVol slot volMR volML) := rfl
theorem chSetPitch (slot : BitVec 8) (pitch : BitVec 16) : Statement (.chSetPitch slot pitch) := rfl
theorem chTickNote (slot : BitVec 8) (imm : BitVec 16) : Statement (.chTickNote slot imm) := rfl
theorem chRelease (slot : BitVec 8) (imm : BitVec 16) : Statement (.chRelease slot imm) := rfl
theorem chReleaseFast (slot : BitVec 8) (imm : BitVec 16) : Statement (.chReleaseFast slot imm) := rfl
theorem mxTick (a : BitVec 8) (imm : BitVec 16) : Statement (.mxTick a imm) := rfl
theorem mxFade (a : BitVec 8) (mode : BitVec 2) (rsv : BitVec 14) (length : Word) : Statement (.mxFade a mode rsv length) := rfl
theorem trkMute (track : BitVec 8) (mute : Bool) (rsv : BitVec 15) : Statement (.trkMute track mute rsv) := rfl
theorem trkReverb (track : BitVec 8) (intensity : BitVec 7) (rsv : BitVec 9) : Statement (.trkReverb track intensity rsv) := rfl

end Sys2Proof.Laws.EncLen
end

