-- ==== Sys2Proof/Laws/Step.lean ====
section
/-! SUPPORT. What a step can do: wait, stay idle, reject an unknown opcode, or run the decoded command. -/

namespace Sys2Proof.Machine

open Sys2Proof

/-- All that taking the next command can do. -/
theorem runFront_cases (s : State) :
    (∃ i n, decode s.port.cmds = .instr i n ∧ runFront s = exec i (s.consume n)) ∨
    (decode s.port.cmds = .badOpcode ∧ runFront s = .next ((s.rejectedWith .badOpcode).consume 1)) ∨
    (decode s.port.cmds = .incomplete ∧ runFront s = .next s) := by
  unfold runFront
  cases h : decode s.port.cmds with
  | instr i n => exact .inl ⟨i, n, rfl, rfl⟩
  | badOpcode => exact .inr (.inl ⟨rfl, by rw [reject_eq_rejectedWith]; rfl⟩)
  | incomplete => exact .inr (.inr ⟨rfl, rfl⟩)

theorem runFront_instr {s : State} {i : Instr} {n : Nat} (h : decode s.port.cmds = .instr i n) :
    runFront s = exec i (s.consume n) := by
  simp only [runFront, h]

theorem renderTurn_ready {s : State} (h : s.port.pending = []) : renderTurn s = runFront (s.setPort s.port.service) := by
  simp only [renderTurn, h, if_true]

theorem renderTurn_waits {s : State} (h : s.port.pending ≠ []) : renderTurn s = .next s := by
  simp only [renderTurn, h, if_false]

/-- All that a step can do: the render agent waits, or it takes the next command after the rendezvous. -/
theorem step_cases (s : State) :
    (s.port.hostTurn.pending ≠ [] ∧ step s = .next (s.setPort s.port.hostTurn)) ∨
    (s.port.hostTurn.pending = [] ∧ step s = runFront (s.setPort s.port.hostTurn.service)) := by
  by_cases h : s.port.hostTurn.pending = []
  · exact .inr ⟨h, renderTurn_ready h⟩
  · exact .inl ⟨h, renderTurn_waits h⟩

end Sys2Proof.Machine
end

