-- ==== Sys2Proof/Laws/Tick.lean ====
section
/-! SUPPORT. What a render tick does, slot by slot, track by track and instance by instance. -/

namespace Sys2Proof.Machine

open Sys2Proof

/-! ## A channel's tick -/

@[simp] theorem sweepTick_type (a : TickArgs) (c : Chan) : (c.sweepTick a).type = c.type := by
  unfold Chan.sweepTick; split <;> simp [Chan.type, Voice.type, *]

/-- A sweep's tick writes its register and its clock. -/
theorem sweepTick_eq (n : Nat) (rate : Word) (sw : Sweep) :
    sw.tick n rate = { sw with reg := (sw.tick n rate).reg, acc := (sw.tick n rate).acc } := by
  unfold Sweep.tick; split <;> rfl

/-- A sweep tick writes the payload of an SQ1 channel and nothing else. -/
theorem sweepTick_cases (a : TickArgs) (c : Chan) :
    (∃ duty sw, c.voice = .sq1 duty sw ∧ c.sweepTick a = { c with voice := .sq1 duty (sw.tick a.n a.rate) }) ∨
    ((∀ duty sw, c.voice ≠ .sq1 duty sw) ∧ c.sweepTick a = c) := by
  unfold Chan.sweepTick
  cases h : c.voice with
  | sq1 d sw => exact .inl ⟨d, sw, rfl, rfl⟩
  | pcm v => exact .inr ⟨by simp, rfl⟩
  | sq2 d => exact .inr ⟨by simp, rfl⟩
  | wave p n m => exact .inr ⟨by simp, rfl⟩
  | noise w => exact .inr ⟨by simp, rfl⟩

/-- The end of `Process` writes the envelope state only. -/
theorem afterTick_eq (c : Chan) :
    c.afterTick = { c with envState := if c.envState = .die || c.exhausted then .dead else c.envState } := by
  unfold Chan.afterTick; split <;> rfl

/-- All that `render` does to the record. -/
theorem render_fst (a : TickArgs) (src : Source) (c : Chan) :
    ∃ e, (c.render a src).1 =
      { c with
        inc := (c.rateHz a.par a.fixedRate).smul (1 / (a.rate.toNat : Rat))
        t := c.t.add (((c.rateHz a.par a.fixedRate).smul (1 / (a.rate.toNat : Rat))).smul (a.n : Rat))
        lastGainL := c.gainL a
        lastGainR := c.gainR a
        envState := e } ∧ (e = c.envState ∨ e = .dead) ∧ (c.envState = .die → e = .dead) := by
  refine ⟨_, afterTick_eq _, ?_, ?_⟩
  · dsimp only; split
    · exact .inr rfl
    · exact .inl rfl
  · intro h; simp [h]

/-- Frame k of what `render` adds: the kernel at c.t + k × inc, by the ramped gain of each side. -/
theorem getElem?_render (a : TickArgs) (src : Source) (c : Chan) {k : Nat} (hk : k < a.n) {inc : Alg} {y : SReal}
    (hi : inc = (c.rateHz a.par a.fixedRate).smul (1 / (a.rate.toNat : Rat)))
    (hy : y = kernelAt a.par.sincHalf c.rsKind (c.source a src) (c.t.add (inc.smul (k : Rat))) inc) :
    (c.render a src).2[k]? =
      some ⟨y.smul (lerp c.lastGainL (c.gainL a) ((k : Rat) / (a.n : Rat))),
        y.smul (lerp c.lastGainR (c.gainR a) ((k : Rat) / (a.n : Rat)))⟩ := by
  subst hi hy
  simp only [Chan.render, rampFrames, resample, getElem?_mapFrom, List.getElem?_map, List.getElem?_range hk, Option.map_some,
    List.length_map, List.length_range, Nat.zero_add]

/-- Every source rate is in canonical form. -/
theorem Chan.wf_rateHz (p : Config.Params) (fixedRate : Word) (c : Chan) : (c.rateHz p fixedRate).wf = true := by
  have hkey : ∀ r k q, (keyRatio r k q).wf = true := fun _ _ _ => Alg.wf_exp2 _
  unfold Chan.rateHz
  split
  · unfold pcmRate
    split
    · exact Alg.wf_ofRat _
    · exact Alg.wf_smul (hkey ..)
  · unfold sq1Freq
    split
    · exact Alg.wf_smul (Alg.wf_ofRat _)
    · exact Alg.wf_smul (Alg.wf_smul (hkey ..))
  · exact Alg.wf_smul (Alg.wf_smul (hkey ..))
  · exact Alg.wf_smul (Alg.wf_smul (hkey ..))
  · unfold noiseRate
    dsimp only
    split
    · exact Alg.wf_ofRat _
    · split
      · exact Alg.wf_smul (hkey ..)
      · exact Alg.wf_ofRat _

theorem process_dead {a : TickArgs} {src : Source} {c : Chan} (h : (c.stepEnvelope a.par.interframes a.susBug).envState = .dead) :
    c.process a src = (c.stepEnvelope a.par.interframes a.susBug, []) := by simp only [Chan.process, h, if_true]

theorem process_sounds {a : TickArgs} {src : Source} {c : Chan} (h : (c.stepEnvelope a.par.interframes a.susBug).envState ≠ .dead) :
    c.process a src = ((c.stepEnvelope a.par.interframes a.susBug).sweepTick a).render a src := by simp only [Chan.process, h, if_false]

/-- The fields that no rule of a tick writes are kept by the envelope step. -/
theorem tickKeeps_of_envelopeOnly {c d : Chan} (h : EnvelopeOnly c d) : TickKeeps c d := by
  obtain ⟨_, _, _, _, _, _, _, _, _, _, rfl⟩ := h
  exact ⟨rfl, ⟨rfl, rfl, rfl, rfl⟩, ⟨rfl, rfl⟩, ⟨rfl, rfl, rfl, rfl⟩, ⟨rfl, rfl, rfl, rfl⟩, rfl, rfl, rfl, rfl, rfl, fun _ => rfl,
    fun _ sw hv => ⟨sw.reg, sw.acc, hv, fun _ => ⟨rfl, rfl⟩⟩⟩

theorem TickKeeps.refl (c : Chan) : TickKeeps c c := tickKeeps_of_envelopeOnly (.refl c)

/-- `Process` keeps the fields that no rule of a tick writes. -/
theorem tickKeeps_process (a : TickArgs) (src : Source) (c : Chan) : TickKeeps c (c.process a src).1 := by
  by_cases h : (c.stepEnvelope a.par.interframes a.susBug).envState = .dead
  · rw [process_dead h]; exact tickKeeps_of_envelopeOnly (envelopeOnly_stepEnvelope _ _ _)
  · rw [process_sounds h]
    obtain ⟨e, he, -⟩ := render_fst a src ((c.stepEnvelope a.par.interframes a.susBug).sweepTick a)
    rw [he]
    obtain ⟨_, _, _, _, _, _, _, _, _, _, hd⟩ := envelopeOnly_stepEnvelope a.par.interframes a.susBug c
    obtain ⟨duty, sw, hv, hs⟩ | ⟨hv, hs⟩ := sweepTick_cases a (c.stepEnvelope a.par.interframes a.susBug)
    · rw [hs]
      rw [stepEnvelope_voice] at hv
      rw [hd]
      refine ⟨rfl, ⟨rfl, rfl, rfl, rfl⟩, ⟨rfl, rfl⟩, ⟨rfl, rfl, rfl, rfl⟩, ⟨rfl, rfl, rfl, rfl⟩, rfl, rfl, rfl, rfl, ?_,
        fun hn => absurd hv (hn duty sw), fun d' sw' hv' => ?_⟩
      · simp [Chan.type, Voice.type, hv]
      · rw [hv] at hv'
        cases hv'
        exact ⟨(sw.tick a.n a.rate).reg, (sw.tick a.n a.rate).acc, by rw [sweepTick_eq], fun h => by simp [Sweep.tick, h]⟩
    · rw [hs, hd]
      exact ⟨rfl, ⟨rfl, rfl, rfl, rfl⟩, ⟨rfl, rfl⟩, ⟨rfl, rfl, rfl, rfl⟩, ⟨rfl, rfl, rfl, rfl⟩, rfl, rfl, rfl, rfl, rfl,
        fun _ => rfl, fun _ sw hv => ⟨sw.reg, sw.acc, hv, fun _ => ⟨rfl, rfl⟩⟩⟩

@[simp] theorem process_live (a : TickArgs) (src : Source) (c : Chan) : (c.process a src).1.live = c.live := by
  by_cases h : (c.stepEnvelope a.par.interframes a.susBug).envState = .dead
  · rw [process_dead h]; exact stepEnvelope_live _ _ _
  · rw [process_sounds h]
    obtain ⟨e, he, -⟩ := render_fst a src ((c.stepEnvelope a.par.interframes a.susBug).sweepTick a)
    rw [he]
    obtain ⟨duty, sw, hv, hs⟩ | ⟨hv, hs⟩ := sweepTick_cases a (c.stepEnvelope a.par.interframes a.susBug) <;> rw [hs] <;>
      exact stepEnvelope_live _ _ _

@[simp] theorem process_isPcm (a : TickArgs) (src : Source) (c : Chan) : (c.process a src).1.isPcm = c.isPcm := by
  simp only [Chan.isPcm, (tickKeeps_process a src c).type]

@[simp] theorem process_track (a : TickArgs) (src : Source) (c : Chan) : (c.process a src).1.track = c.track :=
  (tickKeeps_process a src c).track

/-- What a tick does to a slot, before the purge: `Process` if a channel lives there, nothing if none does. -/
def Chan.ticked (a : TickArgs) (src : Source) (c : Chan) : Chan := if c.live then (c.process a src).1 else c

/-- The purge of one slot (R366). -/
def Chan.purged (c : Chan) : Chan := if c.live && c.envState == .dead then { c with live := false } else c

/-! ## The stages -/

section clearBuffers
variable (n : Nat) (s : State)
@[simp] theorem clearBuffers_par : (clearBuffers n s).par = s.par := rfl
@[simp] theorem clearBuffers_cfg : (clearBuffers n s).cfg = s.cfg := rfl
@[simp] theorem clearBuffers_chans : (clearBuffers n s).chans = s.chans := rfl
@[simp] theorem clearBuffers_reverbs : (clearBuffers n s).reverbs = s.reverbs := rfl
@[simp] theorem clearBuffers_mx : (clearBuffers n s).mx = s.mx := rfl
@[simp] theorem clearBuffers_src : (clearBuffers n s).src = s.src := rfl
@[simp] theorem clearBuffers_port : (clearBuffers n s).port = s.port := rfl
end clearBuffers

@[simp] theorem nTracks_clearBuffers (n : Nat) (s : State) : (clearBuffers n s).nTracks = s.nTracks := List.length_map _

theorem track_clearBuffers (n : Nat) (s : State) {k : Nat} (hk : k < s.nTracks) :
    (clearBuffers n s).track k = { s.track k with buf := List.replicate n .zero } := by
  unfold State.track clearBuffers
  exact getD_map _ _ hk _ _

section runChannels
variable (sel : Chan → Bool) (a : TickArgs) (s : State)
@[simp] theorem runChannels_par : (runChannels sel a s).par = s.par := rfl
@[simp] theorem runChannels_cfg : (runChannels sel a s).cfg = s.cfg := rfl
@[simp] theorem runChannels_reverbs : (runChannels sel a s).reverbs = s.reverbs := rfl
@[simp] theorem runChannels_mx : (runChannels sel a s).mx = s.mx := rfl
@[simp] theorem runChannels_src : (runChannels sel a s).src = s.src := rfl
@[simp] theorem runChannels_port : (runChannels sel a s).port = s.port := rfl
end runChannels

@[simp] theorem chSlots_runChannels (sel : Chan → Bool) (a : TickArgs) (s : State) :
    (runChannels sel a s).chSlots = s.chSlots := List.length_map _

@[simp] theorem nTracks_runChannels (sel : Chan → Bool) (a : TickArgs) (s : State) :
    (runChannels sel a s).nTracks = s.nTracks := length_mapFrom _ _ _

theorem chan_runChannels (sel : Chan → Bool) (a : TickArgs) (s : State) {u : Nat} (hu : u < s.chSlots) :
    (runChannels sel a s).chan u = (processSelected sel a s.src (s.chan u)).1 := by
  unfold State.chan runChannels
  simp only [State.setTracks_chans, State.setChans_chans]
  exact getD_map _ _ hu _ _

theorem track_runChannels (sel : Chan → Bool) (a : TickArgs) (s : State) {k : Nat} (hk : k < s.nTracks) :
    (runChannels sel a s).track k =
      { s.track k with buf := mixInto k (s.chans.map (processSelected sel a s.src)) (s.track k).buf } := by
  unfold State.track runChannels
  simp only [State.setTracks_tracks]
  exact getD_mapFrom _ _ hk _ _

theorem length_mixInto (t : Nat) (rs : List (Chan × List Frame)) (buf : List Frame) :
    (mixInto t rs buf).length = buf.length := by
  unfold mixInto
  induction rs generalizing buf with
  | nil => rfl
  | cons r rs ih => rw [List.foldl_cons, ih]; split <;> simp

section runReverbs
variable (s : State)
@[simp] theorem runReverbs_par : (runReverbs s).par = s.par := rfl
@[simp] theorem runReverbs_cfg : (runReverbs s).cfg = s.cfg := rfl
@[simp] theorem runReverbs_chans : (runReverbs s).chans = s.chans := rfl
@[simp] theorem runReverbs_mx : (runReverbs s).mx = s.mx := rfl
@[simp] theorem runReverbs_src : (runReverbs s).src = s.src := rfl
@[simp] theorem runReverbs_port : (runReverbs s).port = s.port := rfl
end runReverbs

@[simp] theorem nTracks_runReverbs (s : State) : (runReverbs s).nTracks = s.nTracks := by
  simp [State.nTracks, runReverbs, length_mapFrom]

@[simp] theorem length_reverbs_runReverbs (s : State) : (runReverbs s).reverbs.length = s.reverbs.length := by
  simp [runReverbs, length_mapFrom]

theorem reverb_runReverbs (s : State) {k : Nat} (hk : k < s.nTracks) (hr : k < s.reverbs.length) :
    (runReverbs s).reverb k =
      ((s.reverb k).process (intensity s.cfg.soundmode (s.track k).rev) (s.track k).buf).1 := by
  unfold State.reverb State.track runReverbs
  simp only [State.setTracks_reverbs, State.setReverbs_reverbs]
  rw [getD_mapFrom _ _ hr (.cleared .noReverb 0 0), getElem?_mapFrom, List.getElem?_eq_getElem hk]
  simp [State.reverb, List.getD_eq_getElem?_getD, List.getElem?_eq_getElem hk]

theorem track_runReverbs (s : State) {k : Nat} (hk : k < s.nTracks) :
    (runReverbs s).track k =
      { s.track k with
        buf := ((s.reverb k).process (intensity s.cfg.soundmode (s.track k).rev) (s.track k).buf).2 } := by
  unfold State.track runReverbs
  simp only [State.setTracks_tracks]
  rw [getD_zipWith _ _ _ hk (by rw [length_mapFrom]; exact hk) Track.reset (.cleared .noReverb 0 0, []),
    getD_mapFrom _ _ hk Track.reset]

section purge
variable (s : State)
@[simp] theorem purge_par : (purge s).par = s.par := rfl
@[simp] theorem purge_cfg : (purge s).cfg = s.cfg := rfl
@[simp] theorem purge_tracks : (purge s).tracks = s.tracks := rfl
@[simp] theorem purge_reverbs : (purge s).reverbs = s.reverbs := rfl
@[simp] theorem purge_mx : (purge s).mx = s.mx := rfl
@[simp] theorem purge_src : (purge s).src = s.src := rfl
@[simp] theorem purge_port : (purge s).port = s.port := rfl
end purge

@[simp] theorem chSlots_purge (s : State) : (purge s).chSlots = s.chSlots := List.length_map _

theorem chan_purge (s : State) {u : Nat} (hu : u < s.chSlots) : (purge s).chan u = (s.chan u).purged := by
  unfold State.chan purge
  simp only [State.setChans_chans]
  exact getD_map _ _ hu _ _

section fade
variable (s : State)
@[simp] theorem fade_par : (fade s).par = s.par := rfl
@[simp] theorem fade_cfg : (fade s).cfg = s.cfg := rfl
@[simp] theorem fade_chans : (fade s).chans = s.chans := rfl
@[simp] theorem fade_reverbs : (fade s).reverbs = s.reverbs := rfl
@[simp] theorem fade_mx : (fade s).mx = s.mx.fadeTick := rfl
@[simp] theorem fade_src : (fade s).src = s.src := rfl
@[simp] theorem fade_port : (fade s).port = s.port := rfl
end fade

@[simp] theorem nTracks_fade (s : State) : (fade s).nTracks = s.nTracks := List.length_map _

theorem track_fade (s : State) {k : Nat} (hk : k < s.nTracks) :
    (fade s).track k = { s.track k with buf := fadeFrames s.par.fadeExp s.mx.fadePos s.mx.nextFadePos (s.track k).buf } := by
  unfold State.track fade
  simp only [State.setMx_tracks, State.setTracks_tracks]
  exact getD_map _ _ hk _ _

@[simp] theorem length_mapFrom' {α β : Type} (f : Nat → α → β) (k : Nat) (xs : List α) :
    (mapFrom f k xs).length = xs.length := length_mapFrom f k xs

@[simp] theorem length_fadeFrames (e : Nat) (p0 p1 : Rat) (buf : List Frame) : (fadeFrames e p0 p1 buf).length = buf.length :=
  length_mapFrom _ _ _

section finishTick
variable (n : Nat) (s : State)
@[simp] theorem finishTick_par : (finishTick n s).par = s.par := rfl
@[simp] theorem finishTick_cfg : (finishTick n s).cfg = s.cfg := rfl
@[simp] theorem finishTick_chans : (finishTick n s).chans = s.chans := rfl
@[simp] theorem finishTick_tracks : (finishTick n s).tracks = s.tracks := rfl
@[simp] theorem finishTick_reverbs : (finishTick n s).reverbs = s.reverbs := rfl
@[simp] theorem finishTick_src : (finishTick n s).src = s.src := rfl
@[simp] theorem finishTick_mx : (finishTick n s).mx =
    { s.mx with master := masterOf n s.tracks, tickCount := s.mx.tickCount + 1 } := rfl
@[simp] theorem finishTick_port : (finishTick n s).port = s.port.push (masterOf n s.tracks) := rfl
end finishTick

@[simp] theorem length_masterOf (n : Nat) (ts : List Track) : (masterOf n ts).length = n := by
  unfold masterOf
  suffices h : ∀ m : List Frame, (ts.foldl (fun m t => if t.mute then m else addFrames m t.buf) m).length = m.length by
    rw [h]; simp
  induction ts with
  | nil => intro m; rfl
  | cons t ts ih => intro m; rw [List.foldl_cons, ih]; split <;> simp

@[simp] theorem length_reverbProcess (i : Rat) (rv : Reverb) (xs : List Frame) : (rv.process i xs).2.length = xs.length := by
  induction xs generalizing rv with
  | nil => rfl
  | cons x xs ih => simp [Reverb.process, ih]

/-! ## The tick as a whole -/

section mixTick
variable (s : State)
@[simp] theorem mixTick_par : (mixTick s).par = s.par := by simp [mixTick]
@[simp] theorem mixTick_cfg : (mixTick s).cfg = s.cfg := by simp [mixTick]
@[simp] theorem mixTick_src : (mixTick s).src = s.src := by simp [mixTick]
end mixTick

/-- The state when the reverbs run: buffers cleared, PCM channels processed (R360, steps 1 to 3). -/
def State.beforeReverb (s : State) : State := runChannels Chan.isPcm s.tickArgs (clearBuffers s.cfg.tickLen.toNat s)

/-- The mixer after a tick: the fade advanced, the tick counted, the master buffer written (R360, R367). -/
theorem mixTick_mx (s : State) : (mixTick s).mx =
    { s.mx.fadeTick with master := (mixTick s).mx.master, tickCount := s.mx.tickCount + 1 } := rfl

theorem mixTick_port (s : State) : (mixTick s).port = s.port.push (mixTick s).mx.master := rfl

/-- The master buffer of a tick is the sum of the tracks as the tick leaves them (R368). -/
theorem mixTick_master (s : State) : (mixTick s).mx.master = masterOf s.cfg.tickLen.toNat (mixTick s).tracks := rfl

theorem mixTick_reverbs (s : State) : (mixTick s).reverbs = (runReverbs s.beforeReverb).reverbs := rfl

@[simp] theorem nTracks_beforeReverb (s : State) : s.beforeReverb.nTracks = s.nTracks := by
  simp [State.beforeReverb]

@[simp] theorem chSlots_mixTick (s : State) : (mixTick s).chSlots = s.chSlots := by
  have h1 : (mixTick s).chSlots =
      (purge (runChannels (fun c => !c.isPcm) s.tickArgs (runReverbs s.beforeReverb))).chSlots := rfl
  have h2 : (runReverbs s.beforeReverb).chSlots = s.beforeReverb.chSlots := rfl
  have h3 : (clearBuffers s.cfg.tickLen.toNat s).chSlots = s.chSlots := rfl
  rw [h1, chSlots_purge, chSlots_runChannels, h2, State.beforeReverb, chSlots_runChannels, h3]

@[simp] theorem nTracks_mixTick (s : State) : (mixTick s).nTracks = s.nTracks := by
  have h1 : (mixTick s).nTracks =
      (fade (purge (runChannels (fun c => !c.isPcm) s.tickArgs (runReverbs s.beforeReverb)))).nTracks := rfl
  have h2 : ∀ x : State, (purge x).nTracks = x.nTracks := fun _ => rfl
  rw [h1, nTracks_fade, h2, nTracks_runChannels, nTracks_runReverbs, nTracks_beforeReverb]

@[simp] theorem length_reverbs_mixTick (s : State) : (mixTick s).reverbs.length = s.reverbs.length := by
  rw [mixTick_reverbs, length_reverbs_runReverbs]; rfl

/-- A slot after a tick (R360, R366): its channel has run once, whatever its type, and leaves if it is DEAD. -/
theorem chan_mixTick (s : State) (u : Nat) : (mixTick s).chan u = ((s.chan u).ticked s.tickArgs s.src).purged := by
  by_cases hu : u < s.chSlots
  · have h1 : (mixTick s).chan u =
        (purge (runChannels (fun c => !c.isPcm) s.tickArgs (runReverbs s.beforeReverb))).chan u := rfl
    have h2 : (runReverbs s.beforeReverb).chan u = s.beforeReverb.chan u := rfl
    have h3 : (clearBuffers s.cfg.tickLen.toNat s).chan u = s.chan u := rfl
    have h4 : s.beforeReverb.chan u = (processSelected Chan.isPcm s.tickArgs s.src (s.chan u)).1 := by
      unfold State.beforeReverb; rw [chan_runChannels _ _ (clearBuffers _ s) hu, h3]; rfl
    have h5 : (runReverbs s.beforeReverb).src = s.src := rfl
    have hu' : u < (runReverbs s.beforeReverb).chSlots := by
      show u < s.beforeReverb.chSlots
      rw [State.beforeReverb, chSlots_runChannels]; exact hu
    rw [h1, chan_purge _ (by rw [chSlots_runChannels]; exact hu'), chan_runChannels _ _ _ hu', h2, h4, h5]
    congr 1
    unfold processSelected Chan.ticked
    cases hl : (s.chan u).live <;> cases hp : (s.chan u).isPcm <;> simp [hl, hp]
  · have hu : s.chSlots ≤ u := by omega
    rw [State.chan_of_le _ hu, State.chan_of_le _ (by rw [chSlots_mixTick]; exact hu)]; rfl

/-- A track when the reverbs run: mute and intensity as before. -/
theorem track_beforeReverb (s : State) {k : Nat} (hk : k < s.nTracks) :
    s.beforeReverb.track k =
      { s.track k with
        buf := mixInto k (s.chans.map (processSelected Chan.isPcm s.tickArgs s.src))
          (List.replicate s.cfg.tickLen.toNat .zero) } := by
  unfold State.beforeReverb
  rw [track_runChannels _ _ _ (by rw [nTracks_clearBuffers]; exact hk), track_clearBuffers _ _ hk]; rfl

/-- A reverb instance after a tick (R332): its track's buffer of PCM sound went through it. -/
theorem reverb_mixTick (s : State) {k : Nat} (hk : k < s.nTracks) (hr : k < s.reverbs.length) :
    (mixTick s).reverb k =
      ((s.reverb k).process (intensity s.cfg.soundmode (s.track k).rev) (s.beforeReverb.track k).buf).1 := by
  have h1 : (mixTick s).reverb k = (runReverbs s.beforeReverb).reverb k := rfl
  have h2 : s.beforeReverb.reverb k = s.reverb k := rfl
  have h3 : (s.beforeReverb.track k).rev = (s.track k).rev := by rw [track_beforeReverb _ hk]
  have h4 : s.beforeReverb.cfg = s.cfg := rfl
  rw [h1, reverb_runReverbs s.beforeReverb (by rw [nTracks_beforeReverb]; exact hk) hr, h2, h3, h4]

/-- A track's buffer when the reverbs run: what the PCM channels of the track add to silence (R363). -/
theorem buf_beforeReverb (s : State) {k : Nat} (hk : k < s.nTracks) :
    (s.beforeReverb.track k).buf =
      mixInto k (s.chans.map (processSelected Chan.isPcm s.tickArgs s.src))
        (List.replicate s.cfg.tickLen.toNat .zero) := by
  rw [track_beforeReverb _ hk]

/-- A track after a tick (R360): the PCM channels of the track through its reverb, the tone generators added, the fade. -/
theorem track_mixTick_eq (s : State) {k : Nat} (hk : k < s.nTracks) :
    (mixTick s).track k =
      { s.track k with
        buf := fadeFrames s.par.fadeExp s.mx.fadePos s.mx.nextFadePos
          (mixInto k (s.beforeReverb.chans.map (processSelected (fun c => !c.isPcm) s.tickArgs s.src))
            ((s.reverb k).process (intensity s.cfg.soundmode (s.track k).rev) (s.beforeReverb.track k).buf).2) } := by
  have h1 : (mixTick s).track k =
      (fade (purge (runChannels (fun c => !c.isPcm) s.tickArgs (runReverbs s.beforeReverb)))).track k := rfl
  have h2 : ∀ x : State, (purge x).track k = x.track k := fun _ => rfl
  have h3 : ∀ x : State, (purge x).nTracks = x.nTracks := fun _ => rfl
  have hb : k < s.beforeReverb.nTracks := by rw [nTracks_beforeReverb]; exact hk
  have hv : k < (runReverbs s.beforeReverb).nTracks := by rw [nTracks_runReverbs]; exact hb
  rw [h1, track_fade _ (by rw [h3, nTracks_runChannels]; exact hv), h2, track_runChannels _ _ _ hv, track_runReverbs _ hb,
    track_beforeReverb _ hk]
  rfl

/-- A track after a tick: mute and intensity kept, a buffer of TICK_LEN frames (R361). -/
theorem track_mixTick (s : State) {k : Nat} (hk : k < s.nTracks) :
    ∃ buf, (mixTick s).track k = { s.track k with buf := buf } ∧ buf.length = s.cfg.tickLen.toNat := by
  refine ⟨_, track_mixTick_eq s hk, ?_⟩
  rw [length_fadeFrames, length_mixInto, length_reverbProcess, buf_beforeReverb _ hk, length_mixInto, List.length_replicate]

/-! ## Where a tick completes -/

theorem firstUnplayable_eq_none (src : Source) (cs : List Chan) :
    firstUnplayable src cs = none ↔ ∀ c ∈ cs, c.live = true → c.playable src = true := by
  induction cs with
  | nil => simp [firstUnplayable]
  | cons c cs ih =>
    unfold firstUnplayable
    by_cases h : (c.live && !c.playable src) = true
    · rw [if_pos h]
      simp only [Bool.and_eq_true, Bool.not_eq_true'] at h
      split
      · simp [h]
      · next hv =>
        have hp := h.2
        unfold Chan.playable at hp
        split at hp
        · next v hv' => exact absurd hv' (hv v)
        · simp at hp
    · rw [if_neg h, ih]
      simp only [Bool.and_eq_true, Bool.not_eq_true', not_and, Bool.not_eq_false] at h
      simp only [List.mem_cons, forall_eq_or_imp]
      exact ⟨fun h2 => ⟨h, h2⟩, And.right⟩

/-- All that an accepted MX_TICK can do: it is `mixTick` where every footprint is valid, a fault elsewhere (log entry 9). -/
theorem exec_mxTick_cases (s : State) :
    (s.FootprintsValid ∧ exec (.mxTick 0 0) s = .next (mixTick s)) ∨
    (¬s.FootprintsValid ∧ ∃ off, exec (.mxTick 0 0) s = .fault (.outsideByteSource off)) := by
  rw [exec_mxTick, if_pos ⟨rfl, rfl⟩]
  cases h : firstUnplayable s.src s.chans with
  | none => exact .inl ⟨(firstUnplayable_eq_none _ _).mp h, rfl⟩
  | some off =>
    refine .inr ⟨fun hf => ?_, off, rfl⟩
    rw [(firstUnplayable_eq_none _ _).mpr hf] at h
    cases h

theorem mxTick_next {s t : State} (h : exec (.mxTick 0 0) s = .next t) : s.FootprintsValid ∧ t = mixTick s := by
  obtain ⟨hf, he⟩ | ⟨-, off, he⟩ := exec_mxTick_cases s <;> rw [he] at h <;> cases h
  exact ⟨hf, rfl⟩

/-! ## Frames as reals -/

/-- Mixing adds, to every frame of a track's buffer, that frame of each channel of the track (R214, R260). -/
theorem toReal_getD_mixInto (k : Nat) (rs : List (Chan × List Frame)) (buf : List Frame) (i : Nat) (hi : i < buf.length) :
    ((mixInto k rs buf).getD i .zero).l.toReal = (buf.getD i .zero).l.toReal +
      (rs.map fun r => if r.1.track = k then (r.2.getD i .zero).l.toReal else 0).sum ∧
    ((mixInto k rs buf).getD i .zero).r.toReal = (buf.getD i .zero).r.toReal +
      (rs.map fun r => if r.1.track = k then (r.2.getD i .zero).r.toReal else 0).sum := by
  induction rs generalizing buf with
  | nil => simp [mixInto]
  | cons r rs ih =>
    have h1 : mixInto k (r :: rs) buf = mixInto k rs (if r.1.track = k then addFrames buf r.2 else buf) := rfl
    rw [h1]
    by_cases ht : r.1.track = k
    · rw [if_pos ht]
      obtain ⟨h2, h3⟩ := ih (addFrames buf r.2) (by simpa using hi)
      have h4 : (addFrames buf r.2).getD i .zero =
          match r.2[i]? with | some g => (buf.getD i .zero).plus g | none => buf.getD i .zero := by
        rw [List.getD_eq_getElem?_getD, getElem?_addFrames, List.getElem?_eq_getElem hi]
        simp only [List.getD_eq_getElem?_getD, List.getElem?_eq_getElem hi]
        cases r.2[i]? <;> rfl
      rw [h2, h3, h4]
      simp only [List.map_cons, List.sum_cons, if_pos ht, List.getD_eq_getElem?_getD]
      cases r.2[i]? with
      | none => simp [Frame.zero]
      | some g => simp only [Frame.plus, SReal.toReal_plus, Option.getD_some]; constructor <;> ring
    · rw [if_neg ht]
      obtain ⟨h2, h3⟩ := ih buf hi
      rw [h2, h3]; simp [ht]

/-- A sum over the slots, slot by slot. -/
theorem sum_chans (s : State) (g : Chan → ℝ) :
    (s.chans.map g).sum = ((List.range s.chSlots).map fun u => g (s.chan u)).sum := by
  congr 1
  apply List.ext_getElem
  · simp [State.chSlots]
  · intro i h1 h2
    have : i < s.chans.length := by simpa using h1
    simp [State.chan, List.getD_eq_getElem?_getD, List.getElem?_eq_getElem this]

/-- Frame i of a faded buffer (R367). -/
theorem getD_fadeFrames (e : Nat) (p0 p1 : Rat) (buf : List Frame) (i : Nat) (hi : i < buf.length) :
    (fadeFrames e p0 p1 buf).getD i .zero =
      (buf.getD i .zero).smul (lerp (ratPow p0 e) (ratPow p1 e) ((i : Rat) / buf.length)) :=
  getD_mapFrom _ _ hi _ _

end Sys2Proof.Machine
end

