-- ==== Sys2Proof/Machine/Assembler.lean ====
section
/-! DEFINITION. The text syntax of R135 (a command as its line of assembler text, and the named operands of a line with their
defaults) and the pseudo-commands of R136 (as the commands they stand for). Reserved fields have no text: the line is that of
the command with them 0. Log entry 18. -/

namespace Sys2Proof.Machine

open Sys2Proof

/-- An unsigned operand in decimal. -/
def asmNat {w : Nat} (b : BitVec w) : String := toString b.toNat

/-- A signed operand in decimal. -/
def asmInt {w : Nat} (b : BitVec w) : String := toString b.toInt

/-- The operands of W1 to W4 (R135). -/
def asmNote (n : Note) : String :=
  "key=" ++ asmNat n.key ++ ", vel=" ++ asmNat n.velocity ++ ", rpan=" ++ asmInt n.rhythmPan ++ ", prio=" ++
    asmNat n.priority ++ ", len=" ++ asmInt n.length ++ ", evol=" ++ asmNat n.echoVol ++ ", elen=" ++ asmNat n.echoLen ++
    ", adsr=" ++ asmNat n.att ++ "/" ++ asmNat n.dec ++ "/" ++ asmNat n.sus ++ "/" ++ asmNat n.rel ++ ", vmr=" ++
    asmNat n.volMR ++ ", vml=" ++ asmNat n.volML ++ ", pitch=" ++ asmInt n.pitch

/-- The operands of W5 to W9 (R135). DESIGN CHOICE (log entry 18): R135 shows `flags=<loop|comp|fixed|0>` and does not say how
a line names more than one flag; here the names are joined with `|`. -/
def asmInfo (i : SampleInfo) : String :=
  let names := (if i.loop then ["loop"] else []) ++ (if i.compressed then ["comp"] else []) ++ (if i.fixed then ["fixed"] else [])
  "data=" ++ asmNat i.dataPos ++ ", freq=" ++ asmNat i.freq ++ ", lstart=" ++ asmNat i.loopStart ++ ", end=" ++
    asmNat i.endPos ++ ", flags=" ++ (if names = [] then "0" else "|".intercalate names)

/-- Slot, track and note of a start (R135). -/
def asmStart (name : String) (slot track : BitVec 8) (n : Note) : String :=
  name ++ " " ++ asmNat slot ++ ", " ++ asmNat track ++ ", " ++ asmNote n ++ ", "

/-- The mode names of `mx.fade` (R135); 3 is reserved and has none. -/
def asmFadeMode (mode : BitVec 2) : String :=
  if mode = 0 then "none" else if mode = 1 then "in" else if mode = 2 then "out" else "3"

/-- A command's line of text (R135). -/
def asm : Instr → String
  | .nop _ _ => "nop"
  | .cfgWr _ index value => "cfg.wr " ++ asmNat index ++ ", " ++ asmNat value
  | .reset _ _ => "reset"
  | .chStartPcm slot track _ n info => asmStart "ch.start.pcm" slot track n ++ asmInfo info
  | .chStartSq1 slot track _ n sweep duty _ =>
    asmStart "ch.start.sq1" slot track n ++ "sweep=" ++ asmNat sweep ++ ", duty=" ++ asmNat duty
  | .chStartSq2 slot track _ n duty _ => asmStart "ch.start.sq2" slot track n ++ "duty=" ++ asmNat duty
  | .chStartWave slot track _ n wavePos => asmStart "ch.start.wave" slot track n ++ "wave=" ++ asmNat wavePos
  | .chStartNoise slot track _ n width7 _ =>
    asmStart "ch.start.noise" slot track n ++ "width=" ++ (if width7 then "7" else "15")
  | .chSetVol slot volMR volML => "ch.set.vol " ++ asmNat slot ++ ", " ++ asmNat volMR ++ ", " ++ asmNat volML
  | .chSetPitch slot pitch => "ch.set.pitch " ++ asmNat slot ++ ", " ++ asmInt pitch
  | .chTickNote slot _ => "ch.tick.note " ++ asmNat slot
  | .chRelease slot _ => "ch.release " ++ asmNat slot
  | .chReleaseFast slot _ => "ch.release.fast " ++ asmNat slot
  | .mxTick _ _ => "mx.tick"
  | .mxFade _ mode _ length => "mx.fade " ++ asmFadeMode mode ++ ", " ++ asmNat length
  | .trkMute track mute _ => "trk.mute " ++ asmNat track ++ ", " ++ (if mute then "1" else "0")
  | .trkReverb track intensity _ => "trk.reverb " ++ asmNat track ++ ", " ++ asmNat intensity

/-- `frame` = INTERFRAMES × `mx.tick` (R136): "run one engine tick" of the export interface (R378). -/
def pseudoFrame (p : Config.Params) : List Instr := List.replicate p.interframes (.mxTick 0 0)

/-- `note.off <slot>` = `ch.release <slot>` (R136). -/
def pseudoNoteOff (slot : BitVec 8) : List Instr := [.chRelease slot 0]

/-- `release.all <track>`: one `ch.release` for every live slot of the track, in increasing order (R136). -/
def pseudoReleaseAll (s : State) (track : Nat) : List Instr :=
  ((List.range s.chSlots).filter fun i => (s.chan i).live && decide ((s.chan i).track = track)).map
    fun i => .chRelease (BitVec.ofNat 8 i) 0

/-- The value that the assembler resolves for a register: the last one that the commands before wrote to it, its reset value
if they wrote none (R136), in a block built with b. -/
def lastWritten (b : Config.Build) (earlier : List Instr) (index : BitVec 16) : Word :=
  earlier.foldl
    (fun old i =>
      match i with
      | .cfgWr _ j value => if j = index then value else old
      | _ => old)
    ((State.powerOn b).readPort index)

/-- A word with bits [lo+width-1:lo] replaced by v. DESIGN CHOICE (log entry 18): R136 gives `<v>` no range; of a v wider than the
field the low bits that fit are taken, and the other fields stay. -/
def replaceField (old : Word) (lo width v : Nat) : Word :=
  let mask : Word := BitVec.ofNat 32 ((2 ^ width - 1) <<< lo)
  (old &&& ~~~mask) ||| (BitVec.ofNat 32 (v <<< lo) &&& mask)

/-- `cfg.set <register>.<field>=<v>`, after the commands `earlier` (R136). -/
def pseudoCfgSet (b : Config.Build) (earlier : List Instr) (index : BitVec 16) (lo width v : Nat) : List Instr :=
  [.cfgWr 0 index (replaceField (lastWritten b earlier index) lo width v)]

/-! ## Named operands of `ch.start` lines (R135) -/

/-- A named operand of W1 to W4. -/
inductive NoteField where
  | key (v : BitVec 8)
  | vel (v : BitVec 8)
  | rpan (v : BitVec 8)
  | prio (v : BitVec 8)
  | len (v : BitVec 16)
  | evol (v : BitVec 8)
  | elen (v : BitVec 8)
  | adsr (a d s r : BitVec 8)
  | vmr (v : BitVec 8)
  | vml (v : BitVec 8)
  | pitch (v : BitVec 16)
deriving DecidableEq, Repr

/-- The note of a line that names no field: 0, and the length −1 (R135). -/
def Note.omitted : Note := ⟨0, 0, 0, 0, 0xFFFF, 0, 0, 0, 0, 0, 0, 0, 0, 0⟩

/-- A note with a named operand filled in. -/
def NoteField.fill (n : Note) : NoteField → Note
  | .key v => { n with key := v }
  | .vel v => { n with velocity := v }
  | .rpan v => { n with rhythmPan := v }
  | .prio v => { n with priority := v }
  | .len v => { n with length := v }
  | .evol v => { n with echoVol := v }
  | .elen v => { n with echoLen := v }
  | .adsr a d s r => { n with att := a, dec := d, sus := s, rel := r }
  | .vmr v => { n with volMR := v }
  | .vml v => { n with volML := v }
  | .pitch v => { n with pitch := v }

/-- The note of a line that names these fields (R135). -/
def assembleNote (fields : List NoteField) : Note := fields.foldl NoteField.fill Note.omitted

/-- A named operand of W5 to W9. -/
inductive SampleField where
  | data (v : BitVec 32)
  | freq (v : BitVec 32)
  | lstart (v : BitVec 32)
  | endPos (v : BitVec 32)
  | flags (loop comp fixed : Bool)
deriving DecidableEq, Repr

/-- The sample data of a line that names no field (R135). -/
def SampleInfo.omitted : SampleInfo := ⟨0, 0, 0, 0, false, false, false, 0⟩

/-- Sample data with a named operand filled in. -/
def SampleField.fill (i : SampleInfo) : SampleField → SampleInfo
  | .data v => { i with dataPos := v }
  | .freq v => { i with freq := v }
  | .lstart v => { i with loopStart := v }
  | .endPos v => { i with endPos := v }
  | .flags loop comp fixed => { i with loop := loop, compressed := comp, fixed := fixed }

/-- The sample data of a line that names these fields (R135). -/
def assembleSample (fields : List SampleField) : SampleInfo := fields.foldl SampleField.fill SampleInfo.omitted

end Sys2Proof.Machine
end

