-- ==== Sys2Proof/Tests/Slice0.lean ====
section
/-! SUPPORT. Tests: decoding, the well-formedness checks, one step of each command, and for each statement with hypotheses a
state and operands that meet them. Expected values are those of the spec's vectors (95_test_vectors.md: V1, V3, …, P1 to P4) or
are worked by hand from the rule named. -/

namespace Sys2Proof.Tests

open Sys2Proof Sys2Proof.Machine

-- One test after the other: waiting kernel checks would each hold a thread's memory.
set_option Elab.async false

/-! ## Decoding: a word of every command, written out from R121 to R132 -/

/-- Words of V1, P1 and the opcode map of R123 without operand words. -/
theorem test_decode_one_word :
    decode [0x00000000] = .instr (.nop 0 0) 1 ∧ decode [0x02000000] = .instr (.reset 0 0) 1 ∧
    decode [0x20058180] = .instr (.chSetVol 5 128 129) 1 ∧ decode [0x2100FF00] = .instr (.chSetPitch 0 (-256)) 1 ∧
    decode [0x22000000] = .instr (.chTickNote 0 0) 1 ∧ decode [0x23000000] = .instr (.chRelease 0 0) 1 ∧
    decode [0x24040000] = .instr (.chReleaseFast 4 0) 1 ∧ decode [0x30000000] = .instr (.mxTick 0 0) 1 ∧
    decode [0x32030001] = .instr (.trkMute 3 true 0) 1 ∧ decode [0x33000040] = .instr (.trkReverb 0 64 0) 1 := by decide

/-- V1: the two commands with one operand word. -/
theorem test_decode_two_words :
    decode [0x01000004, 0x00070011] = .instr (.cfgWr 0 4 0x00070011) 2 ∧
    decode [0x31000002, 0x00000004] = .instr (.mxFade 0 2 0 4) 2 := by decide

/-- V1: the PCM row, with rhythmPan −1 (W1 = 00FF7F3C) and pitch −1 (W4 = FFFF8080). -/
theorem test_decode_pcm :
    decode [0x10000000, 0x00FF7F3C, 0x0000FFFF, 0x00FF00FF, 0xFFFF8080, 0x00000100, 0x02EE0000, 0x00000000, 0x00000004,
        0x00000001] =
      .instr (.chStartPcm 0 0 0 ⟨60, 127, -1, 0, -1, 0, 0, 255, 0, 255, 0, 128, 128, -1⟩
        ⟨0x100, 49152000, 0, 4, true, false, false, 0⟩) 10 := by decide

/-- V1's SQ1 row, P3's SQ2 row, the examples of R246 and R250; every note field at a different value in the last. -/
theorem test_decode_tone_starts :
    decode [0x11010001, 0x00007F2D, 0x0000FFFF, 0x000F0000, 0x00007F7F, 0x00000232] =
      .instr (.chStartSq1 1 1 0 ⟨45, 127, 0, 0, -1, 0, 0, 0, 0, 15, 0, 127, 127, 0⟩ 0x32 2 0) 6 ∧
    decode [0x12020000, 0x00007F3E, 0x0000FFFF, 0x000F0000, 0x00007F7F, 0x00000002] =
      .instr (.chStartSq2 2 0 0 ⟨62, 127, 0, 0, -1, 0, 0, 0, 0, 15, 0, 127, 127, 0⟩ 2 0) 6 ∧
    decode [0x13030000, 0x00007F45, 0x0000FFFF, 0x000F0000, 0x00007F7F, 0x00000200] =
      .instr (.chStartWave 3 0 0 ⟨69, 127, 0, 0, -1, 0, 0, 0, 0, 15, 0, 127, 127, 0⟩ 0x200) 6 ∧
    decode [0x14040005, 0x04030201, 0x08070605, 0x0C0B0A09, 0x100F0E0D, 0x00000001] =
      .instr (.chStartNoise 4 5 0 ⟨1, 2, 3, 4, 0x0605, 7, 8, 9, 10, 11, 12, 13, 14, 0x100F⟩ true 0) 6 := by decide

/-- V2 and R133: an undefined opcode; a command short of words; the same words as little-endian bytes (R120). -/
theorem test_decode_other :
    decode [0x03000000, 0x30000000] = .badOpcode ∧ decode [0x01000004] = .incomplete ∧ decode [] = .incomplete ∧
    decodeBytes [0x01, 0x00, 0x03, 0x32] = .instr (.trkMute 3 true 0) 1 ∧
    decodeTableWord 32 0x32030001 = some (.trkMute 3 true 0) ∧ decodeTableWord 32 0x34000000 = none := by decide

/-- V1: the encoder writes the words of the spec. -/
theorem test_encode :
    encode (.chStartSq1 1 1 0 ⟨45, 127, 0, 0, -1, 0, 0, 0, 0, 15, 0, 127, 127, 0⟩ 0x32 2 0) =
      [0x11010001, 0x00007F2D, 0x0000FFFF, 0x000F0000, 0x00007F7F, 0x00000232] ∧
    encode (.mxFade 0 2 0 4) = [0x31000002, 0x00000004] ∧ encodeBytes (.trkMute 3 true 0) = [0x01, 0x00, 0x03, 0x32] := by
  decide

/-- R135: lines of assembler text. -/
theorem test_asm : asm (.chSetPitch 0 (-256)) = "ch.set.pitch 0, -256" ∧ asm (.mxFade 0 2 0 4) = "mx.fade out, 4" := by
  decide +kernel

/-! ## Well-formedness: an ill-formed command for each check, refused (R123 to R133) -/

/-- A note that no check objects to. -/
def note : Note := ⟨60, 127, 0, 0, -1, 0, 0, 255, 0, 255, 0, 128, 128, 0⟩

/-- P1's sample: four bytes at 0x100, looping, 48000 Hz at key 60. -/
def info : SampleInfo := ⟨0x100, 49152000, 0, 4, true, false, false, 0⟩

theorem test_wellFormed_smoke :
    WellFormed (.nop 1 0) = false ∧ WellFormed (.nop 0 1) = false ∧ WellFormed (.cfgWr 1 0 48000) = false ∧
    WellFormed (.reset 1 0) = false ∧ WellFormed (.reset 0 1) = false ∧
    WellFormed (.chStartPcm 0 0 1 note info) = false ∧
    WellFormed (.chStartPcm 0 0 0 note { info with rsv := 1 }) = false ∧
    WellFormed (.chStartSq1 0 0 1 note 0 0 0) = false ∧ WellFormed (.chStartSq1 0 0 0 note 0 0 1) = false ∧
    WellFormed (.chStartSq2 0 0 1 note 0 0) = false ∧ WellFormed (.chStartSq2 0 0 0 note 0 1) = false ∧
    WellFormed (.chStartWave 0 0 1 note 0) = false ∧
    WellFormed (.chStartNoise 0 0 1 note true 0) = false ∧ WellFormed (.chStartNoise 0 0 0 note true 1) = false ∧
    WellFormed (.chTickNote 0 1) = false ∧ WellFormed (.chRelease 0 1) = false ∧ WellFormed (.chReleaseFast 0 1) = false ∧
    WellFormed (.mxTick 1 0) = false ∧ WellFormed (.mxTick 0 1) = false ∧
    WellFormed (.mxFade 1 0 0 0) = false ∧ WellFormed (.mxFade 0 3 0 0) = false ∧ WellFormed (.mxFade 0 0 1 0) = false ∧
    WellFormed (.trkMute 0 true 1) = false ∧ WellFormed (.trkReverb 0 64 1) = false := by decide

/-- The same commands with those fields 0 pass. -/
theorem test_wellFormed_accepts :
    WellFormed (.nop 0 0) = true ∧ WellFormed (.cfgWr 0 0 48000) = true ∧ WellFormed (.reset 0 0) = true ∧
    WellFormed (.chStartPcm 0 0 0 note info) = true ∧ WellFormed (.chStartSq1 0 0 0 note 0 0 0) = true ∧
    WellFormed (.chStartSq2 0 0 0 note 0 0) = true ∧ WellFormed (.chStartWave 0 0 0 note 0) = true ∧
    WellFormed (.chStartNoise 0 0 0 note true 0) = true ∧ WellFormed (.chSetVol 0 0 0) = true ∧
    WellFormed (.chSetPitch 0 0) = true ∧ WellFormed (.chTickNote 0 0) = true ∧ WellFormed (.chRelease 0 0) = true ∧
    WellFormed (.chReleaseFast 0 0) = true ∧ WellFormed (.mxTick 0 0) = true ∧ WellFormed (.mxFade 0 2 0 4) = true ∧
    WellFormed (.trkMute 0 true 0) = true ∧ WellFormed (.trkReverb 0 64 0) = true := by decide

/-! ## One step of each command -/

/-- The byte source of P1 and V24, 4096 bytes: 40 40 40 40 at 0x100, FF FF FF FF at 0x200, synth bytes at 0x300 to 0x305. -/
def image : Source :=
  ⟨4096, [(0x100, 0x40), (0x101, 0x40), (0x102, 0x40), (0x103, 0x40), (0x200, 0xFF), (0x201, 0xFF), (0x202, 0xFF),
    (0x203, 0xFF), (0x301, 0x80), (0x302, 0x01), (0x304, 0x02), (0x306, 0x03)]⟩

/-- After power-on with that image, and ticks of 2 frames. -/
def quiet : State := (State.reset.setCfg { Cfg.powerOn .default with tickLen := 2 }).withSource image

/-- P1's PCM note in slot 0, a square in slot 1, both on track 0. -/
def playing : State :=
  (quiet.setChan 0 (newPcm quiet 0 note info)).setChan 1 (newCgb 0 note (.sq2 2))

/-- The words ws as the next command of s, run. -/
def after (s : State) (ws : List Word) : Option State :=
  match step (s.withCommands ws) with
  | .next t => some t
  | .fault _ => none
  | .refused _ => none

/-- STATUS after that. -/
def statusAfter (s : State) (ws : List Word) : Option Word := (after s ws).map State.status

/-- V3, rows 1 to 3: E_BAD_OPCODE, E_RESERVED of NOP, E_RESERVED of RESET. -/
theorem test_nop_reserved : statusAfter quiet [0x00000001] = some 0x00010002 ∧ statusAfter quiet [0x03000000] = some 0x00010001 ∧
    statusAfter quiet [0x00000000] = some 0 := by decide +kernel

/-- P3 step 2: a write reads back at once. V3: OUT_RATE 999 is rejected and OUT_RATE stays. -/
theorem test_cfgWr :
    (after quiet [0x01000002, 0x0000C00F]).map (State.readPort · 0x02) = some 0x0000C00F ∧
    (after quiet [0x01000000, 0x000003E7]).map (fun t => (t.status, t.readPort 0)) = some (0x0001000C, 48000) := by decide +kernel

/-- V3: writes that are rejected with E_BAD_CFG. -/
theorem test_cfgWr_rejected :
    statusAfter quiet [0x01000004, 0x00070016] = some 0x0001000C ∧ statusAfter quiet [0x01000004, 0x00000500] = some 0x0001000C ∧
    statusAfter quiet [0x01000010, 0] = some 0x0001000C ∧ statusAfter quiet [0x01000007, 0] = some 0x0001000C ∧
    statusAfter quiet [0x01000001, 0x000100C8] = some 0x0001000C := by decide +kernel

/-- V72: RESET while channels sound. V3: RESET with A = 1. -/
theorem test_reset :
    (after playing [0x02000000]).map (fun t => (t.slotsLive, t.status, t.tickCount)) = some (0, 0, 0) ∧
    playing.slotsLive = 3 ∧ statusAfter playing [0x02010000] = some 0x00010002 := by decide +kernel

/-- P1: the start of slot 0. rightVol 127, leftVol 126 (V5), the resampler LINEAR, a SAMPLE channel in INIT. -/
theorem test_chStartPcm :
    (after quiet [0x10000000, 0x00007F3C, 0x0000FFFF, 0x00FF00FF, 0x00008080, 0x00000100, 0x02EE0000, 0, 4, 1]).map
      (fun t => (t.slotsLive, (t.chan 0).rightVol, (t.chan 0).leftVol, (t.chan 0).rsKind, (t.chan 0).envState)) =
        some (1, 127, 126, .linear, .init) := by decide +kernel

/-- V3: a DPCM footprint of 66 bytes at 0xFC0 leaves the 4096-byte source; a sample of 4 bytes at 0xFFC ends exactly at it. -/
theorem test_chStartPcm_footprint :
    statusAfter quiet [0x10000000, 0x00007F3C, 0x0000FFFF, 0, 0, 0xFC0, 1, 0, 65, 2] = some 0x00010008 ∧
    statusAfter quiet [0x10000000, 0x00007F3C, 0x0000FFFF, 0, 0, 0xFFC, 1, 0, 4, 0] = some 0 ∧
    statusAfter quiet [0x10000000, 0x00007F3C, 0x0000FFFF, 0, 0, 0xFFE, 1, 0, 4, 0] = some 0x00010008 := by decide +kernel

/-- The sweep register of a channel. -/
def sweepRegOf (c : Chan) : Option (Bool × Nat) :=
  match c.voice with
  | .sq1 _ sw => some (sw.active, sw.reg)
  | _ => none

/-- P2 and V40: key 45, sweep byte 0x32 start the register at 856; rightVol 126, leftVol 125, both sides. -/
theorem test_chStartSq1 :
    (after quiet [0x11010001, 0x00007F2D, 0x0000FFFF, 0x000F0000, 0x00007F7F, 0x00000232]).map
      (fun t => (sweepRegOf (t.chan 1), (t.chan 1).rightVol, (t.chan 1).leftVol, (t.chan 1).pan)) =
        some (some (true, 856), 126, 125, .both) := by decide +kernel

/-- R251 by hand, at an irrational frequency: key 60 is 261.6256 Hz, and 2048 − 131072 / 261.6256 = 1547.01. V42: a sweep
byte 0x30 leaves the sweep inactive. -/
theorem test_chStartSq1_sweep :
    sweepStart 60 0 = 1547 ∧ sweepStart 81 0 = 1899 ∧
    (after quiet [0x11010001, 0x00007F2D, 0x0000FFFF, 0x000F0000, 0x00007F7F, 0x00000230]).map
      (fun t => (sweepRegOf (t.chan 1)).map Prod.fst) = some (some false) := by decide +kernel

/-- P3 step 7: MONO: a second square takes the voice of the first, which gets `stop` and DIE; the new one is in INIT. -/
theorem test_chStartSq2_steals :
    (after playing [0x12030000, 0x00007F40, 0x0000FFFF, 0x000F0000, 0x00007F7F, 0x00000001]).map
      (fun t => ((t.chan 1).envState, (t.chan 1).stop, (t.chan 3).envState, (t.chan 0).envState)) =
        some (.die, true, .init, .init) := by decide +kernel

/-- P3 step 6: a busy slot: nothing is stolen. -/
theorem test_chStartSq2_busy :
    (after playing [0x12000000, 0x00007F3E, 0x0000FFFF, 0x000F0000, 0x00007F7F, 0x00000002]).map
      (fun t => (t.status, (t.chan 1).envState)) = some (0x00010004, .init) := by decide +kernel

/-- R246's example: nibbles 15 × 8, 0 × 8, mean 7.5. V3: a table at 0xFF9 has 7 bytes left. -/
theorem test_chStartWave :
    (after quiet [0x13030000, 0x00007F45, 0x0000FFFF, 0x000F0000, 0x00007F7F, 0x00000200]).map
      (fun t => (t.chan 3).voice) =
        some (.wave 0x200 [15, 15, 15, 15, 15, 15, 15, 15, 0, 0, 0, 0, 0, 0, 0, 0] (15 / 2)) ∧
    statusAfter quiet [0x13030000, 0x00007F45, 0x0000FFFF, 0x000F0000, 0x00007F7F, 0x00000FF9] = some 0x00010008 := by decide +kernel

/-- V17: adsr 9/9/20/9 is clamped to 7/7/15/7; vmr = vml = 255 give 253 and 251. -/
theorem test_chStartNoise :
    (after quiet [0x14040000, 0x00007F3C, 0x0000FFFF, 0x09140909, 0x0000FFFF, 0x00000001]).map
      (fun t => ([(t.chan 4).att, (t.chan 4).dec, (t.chan 4).sus, (t.chan 4).rel, (t.chan 4).rightVol, (t.chan 4).leftVol],
        (t.chan 4).voice)) = some ([7, 7, 15, 7, 253, 251], .noise .w7) := by decide +kernel

/-- V5, row 5: rhythmPan −64, velocity 100, 200 and 200 give 78 and 233, to the left. V3: free slot, slot 32. -/
theorem test_chSetVol :
    (after (playing.setChan 1 { playing.chan 1 with rhythmPan := -64, velocity := 100 }) [0x2001C8C8]).map
      (fun t => ((t.chan 1).rightVol, (t.chan 1).leftVol, (t.chan 1).pan)) = some (78, 233, .left) ∧
    statusAfter playing [0x20058080] = some 0x00010005 ∧ statusAfter playing [0x20200000] = some 0x00010003 := by decide +kernel

/-- V1: pitch −256 on slot 0; slot 1 keeps its own. -/
theorem test_chSetPitch :
    (after playing [0x2100FF00]).map (fun t => ((t.chan 0).pitch.toInt, (t.chan 1).pitch.toInt)) = some (-256, 0) := by decide +kernel

/-- V19: length 2, then 1, then 0: the second call sets `stop`. -/
theorem test_chTickNote :
    (after (playing.setChan 0 { playing.chan 0 with length := 2 }) [0x22000000]).map
      (fun t => ((t.chan 0).length, (t.chan 0).stop)) = some (1, false) ∧
    (after (playing.setChan 0 { playing.chan 0 with length := 1 }) [0x22000000]).map
      (fun t => ((t.chan 0).length, (t.chan 0).stop)) = some (0, true) := by decide +kernel

/-- V19: a tie never sets `stop`; a length of 0 sets it. V3: IMM 1 is E_RESERVED. -/
theorem test_chTickNote_tie :
    (after playing [0x22000000]).map (fun t => ((t.chan 0).length.toInt, (t.chan 0).stop)) = some (-1, false) ∧
    (after (playing.setChan 0 { playing.chan 0 with length := 0 }) [0x22000000]).map
      (fun t => ((t.chan 0).length, (t.chan 0).stop)) = some (0, true) ∧
    statusAfter playing [0x22000001] = some 0x00010002 := by decide +kernel

/-- R223: `stop` is set and the state stays. -/
theorem test_chRelease :
    (after playing [0x23000000]).map (fun t => ((t.chan 0).stop, (t.chan 0).envState, (t.chan 1).stop)) =
      some (true, .init, false) := by decide +kernel

/-- R224: `stop` and DIE. -/
theorem test_chReleaseFast :
    (after playing [0x24000000]).map (fun t => ((t.chan 0).stop, (t.chan 0).envState, (t.chan 1).envState)) =
      some (true, .die, .init) := by decide +kernel

/-- P1, tick 1: DEC at 255; in the middle of the tick (frame 100 of 200, here frame 1 of 2) the right output is half of
0.5 × 32385/262144 and the left half of 0.5 × 16065/131072; frame 0 is silent. -/
theorem test_mxTick :
    (after (quiet.setChan 0 (newPcm quiet 0 note info)) [0x30000000]).map
      (fun t => ((t.chan 0).envState, (t.chan 0).envLevel, t.mx.master, t.tickCount)) =
        some (.dec, 255,
          [.zero, ⟨SReal.ofRat (1 / 2 * (1 / 2) * (16065 / 131072)), SReal.ofRat (1 / 2 * (1 / 2) * (32385 / 262144))⟩], 1) := by
  decide +kernel

/-- V14: `stop` before the first tick: the slot is free after it, and nothing sounded. V3: IMM 1 is E_RESERVED. -/
theorem test_mxTick_stopped :
    (after (quiet.setChan 0 { newPcm quiet 0 note info with stop := true }) [0x30000000]).map
      (fun t => (t.slotsLive, t.mx.master)) = some (0, [.zero, .zero]) ∧
    statusAfter quiet [0x30000001] = some 0x00010002 := by decide +kernel

/-- V61 and P4: `mx.fade out, 4` from 1, then one tick: position 3/4, STATUS 0x200. -/
theorem test_mxFade :
    ((after quiet [0x31000002, 4]).bind fun t => after t [0x30000000]).map (fun t => (t.mx.fadePos, t.status)) =
      some (3 / 4, 0x00000200) := by decide +kernel

/-- V3: E_RESERVED of mode 3, E_BAD_FADE of a length 0 with IN and of a length with NONE. -/
theorem test_mxFade_rejected :
    statusAfter quiet [0x31000003, 0] = some 0x00010002 ∧ statusAfter quiet [0x31000001, 0] = some 0x0001000D ∧
    statusAfter quiet [0x31000000, 5] = some 0x0001000D := by decide +kernel

/-- V62: `trk.mute 3, 1`. V3: track 16. -/
theorem test_trkMute :
    (after quiet [0x32030001]).map (fun t => ((t.track 3).mute, (t.track 2).mute)) = some (true, false) ∧
    statusAfter quiet [0x32100001] = some 0x00010006 := by decide +kernel

/-- V1: `trk.reverb 0, 64`. V3: IMM 0x0080. -/
theorem test_trkReverb :
    (after quiet [0x33000040]).map (fun t => ((t.track 0).rev, (t.track 1).rev)) = some (64, 0) ∧
    statusAfter quiet [0x33000080] = some 0x00010002 := by decide +kernel

/-! ## Shared operations -/

/-- V20: a DPCM block, with the wrap-around of its last line. -/
theorem test_dpcm :
    (List.range 8).map (fun i => (dpcmDec (.ofBytes ([0x10, 0x01, 0x23, 0x8F, 0x77] ++ List.replicate 28 0)) 0 i).toInt) =
      [16, 17, 21, 30, -34, -35, 14, 63] ∧
    (dpcmDec (.ofBytes ([0x7F, 0x07] ++ List.replicate 31 0)) 0 1).toInt = -80 := by decide +kernel

/-- V24: bytes 01 23 … give x_0 = −1 and x_15 = 1; with accurate quantization at level 8 the first table gives ±7/15. V25: the
7-bit LFSR. -/
theorem test_sources :
    waveSource 16 false false 15 [0, 1, 2, 3, 4, 5, 6, 7, 8, 9, 10, 11, 12, 13, 14, 15] (15 / 2) 0 = -1 ∧
    waveSource 16 false false 15 [0, 1, 2, 3, 4, 5, 6, 7, 8, 9, 10, 11, 12, 13, 14, 15] (15 / 2) 15 = 1 ∧
    waveSource 16 true true 8 [15, 15, 15, 15, 15, 15, 15, 15, 0, 0, 0, 0, 0, 0, 0, 0] (15 / 2) 0 = 7 / 15 ∧
    (List.range 12).map (lfsrState 7) = [0x7F, 0x3F, 0x1F, 0x0F, 0x07, 0x03, 0x01, 0x40, 0x20, 0x10, 0x08, 0x04] := by
  decide +kernel

/-- V31 at τ = 5/4: NEAREST, LINEAR, CUBIC. -/
theorem test_kernels :
    [ResKind.nearest, .linear, .cubic].map
      (fun k => kernelAt 16 k (fun j => if j = 0 then 1 / 2 else if j = 1 then -1 / 4 else if j = 2 then 1 else 0)
        (.ofRat (5 / 4)) (.ofRat 1)) = [SReal.ofRat (-1 / 4), SReal.ofRat (1 / 16), SReal.ofRat (-13 / 512)] := by decide +kernel

/-- V8: 13379 × 2^−1.5 is 4730.19 Hz: its floor is 4730. NOISE at key 0, pitch −32768 is 4 Hz. -/
theorem test_rates :
    (pcmRate 1 ⟨0, 13379 * 1024, 0, 0, false, false, false, .sample, 0⟩ 48 (-1536)).floor = 4730 ∧
    noiseRate 4096 0 (-32768) = Alg.ofRat 4 ∧ noiseRate 4096 127 32767 = Alg.ofRat 524288 ∧ noiseRate 4096 72 0 = Alg.ofRat 8192 := by
  decide +kernel

/-- R343 with D = 1 in place of 800 (each echo 800 times earlier): 1/8 at frames 6 and 7, 1/32 at 12, 1/16 at 13. -/
theorem test_reverb_impulse :
    ((Reverb.cleared .normal 7 1).process (1 / 2) (⟨SReal.ofRat 1, .zero⟩ :: List.replicate 13 .zero)).2.map Frame.r =
      [0, 0, 0, 0, 0, 0, 1 / 8, 1 / 8, 0, 0, 0, 0, 1 / 32, 1 / 16].map SReal.ofRat := by decide +kernel

/-- V11: PCM levels at the frame boundaries: attack saturates, decays, releases. -/
theorem test_envelope_pcm :
    ([(.atk, 128, false), (.atk, 192, false), (.dec, 255, false), (.dec, 199, true), (.rel, 155, true)] :
        List (EnvState × Nat × Bool)).map
      (fun x =>
        let c : Chan := { Chan.free with
          att := 64, dec := 200, sus := 128, rel := 200, envInterStep := 3, envState := x.1, envLevel := x.2.1, stop := x.2.2 }
        ((c.stepEnvelope 4 true).envState, (c.stepEnvelope 4 true).envLevel)) =
      [(.atk, 192), (.dec, 255), (.dec, 199), (.rel, 155), (.rel, 121)] := by decide +kernel

/-- V16: the sustain bug: after the volume falls, six SUS updates leave 15 and the seventh gives 7; with the bug off at once. -/
theorem test_sustain_bug :
    [(5, true), (6, true), (0, false)].map
      (fun x : Nat × Bool =>
        let c : Chan := { Chan.free with
          voice := .sq2 0, sus := 15, rightVol := 63, leftVol := 63, envInterStep := 3, envState := .sus, envLevel := 15,
          susCount := x.1 }
        (c.stepEnvelope 4 x.2).envLevel) = [15, 7, 7] := by decide +kernel

/-! ## Witnesses: for each statement with hypotheses, a state and operands that meet them, at the boundaries of its clauses -/

/-- The command stream of a state. -/
def queued (s : State) (ws : List Word) : State := s.withCommands ws

theorem test_witness_EncodeInvertsDecode : decode [0x30000000] = .instr (.mxTick 0 0) 1 := by decide

/-- Both length clauses at their boundary (8 and 9 operand words of the PCM start), and an opcode of no row. -/
theorem test_witness_LengthByOpcodeAlone :
    ((0x10, 10) ∈ opcodeTable ∧ (0x10000000 : Word).extractLsb' 24 8 = 0x10) ∧
    (List.replicate 8 (0 : Word)).length + 1 < 10 ∧ 10 ≤ (List.replicate 9 (0 : Word)).length + 1 ∧
    decode (0x10000000 :: List.replicate 8 0) = .incomplete ∧
    (∀ p ∈ opcodeTable, (0x03000000 : Word).extractLsb' 24 8 ≠ p.1) := by decide

theorem test_witness_IllegalEncodingsRejected :
    (queued quiet [0x03000000]).port.cmds = [0x03000000] ∧ (∀ p ∈ opcodeTable, (0x03000000 : Word).extractLsb' 24 8 ≠ p.1) ∧
    decode (queued quiet [0x00000001]).port.cmds = .instr (.nop 0 1) 1 ∧ WellFormed (.nop 0 1) = false ∧
    [0x03, 0x0F, 0x15, 0x1F, 0x25, 0x2F, 0x34, 0xFF].all (fun opc => !(opcodeTable.any fun p => p.1.toNat == opc)) = true ∧
    [0x02, 0x10, 0x14, 0x20, 0x24, 0x30, 0x33].all (fun opc => opcodeTable.any fun p => p.1.toNat == opc) = true := by
  decide +kernel

theorem test_witness_RejectionChangesOnlyStatus :
    decode (queued playing [0x20058080]).port.cmds = .instr (.chSetVol 5 128 128) 1 ∧
    commandError (.chSetVol 5 128 128) (queued playing [0x20058080]) = some .noChannel ∧
    commandError (.chSetPitch 0 1) playing = none ∧ (∃ t, exec (.chSetPitch 0 1) playing = .next t) := by
  refine ⟨by decide +kernel, by decide +kernel, by decide +kernel, ?_⟩
  rw [exec_chSetPitch]; exact ⟨_, rfl⟩

/-- A master buffer whose levels differ by side, and are not those of its first frame. -/
theorem test_witness_ReadPortAndSnapshot :
    let s := playing.setMx { playing.mx with master := [⟨SReal.ofRat (1 / 2), .zero⟩, ⟨SReal.ofRat (-3 / 4), SReal.ofRat (1 / 4)⟩] }
    s.mx.master ≠ [] ∧ s.snapshot.peakL = SReal.ofRat (3 / 4) ∧ s.snapshot.peakR = SReal.ofRat (1 / 4) ∧ s.snapshot.count = 2 ∧
      s.snapshot.slots.length = 32 ∧ s.snapshot.tracks.length = 16 := by decide +kernel

/-- C3: a block built with WAVE_NIBBLES = 32 and 8 slots: a wave start copies 32 nibbles, and slot 8 does not exist. -/
theorem test_otherBuild :
    let b : Config.Build := { Config.Build.default with waveNibbles := 32, chSlots := 8 }
    let s := (State.powerOn b).withSource image
    b.Legal ∧ s.chSlots = 8 ∧
    (after s [0x13030000, 0x00007F45, 0x0000FFFF, 0x000F0000, 0x00007F7F, 0x00000200]).map (fun t => (t.chan 3).voice) =
      some (.wave 0x200 (List.replicate 8 15 ++ List.replicate 24 0) (15 / 4)) ∧
    statusAfter s [0x13080000, 0x00007F45, 0x0000FFFF, 0x000F0000, 0x00007F7F, 0x00000200] = some 0x00010003 := by
  refine ⟨⟨by decide, by decide, by decide, by decide +kernel, by decide +kernel, .inr rfl⟩, ?_⟩
  decide +kernel

theorem test_witness_ResetSequence :
    commandError (.reset 1 0) playing = some .reserved ∧ commandError (.reset 0 1) playing = some .reserved ∧
    31 < playing.chSlots ∧ 15 < playing.reverbs.length := by decide +kernel

theorem test_witness_ResetDependsOnConfigurationOnly :
    quiet.par = playing.par ∧ quiet.chSlots = playing.chSlots ∧ quiet.nTracks = playing.nTracks ∧
    quiet.reverbs.length = playing.reverbs.length ∧ quiet.cfg = playing.cfg ∧ quiet.src = playing.src ∧ quiet.port = playing.port ∧
    (∃ t, exec (.reset 0 0) playing = .next t) ∧ ∃ t, exec (.reset 0 0) quiet = .next t := by
  refine ⟨rfl, by decide +kernel, rfl, rfl, rfl, rfl, rfl, ?_, ?_⟩ <;> rw [exec_reset] <;> exact ⟨_, rfl⟩

/-- `playing` with other unspecified values: a field of free slot 5, track buffers, the master buffer. -/
def playingElse : State :=
  ((playing.setChan 5 { Chan.free with key := 9 }).setTracks
    (playing.tracks.map fun t => { t with buf := [⟨SReal.ofRat 1, .zero⟩] })).setMx
      { playing.mx with master := [⟨SReal.ofRat 1, .zero⟩] }

theorem test_witness_NoRuleReadsUnspecified :
    AgreeSpecified playing playingElse ∧ (∃ t, exec (.mxTick 0 0) playing = .next t) ∧
    commandError (.mxTick 0 0) playing = none := by
  refine ⟨⟨rfl, ⟨by decide +kernel, by decide +kernel⟩, rfl, ?_, ?_, rfl, rfl, rfl, rfl⟩, ?_, by decide +kernel⟩
  · intro u
    by_cases h : u = 5
    · subst h; exact ⟨rfl, fun h => absurd h (by decide +kernel)⟩
    · have : playingElse.chan u = playing.chan u := State.chan_setChan_ne playing h { Chan.free with key := 9 }
      rw [this]; exact ⟨rfl, fun _ => rfl⟩
  · intro k
    by_cases h : k < 16
    · have : playingElse.track k = { playing.track k with buf := [⟨SReal.ofRat 1, .zero⟩] } := getD_map _ _ h _ _
      rw [this]; exact ⟨rfl, rfl⟩
    · have h1 : playingElse.track k = .reset := State.track_of_le _ (by show 16 ≤ k; omega)
      have h2 : playing.track k = .reset := State.track_of_le _ (by show 16 ≤ k; omega)
      rw [h1, h2]; exact ⟨rfl, rfl⟩
  · rw [exec_mxTick]; exact ⟨_, rfl⟩

/-- Legal and illegal values of every register, at the ends of its range. -/
theorem test_witness_CfgWrStoresOneRegister :
    ([(0, 1000), (0, 384000), (1, 1), (1, 65535), (2, 0), (2, 0xFFFF), (3, 1), (3, 1048575), (4, 0x00071455), (4, 0),
        (5, 1), (5, 255), (6, 1), (6, 16777215)] : List (BitVec 16 × Word)).all (fun p => legalValue p.1 p.2) = true ∧
    ([(0, 999), (0, 384001), (1, 0), (1, 65536), (2, 0x10000), (3, 0), (3, 1048576), (4, 6), (4, 0x60), (4, 0x500),
        (4, 8), (4, 0x80000), (5, 0), (5, 256), (6, 0), (6, 16777216), (7, 0), (0x10, 0), (0xFFFF, 0)] :
        List (BitVec 16 × Word)).all (fun p => !legalValue p.1 p.2) = true := by decide +kernel

theorem test_witness_DacConfigurationHasNoEffect : ∃ t, exec (.mxTick 0 0) playing = .next t := by
  rw [exec_mxTick]; exact ⟨_, rfl⟩

/-- A synth's SampleInfo whose parameter bytes stand at pos. -/
def synth (pos : BitVec 32) : SampleInfo := ⟨pos, 1024, 0, 0, true, false, false, 0⟩

/-- A sample that ends exactly at the end of the source; a fixed-rate DPCM sample; the three synths; one byte too far. -/
theorem test_witness_PcmStartWritesSlot :
    commandError (.chStartPcm 31 15 0 note ⟨0xFFC, 1, 0, 4, false, false, false, 0⟩) quiet = none ∧
    commandError (.chStartPcm 31 15 0 note ⟨0xFFD, 1, 0, 4, false, false, false, 0⟩) quiet = some .badPointer ∧
    commandError (.chStartPcm 0 0 0 note ⟨0xFBE, 0, 0, 65, false, true, true, 0⟩) quiet = none ∧
    commandError (.chStartPcm 32 15 0 note info) quiet = some .badSlot ∧
    commandError (.chStartPcm 31 16 0 note info) quiet = some .badTrack ∧
    commandError (.chStartPcm 0 0 0 note (synth 0x300)) quiet = none ∧ image.memRead 0x300 1 = some 0 ∧
    commandError (.chStartPcm 0 0 0 note (synth 0x302)) quiet = none ∧ image.memRead 0x302 1 = some 1 ∧
    commandError (.chStartPcm 0 0 0 note (synth 0x304)) quiet = none ∧ image.memRead 0x304 1 = some 2 ∧
    commandError (.chStartPcm 0 0 0 note (synth 0x306)) quiet = some .unsupportedEncoding ∧
    SynthInfo (synth 0x300) ∧ ¬SynthInfo info := by
  refine ⟨?_, ?_, ?_, ?_, ?_, ?_, ?_, ?_, ?_, ?_, ?_, ?_, ⟨rfl, rfl, rfl⟩, fun h => absurd h.2.2 (by decide)⟩ <;>
    decide +kernel

theorem test_witness_CgbStartCommonProcedure :
    cgbOperands (.chStartSq1 2 0 0 note 0x32 2 0) = some (.sq1, 2, 0, note) ∧
    cgbOperands (.chStartSq2 2 0 0 note 2 0) = some (.sq2, 2, 0, note) ∧
    cgbOperands (.chStartWave 2 0 0 note 0x200) = some (.wave, 2, 0, note) ∧
    cgbOperands (.chStartNoise 2 0 0 note true 0) = some (.noise, 2, 0, note) ∧
    commandError (.chStartSq1 2 0 0 note 0x32 2 0) playing = none ∧ commandError (.chStartSq2 2 0 0 note 2 0) playing = none ∧
    commandError (.chStartWave 2 0 0 note 0x200) playing = none ∧
    commandError (.chStartNoise 2 0 0 note true 0) playing = none := by decide +kernel

/-- An active sweep whose interval decides the floor (key 60), one at a rational frequency (key 69), two inactive ones. -/
theorem test_witness_Sq1StartPayload :
    commandError (.chStartSq1 2 0 0 note 0x32 2 0) playing = none ∧ commandError (.chStartSq1 2 0 0 note 0x02 2 0) playing = none ∧
    commandError (.chStartSq1 2 0 0 note 0x30 2 0) playing = none ∧
    (let a := (Alg.ofRat (2048 + 1 / 2)).sub ((Alg.exp2 (256 * 9)).smul (131072 / 440))
     (a.bounds 32).1.floor = (a.bounds 32).2.floor ∧ a.floor = 1547) := by decide +kernel

theorem test_witness_Sq2AndNoiseStartPayload :
    commandError (.chStartSq2 31 15 0 note 3 0) playing = none ∧ commandError (.chStartNoise 31 15 0 note false 0) playing = none ∧
    commandError (.chStartNoise 31 15 0 note true 0) playing = none := by decide +kernel

/-- A table that ends exactly at the end of the source, and one that does not. -/
theorem test_witness_WaveStartCopiesTable :
    quiet.par.waveNibbles = 16 ∧ 16 % 2 = 0 ∧ commandError (.chStartWave 2 0 0 note 0xFF8) quiet = none ∧
    commandError (.chStartWave 2 0 0 note 0xFF9) quiet = some .badPointer := by decide +kernel

/-- A PCM channel and a tone generator; slot 31 free, slot 32 out of range. -/
theorem test_witness_ChSetVolRule :
    commandError (.chSetVol 0 128 128) playing = none ∧ (playing.chan 0).type = .pcm ∧
    commandError (.chSetVol 1 128 128) playing = none ∧ (playing.chan 1).type ≠ .pcm ∧
    commandError (.chSetVol 31 0 0) playing = some .noChannel ∧ commandError (.chSetVol 32 0 0) playing = some .badSlot := by
  decide +kernel

theorem test_witness_ChSetPitchRule :
    commandError (.chSetPitch 0 0x8000) playing = none ∧ commandError (.chSetPitch 31 0) playing = some .noChannel := by
  decide +kernel

/-- `playing` with the length of slot 0 replaced. -/
def withLength (n : BitVec 16) : State := playing.setChan 0 { playing.chan 0 with length := n }

/-- The lengths −1, 0 and 1, where the clauses meet. -/
theorem test_witness_ChTickNoteRule :
    commandError (.chTickNote 0 0) (withLength 0xFFFF) = none ∧ (0xFFFF : BitVec 16).toInt = -1 ∧
    commandError (.chTickNote 0 0) (withLength 0) = none ∧ commandError (.chTickNote 0 0) (withLength 1) = none ∧
    ((withLength 0xFFFF).chan 0).length = 0xFFFF ∧ ((withLength 1).chan 0).length = 1 := by decide +kernel

/-- A sounding channel, one in DIE, one in DEAD. -/
theorem test_witness_ChReleaseRules :
    ∀ e ∈ ([.sus, .die, .dead] : List EnvState),
      commandError (.chRelease 0 0) (playing.setChan 0 { playing.chan 0 with envState := e }) = none ∧
      commandError (.chReleaseFast 0 0) (playing.setChan 0 { playing.chan 0 with envState := e }) = none ∧
      ((playing.setChan 0 { playing.chan 0 with envState := e }).chan 0).envState = e := by decide +kernel

/-- A state that no run reaches: slot 0 live, its sample one byte past the end of the source. -/
def outside : State :=
  quiet.setChan 0 { Chan.free with live := true, voice := .pcm ⟨0xFFD, 1, 0, 4, false, false, false, .sample, 0⟩ }

theorem footprintsValid_of (s : State) (h : firstUnplayable s.src s.chans = none) : s.FootprintsValid := by
  unfold State.FootprintsValid
  generalize s.chans = l at h
  induction l with
  | nil => intro c hc; cases hc
  | cons x xs ih =>
    simp only [firstUnplayable] at h
    intro c hc hl
    split at h
    · next hx =>
      exfalso
      revert h
      cases hv : x.voice <;> simp [Chan.playable, hv] at hx ⊢
    · next hx =>
      rcases List.mem_cons.mp hc with rfl | hm
      · simpa [hl] using hx
      · exact ih h c hm hl

theorem test_witness_TickCompletesAndFrame :
    playing.FootprintsValid ∧ (∃ off, exec (.mxTick 0 0) outside = .fault (.outsideByteSource off)) ∧
    (playing.chan 2).live = false := by
  refine ⟨footprintsValid_of _ (by decide +kernel), ⟨0xFFD, ?_⟩, by decide +kernel⟩
  rw [exec_mxTick]
  have : firstUnplayable outside.src outside.chans = some 0xFFD := by decide +kernel
  rw [this]; rfl

/-- A PCM channel and a tone generator that sound on track 0, which has an instance; the square is not the SQ1 of the sweep
clause, which is in slot 2 here; a channel that is DEAD after its envelope step. -/
theorem test_witness_TickRunsEveryStageInOrder :
    (∃ t, exec (.mxTick 0 0) playing = .next t) ∧ (playing.chan 0).live = true ∧ (playing.chan 1).live = true ∧
    (playing.chan 31).live = false ∧ 0 < playing.nTracks ∧ 15 < playing.reverbs.length ∧ 1 < playing.tickArgs.n ∧
    playing.tickArgs = ⟨playing.par, 2, 48000, 15, 13379, true, true, true⟩ ∧
    ((playing.chan 0).stepEnvelope 4 true).envState ≠ .dead ∧
    (({ playing.chan 0 with stop := true } : Chan).stepEnvelope 4 true).envState = .dead ∧
    ((newCgb 0 note (sq1Voice note 0x32 2)).stepEnvelope 4 true).voice = .sq1 2 ⟨0x32, true, 1547, 0⟩ := by
  refine ⟨by rw [exec_mxTick]; exact ⟨_, rfl⟩, ?_⟩
  decide +kernel

/-- R251 in a tick, R363: an SQ1 whose sweep clock stands at 37/15: 2 frames at 48000 Hz add 128 · 2 / 48000. -/
theorem test_mxTick_sweep :
    (after (quiet.setChan 2 { newCgb 0 note (sq1Voice note 0x32 2) with voice := .sq1 2 ⟨0x32, true, 856, 2999 / 1000⟩ })
      [0x30000000]).map (fun t => sweepRegOf (t.chan 2)) = some (some (true, 1070)) := by decide +kernel

/-- A live DEAD slot, a live slot that is not, a free slot, a slot that does not exist. -/
theorem test_witness_TickPurgesDeadChannels :
    (playing.chan 31).live = false ∧ (playing.chan 32).live = false ∧ (playing.chan 0).live = true ∧
    (playing.chan 0).envState ≠ .dead ∧
    ((playing.setChan 0 { playing.chan 0 with envState := .dead }).chan 0).envState = .dead ∧
    (∃ t, exec (.mxTick 0 0) playing = .next t) := by
  refine ⟨by decide +kernel, by decide +kernel, by decide +kernel, by decide +kernel, by decide +kernel, ?_⟩
  rw [exec_mxTick]; exact ⟨_, rfl⟩

/-- A sample of one byte that does not loop, at 48000 Hz: after a tick of 2 frames its source time is past its end. -/
def short : Chan := newPcm quiet 0 note ⟨0x100, 49152000, 0, 1, false, false, false, 0⟩

/-- `playing` with slot 0 in DIE, with slot 0 released before its first tick, with a sample that ends; a sample whose end is
the source time after the tick, and one whose end is just past it. -/
theorem test_witness_DyingChannelsAreFreed :
    (∃ t, exec (.mxTick 0 0) (playing.setChan 0 { playing.chan 0 with envState := .die }) = .next t) ∧
    ((playing.setChan 0 { playing.chan 0 with envState := .die }).chan 0).envState = .die ∧
    commandError (.chReleaseFast 0 0) playing = none ∧
    (∃ t t', exec (.chReleaseFast 0 0) playing = .next t ∧ exec (.mxTick 0 0) t = .next t') ∧
    (∃ t, exec (.mxTick 0 0) (playing.setChan 0 { playing.chan 0 with stop := true }) = .next t) ∧
    ((playing.setChan 0 { playing.chan 0 with stop := true }).chan 0).envState = .init ∧
    (∃ t, exec (.mxTick 0 0) (quiet.setChan 0 short) = .next t) ∧ short.voice = .pcm (pcmVoice image
      ⟨0x100, 49152000, 0, 1, false, false, false, 0⟩) ∧ ((short.process quiet.tickArgs image).1.t.floor = 2) ∧
    ([1, 2, 3].map fun e : BitVec 32 =>
      ({ short with envState := .sus, voice := .pcm ⟨0x100, 49152000, 0, e, false, false, false, .sample, 0⟩ } : Chan).render
        quiet.tickArgs image |>.1.envState) = [.dead, .dead, .sus] := by
  refine ⟨?_, by decide +kernel, by decide +kernel, ?_, ?_, by decide +kernel, ?_, by decide +kernel, by decide +kernel,
    by decide +kernel⟩
  · rw [exec_mxTick]; exact ⟨_, rfl⟩
  · refine ⟨playing.setChan 0 (playing.chan 0).releaseFast, ?_⟩
    have h1 : exec (.chReleaseFast 0 0) playing = .next (playing.setChan 0 (playing.chan 0).releaseFast) := rfl
    have h2 : ∃ t', exec (.mxTick 0 0) (playing.setChan 0 (playing.chan 0).releaseFast) = .next t' := by
      rw [exec_mxTick]; exact ⟨_, rfl⟩
    obtain ⟨t', h2⟩ := h2
    exact ⟨t', h1, h2⟩
  · rw [exec_mxTick]; exact ⟨_, rfl⟩
  · rw [exec_mxTick]; exact ⟨_, rfl⟩

/-- No fade, a fade-in that ends in this tick and one that does not, the same of a fade-out; a frame of a track. -/
theorem test_witness_FadeOfATick :
    (∀ f ∈ ([.idle, .fadeIn, .fadeOut] : List FadeState), ∀ d ∈ ([1 / 2, 1] : List Rat),
      ∃ t, exec (.mxTick 0 0) (quiet.setMx { quiet.mx with fadeState := f, fadePos := 1 / 2, fadeStep := d }) = .next t) ∧
    ((quiet.setTrack 0 ⟨false, 0, [.zero, .zero]⟩).track 0).buf[1]? = some Frame.zero := by
  refine ⟨fun f _ d _ => ?_, by decide +kernel⟩
  rw [exec_mxTick]; exact ⟨_, rfl⟩

/-- W = 1: after no tick the fade is on, after one it is over. -/
theorem test_witness_FadeOutLastsItsLength :
    quiet.mx.fadePos = 1 ∧ (1 : Word) ≠ 0 ∧ ∃ u t, exec (.mxFade 0 2 0 1) quiet = .next u ∧ TicksFrom 0 u u ∧ TicksFrom 1 u t := by
  refine ⟨rfl, by decide, quiet.setMx (quiet.mx.startFade 2 1), ?_⟩
  have h1 : exec (.mxFade 0 2 0 1) quiet = .next (quiet.setMx (quiet.mx.startFade 2 1)) := rfl
  have h2 : ∃ t, exec (.mxTick 0 0) (quiet.setMx (quiet.mx.startFade 2 1)) = .next t := by
    rw [exec_mxTick]; exact ⟨_, rfl⟩
  obtain ⟨t, h2⟩ := h2
  exact ⟨t, h1, rfl, t, h2, rfl⟩

theorem test_witness_MxFadeRule :
    commandError (.mxFade 0 0 0 0) quiet = none ∧ commandError (.mxFade 0 1 0 1) quiet = none ∧
    commandError (.mxFade 0 2 0 0xFFFFFFFF) quiet = none ∧ commandError (.mxFade 0 0 0 1) quiet = some .badFade ∧
    commandError (.mxFade 0 1 0 0) quiet = some .badFade ∧ commandError (.mxFade 0 3 0 1) quiet = some .reserved := by
  decide +kernel

theorem test_witness_TrackCommandRules :
    commandError (.trkMute 15 true 0) quiet = none ∧ commandError (.trkMute 16 true 0) quiet = some .badTrack ∧
    commandError (.trkReverb 15 127 0) quiet = none ∧ commandError (.trkReverb 16 127 0) quiet = some .badTrack := by
  decide +kernel

/-- `playing` with every track muted. -/
def muted : State := playing.setTracks (playing.tracks.map fun t => { t with mute := true })

theorem test_witness_MuteSilencesOnlyTheMaster :
    AgreeButMute playing muted ∧ (∃ t, exec (.mxTick 0 0) playing = .next t) ∧
    (muted.track 0).mute ≠ (playing.track 0).mute := by
  refine ⟨⟨rfl, by decide +kernel, rfl, rfl, fun k => ?_, rfl, rfl, rfl⟩, ?_, by decide +kernel⟩
  · by_cases h : k < 16
    · have : muted.track k = { playing.track k with mute := true } := getD_map _ _ h _ _
      rw [this]; exact ⟨rfl, rfl⟩
    · have h1 : muted.track k = .reset := State.track_of_le _ (by show 16 ≤ k; omega)
      have h2 : playing.track k = .reset := State.track_of_le _ (by show 16 ≤ k; omega)
      rw [h1, h2]; exact ⟨rfl, rfl⟩
  · rw [exec_mxTick]; exact ⟨_, rfl⟩

theorem test_witness_MasterSumsUnmutedTracks :
    (∃ t, exec (.mxTick 0 0) playing = .next t) ∧ (∃ t, exec (.mxTick 0 0) (playing.withExport true) = .next t) ∧
    playing.port.exporting = false ∧ (playing.withExport true).port.exporting = true ∧ 1 < playing.cfg.tickLen.toNat := by
  refine ⟨?_, ?_, rfl, rfl, by decide⟩ <;> rw [exec_mxTick] <;> exact ⟨_, rfl⟩

/-- R378: with the export path on, a tick's two frames are returned and none waits for the ring buffer. -/
theorem test_mxTick_export :
    (after ((quiet.setChan 0 (newPcm quiet 0 note info)).withExport true) [0x30000000]).map
      (fun t => (t.port.returned == t.mx.master, t.port.returned.length, t.port.pending.length)) = some (true, 2, 0) ∧
    (after (quiet.setChan 0 (newPcm quiet 0 note info)) [0x30000000]).map
      (fun t => (t.port.pending == t.mx.master, t.port.returned.length, t.port.pending.length)) = some (true, 0, 2) := by
  decide +kernel

/-- `playing` without its square. -/
def pcmOnly : State := playing.setChan 1 .free

theorem test_witness_ToneGeneratorsBypassReverb :
    AgreeOnPcm playing pcmOnly ∧ (∃ t, exec (.mxTick 0 0) playing = .next t) ∧ (∃ t, exec (.mxTick 0 0) pcmOnly = .next t) := by
  refine ⟨⟨rfl, ⟨by decide +kernel, rfl⟩, rfl, ?_, fun _ => rfl, rfl, rfl, rfl⟩, ?_, ?_⟩
  · intro u hu
    by_cases h : u = 1
    · subst h
      exfalso
      have h1 : ¬((playing.chan 1).live = true ∧ (playing.chan 1).type = .pcm) := by decide +kernel
      have h2 : ¬((pcmOnly.chan 1).live = true ∧ (pcmOnly.chan 1).type = .pcm) := by decide +kernel
      rcases hu with hu | hu
      · exact h1 hu
      · exact h2 hu
    · exact State.chan_setChan_ne _ h _
  · rw [exec_mxTick]; exact ⟨_, rfl⟩
  · rw [exec_mxTick]; exact ⟨_, rfl⟩

/-- An instance of every kind, with canonical buffers. -/
theorem test_witness_ReverbFrameOfEachKind :
    ∀ k ∈ ([.normal, .game1, .game2, .test, .noReverb] : List RevKind),
      (Reverb.cleared k 7 800).kind = k ∧ DelayBuf.wf (Reverb.cleared k 7 800).buf = true ∧
        DelayBuf.wf (Reverb.cleared k 7 800).buf2 = true := by decide

theorem test_witness_ReverbHasNoSpontaneousEnergy :
    ∀ k ∈ ([.normal, .game1, .game2, .test, .noReverb] : List RevKind),
      (Reverb.cleared k 7 800).buf = [] ∧ (Reverb.cleared k 7 800).buf2 = [] ∧ (Reverb.cleared k 7 800).z1 = Frame.zero ∧
        (Reverb.cleared k 7 800).z2 = Frame.zero := by decide

/-- A NORMAL instance of one position that holds {1, 0}, at the greatest intensity that the statement allows. -/
theorem test_witness_NormalReverbTailDecays :
    let rv : Reverb := { Reverb.cleared .normal 1 1 with buf := [(0, ⟨SReal.ofRat 1, .zero⟩)] }
    rv.kind = .normal ∧ rv.Bounded ∧ (0 : Rat) ≤ 1 ∧ (1 : Rat) ≤ 1 ∧
      ∀ j, |(DelayBuf.read j rv.buf).l.toReal| ≤ 1 ∧ |(DelayBuf.read j rv.buf).r.toReal| ≤ 1 := by
  refine ⟨rfl, ⟨rfl, by decide, by decide +kernel, ?_, by decide, fun e he => (by cases he), .inr rfl⟩, by norm_num,
    by norm_num, fun j => ?_⟩
  · intro e he
    rw [List.mem_singleton] at he
    subst he; decide
  · by_cases h : 0 = j <;> simp [DelayBuf.read, h, Frame.zero]

theorem test_witness_MemReadLittleEndian :
    image.validRange 0xFFC 4 = true ∧ 0xFFC + 4 ≤ image.size ∧ image.size < 0xFFD + 4 ∧ 0xFFD + 4 > 0 ∧
    image.validRange 4096 0 = true := by decide

/-- A channel of every kind, with the toggles of a tick. -/
def source (voice : Voice) (accurate : Bool) (level : Nat) (j : Int) : Rat :=
  ({ Chan.free with voice := voice, envLevel := level } : Chan).source
    { playing.tickArgs with accQuant := accurate, accVol := accurate } image j

/-- A looping sample and one that does not loop, at the boundaries of the clauses: −1, 0, loopStart, end − 1, end; by hand
from R213 and R255: a synth at its duty's edge, the ends of a saw and of a triangle, the duty patterns; a wave table at the
levels where the code changes. -/
theorem test_witness_ChannelSourceRules :
    let v : PcmVoice := ⟨0x100, 1024, 1, 4, true, false, false, .sample, 0⟩
    (v.mode = .sample ∨ v.mode = .dpcm) ∧ v.loop = true ∧ v.loopStart.toNat < v.endPos.toNat ∧
      [-1, 0, 1, 3, 4].map (source (.pcm v) true 0) = [0, 1 / 2, 1 / 2, 1 / 2, 1 / 2] ∧
      source (.pcm { v with loop := false }) true 0 4 = 0 ∧
      [-1, 31, 32, 64].map (source (.pcm { v with mode := .synthPulse, synthDuty := 128 }) true 0) = [0, 1, -1, 1] ∧
      [0, 32, 63].map (source (.pcm { v with mode := .synthSaw }) true 0) = [-1, 0, 31 / 32] ∧
      [0, 16, 32, 48].map (source (.pcm { v with mode := .synthTri }) true 0) = [-1, 0, 1, 0] ∧
      ([0, 1, 2, 3] : List (BitVec 2)).map (fun d => [0, 1, 5, 7, 8].map (source (.sq2 d) true 0)) =
        [[-1, -1, -1, 1, -1], [1, -1, -1, 1, 1], [1, -1, 1, 1, 1], [-1, 1, 1, -1, -1]] ∧
      [1, 2, 5, 6, 9, 10, 13, 14].map (fun l => source (.wave 0 (List.replicate 8 15 ++ List.replicate 8 0) (15 / 2)) true l 0) =
        [0, 1 / 5, 1 / 5, 7 / 15, 7 / 15, 11 / 15, 11 / 15, 1] ∧
      source (.wave 0 (List.replicate 8 15 ++ List.replicate 8 0) (15 / 2)) false 1 15 = -1 := by decide +kernel

theorem test_witness_SampleDecoding :
    let v : PcmVoice := ⟨0xFFC, 1024, 0, 4, false, false, false, .sample, 0⟩
    v.mode = .sample ∧ v.dataPos.toNat + 3 < image.size ∧ ({ v with mode := .dpcm } : PcmVoice).mode = .dpcm ∧
      4063 + 33 ≤ image.size := by decide

theorem test_witness_NoiseLfsrPeriods : (7 = 7 ∨ 7 = 15) ∧ 0 < 126 ∧ 126 < 2 ^ 7 - 1 ∧ lfsrState 7 126 ≠ lfsrState 7 0 := by
  decide +kernel

/-- The ascending byte 0x32 from 4, the least register it moves, the descending byte 0x3A, and a sweep clock. -/
theorem test_witness_SweepConverges :
    (0x32 : BitVec 8).toNat % 8 ≠ 0 ∧ (0x32 : BitVec 8).getLsbD 3 = false ∧ 2 ^ ((0x32 : BitVec 8).toNat % 8) ≤ 4 ∧
    (0x3A : BitVec 8).toNat % 8 ≠ 0 ∧ (0x3A : BitVec 8).getLsbD 3 = true ∧
    (Sweep.mk 0x32 true 856 0).active = true ∧ (0x32 : BitVec 8).toNat / 16 % 8 ≠ 0 ∧ (48000 : Word) ≠ 0 ∧
    (0 : Rat) ≤ (Sweep.mk 0x32 true 856 0).acc ∧
    ((Sweep.mk 0x32 true 856 (37 / 15)).tick 200 48000).reg = 1070 := by decide +kernel

/-- A normal-rate and a fixed-rate PCM voice, and each tone generator, sound with the default parameters. -/
theorem test_witness_RatesAreTheFormulas :
    (pcmVoice image info).fixed = false ∧ (pcmVoice image info).freq ≠ 0 ∧
    (pcmVoice image { info with fixed := true }).fixed = true ∧ 0 < Config.Params.default.noiseBase ∧
    1 ≤ Config.Params.default.waveNibbles ∧
    Config.Params.default.noiseBase = 4096 ∧
    (∀ v ∈ ([.pcm (pcmVoice image info), .pcm (pcmVoice image { info with fixed := true }), .sq1 0 ⟨0x32, true, 2047, 0⟩,
      .sq1 0 ⟨0, false, 0, 0⟩, .sq2 0, .wave 0 (List.replicate 16 0) 0, .noise .w7] : List Voice), v.Sound .default) := by
  refine ⟨by decide, by decide, by decide, by decide +kernel, by decide, rfl, fun v hv => ?_⟩
  simp only [List.mem_cons, List.not_mem_nil, or_false] at hv
  obtain rfl | rfl | rfl | rfl | rfl | rfl | rfl := hv <;> unfold Voice.Sound <;> decide +kernel

theorem test_witness_EnvelopeStatesMoveForward :
    (∃ t, exec (.chReleaseFast 0 0) playing = .next t ∧ (t.chan 0).live = true) ∧ (playing.chan 0).live = true ∧
    ({ Chan.free with envState := .dead } : Chan).envState = .dead :=
  ⟨⟨playing.setChan 0 (playing.chan 0).releaseFast, rfl, by decide +kernel⟩, by decide +kernel, rfl⟩

/-- A PCM channel in every state, at the interframe steps 2 and 3 where the clauses meet. -/
theorem test_witness_PcmEnvelopeStep :
    ∀ e ∈ ([.init, .atk, .dec, .sus, .rel, .pseudoEcho, .die, .dead] : List EnvState), ∀ k ∈ [2, 3], ∀ b ∈ [false, true],
      let c : Chan := { Chan.free with envState := e, envInterStep := k, stop := b }
      c.type = .pcm ∧ c.envState = e ∧ (c.envInterStep + 1 < 4 ∨ 4 ≤ c.envInterStep + 1) := by decide +kernel

/-- A tone generator in every state, at the interframe steps 2 and 3, with the targets that the statement names. -/
theorem test_witness_CgbEnvelopeStep :
    ∀ e ∈ ([.init, .atk, .dec, .sus, .rel, .pseudoEcho, .die, .dead] : List EnvState), ∀ k ∈ [2, 3], ∀ b ∈ [false, true],
      let c : Chan :=
        { Chan.free with envState := e, envInterStep := k, stop := b, voice := .sq2 0, rightVol := 63, leftVol := 63, sus := 15 }
      c.type ≠ .pcm ∧ 7 = min 15 ((c.rightVol.toNat + c.leftVol.toNat) / 16) ∧ 7 = (7 * c.sus.toNat + 15) / 16 ∧
        0 = (c.echoVol.toNat * 7 + 255) / 256 := by decide +kernel

/-- An attack, a decay and a release that stay. -/
theorem test_witness_EnvelopeLevelMonotone :
    let c : Chan := { Chan.free with envInterStep := 3, att := 64, dec := 200, rel := 200, sus := 1, envLevel := 100 }
    ((({ c with envState := .atk } : Chan).stepEnvelope 4 true).envState,
      (({ c with envState := .dec } : Chan).stepEnvelope 4 true).envState,
      (({ c with envState := .rel } : Chan).stepEnvelope 4 true).envState) = (.atk, .dec, .rel) := by decide +kernel

theorem test_witness_ChannelOutputRamp :
    ∃ d frames, ({ playing.chan 0 with envState := .sus } : Chan).render playing.tickArgs image = (d, frames) ∧
      1 < playing.tickArgs.n ∧ ({ playing.chan 0 with envState := .sus } : Chan).t.wf = true :=
  ⟨_, _, rfl, by decide, by decide +kernel⟩

theorem test_witness_PolynomialKernels : (1 : Int) = (Alg.ofRat (5 / 4)).floor ∧ (1 / 4 : ℝ) = (Alg.ofRat (5 / 4)).toReal - (1 : Int) := by
  refine ⟨by decide +kernel, ?_⟩
  rw [Alg.toReal_ofRat]; norm_num

/-- A constant source; SINC at source time 0 and increment 1, where the weights are 1 and 0; BLEP and BLAMP at increment 32. -/
theorem test_witness_ResamplersPreserveConstants :
    (∀ j : Int, (fun _ : Int => (1 / 2 : Rat)) j = 1 / 2) ∧
    ((Alg.ofRat 1).wf = true ∧ 0 < (Alg.ofRat 1).toReal ∧
      ((List.range (2 * 16)).map fun i : Nat =>
        kernelH 16 (Alg.ofRat 1).toReal ((Alg.ofRat 0).toReal - ((Alg.ofRat 0).floor - (16 : Nat) + 1 + i : Int))).sum ≠ 0) ∧
    ((Alg.ofRat (1 / 2)).wf = true ∧ (Alg.ofRat (1 / 2)).toReal < (Alg.ofRat (1 / 2)).floor + 1 ∧
      kernelMass 16 (Alg.ofRat 32).toReal ≠ 0) := by
  refine ⟨fun _ => rfl, ⟨by decide +kernel, by simp, ?_⟩, ⟨by decide +kernel, ?_, ?_⟩⟩
  · have h : ∀ i : Nat, kernelH 16 (Alg.ofRat 1).toReal
        ((Alg.ofRat 0).toReal - ((Alg.ofRat 0).floor - (16 : Nat) + 1 + i : Int)) = if i = 15 then 1 else 0 := by
      intro i
      have := kernelH_int 16 one_pos le_rfl (15 - (i : Int))
      rw [Alg.toReal_ofRat, Alg.toReal_ofRat, Alg.floor_ofRat]
      push_cast at this ⊢
      rw [show (0 : ℝ) - (((⌊(0 : Rat)⌋ : Int) : ℝ) - 16 + 1 + i) = 15 - i by simp; ring, this]
      split <;> split <;> first | rfl | omega
    simp only [h]
    norm_num [List.range_succ]
  · rw [Alg.toReal_ofRat, Alg.floor_ofRat]; norm_num
  · have := (kernelMass_pos (half := 16) (by norm_num)).ne'
    rw [Alg.toReal_ofRat]
    norm_num at this ⊢
    exact this

/-- Source times and increments that meet each clause; weights beyond the window of BLAMP at both ends. -/
theorem test_witness_BandLimitedKernels :
    (Alg.exp2 256).wf = true ∧ 0 < (Alg.ofRat 32).toReal ∧ (Alg.ofRat 32).wf = true ∧
    kernelMass 16 (Alg.ofRat 32).toReal ≠ 0 ∧
    (((Alg.ofRat (5 / 2)).floor : Int) : ℝ) ≤ (Alg.ofRat (5 / 2)).toReal ∧
    (Alg.ofRat (5 / 2)).toReal < ((Alg.ofRat (5 / 2)).floor : Int) + 1 ∧
    (-15 < (Alg.ofRat (5 / 2)).floor - (16 : Nat) ∧ (Alg.ofRat (5 / 2)).floor + (16 : Nat) + 1 < 20) ∧
    (0 : Nat) < 16 ∧ (0 : Rat) < 1 ∧ (1 : Rat) ≤ 1 := by
  refine ⟨by decide +kernel, by simp, by decide +kernel, ?_, ?_, ?_, ?_, by norm_num, by norm_num, le_rfl⟩
  · have := (kernelMass_pos (half := 16) (by norm_num)).ne'
    rw [Alg.toReal_ofRat]
    norm_num at this ⊢
    exact this
  all_goals rw [Alg.floor_ofRat]
  · rw [Alg.toReal_ofRat]; norm_num
  · rw [Alg.toReal_ofRat]; norm_num
  · norm_num

/-- 3 + 2^(1/12): its interval's ends agree at 8 bits. -/
theorem test_witness_FloorIsReadFromAnEnclosure :
    let a : Alg := (Alg.ofRat 3).add (Alg.exp2 256)
    a.wf = true ∧ (a.bounds 8).1.floor = (a.bounds 8).2.floor ∧ a.floor = 4 := by decide +kernel

/-- A whole command, a command still incomplete, an unknown opcode; a word of the table. -/
theorem test_witness_StepRunsTheDecodedCommand :
    (∀ ws ∈ ([[0x23000000], [0x01000004], [0x03000000]] : List (List Word)),
      (queued playing ws).port.hostTurn.pending = [] ∧
      (queued playing ws).port.pending = [] ∧ (queued playing ws).port.turns = [] ∧ (queued playing ws).port.invocation = none ∧
      (queued playing ws).port.callers = []) ∧
    decode (queued playing [0x23000000]).port.hostTurn.service.cmds = .instr (.chRelease 0 0) 1 ∧
    decode (queued playing [0x01000004]).port.hostTurn.service.cmds = .incomplete ∧
    decode (queued playing [0x03000000]).port.hostTurn.service.cmds = .badOpcode ∧
    decodeTableWord 32 0x23000000 = some (.chRelease 0 0) := by decide +kernel

/-- A full queue and a frame that waits; a queue with just enough room. RING_FRAMES is an open parameter. -/
theorem test_witness_RenderAgentWaitsForRoom :
    (quiet.setPort { quiet.port with ring := List.replicate ringFrames .zero, pending := [.zero] }).port.hostTurn.pending ≠ [] ∧
    (∃ p : Port, p.ring.length + p.pending.length ≤ ringFrames) ∧
    (∃ p : Port, ringFrames < p.ring.length + p.pending.length) ∧
    quiet.RingBounded ∧ (∃ t, step (queued quiet [0x23000000]) = .next t) := by
  refine ⟨?_, ⟨Port.reset, Nat.zero_le _⟩,
    ⟨{ Port.reset with ring := List.replicate ringFrames .zero, pending := [.zero] }, ?_⟩, Nat.zero_le _,
    ⟨_, rfl⟩⟩
  · have hf : ({ quiet.port with ring := List.replicate ringFrames .zero, pending := [.zero] } : Port).flush =
        { quiet.port with ring := List.replicate ringFrames .zero, pending := [.zero] } := by
      simp [Port.flush]
    rw [Port.hostTurn_quiet (by rfl), Port.takeSlot_pending]
    show ({ quiet.port with ring := List.replicate ringFrames .zero, pending := [.zero] } : Port).flush.pending ≠ []
    rw [hf]
    exact List.cons_ne_nil _ _
  · simp

/-- V71: 150 frames queued, requests of 200 and of 100; and of exactly 150. -/
theorem test_witness_AudioRequestRule :
    let p : Port := { Port.reset with ring := List.replicate 150 .zero }
    p.ring.length < 200 ∧ 150 ≤ p.ring.length ∧ 100 ≤ p.ring.length ∧ ((p.agent (.audio 100)).ring.length = 50) ∧
      ((p.agent (.audio 200)).ring.length = 150) := by decide +kernel

theorem step_tick (p : Port) (h1 : p.hostTurn.pending = [])
    (h2 : decode p.hostTurn.service.cmds = .instr (.mxTick 0 0) 1) : ∃ t, step (quiet.setPort p) = .next t := by
  rw [step, renderTurn_ready (by exact h1), runFront_instr (by exact h2), exec_mxTick]
  exact ⟨_, rfl⟩

/-- A step that runs MX_TICK after a request of the audio agent for the one frame queued (the boundary of what is there), and
the same with the export path turned on; a request for more than is there delivers nothing. -/
theorem test_witness_FramesDeliveredOnceInOrder :
    (∀ turn ∈ ([.audio 1, .exporting true, .audio 2] : List HostTurn),
      (∃ t, step (quiet.setPort { quiet.port with cmds := [0x30000000], ring := [.zero], turns := [turn] }) = .next t) ∧
        (quiet.setPort { quiet.port with cmds := [0x30000000], ring := [.zero], turns := [turn] }).commandOfStep =
          some (.mxTick 0 0)) ∧
    (quiet.setPort { quiet.port with ring := [.zero], turns := [.audio 1] }).delivered = [.zero] ∧
    (quiet.setPort { quiet.port with ring := [.zero], turns := [.audio 2] }).delivered = [] ∧
    (quiet.setPort { quiet.port with turns := [.exporting true] }).port.hostTurn.exporting = true ∧
    (quiet.setPort { quiet.port with turns := [.audio 2] }).port.hostTurn.exporting = false := by
  refine ⟨fun turn h => ?_, by decide +kernel, by decide +kernel, by decide +kernel, by decide +kernel⟩
  simp only [List.mem_cons, List.not_mem_nil, or_false] at h
  rcases h with rfl | rfl | rfl <;>
    exact ⟨step_tick _ (by decide +kernel) (by decide +kernel), by decide +kernel⟩

/-- A rendezvous with RESET pending, and one that waits for the slot. -/
theorem test_witness_RendezvousServicedFirst :
    let p : Port := { Port.reset with cmds := [0x23000000], invocation := some [0x02000000] }
    p.pending = [] ∧ p.turns = [] ∧ p.invocation = some [0x02000000] ∧ decode [0x02000000] = .instr (.reset 0 0) 1 ∧
      ({ p with invocation := none, callers := [[0x02000000]] } : Port).callers = [0x02000000] :: [] := by decide

/-- A looping sample, a sweeping square, a wave, a noise and a synth, all live. -/
def full : State :=
  ((((quiet.setChan 0 (newPcm quiet 0 note info)).setChan 1 (newCgb 1 note (sq1Voice note 0x32 2))).setChan 2
    (newCgb 2 note (waveVoice 16 image 0x200))).setChan 3 (newCgb 3 note (.noise .w7))).setChan 4
      (newPcm quiet 4 note (synth 0x302))

/-- The channels of `full`. -/
def sounding : List Chan := (List.range 5).map full.chan

theorem mem_full {c : Chan} (h : c ∈ full.chans) (hl : c.live = true) : c ∈ sounding := by
  have h1 : full.chans = sounding ++ List.replicate 27 .free := by decide +kernel
  rw [h1, List.mem_append] at h
  rcases h with h | h
  · exact h
  · rw [List.eq_of_mem_replicate h] at hl; exact absurd hl (by decide)

/-- The good states are not only the one after reset: one with a live channel of most kinds, and the next command MX_TICK. -/
theorem test_witness_InvariantKeptByEveryStep :
    (queued full [0x30000000]).Inv ∧ ∃ t, step (queued full [0x30000000]) = .next t := by
  refine ⟨⟨⟨⟨by decide, by decide, by decide, by decide +kernel, by decide +kernel, .inl rfl⟩, by decide +kernel, by decide +kernel⟩,
    footprintsValid_of _ (by decide +kernel), ⟨by decide, by decide +kernel, by decide, by decide, by decide +kernel, by decide⟩,
    fun c h hl => ?_, fun c h hl => ?_, ?_, ⟨by decide +kernel, by decide +kernel, by decide +kernel⟩, fun c h hl => ?_,
    by decide +kernel⟩, ?_⟩
  · have h := mem_full h hl
    have hs : ∀ c ∈ sounding, c.track < 16 ∧ c.envLevel ≤ c.levelMax ∧ c.fromEnvLevel ≤ c.levelMax ∧ c.envInterStep < 4 ∧
        (c.isPcm = false → c.att.toNat ≤ 7 ∧ c.dec.toNat ≤ 7 ∧ c.sus.toNat ≤ 15 ∧ c.rel.toNat ≤ 7 ∧
          c.envCount < 7 ∧ c.susCount < 7 ∧ c.envPeak ≤ 15 ∧ c.envSustain ≤ 15 ∧ c.echoLevel ≤ 15) ∧
        0 ≤ c.lastGainL ∧ 0 ≤ c.lastGainR ∧ (c.envState = .pseudoEcho → c.echoLen ≠ 0) := by decide +kernel
    obtain ⟨h1, h2, h3, h4, h5, h6⟩ := hs c h
    refine ⟨h1, h2, h3, h4, h5, ?_, h6⟩
    have hv : c.voice ∈ sounding.map Chan.voice := List.mem_map_of_mem h
    have : sounding.map Chan.voice = [.pcm (pcmVoice image info), .sq1 2 ⟨0x32, true, 1547, 0⟩, waveVoice 16 image 0x200,
        .noise .w7, .pcm (pcmVoice image (synth 0x302))] := by decide +kernel
    rw [this] at hv
    simp only [List.mem_cons, List.not_mem_nil, or_false] at hv
    rcases hv with hv | hv | hv | hv | hv <;> rw [hv]
    · exact ⟨by decide, by decide +kernel⟩
    · exact ⟨by decide, by decide, by decide⟩
    · exact (by decide +kernel : (waveTable 16 image 0x200).length = 16)
    · trivial
    · exact ⟨by decide, by decide +kernel⟩
  · exact (by decide +kernel : ∀ c ∈ sounding, c.envState ≠ .dead) c (mem_full h hl)
  · intro rv hrv
    have hr : (queued full [0x30000000]).reverbs = List.replicate 16 (.cleared .normal 7 800) := by decide +kernel
    rw [hr] at hrv
    rw [List.eq_of_mem_replicate hrv]
    exact ⟨by decide, by decide, by decide, fun e he => (by cases he), by decide, fun e he => (by cases he), .inr rfl⟩
  · exact (by decide +kernel : ∀ c ∈ sounding, c.t.wf = true) c (mem_full h hl)
  · rw [step, renderTurn_ready (by rfl), runFront_instr (i := .mxTick 0 0) (n := 1) (by rfl), exec_mxTick]
    exact ⟨_, rfl⟩

theorem test_witness_StepNeverStopsAndOnlyReads :
    playing.FootprintsValid ∧ ∃ t, step (queued playing [0x23000000]) = .next t :=
  ⟨footprintsValid_of _ (by decide +kernel), ⟨_, rfl⟩⟩

end Sys2Proof.Tests
end

