-- ==== Sys2Proof/Proofs/FloorEnclosure.lean ====
section
/-! The interval of `Alg.bounds`, from its integer roots up: the greedy root, one term, the sum, and the floor read from it (R9). -/

namespace Sys2Proof

/-! ## The integer root -/

/-- The bits tried below a leading one bracket the root: what the lowest bit leaves is the greatest n-th root. -/
theorem rootBits_bracket {n target : Nat} (i r : Nat) (hlo : r ^ n ≤ target) (hhi : target < (r + 2 ^ i) ^ n) :
    rootBits n target i r ^ n ≤ target ∧ target < (rootBits n target i r + 1) ^ n := by
  induction i generalizing r with
  | zero => exact ⟨hlo, hhi⟩
  | succ i ih =>
    rw [rootBits]
    split
    · next hset => exact ih _ hset (by rwa [add_assoc, ← two_mul, ← pow_succ'])
    · next hclear => exact ih _ hlo (Nat.lt_of_not_le hclear)

/-- 2^(k/3072) is the n-th root of 2^m when n * k = 3072 * m; scaled by 2^P, its n-th power is a power of 2. -/
theorem scaled_rpow_pow {k m n : Nat} (h : n * k = 3072 * m) (P : Nat) :
    ((2 : ℝ) ^ P * (2 : ℝ) ^ ((k : ℝ) / 3072)) ^ n = (2 : ℝ) ^ (m + n * P) := by
  have hroot : ((2 : ℝ) ^ ((k : ℝ) / 3072)) ^ n = (2 : ℝ) ^ m := by
    have hexp : (k : ℝ) / 3072 * n = m := by
      have : (n : ℝ) * k = 3072 * m := by exact_mod_cast h
      linarith
    rw [← Real.rpow_mul_natCast (by norm_num), hexp, Real.rpow_natCast]
  rw [mul_pow, hroot, ← pow_mul, ← pow_add, mul_comm P, add_comm]

/-- `rootLow` is the floor that it stands for. -/
theorem rootLow_eq_floor {k : Nat} (hk : k < 3072) (P : Nat) :
    rootLow k P = ⌊(2 : ℝ) ^ P * (2 : ℝ) ^ ((k : ℝ) / 3072)⌋₊ := by
  have hg : 0 < k.gcd 3072 := Nat.gcd_pos_of_pos_right k (by norm_num)
  obtain ⟨m, hm⟩ := Nat.gcd_dvd_left k 3072
  obtain ⟨n, hn⟩ := Nat.gcd_dvd_right k 3072
  have hroot : rootLow k P = rootBits n (2 ^ (m + n * P)) P (2 ^ P) := by
    simp only [rootLow, show Config.pitchSteps = 3072 from rfl, Nat.div_eq_of_eq_mul_right hg hm,
      Nat.div_eq_of_eq_mul_right hg hn]
  have hmn : m < n := Nat.lt_of_mul_lt_mul_left (a := k.gcd 3072) (by rwa [← hm, ← hn])
  have hnk : n * k = 3072 * m := by
    calc n * k = n * (k.gcd 3072 * m) := congrArg (n * ·) hm
      _ = k.gcd 3072 * n * m := by ring
      _ = 3072 * m := congrArg (· * m) hn.symm
  have hn0 : n ≠ 0 := by omega
  obtain ⟨hlo, hhi⟩ := rootBits_bracket (n := n) (target := 2 ^ (m + n * P)) P (2 ^ P)
    (by rw [← pow_mul]; exact Nat.pow_le_pow_right two_pos (by rw [mul_comm P]; omega))
    (by rw [← two_mul, ← pow_succ', ← pow_mul]; exact Nat.pow_lt_pow_right one_lt_two (by linarith))
  rw [← hroot] at hlo hhi
  have hpow := scaled_rpow_pow hnk P
  refine ((Nat.floor_eq_iff (by positivity)).mpr ⟨?_, ?_⟩).symm
  · exact le_of_pow_le_pow_left₀ hn0 (by positivity) (by rw [hpow]; exact_mod_cast hlo)
  · exact lt_of_pow_lt_pow_left₀ n (by positivity) (by rw [hpow]; exact_mod_cast hhi)

/-! ## The enclosure -/

/-- The quotients that `termBounds` scales by a coefficient enclose 2^(k/3072). -/
theorem rootLow_quotients_enclose {k : Nat} (hk : k < 3072) (P : Nat) :
    (rootLow k P : ℝ) / 2 ^ P ≤ (2 : ℝ) ^ ((k : ℝ) / 3072) ∧
      (2 : ℝ) ^ ((k : ℝ) / 3072) ≤ (rootLow k P + 1 : ℝ) / 2 ^ P := by
  rw [rootLow_eq_floor hk, div_le_iff₀' (by positivity), le_div_iff₀' (by positivity)]
  exact ⟨Nat.floor_le (by positivity), (Nat.lt_floor_add_one _).le⟩

/-- Each term lies in its interval; a negative coefficient exchanges the ends. -/
theorem termBounds_enclose {kq : Nat × Rat} (hk : kq.1 < 3072) (P : Nat) :
    (((termBounds P kq).1 : Rat) : ℝ) ≤ termReal kq ∧ termReal kq ≤ (((termBounds P kq).2 : Rat) : ℝ) := by
  obtain ⟨k, q⟩ := kq
  obtain ⟨hlo, hhi⟩ := rootLow_quotients_enclose hk P
  simp only [termBounds, termReal]
  split
  · next hzero => subst hzero; simp
  · split
    · next hq =>
      have hq : (0 : ℝ) ≤ q := by exact_mod_cast hq
      push_cast
      exact ⟨mul_le_mul_of_nonneg_left hlo hq, mul_le_mul_of_nonneg_left hhi hq⟩
    · next hq =>
      have hq : (q : ℝ) ≤ 0 := by exact_mod_cast (not_le.mp hq).le
      push_cast
      exact ⟨mul_le_mul_of_nonpos_left hhi hq, mul_le_mul_of_nonpos_left hlo hq⟩

/-- The number lies in its interval at every precision. -/
theorem Alg.bounds_enclose {a : Alg} (ha : a.wf = true) (P : Nat) :
    (((a.bounds P).1 : Rat) : ℝ) ≤ a.toReal ∧ a.toReal ≤ (((a.bounds P).2 : Rat) : ℝ) := by
  obtain ⟨ts⟩ := a
  obtain ⟨hts, -⟩ := (Alg.wf_iff _).mp ha
  clear ha
  simp only [Alg.bounds, Alg.toReal_mk]
  induction ts with
  | nil => simp
  | cons x r ih =>
    obtain ⟨hrlo, hrhi⟩ := ih fun e he => hts e (List.mem_cons_of_mem _ he)
    obtain ⟨hxlo, hxhi⟩ := termBounds_enclose (hts x List.mem_cons_self).1 P
    simp only [List.foldr_cons, List.map_cons, List.sum_cons]
    push_cast
    exact ⟨add_le_add hxlo hrlo, add_le_add hxhi hrhi⟩

/-! ## The floor -/

/-- Rational ends with one floor pass it on to every real number between them. -/
theorem floor_eq_of_enclosed {lo hi : Rat} {x : ℝ} (hlo : (lo : ℝ) ≤ x) (hhi : x ≤ (hi : ℝ)) (h : lo.floor = hi.floor) :
    lo.floor = ⌊x⌋ := by
  have hflo : lo.floor ≤ ⌊x⌋ := (Rat.floor_cast (α := ℝ) lo).symm.le.trans (Int.floor_le_floor hlo)
  have hfhi : ⌊x⌋ ≤ hi.floor := (Int.floor_le_floor hhi).trans (Rat.floor_cast (α := ℝ) hi).le
  exact le_antisymm hflo (h ▸ hfhi)

/-- Settles O52: the enclosure of every term carries to the sum, and the search stops where the ends have one floor. -/
theorem floorIsReadFromAnEnclosure : Obligations.FloorIsReadFromAnEnclosure := by
  intro a ha
  refine ⟨Alg.bounds_enclose ha, fun P hagree fuel => ?_⟩
  obtain ⟨hlo, hhi⟩ := Alg.bounds_enclose ha P
  rw [Alg.floorLoop_of_agree hagree, floor_eq_of_enclosed hlo hhi hagree]

end Sys2Proof
end

