-- ==== Sys2Proof/Proofs/ConfigWrite.lean ====
section
/-! The registers that CFG_WR writes: the words of SOUNDMODE and MIXOPT, the write of one register, and what the read port
shows after it (R31 to R39, R375). -/

namespace Sys2Proof.Machine

/-! ## The words of SOUNDMODE and MIXOPT (R34, R35) -/

theorem ResKind.code_of_ofCode {c : BitVec 3} {k : ResKind} (h : ResKind.ofCode c = some k) : k.code = c := by
  revert c k; decide

theorem RevKind.code_of_ofCode {c : BitVec 3} {k : RevKind} (h : RevKind.ofCode c = some k) : k.code = c := by
  revert c k; decide

/-- A SOUNDMODE word without reserved bits is the word of its fields. -/
theorem SoundMode.pack_of_unpack {w : Word} {m : SoundMode} (h : SoundMode.unpack w = some m) : m.pack = w := by
  unfold SoundMode.unpack at h
  split at h
  · next hz =>
    cases h
    have hhigh : ∀ i, i < 16 → w.getLsbD (16 + i) = false := by
      intro i hi
      simpa [hi] using congrArg (BitVec.getLsbD · i) hz
    apply BitVec.eq_of_getLsbD_eq
    intro i hi
    simp only [SoundMode.pack, BitVec.getLsbD_append, BitVec.getLsbD_extractLsb', BitVec.getLsbD_ofBool]
    grind
  · cases h

/-- A MIXOPT word without reserved bits and codes is the word of its fields. -/
theorem MixOpt.pack_of_unpack {w : Word} {m : MixOpt} (h : MixOpt.unpack w = some m) : m.pack = w := by
  unfold MixOpt.unpack at h
  split at h
  · next hz =>
    have hzero : ∀ b ∈ mixOptZeroBits, w.getLsbD b = false := by
      simpa using (mixOptReserved_iff w).mp hz
    split at h
    · next rn rf rv hn hf hv =>
      cases h
      apply BitVec.eq_of_getLsbD_eq
      intro i hi
      simp only [MixOpt.pack, ResKind.code_of_ofCode hn, ResKind.code_of_ofCode hf, RevKind.code_of_ofCode hv,
        BitVec.getLsbD_append, BitVec.getLsbD_extractLsb', BitVec.getLsbD_ofBool]
      simp only [mixOptZeroBits, List.forall_mem_cons] at hzero
      interval_cases i <;> simp only [hzero] <;> rfl
    · cases h
  · cases h

/-! ## A write to the register file (R39) -/

/-- All that an accepted write can do: it names one of the seven read-write registers, and replaces it by w. -/
theorem Cfg.write_cases {c c' : Cfg} {index : BitVec 16} {w : Word} (h : c.write index w = some c') :
    (index = 0x00 ∧ legalOutRate w = true ∧ c' = { c with outRate := w }) ∨
    (index = 0x01 ∧ legalTickLen w = true ∧ c' = { c with tickLen := w }) ∨
    (index = 0x02 ∧ ∃ m : SoundMode, m.pack = w ∧ c' = { c with soundmode := m }) ∨
    (index = 0x03 ∧ legalFixedRate w = true ∧ c' = { c with fixedRate := w }) ∨
    (index = 0x04 ∧ ∃ m : MixOpt, m.pack = w ∧ c' = { c with mixopt := m }) ∨
    (index = 0x05 ∧ legalRevNbuf w = true ∧ c' = { c with revNbuf := w }) ∨
    (index = 0x06 ∧ legalRevD w = true ∧ c' = { c with revD := w }) := by
  simp only [← BitVec.toNat_inj (x := index)]
  unfold Cfg.write at h
  split at h
  case h_3 hk =>
    obtain ⟨m, hm, rfl⟩ := Option.map_eq_some_iff.mp h
    exact .inr (.inr (.inl ⟨hk, m, SoundMode.pack_of_unpack hm, rfl⟩))
  case h_5 hk =>
    obtain ⟨m, hm, rfl⟩ := Option.map_eq_some_iff.mp h
    exact .inr (.inr (.inr (.inr (.inl ⟨hk, m, MixOpt.pack_of_unpack hm, rfl⟩))))
  case h_8 => cases h
  all_goals
    next hk =>
    obtain ⟨hw, rfl⟩ := Option.ite_some_none_eq_some.mp h
    simp [hk, hw]

/-- The read port at j shows the register that j names, of all configuration registers that one alone (R31). -/
theorem State.readPort_setCfg {s : State} {c : Cfg} {j : BitVec 16} (h0 : j = 0x00 → c.outRate = s.cfg.outRate)
    (h1 : j = 0x01 → c.tickLen = s.cfg.tickLen) (h2 : j = 0x02 → c.soundmode = s.cfg.soundmode)
    (h3 : j = 0x03 → c.fixedRate = s.cfg.fixedRate) (h4 : j = 0x04 → c.mixopt = s.cfg.mixopt)
    (h5 : j = 0x05 → c.revNbuf = s.cfg.revNbuf) (h6 : j = 0x06 → c.revD = s.cfg.revD) :
    (s.setCfg c).readPort j = s.readPort j := by
  unfold State.readPort
  split
  case h_1 hj => exact h0 (BitVec.eq_of_toNat_eq hj)
  case h_2 hj => exact h1 (BitVec.eq_of_toNat_eq hj)
  case h_3 hj => exact congrArg SoundMode.pack (h2 (BitVec.eq_of_toNat_eq hj))
  case h_4 hj => exact h3 (BitVec.eq_of_toNat_eq hj)
  case h_5 hj => exact congrArg MixOpt.pack (h4 (BitVec.eq_of_toNat_eq hj))
  case h_6 hj => exact h5 (BitVec.eq_of_toNat_eq hj)
  case h_7 hj => exact h6 (BitVec.eq_of_toNat_eq hj)
  all_goals rfl

/-- An accepted write reads back, and every other index reads as before (R39). -/
theorem readPort_of_write {s : State} {c : Cfg} {index : BitVec 16} {w : Word} (h : s.cfg.write index w = some c) :
    (s.setCfg c).readPort index = w ∧ ∀ j, j ≠ index → (s.setCfg c).readPort j = s.readPort j := by
  obtain ⟨rfl, -, rfl⟩ | ⟨rfl, -, rfl⟩ | ⟨rfl, m, rfl, rfl⟩ | ⟨rfl, -, rfl⟩ | ⟨rfl, m, rfl, rfl⟩ | ⟨rfl, -, rfl⟩ | ⟨rfl, -, rfl⟩ :=
    Cfg.write_cases h
  all_goals exact ⟨rfl, fun j hj => State.readPort_setCfg (by tauto) (by tauto) (by tauto) (by tauto)
    (by tauto) (by tauto) (by tauto)⟩

theorem onlyCfg_setCfg (s : State) (c : Cfg) : OnlyCfg s (s.setCfg c) where
  par := rfl
  chans := rfl
  tracks := rfl
  reverbs := rfl
  mx := rfl
  source := ⟨rfl, fun _ => rfl⟩
  port := rfl

theorem commandError_cfgWr (a : BitVec 8) (index : BitVec 16) (w : Word) (s : State) :
    commandError (.cfgWr a index w) s =
      if a ≠ 0 then some .reserved else if legalValue index w = true then none else some .badCfg := by
  simp [commandError, WellFormed]

/-- Settles O13: a legal value is written to the one register that its index names; the checks report the rest. -/
theorem cfgWrStoresOneRegister : Obligations.CfgWrStoresOneRegister := by
  intro index w s
  refine ⟨fun hlegal => ?_, fun hillegal => ?_, fun a ha => ?_⟩
  · obtain ⟨c, hc⟩ := Option.isSome_iff_exists.mp ((Cfg.write_isSome s.cfg index w).trans hlegal)
    obtain ⟨hback, hothers⟩ := readPort_of_write hc
    refine ⟨s.setCfg c, ?_, hback, hothers, onlyCfg_setCfg s c⟩
    rw [exec_cfgWr, hc, commandError_cfgWr]
    simp [hlegal, State.afterError]
  · rw [exec_cfgWr, commandError_cfgWr]
    simp [hillegal, State.afterError]
  · rw [exec_cfgWr, commandError_cfgWr, if_pos ha]
    rfl

end Sys2Proof.Machine
end

