-- ==== Sys2Proof/Proofs/ReadPort.lean ====
section
/-! What the host reads without a command: STATUS, SLOTS_LIVE and TICK_COUNT on the read port, and the snapshot (R40, R41, R433). -/

namespace Sys2Proof.Machine

/-! ## The status registers (R40, R41) -/

/-- Concatenation on numbers: the high part above the low part. -/
theorem toNat_append_eq_add {m n : Nat} (x : BitVec m) (y : BitVec n) : (x ++ y).toNat = x.toNat * 2 ^ n + y.toNat := by
  rw [BitVec.toNat_append, ← Nat.shiftLeft_add_eq_or_of_lt y.isLt, Nat.shiftLeft_eq]

/-- STATUS as a number: each of its four fields at its place. -/
theorem status_toNat (s : State) :
    s.status.toNat = s.mx.errCount.toNat * 2 ^ 16 + (if s.mx.fadeState ≠ .idle then 2 ^ 9 else 0) +
      (if s.mx.fadeDone = true then 2 ^ 8 else 0) + s.mx.lastErrCode.toNat := by
  have hactive : s.mx.fadeActive = decide (s.mx.fadeState ≠ .idle) := by
    unfold Mixer.fadeActive
    cases s.mx.fadeState <;> rfl
  unfold State.status
  rw [hactive]
  simp only [toNat_append_eq_add, BitVec.toNat_ofBool]
  split_ifs with hf hd hd <;> simp [hf, hd] <;> ring

theorem testBit_bitsOf (bs : List Bool) (u : Nat) : (bitsOf bs).testBit u = bs.getD u false := by
  induction bs generalizing u with
  | nil => simp [bitsOf]
  | cons b bs ih =>
    have hb := b.toNat_lt
    cases u with
    | zero => cases b <;> simp [bitsOf, Nat.testBit_zero, Nat.add_mod]
    | succ u =>
      have hhalf : bitsOf (b :: bs) / 2 = bitsOf bs := by simp only [bitsOf]; omega
      rw [Nat.testBit_succ, hhalf, ih]
      rfl

/-- Bit u of SLOTS_LIVE is that of slot u; a slot that is not there is not live. -/
theorem getLsbD_slotsLive (s : State) {u : Nat} (hu : u < 32) : s.slotsLive.getLsbD u = (s.chan u).live := by
  unfold State.slotsLive
  rw [BitVec.getLsbD_ofNat, testBit_bitsOf, decide_eq_true hu, Bool.true_and]
  by_cases h : u < s.chSlots
  · exact getD_map _ _ h _ _
  · rw [s.chan_of_le (not_lt.mp h), getD_of_le _ (by simpa [State.chSlots] using h)]
    rfl

theorem tickCount_toNat (s : State) : s.tickCount.toNat = s.mx.tickCount.toNat % 2 ^ 32 := by
  simp [State.tickCount]

/-- Only the ten indices of R31 name a register. -/
theorem readPort_reserved (s : State) {index : BitVec 16}
    (h : index ∉ ([0x00, 0x01, 0x02, 0x03, 0x04, 0x05, 0x06, 0x10, 0x11, 0x12] : List (BitVec 16))) :
    s.readPort index = 0 := by
  simp only [List.mem_cons, List.not_mem_nil, or_false, not_or, ← BitVec.toNat_inj (x := index)] at h
  unfold State.readPort
  split
  case h_11 => rfl
  all_goals
    next hi => simp [hi] at h

/-! ## The snapshot's slots and tracks (R433) -/

theorem chans_eq_map (s : State) : s.chans = (List.range s.chSlots).map s.chan := by
  apply List.ext_getElem
  · simp [State.chSlots]
  · intro u hu _
    simp [State.chan, hu]

theorem getElem?_chans (s : State) {u : Nat} (hu : u < s.chSlots) : s.chans[u]? = some (s.chan u) := by
  rw [chans_eq_map, List.getElem?_map, List.getElem?_range hu]; rfl

theorem Chan.keyActive_iff (t : Nat) (c : Chan) :
    c.keyActive t = true ↔ c.live = true ∧ c.track = t ∧ c.envState ∉ [EnvState.rel, .pseudoEcho, .die, .dead] := by
  unfold Chan.keyActive
  cases c.envState <;> simp

theorem mem_activeKeys (s : State) (t : Nat) (key : BitVec 7) :
    key ∈ s.activeKeys t ↔
      ∃ u, u < s.chSlots ∧ (s.chan u).live = true ∧ (s.chan u).track = t ∧ (s.chan u).key = key ∧
        (s.chan u).envState ∉ [EnvState.rel, .pseudoEcho, .die, .dead] := by
  simp only [State.activeKeys, List.mem_dedup, List.mem_map, List.mem_filter, Chan.keyActive_iff]
  constructor
  · rintro ⟨c, ⟨hc, hl, ht, he⟩, hk⟩
    obtain ⟨u, hu, rfl⟩ := State.exists_chan_of_mem hc
    exact ⟨u, hu, hl, ht, hk, he⟩
  · rintro ⟨u, hu, hl, ht, hk, he⟩
    exact ⟨s.chan u, ⟨s.chan_mem hu, hl, ht, he⟩, hk⟩

theorem getElem?_snapshot_tracks (s : State) {k : Nat} (hk : k < s.nTracks) :
    s.snapshot.tracks[k]? = some ⟨(s.track k).mute, (s.track k).rev, s.activeKeys k⟩ := by
  have ht : s.tracks[k]? = some (s.track k) := by
    simp [State.track, List.getElem?_eq_getElem (show k < s.tracks.length from hk)]
  simp only [State.snapshot, getElem?_mapFrom, ht, Option.map_some, Nat.zero_add]

theorem snapshot_count (s : State) :
    s.snapshot.count = ((List.range s.chSlots).filter fun u => (s.chan u).live).length := by
  show (s.chans.filter Chan.live).length = _
  rw [chans_eq_map, List.filter_map, List.length_map]
  rfl

/-! ## The levels (R433) -/

/-- The running maximum of magnitudes from m on: no less than m and each magnitude, and one of them. -/
theorem toReal_foldl_larger (xs : List SReal) (m : SReal) :
    m.toReal ≤ (xs.foldl (fun m x => m.larger x.magnitude) m).toReal ∧
      (∀ x ∈ xs, |x.toReal| ≤ (xs.foldl (fun m x => m.larger x.magnitude) m).toReal) ∧
      ((xs.foldl (fun m x => m.larger x.magnitude) m).toReal = m.toReal ∨
        ∃ x ∈ xs, (xs.foldl (fun m x => m.larger x.magnitude) m).toReal = |x.toReal|) := by
  induction xs generalizing m with
  | nil => simp
  | cons x xs ih =>
    obtain ⟨hstart, hall, hsome⟩ := ih (m.larger x.magnitude)
    rw [SReal.toReal_larger, SReal.toReal_magnitude] at hstart hsome
    rw [List.foldl_cons]
    refine ⟨(le_max_left _ _).trans hstart, fun y hy => ?_, ?_⟩
    · obtain rfl | hy := List.mem_cons.mp hy
      · exact (le_max_right _ _).trans hstart
      · exact hall y hy
    · obtain hmax | ⟨y, hy, he⟩ := hsome
      · obtain h | h := max_choice m.toReal |x.toReal|
        · exact .inl (hmax.trans h)
        · exact .inr ⟨x, List.mem_cons_self, hmax.trans h⟩
      · exact .inr ⟨y, List.mem_cons_of_mem _ hy, he⟩

theorem abs_le_peakOf {xs : List SReal} {x : SReal} (h : x ∈ xs) : |x.toReal| ≤ (peakOf xs).toReal := by
  obtain ⟨-, hall, -⟩ := toReal_foldl_larger xs .zero
  exact hall x h

/-- The level of a buffer that is not empty is reached: a maximum that is the start's 0 makes every magnitude 0. -/
theorem peakOf_attained {xs : List SReal} (h : xs ≠ []) : ∃ x ∈ xs, (peakOf xs).toReal = |x.toReal| := by
  obtain ⟨-, -, hzero | hsome⟩ := toReal_foldl_larger xs .zero
  · obtain ⟨x, hx⟩ := List.exists_mem_of_ne_nil xs h
    have hle := abs_le_peakOf hx
    have hzero : (peakOf xs).toReal = 0 := hzero.trans SReal.toReal_zero
    exact ⟨x, hx, le_antisymm (hzero ▸ abs_nonneg _) hle⟩
  · exact hsome

/-- A side's level is a maximum over that side of the frames. -/
theorem peakOf_side_attained {fs : List Frame} (h : fs ≠ []) (side : Frame → SReal) :
    ∃ f ∈ fs, (peakOf (fs.map side)).toReal = |(side f).toReal| := by
  obtain ⟨_, hx, he⟩ := peakOf_attained (mt List.map_eq_nil_iff.mp h : fs.map side ≠ [])
  obtain ⟨f, hf, rfl⟩ := List.mem_map.mp hx
  exact ⟨f, hf, he⟩

/-- Settles O7: register by register on the read port, then part by part in the snapshot. -/
theorem readPortAndSnapshot : Obligations.ReadPortAndSnapshot := by
  intro s
  refine ⟨?_, fun u hu => getLsbD_slotsLive s hu, tickCount_toNat s, fun _ hi => readPort_reserved s hi, List.length_map _,
    length_mapFrom _ _ _, fun u hu => ?_, fun k hk => ?_, fun f hf => ?_, fun hne => ?_, snapshot_count s⟩
  · refine (status_toNat s).trans (congrArg _ ?_)
    unfold Mixer.lastErrCode
    cases s.mx.lastErr with
    | none => rfl
    | some e => cases e <;> rfl
  · simp only [State.snapshot, List.getElem?_map, getElem?_chans s hu, Option.map_some]
  · exact ⟨_, getElem?_snapshot_tracks s hk, rfl, rfl, List.nodup_dedup _, mem_activeKeys s k⟩
  · exact ⟨abs_le_peakOf (List.mem_map_of_mem hf), abs_le_peakOf (List.mem_map_of_mem hf)⟩
  · exact ⟨peakOf_side_attained hne Frame.l, peakOf_side_attained hne Frame.r⟩

end Sys2Proof.Machine
end

