-- ==== Sys2Proof/Proofs/EnvelopeRanges.lean ====
section
/-! The envelope step keeps the ranges of levels, counters and the echo, for channels of every type (R44, R178, R245). -/

namespace Sys2Proof.Machine

/-! ## The envelope's ranges (R44, R178) -/

/-- The ranges that the envelope step reads and writes: the part of `Chan.Bounded` about levels, counters and the echo. -/
structure Chan.RangesHold (n : Nat) (c : Chan) : Prop where
  level : c.envLevel ≤ c.levelMax
  fromLevel : c.fromEnvLevel ≤ c.levelMax
  interStep : c.envInterStep < n
  cgb : c.isPcm = false → c.CgbBounded
  echo : c.envState = .pseudoEcho → c.echoLen ≠ 0

theorem Chan.levelMax_of_pcm {c : Chan} (h : c.isPcm = true) : c.levelMax = 255 := if_pos h

theorem Chan.levelMax_of_cgb {c : Chan} (h : c.isPcm = false) : c.levelMax = 15 := if_neg (by simp [h])

section RangesHold
variable {n : Nat} {c : Chan}

theorem Chan.RangesHold.setLevel (h : c.RangesHold n) {e : EnvState} {level : Nat} (hl : level ≤ c.levelMax)
    (he : e = .pseudoEcho → c.echoLen ≠ 0) : ({ c with envLevel := level, envState := e } : Chan).RangesHold n :=
  ⟨hl, h.fromLevel, h.interStep, h.cgb, he⟩

theorem Chan.RangesHold.setFrame (h : c.RangesHold n) {e : EnvState} {level k m : Nat} (hl : level ≤ c.levelMax)
    (he : e = .pseudoEcho → c.echoLen ≠ 0) (hk : k < 7) (hm : m < Config.susBugN) :
    ({ c with envLevel := level, envState := e, envCount := k, susCount := m } : Chan).RangesHold n := by
  refine ⟨hl, h.fromLevel, h.interStep, fun hc => ?_, he⟩
  obtain ⟨hatt, hdec, hsus, hrel, -, -, hpeak, hsustain, hecho⟩ := h.cgb hc
  exact ⟨hatt, hdec, hsus, hrel, hk, hm, hpeak, hsustain, hecho⟩

theorem Chan.RangesHold.setStep (h : c.RangesHold n) {i f : Nat} (hi : i < n) (hf : f ≤ c.levelMax) :
    ({ c with fromEnvLevel := f, envInterStep := i } : Chan).RangesHold n :=
  ⟨h.level, hf, hi, h.cgb, h.echo⟩

theorem Chan.RangesHold.echoFrame (h : c.RangesHold n) : c.echoFrame.RangesHold n := by
  refine ⟨h.level, h.fromLevel, h.interStep, h.cgb, fun he hz => ?_⟩
  have hdie : c.echoFrame.envState = .die := if_pos hz
  rw [hdie] at he
  cases he

/-! ### PCM -/

/-- A level times a rate of 8 bits, over 256, is no higher. -/
theorem mul_shiftRight_le (level : Nat) (r : BitVec 8) : (level * r.toNat) >>> 8 ≤ level := by
  rw [Nat.shiftRight_eq_div_pow]
  exact Nat.div_le_of_le_mul (by rw [mul_comm]; exact Nat.mul_le_mul_right _ r.isLt.le)

theorem Chan.RangesHold.initPcm (h : c.RangesHold n) (hp : c.isPcm = true) : c.initPcm.RangesHold n := by
  have hmax := Chan.levelMax_of_pcm hp
  have hatt := c.att.isLt
  unfold Chan.initPcm
  split
  · split
    · exact h.setLevel hmax.ge (by simp)
    · exact h.setLevel (by omega) (by simp)
  · exact h.setLevel hmax.ge (by split <;> simp)

theorem Chan.RangesHold.relPcm (h : c.RangesHold n) (hp : c.isPcm = true) : c.relPcm.RangesHold n := by
  have hmax := Chan.levelMax_of_pcm hp
  have hecho := c.echoVol.isLt
  unfold Chan.relPcm
  split
  · split
    · exact h.setLevel h.level (by simp)
    · next hlen => exact h.setLevel (by omega) fun _ => (not_or.mp hlen).2
  · exact h.setLevel ((mul_shiftRight_le _ _).trans h.level) h.echo

theorem Chan.RangesHold.framePcm (h : c.RangesHold n) (hp : c.isPcm = true) : c.framePcm.RangesHold n := by
  have hmax := Chan.levelMax_of_pcm hp
  have hsus := c.sus.isLt
  unfold Chan.framePcm
  split
  case h_1 =>
    unfold Chan.atkPcm
    split
    · exact h.setLevel hmax.ge (by simp)
    · next hlow => exact h.setLevel (by rw [hmax]; exact (not_le.mp hlow).le) h.echo
  case h_2 =>
    unfold Chan.decPcm
    split
    · exact h.setLevel (by omega) (by simp)
    · exact h.setLevel ((mul_shiftRight_le _ _).trans h.level) h.echo
  case h_4 => exact h.relPcm hp
  case h_5 => exact h.echoFrame
  all_goals exact h

/-! ### Tone generators -/

/-- The targets of R245 are levels of a tone generator. -/
theorem Chan.RangesHold.computeTargets (h : c.RangesHold n) : c.computeTargets.RangesHold n := by
  refine ⟨h.level, h.fromLevel, h.interStep, fun hc => ?_, h.echo⟩
  obtain ⟨hatt, hdec, hsus, hrel, hcount, hsusCount, -, -, -⟩ := h.cgb hc
  have hpeak : min Config.cgbLevelMax ((c.rightVol.toNat + c.leftVol.toNat) >>> 4) ≤ 15 := Nat.min_le_left _ _
  have hsustain := Nat.mul_le_mul hpeak hsus
  have hecho := Nat.mul_le_mul (Nat.le_of_lt_succ c.echoVol.isLt) hpeak
  refine ⟨hatt, hdec, hsus, hrel, hcount, hsusCount, hpeak, ?_, ?_⟩
  · simp only [Chan.computeTargets, Nat.shiftRight_eq_div_pow _ 4] at hsustain ⊢
    omega
  · simp only [Chan.computeTargets, Nat.shiftRight_eq_div_pow] at hecho ⊢
    omega

theorem Chan.RangesHold.initCgb (h : c.RangesHold n) (hc : c.isPcm = false) : c.initCgb.RangesHold n := by
  have hmax := Chan.levelMax_of_cgb hc
  obtain ⟨-, -, -, -, -, -, hpeak, hsustain, -⟩ := h.cgb hc
  unfold Chan.initCgb
  split
  · exact h.setFrame (Nat.zero_le _) (by simp) (by decide) (by decide)
  · split
    · exact h.setFrame (by omega) (by simp) (by decide) (by decide)
    · exact h.setFrame (by omega) (by simp) (by decide) (by decide)

theorem Chan.RangesHold.atkCgb (h : c.RangesHold n) (hc : c.isPcm = false) : c.atkCgb.RangesHold n := by
  have hmax := Chan.levelMax_of_cgb hc
  obtain ⟨hatt, -, -, -, -, hsusCount, hpeak, hsustain, -⟩ := h.cgb hc
  have hlevel : c.atkLevel ≤ c.levelMax := by
    have := h.level
    unfold Chan.atkLevel
    split <;> omega
  unfold Chan.atkCgb
  split
  · split
    · split
      · exact h.setFrame (by omega) (by simp) (by decide) hsusCount
      · exact h.setFrame hlevel (by simp) (by decide) hsusCount
    · exact h.setFrame hlevel h.echo (by decide) hsusCount
  · exact h.setFrame h.level h.echo (by omega) hsusCount

theorem Chan.RangesHold.decCgb (h : c.RangesHold n) (hc : c.isPcm = false) : c.decCgb.RangesHold n := by
  obtain ⟨-, hdec, -, -, -, hsusCount, -, -, -⟩ := h.cgb hc
  have hlevel : c.decLevel ≤ c.levelMax := by
    have := h.level
    unfold Chan.decLevel
    split <;> omega
  have hstate : (if c.decLevel ≤ c.envSustain then .sus else c.envState) = EnvState.pseudoEcho → c.echoLen ≠ 0 := by
    split
    · simp
    · exact h.echo
  unfold Chan.decCgb
  split
  · exact h.setFrame hlevel hstate (by decide) hsusCount
  · exact h.setFrame h.level h.echo (by omega) hsusCount

theorem Chan.RangesHold.susCgb (h : c.RangesHold n) (hc : c.isPcm = false) (b : Bool) : (c.susCgb b).RangesHold n := by
  have hmax := Chan.levelMax_of_cgb hc
  obtain ⟨-, -, -, -, hcount, -, -, hsustain, -⟩ := h.cgb hc
  unfold Chan.susCgb
  split
  · exact h.setFrame (by omega) h.echo hcount (by decide)
  · next hbug => exact h.setFrame h.level h.echo hcount (by omega)

theorem Chan.RangesHold.relCgb (h : c.RangesHold n) (hc : c.isPcm = false) : c.relCgb.RangesHold n := by
  have hmax := Chan.levelMax_of_cgb hc
  obtain ⟨-, -, -, hrel, -, hsusCount, -, -, hecho⟩ := h.cgb hc
  have hlevel : c.envLevel - 1 ≤ c.levelMax := (Nat.sub_le _ _).trans h.level
  unfold Chan.relCgb
  split
  · split
    · split
      · exact h.setFrame hlevel (by simp) (by decide) hsusCount
      · next hlen => exact h.setFrame (by omega) (fun _ => (not_or.mp hlen).2) (by decide) hsusCount
    · exact h.setFrame hlevel h.echo (by decide) hsusCount
  · exact h.setFrame h.level h.echo (by omega) hsusCount

theorem Chan.RangesHold.frameCgb (h : c.RangesHold n) (hc : c.isPcm = false) (b : Bool) : (c.frameCgb b).RangesHold n := by
  unfold Chan.frameCgb
  split
  case h_1 => exact h.computeTargets.atkCgb hc
  case h_2 => exact h.computeTargets.decCgb hc
  case h_3 => exact h.computeTargets.susCgb hc b
  case h_4 => exact h.relCgb hc
  case h_5 => exact h.echoFrame
  all_goals exact h

/-! ### The step -/

theorem Chan.RangesHold.releaseTransition (h : c.RangesHold n) : c.releaseTransition.RangesHold n := by
  unfold Chan.releaseTransition
  split
  · split
    · exact h.setLevel h.level (by simp)
    · next hc =>
      obtain ⟨-, -, -, -, -, hsusCount, -, -, -⟩ := h.cgb (by simpa using hc)
      split
      · exact h.setFrame h.level (by simp) (by decide) hsusCount
      · exact h.setFrame h.level (by simp) (by decide) hsusCount
  · exact h

theorem EnvelopeOnly.isPcm_eq {d : Chan} (h : EnvelopeOnly c d) : d.isPcm = c.isPcm := by
  obtain ⟨_, _, _, _, _, _, _, _, _, _, rfl⟩ := h; rfl

theorem Chan.RangesHold.frameUpdate (h : c.RangesHold n) (b : Bool) : (c.frameUpdate b).RangesHold n := by
  have htype := (envelopeOnly_releaseTransition c).isPcm_eq
  unfold Chan.frameUpdate
  split
  · next hp => exact h.releaseTransition.framePcm (htype.trans hp)
  · next hc => exact h.releaseTransition.frameCgb (htype.trans (by simpa using hc)) b

theorem Chan.RangesHold.initStep (h : c.RangesHold n) : c.initStep.RangesHold n := by
  have hn : 0 < n := Nat.zero_lt_of_lt h.interStep
  unfold Chan.initStep
  split
  · exact h.setLevel h.level (by simp)
  · split
    · next hp => exact (h.initPcm hp).setStep hn (Nat.zero_le _)
    · next hc => exact (h.computeTargets.initCgb (Bool.not_eq_true _ ▸ hc)).setStep hn (Nat.zero_le _)

/-- The envelope step of any channel keeps its ranges. -/
theorem Chan.RangesHold.stepEnvelope (h : c.RangesHold n) (b : Bool) : (c.stepEnvelope n b).RangesHold n := by
  have hn : 0 < n := Nat.zero_lt_of_lt h.interStep
  unfold Chan.stepEnvelope
  split
  case h_1 => exact h
  case h_2 => exact h
  case h_3 => exact h.initStep
  case h_4 =>
    split
    · next hstep => exact h.setStep hstep h.fromLevel
    · exact (h.setStep hn h.level).frameUpdate b

end RangesHold

end Sys2Proof.Machine
end

