-- ==== Sys2Proof/Proofs/GoodChannels.lean ====
section
/-! One live channel of a good state: its sweep, its record as a tick, a channel command or a start leaves it (R43 to R46, R86,
R200, R240, R251). -/

namespace Sys2Proof.Machine

/-! ## The sweep (R46, R251) -/

theorem sweepStep_le {x : Nat} (byte : BitVec 8) (h : x ≤ Config.sweepMax) : sweepStep byte x ≤ Config.sweepMax := by
  unfold sweepStep
  split
  · exact (Nat.sub_le _ _).trans h
  · exact Nat.min_le_left _ _

theorem sweepSteps_le {x : Nat} (byte : BitVec 8) (k : Nat) (h : x ≤ Config.sweepMax) :
    sweepSteps byte k x ≤ Config.sweepMax := by
  induction k generalizing x with
  | zero => exact h
  | succ k ih => exact ih (sweepStep_le byte h)

/-- Whole sweep times, as many as fit, leave the clock not negative. -/
theorem sub_floor_mul_nonneg {acc : Rat} (h : 0 ≤ acc) (time : Nat) :
    0 ≤ acc - ((acc / time).floor.toNat : Rat) * time := by
  have hq : 0 ≤ acc / time := div_nonneg h (Nat.cast_nonneg _)
  have hfloor : (((acc / time).floor.toNat : Nat) : Rat) ≤ acc / time := Nat.floor_le hq
  rcases Nat.eq_zero_or_pos time with rfl | hpos
  · simpa using h
  · exact sub_nonneg.mpr ((le_div_iff₀ (Nat.cast_pos.mpr hpos)).mp hfloor)

/-- A sweep tick keeps the register in its range and the clock not negative. -/
theorem sound_sweepTick {p : Config.Params} (a : TickArgs) {c : Chan} (h : c.voice.Sound p) :
    (c.sweepTick a).voice.Sound p := by
  obtain ⟨duty, sw, hv, he⟩ | ⟨-, he⟩ := sweepTick_cases a c
  · rw [hv] at h
    obtain ⟨hreg, hacc, htime⟩ := h
    rw [he]
    show (Voice.sq1 duty (sw.tick a.n a.rate)).Sound p
    unfold Sweep.tick
    split
    · exact ⟨sweepSteps_le _ _ hreg, sub_floor_mul_nonneg (by positivity) _, htime⟩
    · exact ⟨hreg, hacc, htime⟩
  · rwa [he]

theorem Chan.RangesHold.sweepTick {n : Nat} {c : Chan} (h : c.RangesHold n) (a : TickArgs) : (c.sweepTick a).RangesHold n := by
  have htype : (c.sweepTick a).isPcm = c.isPcm := by simp only [Chan.isPcm, sweepTick_type]
  have hmax : (c.sweepTick a).levelMax = c.levelMax := by simp only [Chan.levelMax, htype]
  obtain ⟨duty, sw, hv, he⟩ | ⟨-, he⟩ := sweepTick_cases a c
  · rw [he] at htype hmax ⊢
    exact ⟨hmax ▸ h.level, hmax ▸ h.fromLevel, h.interStep, fun hc => h.cgb (htype ▸ hc), h.echo⟩
  · rwa [he]

theorem playable_sweepTick (a : TickArgs) (src : Source) (c : Chan) : (c.sweepTick a).playable src = c.playable src := by
  obtain ⟨duty, sw, hv, he⟩ | ⟨-, he⟩ := sweepTick_cases a c
  · rw [he]; simp only [Chan.playable, hv]
  · rw [he]

/-! ## One sound channel -/

/-- What a state of the block of s asks of the record of a live channel, DEAD or not (R43, R44, R86). -/
structure Chan.SoundIn (s : State) (c : Chan) : Prop where
  track : c.track < s.nTracks
  ranges : c.RangesHold s.par.interframes
  voice : c.voice.Sound s.par
  gains : 0 ≤ c.lastGainL ∧ 0 ≤ c.lastGainR
  playable : c.playable s.src = true
  time : c.t.wf = true

/-- What `State.Inv` asks of a live channel: between two steps none is DEAD (R366). -/
structure Chan.GoodIn (s : State) (c : Chan) : Prop extends c.SoundIn s where
  notDead : c.envState ≠ .dead

section channel
variable {s : State} {c : Chan}

theorem Chan.SoundIn.bounded (h : c.SoundIn s) : c.Bounded s.par s.nTracks :=
  ⟨h.track, h.ranges.level, h.ranges.fromLevel, h.ranges.interStep, h.ranges.cgb, h.voice, h.gains.1, h.gains.2,
    h.ranges.echo⟩

theorem Chan.Bounded.ranges {p : Config.Params} {k : Nat} (h : c.Bounded p k) : c.RangesHold p.interframes := by
  obtain ⟨-, hlevel, hfrom, hstep, hcgb, -, -, -, hecho⟩ := h
  exact ⟨hlevel, hfrom, hstep, hcgb, hecho⟩

/-! ### A tick of the channel -/

theorem Chan.SoundIn.stepEnvelope (h : c.SoundIn s) (b : Bool) : (c.stepEnvelope s.par.interframes b).SoundIn s := by
  have hranges := h.ranges.stepEnvelope b
  obtain ⟨_, _, _, _, _, _, _, _, _, _, he⟩ := envelopeOnly_stepEnvelope s.par.interframes b c
  rw [he] at hranges ⊢
  exact ⟨h.track, hranges, h.voice, h.gains, h.playable, h.time⟩

theorem Chan.SoundIn.sweepTick (h : c.SoundIn s) (a : TickArgs) : (c.sweepTick a).SoundIn s := by
  have hranges := h.ranges.sweepTick a
  have hvoice := sound_sweepTick a h.voice
  have hplay := (playable_sweepTick a s.src c).trans h.playable
  obtain ⟨duty, sw, -, he⟩ | ⟨-, he⟩ := sweepTick_cases a c
  · rw [he] at hranges hvoice hplay ⊢
    exact ⟨h.track, hranges, hvoice, h.gains, hplay, h.time⟩
  · rwa [he]

theorem Chan.SoundIn.render (hgain : 0 ≤ s.par.psgGain) (h : c.SoundIn s) : (c.render s.tickArgs s.src).1.SoundIn s := by
  obtain ⟨e, he, hcase, -⟩ := render_fst s.tickArgs s.src c
  rw [he]
  refine ⟨h.track, ⟨h.ranges.level, h.ranges.fromLevel, h.ranges.interStep, h.ranges.cgb, ?_⟩, h.voice,
    Chan.gains_nonneg hgain h.ranges.interStep, h.playable,
    Alg.wf_add h.time (Alg.wf_smul (Alg.wf_smul (Chan.wf_rateHz _ _ _)))⟩
  obtain rfl | rfl := hcase
  · exact h.ranges.echo
  · simp

theorem Chan.SoundIn.process (hgain : 0 ≤ s.par.psgGain) (h : c.SoundIn s) : (c.process s.tickArgs s.src).1.SoundIn s := by
  have hstep := h.stepEnvelope s.tickArgs.susBug
  unfold Chan.process
  split
  · exact hstep
  · exact (hstep.sweepTick s.tickArgs).render hgain

/-! ### Commands on the channel -/

/-- None of the fields that channel commands write makes a channel good, but an envelope state that becomes DIE. -/
theorem Chan.GoodIn.control (h : c.GoodIn s) {e : EnvState} (he : e = c.envState ∨ e = .die)
    {volMR volML right left : BitVec 8} {pitch length : BitVec 16} {stop : Bool} {pan : Pan} :
    ({ c with
        volMR := volMR, volML := volML, rightVol := right, leftVol := left, pitch := pitch, length := length, stop := stop,
        pan := pan, envState := e } : Chan).GoodIn s := by
  have hecho : e = .pseudoEcho → c.echoLen ≠ 0 := by
    obtain rfl | rfl := he
    · exact h.ranges.echo
    · simp
  have hdead : e ≠ .dead := by
    obtain rfl | rfl := he
    · exact h.notDead
    · simp
  exact ⟨⟨h.track, ⟨h.ranges.level, h.ranges.fromLevel, h.ranges.interStep, h.ranges.cgb, hecho⟩, h.voice, h.gains,
    h.playable, h.time⟩, hdead⟩

theorem Chan.GoodIn.volumeUpdate (h : c.GoodIn s) : c.volumeUpdate.GoodIn s := by
  obtain ⟨-, he⟩ | ⟨-, he⟩ := volumeUpdate_cases c <;> rw [he] <;> exact h.control (.inl rfl)

theorem Chan.GoodIn.setVol (h : c.GoodIn s) (volMR volML : BitVec 8) : (c.setVol volMR volML).GoodIn s :=
  Chan.GoodIn.volumeUpdate (h.control (.inl rfl))

theorem Chan.GoodIn.setPitch (h : c.GoodIn s) (pitch : BitVec 16) : (c.setPitch pitch).GoodIn s := h.control (.inl rfl)

theorem Chan.GoodIn.tickNote (h : c.GoodIn s) : c.tickNote.GoodIn s := by
  unfold Chan.tickNote
  split
  · exact h
  · exact h.control (.inl rfl)

theorem Chan.GoodIn.release (h : c.GoodIn s) : c.release.GoodIn s := h.control (.inl rfl)

theorem Chan.GoodIn.releaseFast (h : c.GoodIn s) : c.releaseFast.GoodIn s := h.control (by split <;> simp)

theorem Chan.GoodIn.steal (h : c.GoodIn s) : c.steal.GoodIn s := h.control (.inr rfl)

/-! ### A new channel -/

/-- A new record is good if its payload is sound and, for a tone generator, its ADSR is clamped (R200, R240, R241). -/
theorem Chan.goodIn_started (hp : s.par.Legal) {n : Note} {track : BitVec 8} {kind : ResKind} {v : Voice}
    (ht : track.toNat < s.nTracks) (hv : v.Sound s.par) (hplay : (Chan.started n track.toNat kind v).playable s.src = true)
    (hadsr : v.type ≠ .pcm → n.att.toNat ≤ 7 ∧ n.dec.toNat ≤ 7 ∧ n.sus.toNat ≤ 15 ∧ n.rel.toNat ≤ 7) :
    (Chan.started n track.toNat kind v).volumeUpdate.GoodIn s := by
  obtain ⟨hinter, -⟩ := hp
  refine Chan.GoodIn.volumeUpdate
    ⟨⟨ht, ⟨Nat.zero_le _, Nat.zero_le _, hinter, fun hc => ?_, ?_⟩, hv, ⟨le_rfl, le_rfl⟩, hplay, Alg.wf_zero⟩, ?_⟩
  · have htype : v.type ≠ .pcm := by simpa [Chan.isPcm, Chan.type, Chan.started] using hc
    obtain ⟨hatt, hdec, hsus, hrel⟩ := hadsr htype
    exact ⟨hatt, hdec, hsus, hrel, Nat.zero_lt_succ _, Nat.zero_lt_succ _, Nat.zero_le _, Nat.zero_le _, Nat.zero_le _⟩
  · simp [Chan.started, Chan.free]
  · simp [Chan.started, Chan.free]

theorem Chan.goodIn_newCgb (hp : s.par.Legal) (n : Note) {track : BitVec 8} {v : Voice} (ht : track.toNat < s.nTracks)
    (hv : v.Sound s.par) (htype : v.type ≠ .pcm) : (newCgb track n v).GoodIn s := by
  refine Chan.goodIn_started hp ht hv ?_ fun _ => ?_
  · cases v <;> [exact absurd rfl htype; rfl; rfl; rfl; rfl]
  · simp only [clampCgb, clampMax_toNat _ (show Config.cgbRateMax < 256 by decide),
      clampMax_toNat _ (show Config.cgbSusMax < 256 by decide)]
    exact ⟨Nat.min_le_right _ _, Nat.min_le_right _ _, Nat.min_le_right _ _, Nat.min_le_right _ _⟩

theorem sound_sq1Voice (p : Config.Params) (n : Note) (sweep : BitVec 8) (duty : BitVec 2) :
    (sq1Voice n sweep duty).Sound p := by
  refine ⟨?_, le_rfl, fun h => ?_⟩
  · simp only [sweepInit]
    split
    · simp only [sweepStart, clampInt, Config.sweepMax]
      omega
    · exact Nat.zero_le _
  · simp only [sweepInit, Bool.and_eq_true, bne_iff_ne] at h
    exact h.1

theorem sound_waveVoice (p : Config.Params) (src : Source) (wavePos : BitVec 32) :
    (waveVoice p.waveNibbles src wavePos).Sound p := by
  simp [waveVoice, Voice.Sound, waveTable]

/-- SAMPLE and DPCM are the modes of a SampleInfo that is no synth's (R201). -/
theorem isSynth_of_selectMode {src : Source} {info : SampleInfo}
    (h : selectMode src info = .sample ∨ selectMode src info = .dpcm) :
    isSynth info = false := by
  cases hs : isSynth info with
  | false => rfl
  | true =>
    simp only [selectMode, hs, if_true, synthMode] at h
    split_ifs at h <;> simp at h

theorem sound_pcmVoice (p : Config.Params) {src : Source} {info : SampleInfo} (h : sampleError info src = none) :
    (Voice.pcm (pcmVoice src info)).Sound p := by
  refine ⟨fun hfixed hfreq => ?_, fun hmode hloop => ?_⟩
  · have hfreq : info.freq = 0 := hfreq
    have hfixed : info.fixed = false := hfixed
    simp [sampleError, hfixed, hfreq] at h
  · exact ((footprint_of_sampleError_none h).2 (isSynth_of_selectMode hmode)).2 hloop

/-- The footprint that a start validated is the one that playback can read (R86, R202). -/
theorem playable_pcmVoice {src : Source} {info : SampleInfo} (h : sampleError info src = none) (n : Note) (track : Nat)
    (kind : ResKind) : (Chan.started n track kind (.pcm (pcmVoice src info))).playable src = true := by
  have hrange : isSynth info = false →
      src.validRange (pcmVoice src info).dataPos.toNat (footprint (pcmVoice src info)) = true := fun hs => by
    rw [footprint_pcmVoice src info hs]
    exact (src.validRange_iff _ _).mpr ((footprint_of_sampleError_none h).2 hs).1
  simp only [Chan.playable, Chan.started]
  split
  · next hmode => exact hrange (isSynth_of_selectMode (.inl hmode))
  · next hmode => exact hrange (isSynth_of_selectMode (.inr hmode))
  · rfl

end channel

end Sys2Proof.Machine
end

