-- ==== Sys2Proof/Proofs/GoodStates.lean ====
section
/-! Every step keeps the good states: the reverb instances and the fade, then command by command, then the step (`State.Inv`). -/

namespace Sys2Proof.Machine

/-! ## Reverb instances (R58, R340) -/

theorem DelayBuf.lt_of_mem_write {i k : Nat} {f : Frame} {b : DelayBuf} (hi : i < k) (hb : ∀ e ∈ b, e.1 < k) :
    ∀ e ∈ DelayBuf.write i f b, e.1 < k := by
  intro e he
  obtain he | ⟨rfl, -⟩ := DelayBuf.mem_write he
  · exact hb e he
  · exact hi

section reverb
variable {rv : Reverb}

theorem Reverb.Bounded.store (h : rv.Bounded) (y : Frame) : (rv.store y).Bounded := by
  obtain ⟨hlen, hp, hwf, hin, hwf2, hin2, hp2⟩ := h
  exact ⟨hlen, Nat.mod_lt _ (Nat.zero_lt_of_lt hp), DelayBuf.wf_write hwf _ _, DelayBuf.lt_of_mem_write hp hin, hwf2, hin2,
    hp2⟩

/-- GAME1 and GAME2 also write the second buffer, which has the length of the coefficient set (R340). -/
theorem Reverb.Bounded.gameFrame {g : Config.GameTaps} (h : rv.Bounded) (hg : rv.kind.l2 = g.l2) (i : Rat) (x : Frame) :
    (rv.gameFrame g i x).1.Bounded := by
  have hpos : 0 < g.l2 := Nat.succ_pos _
  obtain ⟨hlen, hp, hwf, hin, hwf2, hin2, hp2⟩ := h.store (rv.gameFrame g i x).2
  have hp2 : rv.p2 < rv.kind.l2 := hp2.elim id fun hz => by rw [show rv.p2 = 0 from hz, hg]; exact hpos
  exact ⟨hlen, hp, hwf, hin, DelayBuf.wf_write hwf2 _ _, DelayBuf.lt_of_mem_write hp2 hin2,
    .inl ((Nat.mod_lt _ hpos).trans_eq hg.symm)⟩

theorem Reverb.Bounded.frame (h : rv.Bounded) (i : Rat) (x : Frame) : (rv.frame i x).1.Bounded := by
  unfold Reverb.frame
  split
  case h_1 => exact h.store _
  case h_2 hk => exact h.gameFrame (congrArg RevKind.l2 hk) i x
  case h_3 hk => exact h.gameFrame (congrArg RevKind.l2 hk) i x
  case h_4 => exact h.store _
  case h_5 => exact h

theorem Reverb.Bounded.process (h : rv.Bounded) (i : Rat) (xs : List Frame) : (rv.process i xs).1.Bounded := by
  induction xs generalizing rv with
  | nil => exact h
  | cons x xs ih => exact ih (h.frame i x)

end reverb

/-- RESET's instances are empty, and as long as the legal registers say (R330, R452). -/
theorem reverbBounded_freshReverb {s : State} (h : s.CfgLegal) : s.cfg.freshReverb.Bounded := by
  obtain ⟨-, -, -, hn, hd, -⟩ := h
  have hn : 0 < s.cfg.revNbuf.toNat := (of_decide_eq_true hn).1
  have hd : 0 < s.cfg.revD.toNat := (of_decide_eq_true hd).1
  exact ⟨rfl, Nat.mul_pos hn hd, rfl, by simp [Cfg.freshReverb, Reverb.cleared], rfl,
    by simp [Cfg.freshReverb, Reverb.cleared], .inr rfl⟩

/-! ## The state, part by part -/

/-- Every live slot of t holds a channel that is good in the block of s. -/
def SlotsGood (s t : State) : Prop := ∀ u, (t.chan u).live = true → (t.chan u).GoodIn s

/-- t is a state of the block of s: the same parameters, numbers of slots, tracks and instances, and byte source (R7, R80). -/
structure SameBuild (s t : State) : Prop where
  par : t.par = s.par
  slots : t.chSlots = s.chSlots
  tracks : t.nTracks = s.nTracks
  reverbs : t.reverbs.length = s.reverbs.length
  src : t.src = s.src

section parts
variable {s t : State}

theorem State.Inv.slotsGood (h : s.Inv) : SlotsGood s s := by
  intro u hl
  have hu := s.chan_mem (State.lt_of_live hl)
  obtain ⟨htrack, -, -, -, -, hsound, hgainL, hgainR, -⟩ := h.chans _ hu hl
  exact ⟨⟨htrack, (h.chans _ hu hl).ranges, hsound, ⟨hgainL, hgainR⟩, h.footprints _ hu hl, h.times _ hu hl⟩,
    h.noDead _ hu hl⟩

theorem Chan.GoodIn.of_sameBuild (hb : SameBuild s t) {c : Chan} (h : c.GoodIn s) : c.GoodIn t :=
  ⟨⟨hb.tracks ▸ h.track, hb.par ▸ h.ranges, hb.par ▸ h.voice, h.gains, hb.src ▸ h.playable, h.time⟩, h.notDead⟩

/-- A state of a good state's block is good if its slots, registers, instances and fade are. -/
theorem State.Inv.of_parts (h : s.Inv) (hb : SameBuild s t) (hslots : SlotsGood s t) (hcfg : t.CfgLegal)
    (hrev : t.ReverbsBounded) (hfade : t.FadeBounded) : t.Inv := by
  have hgood : ∀ c ∈ t.chans, c.live = true → c.GoodIn t := fun c hc hl => by
    obtain ⟨u, -, rfl⟩ := State.exists_chan_of_mem hc
    exact (hslots u hl).of_sameBuild hb
  obtain ⟨hpar, h32, hone⟩ := h.built
  exact {
    built := ⟨hb.par ▸ hpar, hb.slots ▸ h32, by rw [hb.reverbs, hb.tracks, hone]⟩
    footprints := fun c hc hl => (hgood c hc hl).playable
    cfg := hcfg
    chans := fun c hc hl => (hgood c hc hl).bounded
    noDead := fun c hc hl => (hgood c hc hl).notDead
    reverbs := hrev
    fade := hfade
    times := fun c hc hl => (hgood c hc hl).time
    source := hb.src ▸ h.source }

theorem State.Inv.setPort (h : s.Inv) (p : Port) : (s.setPort p).Inv :=
  ⟨h.built, h.footprints, h.cfg, h.chans, h.noDead, h.reverbs, h.fade, h.times, h.source⟩

theorem State.Inv.rejectedWith (h : s.Inv) (e : ErrCode) : (s.rejectedWith e).Inv :=
  ⟨h.built, h.footprints, h.cfg, h.chans, h.noDead, h.reverbs, h.fade, h.times, h.source⟩

theorem State.Inv.afterError (h : s.Inv) {err : Option ErrCode} (ht : err = none → t.Inv) : (s.afterError err t).Inv := by
  cases err with
  | none => exact ht rfl
  | some e => exact h.rejectedWith e

theorem State.Inv.setCfg (h : s.Inv) {c : Cfg} (hc : (s.setCfg c).CfgLegal) : (s.setCfg c).Inv :=
  ⟨h.built, h.footprints, hc, h.chans, h.noDead, h.reverbs, h.fade, h.times, h.source⟩

theorem State.Inv.setTrack (h : s.Inv) (k : Nat) (x : Track) : (s.setTrack k x).Inv :=
  h.of_parts ⟨rfl, rfl, s.nTracks_setTrack k x, rfl, rfl⟩ h.slotsGood h.cfg h.reverbs h.fade

/-- A command that writes slots only keeps a good state good if it leaves good channels in them. -/
theorem State.Inv.of_onlySlots (h : s.Inv) (ho : OnlySlots s t) (hslots : SlotsGood s t) : t.Inv := by
  refine h.of_parts ⟨ho.par, ho.slots, congrArg List.length ho.tracks, congrArg List.length ho.reverbs, ho.source.1⟩ hslots
    ?_ ?_ ?_
  · rw [State.CfgLegal, ho.cfg, ho.mx]; exact h.cfg
  · rw [State.ReverbsBounded, ho.reverbs]; exact h.reverbs
  · rw [State.FadeBounded, ho.mx]; exact h.fade

theorem SlotsGood.setChan (ht : SlotsGood s t) {i : Nat} (hi : i < t.chSlots) {c : Chan} (hc : c.GoodIn s) :
    SlotsGood s (t.setChan i c) := by
  intro u hl
  by_cases hu : u = i
  · subst hu
    rw [t.chan_setChan_self hi]
    exact hc
  · rw [t.chan_setChan_ne hu] at hl ⊢
    exact ht u hl

theorem SlotsGood.stealVoices (hs : SlotsGood s s) (T : ChType) (i : Nat) : SlotsGood s (stealVoices T i s) := by
  intro u hl
  have hu : u < s.chSlots := by simpa using State.lt_of_live hl
  rw [chan_stealVoices T i s hu] at hl ⊢
  split at hl
  · next hsteal => rw [if_pos hsteal]; exact (hs u hl).steal
  · next hkeep => rw [if_neg hkeep]; exact hs u hl

/-! ## The render tick -/

theorem Chan.purged_of_live {c : Chan} (h : c.purged.live = true) : c.purged = c ∧ c.live = true ∧ c.envState ≠ .dead := by
  unfold Chan.purged at h ⊢
  split at h
  · cases h
  · next hstays =>
    rw [if_neg hstays]
    exact ⟨rfl, h, fun hd => hstays (by simp [h, hd])⟩

theorem slotsGood_mixTick (hgain : 0 ≤ s.par.psgGain) (hs : SlotsGood s s) : SlotsGood s (mixTick s) := by
  intro u hl
  rw [chan_mixTick] at hl ⊢
  obtain ⟨he, hl, hd⟩ := Chan.purged_of_live hl
  rw [he]
  unfold Chan.ticked at hl hd ⊢
  split at hl
  · next hlive =>
    rw [if_pos hlive] at hd ⊢
    exact ⟨(hs u hlive).toSoundIn.process hgain, hd⟩
  · next hfree => exact absurd hl hfree

theorem reverbsBounded_mixTick (hlen : s.reverbs.length = s.nTracks) (h : s.ReverbsBounded) :
    (mixTick s).ReverbsBounded := by
  intro rv hrv
  obtain ⟨k, hk, rfl⟩ := exists_getD_of_mem hrv (.cleared .noReverb 0 0)
  rw [length_reverbs_mixTick] at hk
  have he := reverb_mixTick s (hlen ▸ hk) hk
  unfold State.reverb at he
  rw [he]
  exact (h _ (getD_mem _ hk _)).process _ _

/-- The fade moves within [0, 1] (R367). -/
theorem fadeBounded_nextFadePos (h : s.FadeBounded) : 0 ≤ s.mx.nextFadePos ∧ s.mx.nextFadePos ≤ 1 := by
  obtain ⟨h0, h1, hstep⟩ := h
  unfold Mixer.nextFadePos
  split
  · exact ⟨h0, h1⟩
  · exact ⟨le_min zero_le_one (add_nonneg h0 hstep), min_le_left _ _⟩
  · exact ⟨le_max_left _ _, max_le zero_le_one ((sub_le_self _ hstep).trans h1)⟩

theorem State.Inv.mixTick (h : s.Inv) : (mixTick s).Inv := by
  obtain ⟨⟨-, -, -, hgain, -, -⟩, -, hlen⟩ := h.built
  obtain ⟨hpos, hone⟩ := fadeBounded_nextFadePos h.fade
  obtain ⟨-, -, hstep⟩ := h.fade
  refine h.of_parts ⟨mixTick_par s, chSlots_mixTick s, nTracks_mixTick s, length_reverbs_mixTick s, mixTick_src s⟩
    (slotsGood_mixTick hgain h.slotsGood) ?_ (reverbsBounded_mixTick hlen h.reverbs) ?_
  · rw [State.CfgLegal, mixTick_cfg, mixTick_mx]; exact h.cfg
  · rw [State.FadeBounded, mixTick_mx]; exact ⟨hpos, hone, hstep⟩

/-! ## The other commands -/

theorem cfgLegal_write (h : s.CfgLegal) {index : BitVec 16} {w : Word} {c : Cfg} (hw : s.cfg.write index w = some c) :
    (s.setCfg c).CfgLegal := by
  obtain ⟨hrate, hlen, hfixed, hn, hd, hlatched⟩ := h
  obtain ⟨-, hl, rfl⟩ | ⟨-, hl, rfl⟩ | ⟨-, m, -, rfl⟩ | ⟨-, hl, rfl⟩ | ⟨-, m, -, rfl⟩ | ⟨-, hl, rfl⟩ | ⟨-, hl, rfl⟩ :=
    Cfg.write_cases hw
  · exact ⟨hl, hlen, hfixed, hn, hd, hlatched⟩
  · exact ⟨hrate, hl, hfixed, hn, hd, hlatched⟩
  · exact ⟨hrate, hlen, hfixed, hn, hd, hlatched⟩
  · exact ⟨hrate, hlen, hl, hn, hd, hlatched⟩
  · exact ⟨hrate, hlen, hfixed, hn, hd, hlatched⟩
  · exact ⟨hrate, hlen, hfixed, hl, hd, hlatched⟩
  · exact ⟨hrate, hlen, hfixed, hn, hl, hlatched⟩

theorem State.Inv.cfgWrite (h : s.Inv) (index : BitVec 16) (w : Word) : (s.setCfg ((s.cfg.write index w).getD s.cfg)).Inv := by
  cases hw : s.cfg.write index w with
  | none => exact h
  | some c => exact h.setCfg (cfgLegal_write h.cfg hw)

theorem live_doReset (s : State) (u : Nat) : ((doReset s).chan u).live = false := by
  by_cases hu : u < s.chSlots
  · have he : (doReset s).chan u = { s.chan u with live := false } := getD_map _ _ hu _ _
    rw [he]
  · rw [State.chan_of_le]
    · rfl
    · simpa [doReset, State.chSlots] using hu

theorem State.Inv.doReset (h : s.Inv) : (doReset s).Inv := by
  obtain ⟨hrate, hlen, hfixed, hn, hd, -⟩ := h.cfg
  refine h.of_parts ⟨rfl, List.length_map _, List.length_map _, List.length_map _, rfl⟩ (fun u hl => ?_)
    ⟨hrate, hlen, hfixed, hn, hd, hrate⟩ (fun rv hrv => ?_) ⟨zero_le_one, le_rfl, le_rfl⟩
  · rw [live_doReset] at hl
    cases hl
  · obtain ⟨-, -, rfl⟩ := List.mem_map.mp hrv
    exact reverbBounded_freshReverb h.cfg

theorem State.Inv.startFade (h : s.Inv) (mode : BitVec 2) (length : Word) : (s.setMx (s.mx.startFade mode length)).Inv := by
  have hstep : 0 ≤ 1 / (length.toNat : Rat) := by positivity
  obtain ⟨h0, h1, -⟩ := h.fade
  refine h.of_parts ⟨rfl, rfl, rfl, rfl, rfl⟩ h.slotsGood ?_ h.reverbs ?_
  · unfold Mixer.startFade
    split_ifs <;> exact h.cfg
  · unfold Mixer.startFade
    split_ifs
    · exact ⟨zero_le_one, le_rfl, le_rfl⟩
    · exact ⟨le_rfl, zero_le_one, hstep⟩
    · exact ⟨h0, h1, hstep⟩

/-- A channel command that keeps its channel good keeps the state good (R220 to R224). -/
theorem State.Inv.onChannel (h : s.Inv) {slot : BitVec 8} (hok : channelError slot s = none) {f : Chan → Chan}
    (hf : ∀ c : Chan, c.GoodIn s → (f c).GoodIn s) : (s.setChan slot.toNat (f (s.chan slot.toNat))).Inv := by
  obtain ⟨hslot, hlive⟩ := channelError_none hok
  exact h.of_onlySlots (onlySlot_setChan s slot.toNat _).toOnlySlots
    (h.slotsGood.setChan hslot (hf _ (h.slotsGood _ hlive)))

theorem State.Inv.startPcm (h : s.Inv) {slot track : BitVec 8} {n : Note} {info : SampleInfo}
    (hstart : startError slot track n s = none) (hsample : sampleError info s.src = none) :
    (s.setChan slot.toNat (newPcm s track n info)).Inv := by
  obtain ⟨hslot, htrack, -⟩ := startError_none hstart
  exact h.of_onlySlots (onlySlot_setChan s slot.toNat _).toOnlySlots (h.slotsGood.setChan hslot
    (Chan.goodIn_started h.built.1 htrack (sound_pcmVoice s.par hsample) (playable_pcmVoice hsample n _ _)
      fun hpcm => absurd rfl hpcm))

/-- The common procedure of the tone-generator starts (R240). -/
theorem State.Inv.startCgb (h : s.Inv) {slot track : BitVec 8} {n : Note} (hstart : startError slot track n s = none)
    {v : Voice} (hv : v.Sound s.par) {T : ChType} (htype : v.type = T) (hT : T ≠ .pcm) :
    ((stealVoices T slot.toNat s).setChan slot.toNat (newCgb track n v)).Inv := by
  obtain ⟨hslot, htrack, -⟩ := startError_none hstart
  exact h.of_onlySlots (onlySlots_stealVoices T slot.toNat s _)
    ((h.slotsGood.stealVoices T _).setChan (by rwa [chSlots_stealVoices])
      (Chan.goodIn_newCgb h.built.1 n htrack hv (htype ▸ hT)))

end parts

/-! ## Every command, every step -/

/-- A command whose checks report its error keeps a good state good if its effect does. -/
theorem State.Inv.of_checked {s t u : State} (h : s.Inv) {i : Instr}
    (hx : Machine.exec i s = .next (s.afterError (commandError i s) u)) (he : Machine.exec i s = .next t)
    (hu : commandError i s = none → u.Inv) : t.Inv := by
  rw [hx] at he
  cases he
  exact h.afterError hu

/-- Every command that answers a next state keeps a good state good. -/
theorem State.Inv.exec {s t : State} (h : s.Inv) {i : Instr} (he : exec i s = .next t) : t.Inv := by
  cases i with
  | nop a imm =>
    exact h.of_checked (exec_nop ..) he fun _ => h
  | cfgWr a index value =>
    exact h.of_checked (exec_cfgWr ..) he fun _ => h.cfgWrite index value
  | reset a imm =>
    exact h.of_checked (exec_reset ..) he fun _ => h.doReset
  | chStartPcm slot track rsv n info =>
    refine h.of_checked (exec_chStartPcm ..) he fun hok => ?_
    obtain ⟨hstart, hsample⟩ := or_eq_none (none_of_reserved hok).2
    exact h.startPcm hstart hsample
  | chStartSq1 slot track rsv n sweep duty rsv5 =>
    exact h.of_checked (exec_chStartSq1 ..) he fun hok =>
      h.startCgb (none_of_reserved hok).2 (sound_sq1Voice _ n sweep duty) rfl (by decide)
  | chStartSq2 slot track rsv n duty rsv5 =>
    exact h.of_checked (exec_chStartSq2 ..) he fun hok =>
      h.startCgb (v := .sq2 duty) (none_of_reserved hok).2 trivial rfl (by decide)
  | chStartWave slot track rsv n wavePos =>
    refine h.of_checked (exec_chStartWave ..) he fun hok => ?_
    obtain ⟨hstart, -⟩ := or_eq_none (none_of_reserved hok).2
    exact h.startCgb hstart (sound_waveVoice _ s.src wavePos) rfl (by decide)
  | chStartNoise slot track rsv n width7 rsv5 =>
    exact h.of_checked (exec_chStartNoise ..) he fun hok =>
      h.startCgb (v := .noise (lfsrWidth width7)) (none_of_reserved hok).2 trivial rfl (by decide)
  | chSetVol slot volMR volML =>
    exact h.of_checked (exec_chSetVol ..) he fun hok =>
      h.onChannel (none_of_reserved hok).2 fun _ hc => hc.setVol volMR volML
  | chSetPitch slot pitch =>
    exact h.of_checked (exec_chSetPitch ..) he fun hok =>
      h.onChannel (none_of_reserved hok).2 fun _ hc => hc.setPitch pitch
  | chTickNote slot imm =>
    exact h.of_checked (exec_chTickNote ..) he fun hok =>
      h.onChannel (none_of_reserved hok).2 fun _ hc => hc.tickNote
  | chRelease slot imm =>
    exact h.of_checked (exec_chRelease ..) he fun hok =>
      h.onChannel (none_of_reserved hok).2 fun _ hc => hc.release
  | chReleaseFast slot imm =>
    exact h.of_checked (exec_chReleaseFast ..) he fun hok =>
      h.onChannel (none_of_reserved hok).2 fun _ hc => hc.releaseFast
  | mxTick a imm =>
    by_cases hwf : a = 0 ∧ imm = 0
    · obtain ⟨rfl, rfl⟩ := hwf
      obtain ⟨-, rfl⟩ := mxTick_next he
      exact h.mixTick
    · rw [exec_mxTick, if_neg hwf] at he
      cases he
      exact h.rejectedWith .reserved
  | mxFade a mode rsv length =>
    exact h.of_checked (exec_mxFade ..) he fun _ => h.startFade mode length
  | trkMute track mute rsv =>
    exact h.of_checked (exec_trkMute ..) he fun _ => h.setTrack _ _
  | trkReverb track intensity rsv =>
    exact h.of_checked (exec_trkReverb ..) he fun _ => h.setTrack _ _

/-- Settles O59: the host side is no part of a good state, and every command keeps one good. -/
theorem invariantKeptByEveryStep : Obligations.InvariantKeptByEveryStep := by
  intro s t h hstep
  obtain ⟨-, he⟩ | ⟨-, he⟩ := step_cases s
  · rw [he] at hstep
    cases hstep
    exact h.setPort _
  · have hready := h.setPort s.port.hostTurn.service
    rw [he] at hstep
    obtain ⟨i, n, -, hf⟩ | ⟨-, hf⟩ | ⟨-, hf⟩ := runFront_cases (s.setPort s.port.hostTurn.service)
    · rw [hf] at hstep
      exact (hready.setPort _).exec hstep
    · rw [hf] at hstep
      cases hstep
      exact (hready.rejectedWith .badOpcode).setPort _
    · rw [hf] at hstep
      cases hstep
      exact hready

end Sys2Proof.Machine
end

