-- ==== Sys2Proof/Proofs/SourceReads.lean ====
section
/-! Reads of the byte source: little-endian values, their signed form, and the bytes and nibbles from which samples are decoded
(R81, R82, R89 to R91). -/

namespace Sys2Proof.Machine

/-! ## Little-endian reads (R81) -/

/-- The value of the n bytes from offset off on, the lowest offset least significant (R81). -/
def Source.littleEndian (src : Source) (off n : Nat) : Nat :=
  ((List.range n).map fun i : Nat => (src.playByte (off + i)).toNat * 2 ^ (8 * i)).sum

/-- The first byte and the bytes after it, in the form in which `memRead` computes the value. -/
theorem Source.littleEndian_succ (src : Source) (off n : Nat) :
    src.littleEndian off (n + 1) = (src.playByte off).toNat + 256 * src.littleEndian (off + 1) n := by
  have hshift : ∀ i, (src.playByte (off + (i + 1))).toNat * 2 ^ (8 * (i + 1)) =
      256 * ((src.playByte (off + 1 + i)).toNat * 2 ^ (8 * i)) := fun i => by
    rw [Nat.add_comm i 1, ← Nat.add_assoc]; ring
  simp [Source.littleEndian, List.range_succ_eq_map, Function.comp_def, hshift, List.sum_map_mul_left]

theorem Source.littleEndian_lt (src : Source) (off n : Nat) : src.littleEndian off n < 2 ^ (8 * n) := by
  induction n generalizing off with
  | zero => exact Nat.one_pos
  | succ n ih =>
    have hbyte := (src.playByte off).isLt
    have hrest := ih (off + 1)
    rw [Source.littleEndian_succ, Nat.mul_succ, Nat.pow_add]
    omega

theorem Source.memRead_of_valid (src : Source) {off n : Nat} (h : off + n ≤ src.size) :
    src.memRead off n = some (src.littleEndian off n) := by
  induction n generalizing off with
  | zero => rfl
  | succ n ih =>
    rw [Source.memRead, src.byte_eq_playByte (by omega), ih (by omega), Source.littleEndian_succ]

/-- A read that is not inside the source reaches an offset where there is no byte. -/
theorem Source.memRead_of_invalid (src : Source) {off n : Nat} (h : src.size < off + n) (hn : 0 < n) :
    src.memRead off n = none := by
  induction n generalizing off with
  | zero => cases hn
  | succ n ih =>
    rw [Source.memRead]
    by_cases hoff : src.size ≤ off
    · rw [src.byte_of_le hoff]
    · rw [ih (by omega) (by omega)]
      cases src.byte off <;> rfl

/-- `sext` of a pattern of its own width is its two's complement value (R8). -/
theorem sext_eq_of_lt {bits v : Nat} (h : v < 2 ^ bits) (hbits : 0 < bits) :
    sext bits v = if v < 2 ^ (bits - 1) then (v : Int) else (v : Int) - ((2 ^ bits : Nat) : Int) := by
  obtain ⟨k, rfl⟩ := Nat.exists_eq_add_of_lt hbits
  rw [sext, BitVec.toInt_eq_toNat_cond, BitVec.toNat_ofNat, Nat.mod_eq_of_lt h]
  simp only [Nat.zero_add, Nat.add_sub_cancel, Nat.pow_succ]
  split_ifs <;> omega

/-- Settles O38: a valid read is the little-endian value of its bytes, and outside the source there is none. -/
theorem memReadLittleEndian : Obligations.MemReadLittleEndian := by
  intro src off n
  refine ⟨src.validRange_iff off n, fun hvalid => ?_, src.memRead_of_invalid⟩
  have hread := src.memRead_of_valid hvalid
  have hlt := src.littleEndian_lt off n
  refine ⟨_, hread, rfl, hlt, fun hn => ?_⟩
  rw [Source.readSigned, hread, Option.map_some, sext_eq_of_lt hlt (by omega)]

/-! ## Samples (R89 to R91) -/

theorem Source.readSigned_one (src : Source) {off : Nat} (h : off < src.size) :
    src.readSigned off 1 = some (src.playByte off).toInt := by
  rw [Source.readSigned, src.memRead_one h, Option.map_some, sext, BitVec.ofNat_toNat, BitVec.setWidth_eq]

theorem rawSample_of_sample (src : Source) {v : PcmVoice} (h : v.mode = .sample) (j : Nat) :
    rawSample src v j = (src.playByte (v.dataPos.toNat + j)).toInt :=
  if_neg (by rw [h]; decide)

theorem rawSample_of_dpcm (src : Source) {v : PcmVoice} (h : v.mode = .dpcm) (j : Nat) :
    rawSample src v j = (dpcmDec src (v.dataPos.toNat + 33 * (j / 64)) (j % 64)).toInt :=
  if_pos h

/-- The nibbles of a block's byte as numbers: the low one for odd i, the high one for even i (R90). -/
theorem dpcmNibble_eq (b : Byte) (i : Nat) : dpcmNibble b i = if i % 2 = 1 then b.toNat % 16 else b.toNat / 16 := by
  have hlow : (b.extractLsb' 0 4).toNat = b.toNat % 16 := by simp
  have hhigh : (b.extractLsb' 4 4).toNat = b.toNat / 16 := by
    have hb := b.isLt
    simp [Nat.shiftRight_eq_div_pow]
    omega
  rw [dpcmNibble, hlow, hhigh]

theorem toNat_add_ofInt (x : BitVec 8) (z : Int) : ((x + BitVec.ofInt 8 z).toNat : Int) = ((x.toNat : Int) + z) % 256 := by
  rw [BitVec.toNat_add, BitVec.toNat_ofInt]
  omega

/-- One step of a block: the table entry of its nibble is added, with 8-bit wrap-around (R90, R91). -/
theorem dpcmDec_succ (src : Source) (base i : Nat) :
    ((dpcmDec src base (i + 1)).toNat : Int) =
      (((dpcmDec src base i).toNat : Int) +
        dpcmLut.getD
          (if (i + 1) % 2 = 1 then (src.playByte (base + (1 + (i + 1) / 2))).toNat % 16
            else (src.playByte (base + (1 + (i + 1) / 2))).toNat / 16) 0) % 256 := by
  rw [dpcmDec, toNat_add_ofInt, tableAt, dpcmNibble_eq]

/-- Settles O40: every byte that a sample's decoding reads is inside the source, and each step of a block adds its entry. -/
theorem sampleDecoding : Obligations.SampleDecoding := by
  intro src v j
  refine ⟨fun hmode hin => ?_, fun hmode => rawSample_of_dpcm src hmode j, fun B hB => ⟨?_, fun i h1 h64 => ?_⟩⟩
  · rw [src.readSigned_one hin, rawSample_of_sample src hmode]
  · exact src.memRead_one (by omega)
  · obtain ⟨k, rfl⟩ := Nat.exists_eq_add_of_le' h1
    exact ⟨_, src.memRead_one (by omega), dpcmDec_succ src B k⟩

end Sys2Proof.Machine
end

