-- ==== Sys2Proof/Proofs/StepTotal.lean ====
section
/-! What a step runs, that it stops nowhere but at the guard of the footprints, and that it leaves the byte source (R80, R86,
R100, R414). -/

namespace Sys2Proof.Machine

/-! ## The command that a step runs (R100, R122, R133) -/

theorem runFront_badOpcode {s : State} (h : decode s.port.cmds = .badOpcode) :
    runFront s = .next ((s.rejectedWith .badOpcode).consume 1) := by
  simp only [runFront, h, reject_eq_rejectedWith]
  rfl

theorem runFront_incomplete {s : State} (h : decode s.port.cmds = .incomplete) : runFront s = .next s := by
  simp only [runFront, h]

/-- With no frames waiting a step services the rendezvous and takes the next command. -/
theorem step_ready {s : State} (h : s.port.hostTurn.pending = []) :
    step s = runFront (s.setPort s.port.hostTurn.service) :=
  renderTurn_ready h

/-- A host side with nothing pending and no turn to come stays as it is. -/
theorem Port.hostTurn_eq_self {p : Port} (hp : p.pending = []) (ht : p.turns = []) (hi : p.invocation = none)
    (hc : p.callers = []) : p.hostTurn = p := by
  have hslot : p.takeSlot = p := by simp only [Port.takeSlot, hi, hc]
  rw [Port.hostTurn_quiet ht, Port.flush_of_nil hp, hslot]

theorem step_quiet {s : State} (hp : s.port.pending = []) (ht : s.port.turns = []) (hi : s.port.invocation = none)
    (hc : s.port.callers = []) : step s = runFront s := by
  have hturn := Port.hostTurn_eq_self hp ht hi hc
  rw [step_ready (by rw [hturn, hp]), hturn, Port.service_of_none hi]
  rfl

theorem step_withCommands (s : State) (ws : List Word) : step (s.withCommands ws) = runFront (s.withCommands ws) :=
  step_quiet rfl rfl rfl rfl

theorem decode_of_decodeTableWord {nbits w : Nat} {i : Instr} (h : decodeTableWord nbits w = some i) :
    ∃ n, decode (wordsOfBytes (tableBytes nbits w)) = .instr i n := by
  unfold decodeTableWord decodeBytes at h
  split at h
  · next hd => cases h; exact ⟨_, hd⟩
  · cases h
  · cases h

/-- Settles O53: a step that is not waiting takes the front of the stream, by the three outcomes of the decoder. -/
theorem stepRunsTheDecodedCommand : Obligations.StepRunsTheDecodedCommand := by
  refine ⟨?_, ?_, ?_⟩
  · rintro s - i n hready rfl
    rw [step_ready hready]
    exact ⟨runFront_instr, runFront_incomplete, runFront_badOpcode⟩
  · intro s i n hp ht hi hc hd
    rw [step_quiet hp ht hi hc, runFront_instr hd]
  · intro s nbits w i h
    obtain ⟨n, hd⟩ := decode_of_decodeTableWord h
    exact ⟨n, (step_withCommands s _).trans (runFront_instr hd)⟩

/-! ## Where the block can stop, and the byte source (R80, R86, R414) -/

/-- What every command and every step from s answers: a next state with the same byte source, unless a live footprint of s is
not inside it. -/
def RunsOn (s : State) (o : Host.Outcome State Fault Refusal) : Prop :=
  (∃ t, o = .next t ∧ t.src = s.src) ∨ (¬s.FootprintsValid ∧ ∃ f, o = .fault f)

section runsOn
variable {s : State}

theorem RunsOn.next {t : State} (h : t.src = s.src) : RunsOn s (.next t) := .inl ⟨t, rfl, h⟩

theorem src_afterError {err : Option ErrCode} {t : State} (h : t.src = s.src) : (s.afterError err t).src = s.src := by
  cases err with
  | none => exact h
  | some e => rfl

/-- A command whose checks report its error runs on if its effect keeps the byte source. -/
theorem RunsOn.of_checked {i : Instr} {t : State} (hx : exec i s = .next (s.afterError (commandError i s) t))
    (ht : t.src = s.src) : RunsOn s (exec i s) :=
  hx ▸ .next (src_afterError ht)

theorem src_startCgb (T : ChType) (i : Nat) (s : State) (c : Chan) : ((stealVoices T i s).setChan i c).src = s.src :=
  (onlySlots_stealVoices T i s c).source.1

theorem runsOn_mxTick (a : BitVec 8) (imm : BitVec 16) (s : State) : RunsOn s (exec (.mxTick a imm) s) := by
  by_cases hwf : a = 0 ∧ imm = 0
  · obtain ⟨rfl, rfl⟩ := hwf
    obtain ⟨-, he⟩ | ⟨hinvalid, off, he⟩ := exec_mxTick_cases s
    · exact he ▸ .next (mixTick_src s)
    · exact .inr ⟨hinvalid, _, he⟩
  · rw [exec_mxTick, if_neg hwf]
    exact .next rfl

theorem runsOn_exec (i : Instr) (s : State) : RunsOn s (exec i s) := by
  cases i with
  | nop => exact .of_checked (exec_nop ..) rfl
  | cfgWr => exact .of_checked (exec_cfgWr ..) rfl
  | reset => exact .of_checked (exec_reset ..) rfl
  | chStartPcm => exact .of_checked (exec_chStartPcm ..) rfl
  | chStartSq1 => exact .of_checked (exec_chStartSq1 ..) (src_startCgb ..)
  | chStartSq2 => exact .of_checked (exec_chStartSq2 ..) (src_startCgb ..)
  | chStartWave => exact .of_checked (exec_chStartWave ..) (src_startCgb ..)
  | chStartNoise => exact .of_checked (exec_chStartNoise ..) (src_startCgb ..)
  | chSetVol => exact .of_checked (exec_chSetVol ..) rfl
  | chSetPitch => exact .of_checked (exec_chSetPitch ..) rfl
  | chTickNote => exact .of_checked (exec_chTickNote ..) rfl
  | chRelease => exact .of_checked (exec_chRelease ..) rfl
  | chReleaseFast => exact .of_checked (exec_chReleaseFast ..) rfl
  | mxTick a imm => exact runsOn_mxTick a imm s
  | mxFade => exact .of_checked (exec_mxFade ..) rfl
  | trkMute => exact .of_checked (exec_trkMute ..) rfl
  | trkReverb => exact .of_checked (exec_trkReverb ..) rfl

/-- The host side has no part in it. -/
theorem RunsOn.of_setPort {p : Port} {o : Host.Outcome State Fault Refusal} (h : RunsOn (s.setPort p) o) : RunsOn s o := h

theorem runsOn_runFront (s : State) : RunsOn s (runFront s) := by
  obtain ⟨i, n, -, hf⟩ | ⟨-, hf⟩ | ⟨-, hf⟩ := runFront_cases s
  · exact hf ▸ (runsOn_exec i (s.consume n)).of_setPort
  · exact hf ▸ .next rfl
  · exact hf ▸ .next rfl

theorem runsOn_step (s : State) : RunsOn s (step s) := by
  obtain ⟨-, he⟩ | ⟨-, he⟩ := step_cases s
  · exact he ▸ .next rfl
  · exact he ▸ (runsOn_runFront _).of_setPort

theorem RunsOn.stepsOn {o : Host.Outcome State Fault Refusal} (h : RunsOn s o) (hvalid : s.FootprintsValid) : stepsOn o := by
  obtain ⟨t, ht, -⟩ | ⟨hinvalid, -⟩ := h
  · exact ⟨t, ht⟩
  · exact absurd hvalid hinvalid

theorem RunsOn.src_of_next {t : State} (h : RunsOn s (.next t)) : t.src = s.src := by
  obtain ⟨u, hu, hsrc⟩ | ⟨-, f, hf⟩ := h
  · cases hu
    exact hsrc
  · cases hf

end runsOn

/-- Settles O60: MX_TICK's guard is the only stop, and no command's effect writes the byte source. -/
theorem stepNeverStopsAndOnlyReads : Obligations.StepNeverStopsAndOnlyReads := by
  intro s
  refine ⟨(runsOn_step s).stepsOn, fun t hstep => ?_⟩
  have hsrc : t.src = s.src := (hstep ▸ runsOn_step s).src_of_next
  exact ⟨hsrc, fun off => by rw [hsrc]⟩

end Sys2Proof.Machine
end

