-- ==== Sys2Proof/Proofs/DecodeEncode.lean ====
section
/-! The decoder and the encoder against each other: the words and bytes of a command decode to it, what decodes to a command
begins with its words, and the opcode alone fixes the length (R120 to R133). -/

namespace Sys2Proof

open Sys2Proof.Machine

/-! ## Fields read from packed words (R121 to R131) -/

/-- A field of `IMM` is read from the header at its place in `IMM`. -/
theorem extractLsb'_header (opc a : BitVec 8) (imm : BitVec 16) {lo len : Nat} (h : lo + len ≤ 16) :
    (header opc a imm).extractLsb' lo len = imm.extractLsb' lo len :=
  BitVec.extractLsb'_append_eq_of_add_le h

theorem getLsbD_header (opc a : BitVec 8) (imm : BitVec 16) {k : Nat} (h : k < 16) :
    (header opc a imm).getLsbD k = imm.getLsbD k := by
  simp only [header, BitVec.getLsbD_append, h, if_true]

@[simp] theorem immLow_header (opc a hi lo : BitVec 8) : immLow (header opc a (hi ++ lo)) = lo := by
  rw [immLow, extractLsb'_header _ _ _ (by decide), extractLsb'_append_low]

@[simp] theorem immHigh_header (opc a hi lo : BitVec 8) : immHigh (header opc a (hi ++ lo)) = hi := by
  rw [immHigh, extractLsb'_header _ _ _ (by decide), extractLsb'_append_high]

theorem getLsbD_zero_append_ofBool {w : Nat} (x : BitVec w) (b : Bool) : (x ++ BitVec.ofBool b).getLsbD 0 = b := by
  simp only [BitVec.getLsbD_append, BitVec.getLsbD_ofBool]
  simp

/-- The five operand words of a tone-generator start are read back. -/
theorem sixWords_noteWords (n : Note) (w5 : Word) (rest : List Word) (f : Note → Word → Instr) :
    sixWords (noteWords n ++ [w5] ++ rest) f = .instr (f n w5) 6 := by
  show Decoded.instr (f (noteOf _ _ _ _) w5) 6 = _
  rw [noteOf_noteWords]

/-- The nine operand words of `CH_START_PCM` are read back. -/
theorem tenWords_noteWords (n : Note) (info : SampleInfo) (rest : List Word) (f : Note → SampleInfo → Instr) :
    tenWords (noteWords n ++ sampleInfoWords info ++ rest) f = .instr (f n info) 10 := by
  show Decoded.instr (f (noteOf _ _ _ _) (sampleInfoOf _ _ _ _ _)) 10 = _
  rw [noteOf_noteWords, sampleInfoOf_sampleInfoWords]

section toneStarts
variable (opc slot track rsv : BitVec 8) (n : Note)

theorem sq1Of_header (sweep : BitVec 8) (duty : BitVec 2) (rsv5 : BitVec 22) :
    sq1Of (header opc slot (rsv ++ track)) n (rsv5 ++ duty ++ sweep) = .chStartSq1 slot track rsv n sweep duty rsv5 := by
  have hduty : (rsv5 ++ duty ++ sweep).extractLsb' 8 2 = duty := by
    rw [BitVec.extractLsb'_append_eq_of_le (by decide), extractLsb'_append_low]
  have hrsv : (rsv5 ++ duty ++ sweep).extractLsb' 10 22 = rsv5 := by
    rw [BitVec.extractLsb'_append_eq_of_le (by decide), extractLsb'_append_high]
  rw [sq1Of, aField_header, immLow_header, immHigh_header, hduty, hrsv, extractLsb'_append_low]

theorem sq2Of_header (duty : BitVec 2) (rsv5 : BitVec 30) :
    sq2Of (header opc slot (rsv ++ track)) n (rsv5 ++ duty) = .chStartSq2 slot track rsv n duty rsv5 := by
  rw [sq2Of, aField_header, immLow_header, immHigh_header, extractLsb'_append_low, extractLsb'_append_high]

theorem waveOf_header (wavePos : Word) :
    waveOf (header opc slot (rsv ++ track)) n wavePos = .chStartWave slot track rsv n wavePos := by
  rw [waveOf, aField_header, immLow_header, immHigh_header]

theorem noiseOf_header (width7 : Bool) (rsv5 : BitVec 31) :
    noiseOf (header opc slot (rsv ++ track)) n (rsv5 ++ BitVec.ofBool width7) =
      .chStartNoise slot track rsv n width7 rsv5 := by
  rw [noiseOf, aField_header, immLow_header, immHigh_header, getLsbD_zero_append_ofBool, extractLsb'_append_high]

end toneStarts

/-! ## Decoding what was encoded (R120 to R132) -/

/-- R122: the words of a command are as many as its opcode says. -/
theorem encode_length (i : Instr) : (encode i).length = commandLength (opcodeOf i) := by
  cases i with
  | nop => exact Laws.EncLen.nop ..
  | cfgWr => exact Laws.EncLen.cfgWr ..
  | reset => exact Laws.EncLen.reset ..
  | chStartPcm => exact Laws.EncLen.chStartPcm ..
  | chStartSq1 => exact Laws.EncLen.chStartSq1 ..
  | chStartSq2 => exact Laws.EncLen.chStartSq2 ..
  | chStartWave => exact Laws.EncLen.chStartWave ..
  | chStartNoise => exact Laws.EncLen.chStartNoise ..
  | chSetVol => exact Laws.EncLen.chSetVol ..
  | chSetPitch => exact Laws.EncLen.chSetPitch ..
  | chTickNote => exact Laws.EncLen.chTickNote ..
  | chRelease => exact Laws.EncLen.chRelease ..
  | chReleaseFast => exact Laws.EncLen.chReleaseFast ..
  | mxTick => exact Laws.EncLen.mxTick ..
  | mxFade => exact Laws.EncLen.mxFade ..
  | trkMute => exact Laws.EncLen.trkMute ..
  | trkReverb => exact Laws.EncLen.trkReverb ..

/-- The words of a command decode to it, whatever follows them. -/
theorem decode_encode_append (i : Instr) (rest : List Word) : decode (encode i ++ rest) = .instr i (encode i).length := by
  show decodeHeader (header (opcodeOf i) (aOf i) (immOf i)) (operandWords i ++ rest) = _
  rw [decodeHeader, opcField_header, aField_header, immField_header]
  cases i with
  | nop => rfl
  | cfgWr => rfl
  | reset => rfl
  | chStartPcm slot track rsv note info =>
    simp only [immOf, immLow_header, immHigh_header]
    exact tenWords_noteWords note info rest _
  | chStartSq1 slot track rsv note sweep duty rsv5 =>
    exact (sixWords_noteWords note _ rest _).trans (congrArg (Decoded.instr · 6) (sq1Of_header ..))
  | chStartSq2 slot track rsv note duty rsv5 =>
    exact (sixWords_noteWords note _ rest _).trans (congrArg (Decoded.instr · 6) (sq2Of_header ..))
  | chStartWave slot track rsv note wavePos =>
    exact (sixWords_noteWords note _ rest _).trans (congrArg (Decoded.instr · 6) (waveOf_header ..))
  | chStartNoise slot track rsv note width7 rsv5 =>
    exact (sixWords_noteWords note _ rest _).trans (congrArg (Decoded.instr · 6) (noiseOf_header ..))
  | chSetVol slot volMR volML =>
    exact congrArg₂ (fun r l => oneWord (.chSetVol slot r l)) (immLow_header 0x20 slot volML volMR) (immHigh_header ..)
  | chSetPitch => rfl
  | chTickNote => rfl
  | chRelease => rfl
  | chReleaseFast => rfl
  | mxTick => rfl
  | mxFade a mode rsv length =>
    have hmode : (header 0x31 a (rsv ++ mode)).extractLsb' 0 2 = mode :=
      (extractLsb'_header _ _ _ (by decide)).trans (extractLsb'_append_low rsv mode)
    have hrsv : (header 0x31 a (rsv ++ mode)).extractLsb' 2 14 = rsv :=
      (extractLsb'_header _ _ _ (by decide)).trans (extractLsb'_append_high rsv mode)
    exact congrArg₂ (fun m r => Decoded.instr (.mxFade a m r length) 2) hmode hrsv
  | trkMute track mute rsv =>
    have hmute : (header 0x32 track (rsv ++ BitVec.ofBool mute)).getLsbD 0 = mute :=
      (getLsbD_header _ _ _ (by decide)).trans (getLsbD_zero_append_ofBool rsv mute)
    have hrsv : (header 0x32 track (rsv ++ BitVec.ofBool mute)).extractLsb' 1 15 = rsv :=
      (extractLsb'_header _ _ _ (by decide)).trans (extractLsb'_append_high rsv _)
    exact congrArg₂ (fun m r => oneWord (.trkMute track m r)) hmute hrsv
  | trkReverb track intensity rsv =>
    have hintensity : (header 0x33 track (rsv ++ intensity)).extractLsb' 0 7 = intensity :=
      (extractLsb'_header _ _ _ (by decide)).trans (extractLsb'_append_low rsv intensity)
    have hrsv : (header 0x33 track (rsv ++ intensity)).extractLsb' 7 9 = rsv :=
      (extractLsb'_header _ _ _ (by decide)).trans (extractLsb'_append_high rsv intensity)
    exact congrArg₂ (fun i r => oneWord (.trkReverb track i r)) hintensity hrsv

/-- The stored bytes of words, with more bytes after them, read back as those words (R120). -/
theorem wordsOfBytes_flatMap_bytesOfWord (ws : List Word) (tail : List Byte) :
    wordsOfBytes (ws.flatMap bytesOfWord ++ tail) = ws ++ wordsOfBytes tail := by
  induction ws with
  | nil => rfl
  | cons w ws ih => rw [List.flatMap_cons, List.append_assoc, wordsOfBytes_bytesOfWord, ih, List.cons_append]

/-- Settles O1: field by field the decoder reads what the encoder packed, whatever follows. -/
theorem decodeInvertsEncode : Obligations.DecodeInvertsEncode := by
  intro i rest tail
  have hbytes : wordsOfBytes (encodeBytes i ++ tail) = encode i ++ wordsOfBytes tail :=
    wordsOfBytes_flatMap_bytesOfWord (encode i) tail
  refine ⟨decode_encode_append i rest, encode_length i, hbytes, ?_⟩
  rw [decodeBytes, hbytes, decode_encode_append]

/-- Settles O4: each row of V1 is the encoding of its command. -/
theorem sampleWordsDecode : Obligations.SampleWordsDecode :=
  ⟨decode_encode_append (.nop 0 0) [], decode_encode_append (.cfgWr 0 4 0x00070011) [],
    decode_encode_append (.trkMute 3 true 0) [], decode_encode_append (.trkReverb 0 64 0) [],
    decode_encode_append (.chSetPitch 0 0xFF00) [], decode_encode_append (.mxFade 0 2 0 4) [],
    decode_encode_append (.chStartSq1 1 1 0 ⟨45, 127, 0, 0, 0xFFFF, 0, 0, 0, 0, 15, 0, 127, 127, 0⟩ 0x32 2 0) []⟩

/-! ## Words packed from the fields read from them -/

/-- A flag packs as the field of one bit. -/
theorem ofBool_getLsbD {w : Nat} (x : BitVec w) (k : Nat) : BitVec.ofBool (x.getLsbD k) = x.extractLsb' k 1 := by
  rw [BitVec.getLsbD_eq_extractLsb']
  generalize x.extractLsb' k 1 = b
  revert b
  decide

/-- A field above a flag at bit 0. -/
theorem extractLsb'_append_ofBool {w : Nat} (x : BitVec w) (m : Nat) :
    x.extractLsb' 1 m ++ BitVec.ofBool (x.getLsbD 0) = x.extractLsb' 0 (m + 1) := by
  rw [ofBool_getLsbD]
  exact BitVec.extractLsb'_append_extractLsb'_eq_extractLsb' rfl

/-- A word is its three parts, one after the other. -/
theorem append_three_parts (l m n : Nat) (w : BitVec (l + m + n)) :
    w.extractLsb' (n + m) l ++ w.extractLsb' n m ++ w.extractLsb' 0 n = w := by
  rw [BitVec.extractLsb'_append_extractLsb'_eq_extractLsb' rfl, append_extractLsb']

/-- A word is its four parts, one after the other. -/
theorem append_four_parts (k l m n : Nat) (w : BitVec (k + l + m + n)) :
    w.extractLsb' (n + m + l) k ++ w.extractLsb' (n + m) l ++ w.extractLsb' n m ++ w.extractLsb' 0 n = w := by
  rw [BitVec.extractLsb'_append_extractLsb'_eq_extractLsb' rfl, append_three_parts]

theorem immHigh_append_immLow (h : Word) : immHigh h ++ immLow h = immField h :=
  BitVec.extractLsb'_append_extractLsb'_eq_extractLsb' rfl

theorem noteWords_noteOf (w1 w2 w3 w4 : Word) : noteWords (noteOf w1 w2 w3 w4) = [w1, w2, w3, w4] := by
  simp only [noteWords, noteOf, append_four_parts 8 8 8 8, append_three_parts 8 8 16, append_three_parts 16 8 8]

theorem sampleInfoWords_sampleInfoOf (w5 w6 w7 w8 w9 : Word) :
    sampleInfoWords (sampleInfoOf w5 w6 w7 w8 w9) = [w5, w6, w7, w8, w9] := by
  simp only [sampleInfoWords, sampleInfoOf, ofBool_getLsbD]
  exact congrArg ([w5, w6, w7, w8, ·]) (append_four_parts 29 1 1 1 w9)

section decoderSpec
variable {h : Word} {ops : List Word} {i : Instr}

/-- A command whose header fields are those of h is encoded with the header h. -/
theorem encode_eq_cons (hop : (opcField h).toNat = (opcodeOf i).toNat) (ha : aField h = aOf i) (himm : immField h = immOf i) :
    encode i = h :: operandWords i := by
  rw [encode, ← BitVec.eq_of_toNat_eq hop, ← ha, ← himm, header_fields]

theorem opcodeOf_of_begins (hp : encode i <+: h :: ops) : opcodeOf i = opcField h := by
  obtain ⟨rest, he⟩ := hp
  rw [← (List.cons.inj he).1, opcField_header]

theorem opcodeOf_of_encode_eq_cons (he : encode i = h :: ops) : opcodeOf i = opcField h :=
  opcodeOf_of_begins ⟨[], by rw [he, List.append_nil]⟩

/-! ## What the decoder answers (R122, R123, R133) -/

/-- What an answer of the decoder says, in the encoder's terms, of a stream with header h and operand words ops: it begins with
the command's words; its opcode is in no row of the table; it is shorter than a command of its opcode. -/
def Decoded.Describes (h : Word) (ops : List Word) : Decoded → Prop
  | .instr i n => encode i <+: h :: ops ∧ n = (encode i).length
  | .badOpcode => ∀ p ∈ opcodeTable, opcField h ≠ p.1
  | .incomplete => ∃ i, opcodeOf i = opcField h ∧ ops.length + 1 < (encode i).length

theorem describes_oneWord (he : encode i = [h]) : (oneWord i).Describes h ops :=
  ⟨⟨ops, by rw [he]; rfl⟩, by rw [he]; rfl⟩

theorem describes_twoWords {f : Word → Instr} (he : ∀ w1, encode (f w1) = [h, w1]) : (twoWords ops f).Describes h ops := by
  cases ops with
  | nil => exact ⟨f 0, opcodeOf_of_encode_eq_cons (he 0), by rw [he]; exact Nat.one_lt_two⟩
  | cons w1 rest => exact ⟨⟨rest, by rw [he]; rfl⟩, by rw [he]; rfl⟩

theorem describes_sixWords {f : Note → Word → Instr} (he : ∀ n w5, encode (f n w5) = h :: operandWords (f n w5))
    (hw : ∀ n w5, operandWords (f n w5) = noteWords n ++ [w5]) : (sixWords ops f).Describes h ops := by
  have hshort : ops.length < 5 → Decoded.incomplete.Describes h ops := fun hlen =>
    ⟨f (noteOf 0 0 0 0) 0, opcodeOf_of_encode_eq_cons (he _ _), by rw [he, hw]; exact Nat.succ_lt_succ hlen⟩
  rcases ops with _ | ⟨w1, _ | ⟨w2, _ | ⟨w3, _ | ⟨w4, _ | ⟨w5, rest⟩⟩⟩⟩⟩
  case cons.cons.cons.cons.cons =>
    exact ⟨⟨rest, by rw [he, hw, noteWords_noteOf]; rfl⟩, by rw [he, hw]; rfl⟩
  all_goals exact hshort (by simp)

theorem describes_tenWords {f : Note → SampleInfo → Instr}
    (he : ∀ n info, encode (f n info) = h :: (noteWords n ++ sampleInfoWords info)) : (tenWords ops f).Describes h ops := by
  have hshort : ops.length < 9 → Decoded.incomplete.Describes h ops := fun hlen =>
    ⟨f (noteOf 0 0 0 0) (sampleInfoOf 0 0 0 0 0), opcodeOf_of_encode_eq_cons (he _ _),
      by rw [he]; exact Nat.succ_lt_succ hlen⟩
  rcases ops with _ | ⟨w1, _ | ⟨w2, _ | ⟨w3, _ | ⟨w4, _ | ⟨w5, _ | ⟨w6, _ | ⟨w7, _ | ⟨w8, _ | ⟨w9, rest⟩⟩⟩⟩⟩⟩⟩⟩⟩
  case cons.cons.cons.cons.cons.cons.cons.cons.cons =>
    exact ⟨⟨rest, by rw [he, noteWords_noteOf, sampleInfoWords_sampleInfoOf]; rfl⟩, by rw [he]; rfl⟩
  all_goals exact hshort (by simp)

/-- R133: the opcodes of no row. -/
theorem opcode_unlisted_iff (opc : BitVec 8) :
    (∀ p ∈ opcodeTable, opc ≠ p.1) ↔
      (0x03 ≤ opc.toNat ∧ opc.toNat ≤ 0x0F) ∨ (0x15 ≤ opc.toNat ∧ opc.toNat ≤ 0x1F) ∨
        (0x25 ≤ opc.toNat ∧ opc.toNat ≤ 0x2F) ∨ 0x34 ≤ opc.toNat := by
  simp only [opcodeTable, List.forall_mem_cons, List.not_mem_nil, false_imp_iff, implies_true, and_true, ne_eq,
    ← BitVec.toNat_inj, BitVec.reduceToNat]
  omega

theorem describes_decodeHeader (h : Word) (ops : List Word) : (decodeHeader h ops).Describes h ops := by
  have hpair : immField h = immHigh h ++ immLow h := (immHigh_append_immLow h).symm
  unfold decodeHeader
  split
  case h_1 hop => exact describes_oneWord (encode_eq_cons hop rfl rfl)
  case h_2 hop => exact describes_twoWords fun _ => encode_eq_cons hop rfl rfl
  case h_3 hop => exact describes_oneWord (encode_eq_cons hop rfl rfl)
  case h_4 hop => exact describes_tenWords fun _ _ => encode_eq_cons hop rfl hpair
  case h_5 hop =>
    exact describes_sixWords (fun _ _ => encode_eq_cons hop rfl hpair) fun n w5 =>
      congrArg (noteWords n ++ [·]) (append_three_parts 22 2 8 w5)
  case h_6 hop =>
    exact describes_sixWords (fun _ _ => encode_eq_cons hop rfl hpair) fun n w5 =>
      congrArg (noteWords n ++ [·]) (append_extractLsb' (m := 30) (n := 2) w5)
  case h_7 hop => exact describes_sixWords (fun _ _ => encode_eq_cons hop rfl hpair) fun _ _ => rfl
  case h_8 hop =>
    exact describes_sixWords (fun _ _ => encode_eq_cons hop rfl hpair) fun n w5 =>
      congrArg (noteWords n ++ [·]) ((extractLsb'_append_ofBool w5 31).trans BitVec.extractLsb'_eq_self)
  case h_9 hop => exact describes_oneWord (encode_eq_cons hop rfl hpair)
  case h_10 hop => exact describes_oneWord (encode_eq_cons hop rfl rfl)
  case h_11 hop => exact describes_oneWord (encode_eq_cons hop rfl rfl)
  case h_12 hop => exact describes_oneWord (encode_eq_cons hop rfl rfl)
  case h_13 hop => exact describes_oneWord (encode_eq_cons hop rfl rfl)
  case h_14 hop => exact describes_oneWord (encode_eq_cons hop rfl rfl)
  case h_15 hop =>
    have hfade : h.extractLsb' 2 14 ++ h.extractLsb' 0 2 = immField h :=
      BitVec.extractLsb'_append_extractLsb'_eq_extractLsb' rfl
    exact describes_twoWords fun _ =>
      encode_eq_cons hop rfl hfade.symm
  case h_16 hop => exact describes_oneWord (encode_eq_cons hop rfl (extractLsb'_append_ofBool h 15).symm)
  case h_17 hop =>
    have hreverb : h.extractLsb' 7 9 ++ h.extractLsb' 0 7 = immField h :=
      BitVec.extractLsb'_append_extractLsb'_eq_extractLsb' rfl
    exact describes_oneWord (encode_eq_cons hop rfl hreverb.symm)
  case h_18 =>
    refine (opcode_unlisted_iff (opcField h)).mpr ?_
    simp only [imp_false] at *
    omega

/-- The table's row of a command. -/
theorem row_mem_opcodeTable (i : Instr) : (opcodeOf i, (encode i).length) ∈ opcodeTable := by
  cases i <;> exact List.elem_iff.mp rfl

theorem commandLength_of_mem : ∀ p ∈ opcodeTable, commandLength p.1 = p.2 := by decide

theorem commandLength_unlisted {opc : BitVec 8} (hno : ∀ p ∈ opcodeTable, opc ≠ p.1) : commandLength opc = 1 := by
  have hranges := (opcode_unlisted_iff opc).mp hno
  unfold commandLength
  split <;> omega

theorem decode_unlisted (hno : ∀ p ∈ opcodeTable, opcField h ≠ p.1) : decode (h :: ops) = .badOpcode := by
  have hrow (i : Instr) : opcodeOf i ≠ opcField h := (hno _ (row_mem_opcodeTable i)).symm
  have hd : (decode (h :: ops)).Describes h ops := describes_decodeHeader h ops
  cases hans : decode (h :: ops) with
  | badOpcode => rfl
  | instr i n =>
    rw [hans] at hd
    exact absurd (opcodeOf_of_begins hd.1) (hrow i)
  | incomplete =>
    rw [hans] at hd
    obtain ⟨i, hi, -⟩ := hd
    exact absurd hi (hrow i)

/-- A header whose opcode has a row: the command of that opcode, or words still to come. -/
theorem decode_listed {p : BitVec 8 × Nat} (hp : p ∈ opcodeTable) (hop : opcField h = p.1) :
    (decode (h :: ops) = .incomplete ∧ ops.length + 1 < p.2) ∨
    ∃ i, decode (h :: ops) = .instr i p.2 ∧ opcodeOf i = p.1 ∧ p.2 ≤ ops.length + 1 := by
  have hlen {i : Instr} (hi : opcodeOf i = opcField h) : (encode i).length = p.2 := by
    rw [encode_length, hi, hop, commandLength_of_mem p hp]
  have hd : (decode (h :: ops)).Describes h ops := describes_decodeHeader h ops
  cases hans : decode (h :: ops) with
  | badOpcode =>
    rw [hans] at hd
    exact absurd hop (hd p hp)
  | instr i n =>
    rw [hans] at hd
    obtain ⟨hbegins, rfl⟩ := hd
    have hi := opcodeOf_of_begins hbegins
    exact .inr ⟨i, by rw [hlen hi], hi.trans hop, hlen hi ▸ hbegins.length_le⟩
  | incomplete =>
    rw [hans] at hd
    obtain ⟨i, hi, hshort⟩ := hd
    exact .inl ⟨rfl, hlen hi ▸ hshort⟩

end decoderSpec

/-- Settles O2: the decoder's answer describes the stream, and the answer is a command. -/
theorem encodeInvertsDecode : Obligations.EncodeInvertsDecode := by
  intro ws i n hd
  cases ws with
  | nil => cases hd
  | cons h ops =>
    have hdesc : (decode (h :: ops)).Describes h ops := describes_decodeHeader h ops
    rw [hd] at hdesc
    obtain ⟨⟨rest, hws⟩, rfl⟩ := hdesc
    rw [← hws]
    exact ⟨by simp, List.take_left, rfl⟩

/-- Settles O3: the decoder's answer for an opcode of the table, and for any other. -/
theorem lengthByOpcodeAlone : Obligations.LengthByOpcodeAlone := by
  refine fun h ops => ⟨fun p hp hop => ⟨commandLength_of_mem p hp, fun hshort => ?_, fun hlong => ?_⟩,
    fun hno => ⟨decode_unlisted hno, commandLength_unlisted hno⟩⟩
  · obtain ⟨hd, -⟩ | ⟨i, -, -, hlong⟩ := decode_listed (ops := ops) hp hop
    · exact hd
    · exact absurd hshort hlong.not_gt
  · obtain ⟨-, hshort⟩ | ⟨i, hd, hi, -⟩ := decode_listed (ops := ops) hp hop
    · exact absurd hshort hlong.not_gt
    · exact ⟨i, hd, hi⟩

end Sys2Proof
end

