-- ==== Sys2Proof/Proofs/IllegalEncodings.lean ====
section
/-! A command that reports an error, a set reserved field among them, is rejected with it and consumes its full length; an opcode
of no row consumes one word (R133, R411, R412). -/

namespace Sys2Proof.Machine

theorem rejects_of_exec {i : Instr} {s t : State} (hx : exec i s = .next (s.afterError (commandError i s) t)) :
    Rejects i s := by
  intro e he
  rw [hx, he, State.afterError]

theorem rejects_mxTick (a : BitVec 8) (imm : BitVec 16) (s : State) : Rejects (.mxTick a imm) s := by
  intro e he
  rw [commandError_mxTick] at he
  split at he
  · cases he
  · next hrsv =>
    cases he
    rw [exec_mxTick, if_neg hrsv]

/-- R411, R412: every command that reports an error is rejected with it. -/
theorem rejects (i : Instr) (s : State) : Rejects i s := by
  cases i with
  | nop => exact rejects_of_exec (exec_nop ..)
  | cfgWr => exact rejects_of_exec (exec_cfgWr ..)
  | reset => exact rejects_of_exec (exec_reset ..)
  | chStartPcm => exact rejects_of_exec (exec_chStartPcm ..)
  | chStartSq1 => exact rejects_of_exec (exec_chStartSq1 ..)
  | chStartSq2 => exact rejects_of_exec (exec_chStartSq2 ..)
  | chStartWave => exact rejects_of_exec (exec_chStartWave ..)
  | chStartNoise => exact rejects_of_exec (exec_chStartNoise ..)
  | chSetVol => exact rejects_of_exec (exec_chSetVol ..)
  | chSetPitch => exact rejects_of_exec (exec_chSetPitch ..)
  | chTickNote => exact rejects_of_exec (exec_chTickNote ..)
  | chRelease => exact rejects_of_exec (exec_chRelease ..)
  | chReleaseFast => exact rejects_of_exec (exec_chReleaseFast ..)
  | mxTick a imm => exact rejects_mxTick a imm s
  | mxFade => exact rejects_of_exec (exec_mxFade ..)
  | trkMute => exact rejects_of_exec (exec_trkMute ..)
  | trkReverb => exact rejects_of_exec (exec_trkReverb ..)

/-- The command stream has no part in a command's checks. -/
theorem commandError_consume (i : Instr) (s : State) (n : Nat) : commandError i (s.consume n) = commandError i s := rfl

/-- A rejected command at the front of the stream consumes its full length. -/
theorem runFront_rejected {s : State} {i : Instr} {n : Nat} {e : ErrCode} (hd : decode s.port.cmds = .instr i n)
    (he : commandError i s = some e) : runFront s = .next ((s.rejectedWith e).consume n) := by
  rw [runFront_instr hd]
  exact rejects i (s.consume n) e ((commandError_consume i s n).trans he)

/-- Settles O5: the rejection at the front of the stream, for an opcode of no row and for a reserved field. -/
theorem illegalEncodingsRejected : Obligations.IllegalEncodingsRejected := by
  refine ⟨fun s h ops hcmds hno => ?_, fun s i n hd hwf => ⟨?_, ?_⟩, opcode_unlisted_iff⟩
  · exact runFront_badOpcode (hcmds ▸ decode_unlisted hno)
  · exact runFront_rejected hd (if_pos hwf)
  · exact (encodeInvertsDecode _ i n hd).2.2

end Sys2Proof.Machine
end

