-- ==== Sys2Proof/Proofs/EnvelopeOrder.lean ====
section
/-! A channel moves through its envelope states in their order only: the envelope step, a tick, every command (R160). -/

namespace Sys2Proof.Machine

/-! ## The envelope step (R160) -/

section step
variable (c : Chan)

/-- The release transition does nothing, or takes ATK, DEC or SUS to REL or past it (R168). -/
theorem releaseTransition_cases :
    c.releaseTransition = c ∨
      (c.envState.held = true ∧ EnvState.rel.rank ≤ c.releaseTransition.envState.rank) := by
  unfold Chan.releaseTransition
  split
  · next hreleased =>
    refine .inr ⟨(Bool.and_eq_true_iff.mp hreleased).2, ?_⟩
    split
    · exact le_rfl
    · split
      · exact show EnvState.rel.rank ≤ EnvState.die.rank by decide
      · exact le_rfl
  · exact .inl rfl

theorem EnvState.rank_le_rel_of_held {e : EnvState} (h : e.held = true) : e.rank ≤ EnvState.rel.rank := by
  revert h; cases e <;> decide

theorem rank_le_releaseTransition : c.envState.rank ≤ c.releaseTransition.envState.rank := by
  obtain he | ⟨hheld, hrel⟩ := releaseTransition_cases c
  · rw [he]
  · exact (EnvState.rank_le_rel_of_held hheld).trans hrel

theorem rank_le_echoFrame (h : c.envState = .pseudoEcho) : c.envState.rank ≤ c.echoFrame.envState.rank := by
  unfold Chan.echoFrame
  dsimp only
  split
  · rw [h]; decide
  · exact le_rfl

theorem rank_le_framePcm : c.envState.rank ≤ c.framePcm.envState.rank := by
  unfold Chan.framePcm
  split
  case h_1 h => unfold Chan.atkPcm; split <;> simp [h, EnvState.rank]
  case h_2 h => unfold Chan.decPcm; split <;> simp [h, EnvState.rank]
  case h_4 h => unfold Chan.relPcm; split_ifs <;> simp [h, EnvState.rank]
  case h_5 h => exact rank_le_echoFrame c h
  all_goals exact le_rfl

@[simp] theorem computeTargets_envState : c.computeTargets.envState = c.envState := rfl

theorem rank_le_frameCgb (b : Bool) : c.envState.rank ≤ (c.frameCgb b).envState.rank := by
  unfold Chan.frameCgb
  split
  case h_1 h => unfold Chan.atkCgb; split_ifs <;> simp [h, EnvState.rank]
  case h_2 h => unfold Chan.decCgb; split_ifs <;> simp [h, EnvState.rank]
  case h_3 h => unfold Chan.susCgb; split <;> simp
  case h_4 h => unfold Chan.relCgb; split_ifs <;> simp [h, EnvState.rank]
  case h_5 h => exact rank_le_echoFrame c h
  all_goals exact le_rfl

theorem rank_releaseTransition_le_frameUpdate (b : Bool) :
    c.releaseTransition.envState.rank ≤ (c.frameUpdate b).envState.rank := by
  unfold Chan.frameUpdate
  split
  · exact rank_le_framePcm _
  · exact rank_le_frameCgb _ b

theorem rank_le_frameUpdate (b : Bool) : c.envState.rank ≤ (c.frameUpdate b).envState.rank :=
  (rank_le_releaseTransition c).trans (rank_releaseTransition_le_frameUpdate c b)

/-- The envelope step never goes back: INIT is the first state, a counted step stays, and a frame update moves forward. -/
theorem rank_le_stepEnvelope (n : Nat) (b : Bool) : c.envState.rank ≤ (c.stepEnvelope n b).envState.rank := by
  unfold Chan.stepEnvelope
  split
  case h_1 => exact le_rfl
  case h_2 => exact le_rfl
  case h_3 h => rw [h]; exact Nat.zero_le _
  case h_4 =>
    split
    · exact le_rfl
    · exact rank_le_frameUpdate { c with envInterStep := 0, fromEnvLevel := c.envLevel } b

end step

theorem stepEnvelope_of_dead {c : Chan} (h : c.envState = .dead) (n : Nat) (b : Bool) : c.stepEnvelope n b = c := by
  simp only [Chan.stepEnvelope, h]

theorem stepEnvelope_of_die {c : Chan} (h : c.envState = .die) (n : Nat) (b : Bool) : c.stepEnvelope n b = c := by
  simp only [Chan.stepEnvelope, h]

/-! ## A tick of the channel -/

@[simp] theorem sweepTick_envState (a : TickArgs) (c : Chan) : (c.sweepTick a).envState = c.envState := by
  obtain ⟨_, _, -, he⟩ | ⟨-, he⟩ := sweepTick_cases a c <;> rw [he]

theorem EnvState.rank_le_dead (e : EnvState) : e.rank ≤ EnvState.dead.rank := by cases e <;> decide

/-- Rendering leaves the envelope state, or makes it DEAD, the last one (R172, R212). -/
theorem rank_le_render (a : TickArgs) (src : Source) (c : Chan) : c.envState.rank ≤ (c.render a src).1.envState.rank := by
  obtain ⟨e, he, hcase, -⟩ := render_fst a src c
  rw [he]
  obtain rfl | rfl := hcase
  · exact le_rfl
  · exact c.envState.rank_le_dead

theorem rank_le_process (a : TickArgs) (src : Source) (c : Chan) : c.envState.rank ≤ (c.process a src).1.envState.rank := by
  have hstep := rank_le_stepEnvelope c a.par.interframes a.susBug
  unfold Chan.process
  split
  · exact hstep
  · refine hstep.trans ?_
    rw [← sweepTick_envState a]
    exact rank_le_render a src _

/-! ## The slots -/

/-- No slot that is live in both states is in an earlier envelope state in t than in s (R160). -/
def SlotsForward (s t : State) : Prop :=
  ∀ u, (s.chan u).live = true → (t.chan u).live = true → (s.chan u).envState.rank ≤ (t.chan u).envState.rank

section slots
variable {s t : State}

theorem SlotsForward.of_chans_eq (h : t.chans = s.chans) : SlotsForward s t := by
  intro u _ _
  rw [State.chan, State.chan, h]

theorem SlotsForward.afterError {err : Option ErrCode} (h : err = none → SlotsForward s t) :
    SlotsForward s (s.afterError err t) := by
  cases err with
  | none => exact h rfl
  | some e => exact .of_chans_eq rfl

/-- A write to a slot that was free, or of a channel in no earlier state. -/
theorem SlotsForward.setChan (h : SlotsForward s t) {i : Nat} {c : Chan}
    (hc : (s.chan i).live = true → (s.chan i).envState.rank ≤ c.envState.rank) : SlotsForward s (t.setChan i c) := by
  intro u hs ht
  by_cases hu : u = i
  · subst hu
    have hlt : u < t.chSlots := by simpa using State.lt_of_live ht
    rw [t.chan_setChan_self hlt]
    exact hc hs
  · rw [t.chan_setChan_ne hu] at ht ⊢
    exact h u hs ht

theorem SlotsForward.stealVoices (T : ChType) (i : Nat) (s : State) : SlotsForward s (stealVoices T i s) := by
  intro u hs _
  rw [chan_stealVoices T i s (State.lt_of_live hs)]
  split
  · next hsteal =>
    obtain ⟨-, hstolen⟩ := hsteal
    simp only [Chan.stolenBy, Bool.and_eq_true] at hstolen
    obtain ⟨-, hsounds⟩ := hstolen
    cases h : (s.chan u).envState <;> simp [h, EnvState.sounding, Chan.steal, EnvState.rank] at hsounds ⊢
  · exact le_rfl

theorem SlotsForward.mixTick (s : State) : SlotsForward s (mixTick s) := by
  intro u hs ht
  rw [chan_mixTick] at ht ⊢
  rw [(Chan.purged_of_live ht).1, Chan.ticked, if_pos hs]
  exact rank_le_process ..

/-! ## Commands on one channel -/

@[simp] theorem volumeUpdate_envState (c : Chan) : c.volumeUpdate.envState = c.envState := by
  obtain ⟨-, he⟩ | ⟨-, he⟩ := volumeUpdate_cases c <;> rw [he] <;> rfl

@[simp] theorem setVol_envState (volMR volML : BitVec 8) (c : Chan) : (c.setVol volMR volML).envState = c.envState :=
  volumeUpdate_envState _

@[simp] theorem tickNote_envState (c : Chan) : c.tickNote.envState = c.envState := by
  unfold Chan.tickNote; split <;> rfl

theorem rank_le_releaseFast (c : Chan) : c.envState.rank ≤ c.releaseFast.envState.rank := by
  cases h : c.envState <;> simp [h, Chan.releaseFast, EnvState.sounding, EnvState.rank]

theorem SlotsForward.onChannel (slot : BitVec 8) {f : Chan → Chan}
    (hf : ∀ c : Chan, c.envState.rank ≤ (f c).envState.rank) :
    SlotsForward s (s.setChan slot.toNat (f (s.chan slot.toNat))) :=
  (SlotsForward.of_chans_eq rfl).setChan fun _ => hf _

/-- A start writes a slot that was free (R200, R240). -/
theorem SlotsForward.start (h : SlotsForward s t) {slot track : BitVec 8} {n : Note} (hok : startError slot track n s = none)
    (c : Chan) : SlotsForward s (t.setChan slot.toNat c) := by
  obtain ⟨-, -, hfree, -⟩ := startError_none hok
  exact h.setChan fun hlive => absurd hlive (by simp [hfree])

/-! ## Every command -/

theorem SlotsForward.of_checked {i : Instr} {u : State}
    (hx : Machine.exec i s = .next (s.afterError (commandError i s) u)) (he : Machine.exec i s = .next t)
    (hu : commandError i s = none → SlotsForward s u) : SlotsForward s t := by
  rw [hx] at he
  cases he
  exact .afterError hu

theorem SlotsForward.exec {i : Instr} (he : exec i s = .next t) : SlotsForward s t := by
  cases i with
  | nop => exact .of_checked (exec_nop ..) he fun _ => .of_chans_eq rfl
  | cfgWr => exact .of_checked (exec_cfgWr ..) he fun _ => .of_chans_eq rfl
  | reset =>
    refine .of_checked (exec_reset ..) he fun _ u _ ht => ?_
    rw [live_doReset] at ht
    cases ht
  | chStartPcm =>
    refine .of_checked (exec_chStartPcm ..) he fun hok => ?_
    obtain ⟨hstart, -⟩ := or_eq_none (none_of_reserved hok).2
    exact (SlotsForward.of_chans_eq rfl).start hstart _
  | chStartSq1 => exact .of_checked (exec_chStartSq1 ..) he fun hok => (stealVoices _ _ s).start (none_of_reserved hok).2 _
  | chStartSq2 => exact .of_checked (exec_chStartSq2 ..) he fun hok => (stealVoices _ _ s).start (none_of_reserved hok).2 _
  | chStartWave =>
    refine .of_checked (exec_chStartWave ..) he fun hok => ?_
    obtain ⟨hstart, -⟩ := or_eq_none (none_of_reserved hok).2
    exact (stealVoices _ _ s).start hstart _
  | chStartNoise =>
    exact .of_checked (exec_chStartNoise ..) he fun hok => (stealVoices _ _ s).start (none_of_reserved hok).2 _
  | chSetVol => exact .of_checked (exec_chSetVol ..) he fun _ => .onChannel _ fun c =>
      (congrArg EnvState.rank (setVol_envState _ _ c)).ge
  | chSetPitch => exact .of_checked (exec_chSetPitch ..) he fun _ => .onChannel _ fun _ => le_rfl
  | chTickNote => exact .of_checked (exec_chTickNote ..) he fun _ => .onChannel _ fun c =>
      (congrArg EnvState.rank (tickNote_envState c)).ge
  | chRelease => exact .of_checked (exec_chRelease ..) he fun _ => .onChannel _ fun _ => le_rfl
  | chReleaseFast => exact .of_checked (exec_chReleaseFast ..) he fun _ => .onChannel _ rank_le_releaseFast
  | mxTick a imm =>
    by_cases hwf : a = 0 ∧ imm = 0
    · obtain ⟨rfl, rfl⟩ := hwf
      obtain ⟨-, rfl⟩ := mxTick_next he
      exact .mixTick s
    · rw [exec_mxTick, if_neg hwf] at he
      cases he
      exact .of_chans_eq rfl
  | mxFade => exact .of_checked (exec_mxFade ..) he fun _ => .of_chans_eq rfl
  | trkMute => exact .of_checked (exec_trkMute ..) he fun _ => .of_chans_eq rfl
  | trkReverb => exact .of_checked (exec_trkReverb ..) he fun _ => .of_chans_eq rfl

end slots

/-- Settles O44: every command moves the slots forward, and so does the envelope step, which rests at DEAD. -/
theorem envelopeStatesMoveForward : Obligations.EnvelopeStatesMoveForward :=
  ⟨fun _ _ _ u he => SlotsForward.exec he u,
    fun n b c => ⟨rank_le_stepEnvelope c n b, fun h => stepEnvelope_of_dead h n b⟩⟩

end Sys2Proof.Machine
end

