-- ==== Sys2Proof/Proofs/EnvelopeSteps.lean ====
section
/-! The envelope step by channel type and state, field by field, and the direction in which the level moves (R161 to R171, R178,
R180 to R185, R245). -/

namespace Sys2Proof.Machine

/-! ## Within a frame and at its boundary (R161) -/

/-- c at a frame boundary, before the frame update: the counter restarts and the level of the frame before is kept (R161). -/
def Chan.atFrame (c : Chan) : Chan := { c with envInterStep := 0, fromEnvLevel := c.envLevel }

section step
variable {c : Chan} {n : Nat} {b : Bool}

theorem stepEnvelope_of_init (h : c.envState = .init) : c.stepEnvelope n b = c.initStep := by
  simp only [Chan.stepEnvelope, h]

theorem stepEnvelope_within_frame (h : c.envState ∈ [.atk, .dec, .sus, .rel, .pseudoEcho]) (hn : c.envInterStep + 1 < n) :
    c.stepEnvelope n b = { c with envInterStep := c.envInterStep + 1 } := by
  unfold Chan.stepEnvelope
  split
  case h_4 => exact if_pos hn
  all_goals simp_all

theorem stepEnvelope_at_frame (h : c.envState ∈ [.atk, .dec, .sus, .rel, .pseudoEcho]) (hn : n ≤ c.envInterStep + 1) :
    c.stepEnvelope n b = c.atFrame.frameUpdate b := by
  unfold Chan.stepEnvelope
  split
  case h_4 => exact if_neg (not_lt.mpr hn)
  all_goals simp_all

/-! ## The release transition (R168) -/

theorem EnvState.held_iff (e : EnvState) : e.held = true ↔ e ∈ [.atk, .dec, .sus] := by cases e <;> decide

theorem releaseTransition_of_stays (h : c.stop = false ∨ c.envState.held = false) : c.releaseTransition = c := by
  refine if_neg fun hrel => ?_
  obtain ⟨hstop, hheld⟩ := Bool.and_eq_true_iff.mp hrel
  obtain h | h := h
  · exact absurd hstop (by simp [h])
  · exact absurd hheld (by simp [h])

theorem releaseTransition_pcm (hp : c.isPcm = true) (hstop : c.stop = true) (hheld : c.envState.held = true) :
    c.releaseTransition = { c with envState := .rel } := by
  simp only [Chan.releaseTransition, hp, hstop, hheld, Bool.and_self, if_true]

theorem releaseTransition_cgb (hp : c.isPcm = false) (hstop : c.stop = true) (hheld : c.envState.held = true) :
    c.releaseTransition = { c with envCount := 0, envState := if c.rel.toNat = 0 then .die else .rel } := by
  have hrel : c.rel = 0 ↔ c.rel.toNat = 0 := BitVec.toNat_eq
  simp only [Chan.releaseTransition, hp, hstop, hheld, Bool.and_self, if_true, Bool.false_eq_true, if_false, hrel]
  split <;> rfl

/-! ## PSEUDO_ECHO, of both types (R171, R185) -/

theorem echoFrame_of_pseudoEcho (h : c.envState = .pseudoEcho) :
    c.echoFrame = { c with echoLen := c.echoLen - 1, envState := if c.echoLen.toNat = 1 then .die else .pseudoEcho } := by
  have hlast : c.echoLen - 1 = 0 ↔ c.echoLen.toNat = 1 := by
    rw [sub_eq_zero, BitVec.toNat_eq]
    rfl
  simp only [Chan.echoFrame, hlast, h]

theorem echoEnds_iff : (c.echoVol = 0 ∨ c.echoLen = 0) ↔ (c.echoVol.toNat = 0 ∨ c.echoLen.toNat = 0) :=
  or_congr BitVec.toNat_eq BitVec.toNat_eq

/-! ## PCM (R163, R166 to R170) -/

theorem initPcm_eq (c : Chan) :
    c.initPcm =
      { c with
        envLevel := if c.att.toNat = 0 then 255 else c.att.toNat
        envState :=
          if c.att.toNat = 0 then (if c.sus.toNat = 255 then .sus else .dec)
          else if c.att.toNat = 255 then .dec else .atk } := by
  have hsus : c.sus = 0xFF ↔ c.sus.toNat = 255 := BitVec.toNat_eq
  have hatt := c.att.isLt
  unfold Chan.initPcm Config.pcmLevelMax
  by_cases h0 : c.att.toNat = 0
  · simp only [h0, lt_irrefl, if_false, if_true, hsus]
  · by_cases h255 : c.att.toNat = 255
    · simp [h255]
    · rw [if_pos (by omega), if_neg (by omega)]
      simp only [h0, h255, if_false]

theorem framePcm_of_atk (h : c.envState = .atk) :
    c.framePcm =
      { c with
        envLevel := min 255 (c.envLevel + c.att.toNat)
        envState := if 255 ≤ c.envLevel + c.att.toNat then .dec else .atk } := by
  simp only [Chan.framePcm, h, Chan.atkPcm, Config.pcmLevelMax]
  split
  · next hfull => rw [min_eq_left hfull]
  · next hbelow => rw [min_eq_right (not_le.mp hbelow).le, ← h]

theorem framePcm_of_dec (h : c.envState = .dec) :
    c.framePcm =
      { c with
        envLevel := max c.sus.toNat (c.envLevel * c.dec.toNat / 256)
        envState := if c.envLevel * c.dec.toNat / 256 ≤ c.sus.toNat then .sus else .dec } := by
  simp only [Chan.framePcm, h, Chan.decPcm, Nat.shiftRight_eq_div_pow]
  split
  · next hreached => rw [max_eq_left hreached]
  · next habove => rw [max_eq_right (not_le.mp habove).le, ← h]

theorem framePcm_of_sus (h : c.envState = .sus) : c.framePcm = c := by
  simp only [Chan.framePcm, h]

theorem framePcm_of_rel (h : c.envState = .rel) :
    c.framePcm =
      { c with
        envLevel :=
          if c.echoVol.toNat < c.envLevel * c.rel.toNat / 256 then c.envLevel * c.rel.toNat / 256
          else if c.echoVol.toNat = 0 ∨ c.echoLen.toNat = 0 then c.envLevel
          else c.echoVol.toNat
        envState :=
          if c.echoVol.toNat < c.envLevel * c.rel.toNat / 256 then .rel
          else if c.echoVol.toNat = 0 ∨ c.echoLen.toNat = 0 then .die
          else .pseudoEcho } := by
  simp only [Chan.framePcm, h, Chan.relPcm, Nat.shiftRight_eq_div_pow, echoEnds_iff, ← not_lt]
  split_ifs <;> simp only [← h]

theorem framePcm_of_pseudoEcho (h : c.envState = .pseudoEcho) :
    c.framePcm = { c with echoLen := c.echoLen - 1, envState := if c.echoLen.toNat = 1 then .die else .pseudoEcho } := by
  rw [← echoFrame_of_pseudoEcho h]
  simp only [Chan.framePcm, h]

theorem frameUpdate_pcm (hp : c.isPcm = true) : c.frameUpdate b = c.releaseTransition.framePcm := if_pos hp

/-- A PCM channel at a frame boundary that does not release. -/
theorem stepEnvelope_pcm (hp : c.type = .pcm) (h : c.envState ∈ [.atk, .dec, .sus, .rel, .pseudoEcho])
    (hn : n ≤ c.envInterStep + 1) (hstays : c.stop = false ∨ c.envState.held = false) :
    c.stepEnvelope n b = c.atFrame.framePcm := by
  rw [stepEnvelope_at_frame h hn, frameUpdate_pcm (c.atFrame.isPcm_iff.mpr hp)]
  exact congrArg _ (releaseTransition_of_stays hstays)

/-- A PCM channel at a frame boundary that enters REL runs the release's update in the same frame (R168, R170). -/
theorem stepEnvelope_pcm_released (hp : c.type = .pcm) (hn : n ≤ c.envInterStep + 1) (hstop : c.stop = true)
    (hheld : c.envState ∈ [.atk, .dec, .sus]) :
    c.stepEnvelope n b = ({ c.atFrame with envState := .rel } : Chan).framePcm := by
  have hp : c.atFrame.isPcm = true := c.atFrame.isPcm_iff.mpr hp
  rw [stepEnvelope_at_frame (List.mem_append_left [.rel, .pseudoEcho] hheld) hn, frameUpdate_pcm hp,
    releaseTransition_pcm hp hstop (c.envState.held_iff.mpr hheld)]

end step

/-- Settles O45: the rule of each state, at INIT, within a frame and at its boundary. -/
theorem pcmEnvelopeStep : Obligations.PcmEnvelopeStep := by
  intro n b c hp
  have hpcm := c.isPcm_iff.mpr hp
  refine ⟨?_, fun hi hstop => ?_, fun hi hstop => ?_, fun hframe =>
    ⟨stepEnvelope_within_frame hframe, fun hn => ⟨?_, ?_, ?_, ?_, ?_⟩⟩⟩
  · rintro (h | h)
    · exact stepEnvelope_of_die h n b
    · exact stepEnvelope_of_dead h n b
  · rw [stepEnvelope_of_init hi, Chan.initStep, if_pos hstop]
  · rw [stepEnvelope_of_init hi, Chan.initStep, if_neg (by simp [hstop]), if_pos hpcm, initPcm_eq]
  · intro h hstop
    exact (stepEnvelope_pcm hp hframe hn (.inl hstop)).trans (framePcm_of_atk (c := c.atFrame) h)
  · intro h hstop
    exact (stepEnvelope_pcm hp hframe hn (.inl hstop)).trans (framePcm_of_dec (c := c.atFrame) h)
  · intro h hstop
    exact (stepEnvelope_pcm hp hframe hn (.inl hstop)).trans (framePcm_of_sus (c := c.atFrame) h)
  · rintro (h | ⟨hstop, hheld⟩)
    · exact (stepEnvelope_pcm hp hframe hn (.inr (by rw [h]; rfl))).trans (framePcm_of_rel (c := c.atFrame) h)
    · exact (stepEnvelope_pcm_released hp hn hstop hheld).trans (framePcm_of_rel rfl)
  · intro h
    exact (stepEnvelope_pcm hp hframe hn (.inr (by rw [h]; rfl))).trans (framePcm_of_pseudoEcho (c := c.atFrame) h)

/-! ## Tone generators (R180 to R185, R245) -/

/-- c with the targets of its volumes (R245). -/
def Chan.withTargets (peak sustain echo : Nat) (c : Chan) : Chan :=
  { c with envPeak := peak, envSustain := sustain, echoLevel := echo }

section cgb
variable {c : Chan} {n : Nat} {b : Bool}

theorem computeTargets_eq {peak sustain echo : Nat} (hpeak : peak = min 15 ((c.rightVol.toNat + c.leftVol.toNat) / 16))
    (hsustain : sustain = (peak * c.sus.toNat + 15) / 16) (hecho : echo = (c.echoVol.toNat * peak + 255) / 256) :
    c.computeTargets = c.withTargets peak sustain echo := by
  subst hpeak hsustain hecho
  simp only [Chan.computeTargets, Chan.withTargets, Nat.shiftRight_eq_div_pow, Config.cgbLevelMax]

theorem initCgb_eq (c : Chan) :
    c.initCgb =
      { c with
        envCount := 0
        susCount := 0
        envLevel := if 0 < c.att.toNat then 0 else if 0 < c.dec.toNat then c.envPeak else c.envSustain
        envState := if 0 < c.att.toNat then .atk else if 0 < c.dec.toNat then .dec else .sus } := by
  unfold Chan.initCgb
  split_ifs <;> rfl

theorem atkCgb_of_atk (h : c.envState = .atk) :
    c.atkCgb =
      { c with
        envCount := if c.envCount + 1 < c.att.toNat then c.envCount + 1 else 0
        envLevel :=
          if c.envCount + 1 < c.att.toNat then c.envLevel
          else if c.atkLevel < c.envPeak then c.atkLevel else if c.dec.toNat = 0 then c.envSustain else c.atkLevel
        envState :=
          if c.envCount + 1 < c.att.toNat then .atk
          else if c.atkLevel < c.envPeak then .atk else if c.dec.toNat = 0 then .sus else .dec } := by
  have hdec : c.dec = 0 ↔ c.dec.toNat = 0 := BitVec.toNat_eq
  simp only [Chan.atkCgb, ← not_lt, hdec, ite_not]
  split_ifs <;> simp only [← h]

theorem decCgb_of_dec (h : c.envState = .dec) :
    c.decCgb =
      { c with
        envCount := if c.envCount + 1 < c.dec.toNat then c.envCount + 1 else 0
        envLevel := if c.envCount + 1 < c.dec.toNat then c.envLevel else c.decLevel
        envState :=
          if c.envCount + 1 < c.dec.toNat then .dec else if c.decLevel ≤ c.envSustain then .sus else .dec } := by
  by_cases hcount : c.envCount + 1 < c.dec.toNat
  · simp only [Chan.decCgb, hcount, not_le.mpr hcount, if_true, if_false, ← h]
  · simp only [Chan.decCgb, hcount, not_lt.mp hcount, if_true, if_false, h]

theorem susCgb_eq (c : Chan) :
    c.susCgb b =
      { c with
        susCount := if b = false ∨ 7 ≤ c.susCount + 1 then 0 else c.susCount + 1
        envLevel := if b = false ∨ 7 ≤ c.susCount + 1 then c.envSustain else c.envLevel } := by
  unfold Chan.susCgb Config.susBugN
  split <;> rfl

theorem relCgb_of_rel (h : c.envState = .rel) :
    c.relCgb =
      { c with
        envCount := if c.envCount + 1 < c.rel.toNat then c.envCount + 1 else 0
        envLevel :=
          if c.envCount + 1 < c.rel.toNat then c.envLevel
          else if c.echoLevel < c.envLevel - 1 ∨ c.echoLevel = 0 ∨ c.echoLen.toNat = 0 then c.envLevel - 1
          else c.echoLevel
        envState :=
          if c.envCount + 1 < c.rel.toNat then .rel
          else if c.echoLevel < c.envLevel - 1 then .rel
          else if c.echoLevel = 0 ∨ c.echoLen.toNat = 0 then .die
          else .pseudoEcho } := by
  have hlen : c.echoLen = 0 ↔ c.echoLen.toNat = 0 := BitVec.toNat_eq
  simp only [Chan.relCgb, ← not_lt, hlen, ite_not]
  by_cases hcount : c.envCount + 1 < c.rel.toNat
  · simp only [hcount, if_true, ← h]
  · by_cases habove : c.echoLevel < c.envLevel - 1
    · simp only [hcount, habove, if_true, if_false, true_or, ← h]
    · simp only [hcount, habove, if_false, false_or]
      split <;> rfl

theorem frameCgb_of_atk (h : c.envState = .atk) : c.frameCgb b = c.computeTargets.atkCgb := by
  simp only [Chan.frameCgb, h]

theorem frameCgb_of_dec (h : c.envState = .dec) : c.frameCgb b = c.computeTargets.decCgb := by
  simp only [Chan.frameCgb, h]

theorem frameCgb_of_sus (h : c.envState = .sus) : c.frameCgb b = c.computeTargets.susCgb b := by
  simp only [Chan.frameCgb, h]

theorem frameCgb_of_rel (h : c.envState = .rel) : c.frameCgb b = c.relCgb := by
  simp only [Chan.frameCgb, h]

theorem frameCgb_of_pseudoEcho (h : c.envState = .pseudoEcho) : c.frameCgb b = c.echoFrame := by
  simp only [Chan.frameCgb, h]

theorem frameCgb_of_die (h : c.envState = .die) : c.frameCgb b = c := by
  simp only [Chan.frameCgb, h]

theorem Chan.isPcm_eq_false_iff (c : Chan) : c.isPcm = false ↔ c.type ≠ .pcm := by simp [Chan.isPcm]

theorem frameUpdate_cgb (hp : c.isPcm = false) : c.frameUpdate b = c.releaseTransition.frameCgb b := if_neg (by simp [hp])

/-- A tone generator at a frame boundary that does not release. -/
theorem stepEnvelope_cgb (hp : c.type ≠ .pcm) (h : c.envState ∈ [.atk, .dec, .sus, .rel, .pseudoEcho])
    (hn : n ≤ c.envInterStep + 1) (hstays : c.stop = false ∨ c.envState.held = false) :
    c.stepEnvelope n b = c.atFrame.frameCgb b := by
  rw [stepEnvelope_at_frame h hn, frameUpdate_cgb (c.atFrame.isPcm_eq_false_iff.mpr hp)]
  exact congrArg _ (releaseTransition_of_stays hstays)

/-- A tone generator at a frame boundary that releases: DIE at once if rel is 0, else REL, whose update runs in the same frame
(R168, R184). -/
theorem stepEnvelope_cgb_released (hp : c.type ≠ .pcm) (hn : n ≤ c.envInterStep + 1) (hstop : c.stop = true)
    (hheld : c.envState ∈ [.atk, .dec, .sus]) :
    c.stepEnvelope n b =
      ({ c.atFrame with envCount := 0, envState := if c.rel.toNat = 0 then .die else .rel } : Chan).frameCgb b := by
  have hp : c.atFrame.isPcm = false := c.atFrame.isPcm_eq_false_iff.mpr hp
  rw [stepEnvelope_at_frame (List.mem_append_left [.rel, .pseudoEcho] hheld) hn, frameUpdate_cgb hp,
    releaseTransition_cgb hp hstop (c.envState.held_iff.mpr hheld)]
  rfl

end cgb

/-- Settles O46: the targets of R245, and the rule of each state at INIT, within a frame and at its boundary. -/
theorem cgbEnvelopeStep : Obligations.CgbEnvelopeStep := by
  intro n b c peak sustain echo hp hpeak hsustain hecho
  have hcgb := c.isPcm_eq_false_iff.mpr hp
  have htargets : c.atFrame.computeTargets = c.atFrame.withTargets peak sustain echo :=
    computeTargets_eq hpeak hsustain hecho
  refine ⟨fun hi hstop => ?_, stepEnvelope_within_frame, fun hn => ⟨?_, ?_, ?_, ?_, ?_, ?_⟩⟩
  · rw [stepEnvelope_of_init hi, Chan.initStep, if_neg (by simp [hstop]), if_neg (by simp [hcgb]),
      computeTargets_eq hpeak hsustain hecho, initCgb_eq]
    rfl
  · rintro h hstop l rfl
    rw [stepEnvelope_cgb hp (by simp [h]) hn (.inl hstop), frameCgb_of_atk (c := c.atFrame) h, htargets,
      atkCgb_of_atk (c := c.atFrame.withTargets peak sustain echo) h]
    rfl
  · rintro h hstop l rfl
    rw [stepEnvelope_cgb hp (by simp [h]) hn (.inl hstop), frameCgb_of_dec (c := c.atFrame) h, htargets,
      decCgb_of_dec (c := c.atFrame.withTargets peak sustain echo) h]
    rfl
  · intro h hstop
    rw [stepEnvelope_cgb hp (by simp [h]) hn (.inl hstop), frameCgb_of_sus (c := c.atFrame) h, htargets,
      susCgb_eq]
    rfl
  · intro hstop hheld hrel
    rw [stepEnvelope_cgb_released hp hn hstop hheld, if_pos hrel, frameCgb_of_die rfl]; rfl
  · rintro k (⟨h, rfl⟩ | ⟨hstop, hheld, hrel, rfl⟩)
    · rw [stepEnvelope_cgb hp (by simp [h]) hn (.inr (by rw [h]; rfl)), frameCgb_of_rel (c := c.atFrame) h,
        relCgb_of_rel (c := c.atFrame) h]
      rfl
    · rw [stepEnvelope_cgb_released hp hn hstop hheld, if_neg hrel.ne', frameCgb_of_rel rfl,
        relCgb_of_rel rfl]
      rfl
  · intro h
    rw [stepEnvelope_cgb hp (by simp [h]) hn (.inr (by rw [h]; rfl)), frameCgb_of_pseudoEcho (c := c.atFrame) h,
      echoFrame_of_pseudoEcho (c := c.atFrame) h]
    rfl

/-! ## The direction of the level (R178) -/

section level
variable {c : Chan} {b : Bool}

/-- A channel whose frame update leaves it in ATK, DEC or SUS did not release in it (R160, R168). -/
theorem releaseTransition_of_frameUpdate (h : (c.frameUpdate b).envState.rank < EnvState.rel.rank) :
    c.releaseTransition = c := by
  obtain he | ⟨-, hrel⟩ := releaseTransition_cases c
  · exact he
  · exact absurd h (not_lt.mpr (hrel.trans (rank_releaseTransition_le_frameUpdate c b)))

theorem level_le_frameUpdate_of_atk (h : c.envState = .atk) (h' : (c.frameUpdate b).envState = .atk) :
    c.envLevel ≤ (c.frameUpdate b).envLevel := by
  have hstays := releaseTransition_of_frameUpdate (c := c) (b := b) (by rw [h']; decide)
  cases hp : c.isPcm with
  | true =>
    rw [frameUpdate_pcm hp, hstays, framePcm_of_atk h] at h' ⊢
    dsimp only at h' ⊢
    split at h'
    · cases h'
    · omega
  | false =>
    have hlevel : c.envLevel ≤ c.computeTargets.atkLevel := by
      unfold Chan.atkLevel
      split
      · exact Nat.le_succ _
      · exact le_rfl
    rw [frameUpdate_cgb hp, hstays, frameCgb_of_atk h, atkCgb_of_atk (c := c.computeTargets) h] at h' ⊢
    dsimp only at h' ⊢
    split_ifs at h' ⊢
    · exact le_rfl
    · exact hlevel

theorem frameUpdate_level_le_of_dec (h : c.envState = .dec) (h' : (c.frameUpdate b).envState = .dec) :
    (c.frameUpdate b).envLevel ≤ c.envLevel := by
  have hstays := releaseTransition_of_frameUpdate (c := c) (b := b) (by rw [h']; decide)
  cases hp : c.isPcm with
  | true =>
    have hfall := mul_shiftRight_le c.envLevel c.dec
    rw [Nat.shiftRight_eq_div_pow] at hfall
    rw [frameUpdate_pcm hp, hstays, framePcm_of_dec h] at h' ⊢
    dsimp only at h' ⊢
    split at h'
    · cases h'
    · omega
  | false =>
    have hlevel : c.computeTargets.decLevel ≤ c.envLevel := by
      unfold Chan.decLevel
      split
      · exact Nat.sub_le _ _
      · exact le_rfl
    rw [frameUpdate_cgb hp, hstays, frameCgb_of_dec h, decCgb_of_dec (c := c.computeTargets) h]
    dsimp only
    split
    · exact le_rfl
    · exact hlevel

theorem frameUpdate_level_le_of_rel (h : c.envState = .rel) (h' : (c.frameUpdate b).envState = .rel) :
    (c.frameUpdate b).envLevel ≤ c.envLevel := by
  have hstays : c.releaseTransition = c := releaseTransition_of_stays (.inr (by rw [h]; rfl))
  cases hp : c.isPcm with
  | true =>
    have hfall := mul_shiftRight_le c.envLevel c.rel
    rw [Nat.shiftRight_eq_div_pow] at hfall
    rw [frameUpdate_pcm hp, hstays, framePcm_of_rel h] at h' ⊢
    dsimp only at h' ⊢
    split_ifs at h' ⊢
    exact hfall
  | false =>
    rw [frameUpdate_cgb hp, hstays, frameCgb_of_rel h, relCgb_of_rel h] at h' ⊢
    dsimp only at h' ⊢
    split_ifs at h' ⊢
    all_goals omega

end level

/-- Settles O47: a counted step keeps the level, and a frame update moves it in the direction of its state. -/
theorem envelopeLevelMonotone : Obligations.EnvelopeLevelMonotone := by
  intro n b c
  have hstep : ∀ e ∈ [EnvState.atk, .dec, .sus, .rel, .pseudoEcho], c.envState = e →
      (c.stepEnvelope n b).envLevel = c.envLevel ∨ c.stepEnvelope n b = c.atFrame.frameUpdate b := by
    rintro e he rfl
    obtain hn | hn := lt_or_ge (c.envInterStep + 1) n
    · exact .inl (by rw [stepEnvelope_within_frame he hn])
    · exact .inr (stepEnvelope_at_frame he hn)
  refine ⟨fun h h' => ?_, fun h h' => ?_, fun h h' => ?_⟩
  · obtain heq | hframe := hstep .atk (by decide) h
    · exact heq.ge
    · rw [hframe] at h' ⊢
      exact level_le_frameUpdate_of_atk (c := c.atFrame) h h'
  · obtain heq | hframe := hstep .dec (by decide) h
    · exact heq.le
    · rw [hframe] at h' ⊢
      exact frameUpdate_level_le_of_dec (c := c.atFrame) h h'
  · obtain heq | hframe := hstep .rel (by decide) h
    · exact heq.le
    · rw [hframe] at h' ⊢
      exact frameUpdate_level_le_of_rel (c := c.atFrame) h h'

end Sys2Proof.Machine
end

