-- ==== Sys2Proof/Proofs/ChannelOutput.lean ====
section
/-! The gain targets by the rules of R174, R176, R249 and R259, and the frames that a channel's tick adds (R177, R214, R260). -/

namespace Sys2Proof.Machine

/-! ## The gain targets (R174, R176, R249, R259) -/

theorem eEnd_eq_envelopeRule (n : Nat) (acc : Bool) (c : Chan) : c.eEnd n acc = envelopeRule n acc c := by
  simp only [Chan.eEnd, envelopeRule, Bool.and_eq_true, beq_iff_eq, lerp, Nat.cast_succ]

/-- The accurate wave volume at a whole level (R259). -/
theorem waveFactor_natCast (quant : Bool) (level : Nat) :
    waveFactor quant level =
      if level ≤ 1 then 0
      else if quant = true then 1
      else if level ≤ 5 then 1 / 4
      else if level ≤ 9 then 1 / 2
      else if level ≤ 13 then 3 / 4
      else 1 := by
  have hfloor : (level : Rat).floor.toNat = level := by rw [← Int.cast_natCast, Rat.floor_intCast, Int.toNat_natCast]
  simp only [waveFactor, hfloor, volCode]
  split_ifs <;> simp_all [VolCode.factor]

/-- V of R249 and R259 at the envelope value of the end of the tick. -/
theorem cgbFactor_envelopeRule (n : Nat) (acc quant : Bool) (c : Chan) :
    c.cgbFactor acc quant (envelopeRule n acc c) =
      if acc = true ∧ c.type = .wave then waveVolumeRule quant c else envelopeRule n acc c / 15 := by
  simp only [Chan.cgbFactor, Bool.and_eq_true, beq_iff_eq]
  by_cases hwave : acc = true ∧ c.type = .wave
  · rw [if_pos hwave, if_pos hwave]
    by_cases hdie : c.envState = .die
    · simpa [envelopeRule, waveVolumeRule, hdie] using waveFactor_natCast quant 0
    · simp only [envelopeRule, waveVolumeRule, hdie, hwave, and_self, if_true, if_false, false_or, waveFactor_natCast]
  · rw [if_neg hwave, if_neg hwave]

theorem gainL_eq_gainRule (a : TickArgs) (c : Chan) : c.gainL a = gainRule a c c.leftVol .right := by
  simp only [Chan.gainL, gainRule, eEnd_eq_envelopeRule, cgbFactor_envelopeRule, c.isPcm_iff, gainPcm, Pan.onLeft,
    Nat.cast_succ]

theorem gainR_eq_gainRule (a : TickArgs) (c : Chan) : c.gainR a = gainRule a c c.rightVol .left := by
  simp only [Chan.gainR, gainRule, eEnd_eq_envelopeRule, cgbFactor_envelopeRule, c.isPcm_iff, gainPcm, Pan.onRight,
    Nat.cast_succ]

/-- In DIE the envelope value is 0, so every gain target is (R172). -/
theorem gainRule_of_die (a : TickArgs) {c : Chan} (h : c.envState = .die) (vol : BitVec 8) (away : Pan) :
    gainRule a c vol away = 0 := by
  simp [gainRule, envelopeRule, waveVolumeRule, h]

/-! ## The frames of a tick (R177, R214, R260) -/

theorem length_render (a : TickArgs) (src : Source) (c : Chan) : (c.render a src).2.length = a.n := by
  simp only [Chan.render, rampFrames, length_mapFrom, resample, List.length_map, List.length_range]

/-- The source time of frame k, as a real number and in its form (R291). -/
theorem sourceTime_spec (t inc : Alg) (k : Nat) (hinc : inc.wf = true) :
    (t.add (inc.smul (k : Rat))).toReal = t.toReal + k * inc.toReal ∧
      (t.wf = true → (t.add (inc.smul (k : Rat))).wf = true) :=
  ⟨by rw [Alg.toReal_add, Alg.toReal_smul, Rat.cast_natCast], fun ht => Alg.wf_add ht (Alg.wf_smul hinc)⟩

/-- Settles O48: the record that `render` leaves, and frame k of what it adds. -/
theorem channelOutputRamp : Obligations.ChannelOutputRamp := by
  intro a src c d frames hrender
  obtain ⟨e, hd, -⟩ := render_fst a src c
  have hlen := length_render a src c
  have hframe := @getElem?_render a src c
  rw [hrender] at hd hlen hframe
  subst hd
  set inc := (c.rateHz a.par a.fixedRate).smul (1 / (a.rate.toNat : Rat)) with hincEq
  have hinc : inc.wf = true := Alg.wf_smul (c.wf_rateHz a.par a.fixedRate)
  obtain ⟨htime, htimeForm⟩ := sourceTime_spec c.t inc a.n hinc
  refine ⟨hlen, ?_, hinc, htime, htimeForm, gainL_eq_gainRule a c, gainR_eq_gainRule a c, ?_⟩
  · rw [hincEq, Alg.toReal_smul]
    push_cast
    ring
  · rintro k τ hk rfl
    obtain ⟨hτ, hτForm⟩ := sourceTime_spec c.t inc k hinc
    refine ⟨_, hframe hk hincEq rfl, hτ, hτForm, ?_, ?_⟩
    · rw [SReal.toReal_smul, lerp, mul_comm]
    · rw [SReal.toReal_smul, lerp, mul_comm]

end Sys2Proof.Machine
end

