-- ==== Sys2Proof/Proofs/DyingChannels.lean ====
section
/-! How a channel dies and its slot is freed: DIE, a release before the first tick, exhaustion (R162, R172, R212, R224, R366). -/

namespace Sys2Proof.Machine

/-! ## Exhaustion (R212) -/

theorem exhausted_of_pcm {c : Chan} {v : PcmVoice} (hv : c.voice = .pcm v) :
    c.exhausted = true ↔ (v.mode = .sample ∨ v.mode = .dpcm) ∧ v.loop = false ∧ (v.endPos.toNat : Int) ≤ c.t.floor := by
  simp [Chan.exhausted, hv, and_assoc]

theorem exhausted_of_not_pcm {c : Chan} (h : c.type ≠ .pcm) : c.exhausted = false := by
  cases hv : c.voice with
  | pcm v => exact absurd (by simp [Chan.type, Voice.type, hv]) h
  | _ => simp [Chan.exhausted, hv]

theorem render_voice (a : TickArgs) (src : Source) (c : Chan) : (c.render a src).1.voice = c.voice := by
  obtain ⟨e, he, -⟩ := render_fst a src c
  rw [he]

/-- The end of a tick writes the envelope state, which has no part in exhaustion. -/
theorem exhausted_afterTick (c : Chan) : c.afterTick.exhausted = c.exhausted := by rw [afterTick_eq]; rfl

/-- The envelope state after rendering: DEAD from DIE and on exhaustion at the new source time, else as before (R172, R212). -/
theorem render_envState (a : TickArgs) (src : Source) (c : Chan) :
    (c.render a src).1.envState = if c.envState = .die ∨ (c.render a src).1.exhausted = true then .dead else c.envState := by
  simp only [Chan.render, exhausted_afterTick]
  simp only [afterTick_eq, Bool.or_eq_true, decide_eq_true_eq]

/-- A channel that is exhausted after its tick is DEAD then (R212). -/
theorem process_envState_of_exhausted {a : TickArgs} {src : Source} {c : Chan} (h : (c.process a src).1.exhausted = true) :
    (c.process a src).1.envState = .dead := by
  by_cases hdead : (c.stepEnvelope a.par.interframes a.susBug).envState = .dead
  · rw [process_dead hdead]
    exact hdead
  · rw [process_sounds hdead] at h ⊢
    rw [render_envState, if_pos (.inr h)]

theorem process_voice_of_pcm (a : TickArgs) (src : Source) {c : Chan} {v : PcmVoice} (hv : c.voice = .pcm v) :
    (c.process a src).1.voice = .pcm v := by
  rw [(tickKeeps_process a src c).voice (by simp [hv]), hv]

/-! ## The ways to die -/

/-- R172: a channel in DIE renders once more, toward gain 0, and is DEAD. -/
theorem process_of_die (a : TickArgs) (src : Source) {c : Chan} (h : c.envState = .die) :
    (c.process a src).1.envState = .dead ∧ (c.process a src).1.lastGainL = 0 ∧ (c.process a src).1.lastGainR = 0 := by
  have hstep := stepEnvelope_of_die h a.par.interframes a.susBug
  have hdie : (c.sweepTick a).envState = .die := by rw [sweepTick_envState, h]
  have hsounds : (c.stepEnvelope a.par.interframes a.susBug).envState ≠ .dead := by simp [hstep, h]
  rw [process_sounds hsounds, hstep]
  obtain ⟨e, he, -, hdead⟩ := render_fst a src (c.sweepTick a)
  rw [he, gainL_eq_gainRule, gainR_eq_gainRule, gainRule_of_die a hdie, gainRule_of_die a hdie]
  exact ⟨hdead hdie, rfl, rfl⟩

/-- R162: a channel released before its first tick is DEAD in it and adds nothing. -/
theorem process_of_stopped_init (a : TickArgs) (src : Source) {c : Chan} (h : c.envState = .init) (hstop : c.stop = true) :
    (c.process a src).1.envState = .dead ∧ (c.process a src).2 = [] := by
  have hdead : (c.stepEnvelope a.par.interframes a.susBug).envState = .dead := by
    rw [stepEnvelope_of_init h, Chan.initStep, if_pos hstop]
  rw [process_dead hdead]
  exact ⟨hdead, rfl⟩

/-- R224: after a fast release the channel is in DIE, or it was DEAD; its next tick leaves it DEAD. -/
theorem process_releaseFast (a : TickArgs) (src : Source) (c : Chan) :
    (c.releaseFast.process a src).1.envState = .dead := by
  have hcase : c.releaseFast.envState = .die ∨ c.releaseFast.envState = .dead := by
    cases h : c.envState <;> simp [Chan.releaseFast, EnvState.sounding, h]
  obtain h | h := hcase
  · exact (process_of_die a src h).1
  · have hstep := stepEnvelope_of_dead h a.par.interframes a.susBug
    rw [process_dead (by rw [hstep, h]), hstep]
    exact h

/-! ## The slot (R366) -/

theorem live_purged (c : Chan) : c.purged.live = true ↔ c.live = true ∧ c.envState ≠ .dead := by
  unfold Chan.purged
  split
  · next h => simp_all
  · next h => simp_all

/-- A tick frees exactly the slots whose channel it leaves DEAD. -/
theorem live_mixTick (s : State) (u : Nat) :
    ((mixTick s).chan u).live = true ↔
      (s.chan u).live = true ∧ ((s.chan u).process s.tickArgs s.src).1.envState ≠ .dead := by
  rw [chan_mixTick, live_purged]
  cases hl : (s.chan u).live <;> simp [Chan.ticked, hl]

theorem freed_mixTick {s : State} {u : Nat} (h : ((s.chan u).process s.tickArgs s.src).1.envState = .dead) :
    ((mixTick s).chan u).live = false :=
  Bool.eq_false_iff.mpr fun hl => ((live_mixTick s u).mp hl).2 h

/-- Settles O27: each way to die leaves the channel DEAD after its tick, which frees the slot. -/
theorem dyingChannelsAreFreed : Obligations.DyingChannelsAreFreed := by
  refine ⟨fun a src _ h => process_of_die a src h, fun s t u htick => ?_, fun s t t' slot hrelease hok htick => ?_,
    fun s t u htick hinit hstop => ?_, fun a src c d frames hrender hdie => ?_,
    fun s t u v htick hv hmode hloop hend => ?_⟩
  · obtain ⟨-, rfl⟩ := mxTick_next htick
    exact ⟨live_mixTick s u, fun h => freed_mixTick (process_of_die _ _ h).1⟩
  · obtain ⟨-, rfl⟩ := mxTick_next htick
    rw [exec_chReleaseFast, hok] at hrelease
    cases hrelease
    obtain ⟨hslot, -⟩ := channelError_none (none_of_reserved hok).2
    refine freed_mixTick ?_
    rw [State.afterError, State.chan_setChan_self _ hslot]
    exact process_releaseFast ..
  · obtain ⟨-, rfl⟩ := mxTick_next htick
    obtain ⟨hdead, hsilent⟩ := process_of_stopped_init s.tickArgs s.src hinit hstop
    exact ⟨freed_mixTick hdead, hsilent⟩
  · have hstate := render_envState a src c
    have hvoice := render_voice a src c
    rw [hrender] at hstate hvoice
    simp only [hdie, false_or] at hstate
    have hstays : ¬d.exhausted = true → d.envState = c.envState := fun h => hstate.trans (if_neg h)
    refine ⟨fun v hv hmode hloop => ⟨fun hend => ?_, fun hbefore => ?_⟩, fun v hv hno => ?_, fun htype => ?_⟩
    · rw [hstate, if_pos ((exhausted_of_pcm (hvoice.trans hv)).mpr ⟨hmode, hloop, hend⟩)]
    · refine hstays fun hex => ?_
      obtain ⟨-, -, hend⟩ := (exhausted_of_pcm (hvoice.trans hv)).mp hex
      exact absurd hend (not_le.mpr hbefore)
    · refine hstays fun hex => ?_
      obtain ⟨hmode, hloop, -⟩ := (exhausted_of_pcm (hvoice.trans hv)).mp hex
      obtain hlooping | ⟨hsample, hdpcm⟩ := hno
      · simp [hloop] at hlooping
      · exact hmode.elim hsample hdpcm
    · have hex : d.exhausted = false := exhausted_of_not_pcm (by rwa [Chan.type, hvoice])
      exact hstays (by simp [hex])
  · obtain ⟨-, rfl⟩ := mxTick_next htick
    have hvoice := process_voice_of_pcm s.tickArgs s.src hv
    exact freed_mixTick (process_envState_of_exhausted ((exhausted_of_pcm hvoice).mpr ⟨hmode, hloop, hend⟩))

end Sys2Proof.Machine
end

