-- ==== Sys2Proof/Proofs/ChannelCommands.lean ====
section
/-! What CH_START_PCM and the channel commands write: the whole effect is the record of one slot (R200, R201, R204, R215, R220 to
R224). -/

namespace Sys2Proof.Machine

/-- An accepted command whose effect is the record of a slot that there is: it completes, and only that slot differs. -/
theorem exec_writes_slot {i : Instr} {s : State} {slot : Nat} {c : Chan}
    (hx : exec i s = .next (s.afterError (commandError i s) (s.setChan slot c))) (hok : commandError i s = none)
    (hslot : slot < s.chSlots) : ∃ t, exec i s = .next t ∧ OnlySlot slot s t ∧ t.chan slot = c :=
  ⟨s.setChan slot c, by rw [hx, hok, State.afterError], onlySlot_setChan s slot c, s.chan_setChan_self hslot c⟩

/-- The slot of an accepted channel command is one of the CH_SLOTS (R220 to R224). -/
theorem slot_lt_of_accepted {w : Bool} {slot : BitVec 8} {s : State}
    (hok : (if w = false then some ErrCode.reserved else channelError slot s) = none) : slot.toNat < s.chSlots :=
  (channelError_none (none_of_reserved hok).2).1

/-! ## Volumes (R204, R220, R248) -/

/-- A volume update writes the two side volumes and the pan, and nothing else. -/
theorem volumeUpdate_eq (c : Chan) :
    c.volumeUpdate =
      { c with rightVol := c.volumeUpdate.rightVol, leftVol := c.volumeUpdate.leftVol, pan := c.volumeUpdate.pan } := by
  obtain ⟨-, h⟩ | ⟨-, h⟩ := volumeUpdate_cases c <;> rw [h] <;> rfl

theorem volumeUpdate_pan_of_pcm {c : Chan} (h : c.type = .pcm) : c.volumeUpdate.pan = c.pan := by
  obtain ⟨-, he⟩ | ⟨hne, -⟩ := volumeUpdate_cases c
  · rw [he]; rfl
  · exact absurd h hne

theorem panRuled_volumeUpdate {c : Chan} (h : c.type ≠ .pcm) : c.volumeUpdate.PanRuled := by
  obtain ⟨hpcm, -⟩ | ⟨-, he⟩ := volumeUpdate_cases c
  · exact absurd hpcm h
  · rw [he]; exact panRuled_cgbPan _

/-- Settles O20: the volume update writes the side volumes of R204 and, of a tone generator, the pan of R248. -/
theorem chSetVolRule : Obligations.ChSetVolRule := by
  intro slot volMR volML s
  refine ⟨rejects _ s, fun hok => ?_⟩
  obtain ⟨t, hnext, honly, hchan⟩ := exec_writes_slot (exec_chSetVol ..) hok (slot_lt_of_accepted hok)
  refine ⟨t, _, _, _, hnext, honly, hchan.trans (volumeUpdate_eq _), ?_, fun htype => volumeUpdate_pan_of_pcm htype,
    fun htype => ?_⟩
  · rw [hchan]; exact volumesRuled_volumeUpdate _
  · rw [hchan]; exact panRuled_volumeUpdate htype

/-! ## Pitch, length, release (R221 to R224) -/

/-- Settles O21: the slot holds the record with the new pitch. -/
theorem chSetPitchRule : Obligations.ChSetPitchRule := fun _ _ s =>
  ⟨rejects _ s, fun hok => exec_writes_slot (exec_chSetPitch ..) hok (slot_lt_of_accepted hok)⟩

theorem nextLength_of_pos {c : Chan} (h : 0 < c.length.toInt) : c.nextLength.toInt = c.length.toInt - 1 := by
  have hlt : c.length.toInt < 2 ^ 15 := c.length.toInt_lt
  rw [Chan.nextLength, if_pos h, BitVec.toInt_sub, show (1 : BitVec 16).toInt = 1 from rfl, Int.bmod_eq_of_le] <;> omega

theorem nextLength_of_nonpos {c : Chan} (h : c.length.toInt ≤ 0) : c.nextLength = c.length := if_neg (by omega)

theorem tickNote_of_tie {c : Chan} (h : c.length.toInt = -1) : c.tickNote = c := if_pos h

theorem tickNote_of_not_tie {c : Chan} (h : c.length.toInt ≠ -1) :
    c.tickNote = { c with length := c.nextLength, stop := c.stop || decide (c.nextLength.toInt = 0) } := by
  have hzero : c.nextLength = 0 ↔ c.nextLength.toInt = 0 := by rw [← BitVec.toInt_inj]; rfl
  rw [Chan.tickNote, if_neg h]
  simp only [hzero]
  by_cases hz : c.nextLength.toInt = 0 <;> simp [hz]

/-- Settles O22: by the length before the tick, −1, positive, or neither. -/
theorem chTickNoteRule : Obligations.ChTickNoteRule := by
  intro slot imm s
  refine ⟨rejects _ s, fun hok => ?_⟩
  obtain ⟨t, hnext, honly, hchan⟩ := exec_writes_slot (exec_chTickNote ..) hok (slot_lt_of_accepted hok)
  exact ⟨t, hnext, honly, fun htie => hchan.trans (tickNote_of_tie htie), fun hno =>
    ⟨_, hchan.trans (tickNote_of_not_tie hno), nextLength_of_pos, nextLength_of_nonpos⟩⟩

theorem releaseFast_eq (c : Chan) :
    c.releaseFast = { c with stop := true, envState := if c.envState = .dead then .dead else .die } := by
  cases h : c.envState <;> simp [Chan.releaseFast, EnvState.sounding, h]

/-- Settles O23: a fast release keeps DIE and DEAD as they are. -/
theorem chReleaseRules : Obligations.ChReleaseRules := by
  intro slot imm s
  refine ⟨rejects _ s, rejects _ s, fun hok => ?_, fun hok => ?_⟩
  · exact exec_writes_slot (exec_chRelease ..) hok (slot_lt_of_accepted hok)
  · rw [← releaseFast_eq]
    exact exec_writes_slot (exec_chReleaseFast ..) hok (slot_lt_of_accepted hok)

/-! ## The record of a PCM start (R200, R201, R215) -/

section start
variable {src : Source} {info : SampleInfo}

theorem isSynth_of_synthInfo (h : SynthInfo info) : isSynth info = true := (isSynth_iff info).mpr h

theorem isSynth_of_not_synthInfo (h : ¬SynthInfo info) : isSynth info = false :=
  Bool.eq_false_iff.mpr (mt (isSynth_iff info).mp h)

theorem pcmVoice_mode_of_synth (h : SynthInfo info) :
    (pcmVoice src info).mode = synthMode (src.playByte info.dataPos.toNat) := if_pos (isSynth_of_synthInfo h)

theorem pcmVoice_duty_of_synth (h : SynthInfo info) :
    (pcmVoice src info).synthDuty = src.playByte (info.dataPos.toNat + 1) := if_pos (isSynth_of_synthInfo h)

theorem pcmVoice_mode_of_not_synth (h : ¬SynthInfo info) :
    (pcmVoice src info).mode = if info.compressed = true then .dpcm else .sample :=
  if_neg (by simp [isSynth_of_not_synthInfo h])

/-- A channel that is no synth takes the resampler that MIXOPT names for its rate (R215). -/
theorem pcmResampler_of_not_synth (m : MixOpt) (h : ¬SynthInfo info) :
    pcmResampler m (pcmVoice src info) = if info.fixed = true then m.resFixed else m.resNormal := by
  rw [pcmResampler, pcmVoice_mode_of_not_synth h]
  cases info.compressed <;> rfl

/-- The synth modes by the first byte (R93, R201) and their resamplers (R215). -/
theorem synthMode_spec (m : MixOpt) {v : PcmVoice} {b : Byte} (h : v.mode = synthMode b) :
    (b.toNat = 0 → v.mode = .synthPulse ∧ pcmResampler m v = .blep) ∧
      (b.toNat = 1 → v.mode = .synthSaw ∧ pcmResampler m v = .blep) ∧
      (b.toNat = 2 → v.mode = .synthTri ∧ pcmResampler m v = .blamp) := by
  unfold pcmResampler
  refine ⟨fun hb => ?_, fun hb => ?_, fun hb => ?_⟩
  · rw [h, show b = 0 from BitVec.eq_of_toNat_eq hb]; exact ⟨rfl, rfl⟩
  · rw [h, show b = 1 from BitVec.eq_of_toNat_eq hb]; exact ⟨rfl, rfl⟩
  · rw [h, show b = 2 from BitVec.eq_of_toNat_eq hb]; exact ⟨rfl, rfl⟩

theorem newPcm_rsKind (s : State) (track : BitVec 8) (n : Note) (info : SampleInfo) :
    (newPcm s track n info).rsKind = pcmResampler s.cfg.mixopt (pcmVoice s.src info) := volumeUpdate_rsKind _

/-- The ADSR of a PCM channel is the operand's: only a tone generator's is clamped (R200, R241). -/
theorem newPcm_adsr (s : State) (track : BitVec 8) (n : Note) (info : SampleInfo) :
    (newPcm s track n info).att = n.att ∧ (newPcm s track n info).dec = n.dec ∧ (newPcm s track n info).sus = n.sus ∧
      (newPcm s track n info).rel = n.rel := by
  rw [newPcm, volumeUpdate_eq]
  exact ⟨rfl, rfl, rfl, rfl⟩

end start

/-- Settles O15: the record is the started one; the synth clauses rest on the two bytes that the checks found inside the
source. -/
theorem pcmStartWritesSlot : Obligations.PcmStartWritesSlot := by
  intro slot track rsv n info s
  refine ⟨rejects _ s, fun hok => ?_⟩
  obtain ⟨hstart, hsample⟩ := or_eq_none (none_of_reserved hok).2
  obtain ⟨hslot, -, -, hkey, hvelocity, -⟩ := startError_none hstart
  obtain ⟨t, hnext, honly, hchan⟩ := exec_writes_slot (exec_chStartPcm ..) hok hslot
  obtain ⟨hatt, hdec, hsus, hrel⟩ := newPcm_adsr s track n info
  have hkind := newPcm_rsKind s track n info
  refine ⟨t, pcmVoice s.src info, hnext, honly, ?_⟩
  rw [hchan]
  refine ⟨started_volumeUpdate _ _ _ _ hkey hvelocity, volumeUpdate_voice _, hatt, hdec, hsus, hrel,
    rfl, rfl, rfl, rfl, rfl, rfl, rfl, fun hsynth => ?_, fun hno => ?_⟩
  · obtain ⟨hrange, hbyte⟩ := synth_of_sampleError_none hsample hsynth
    rw [hkind, s.src.memRead_one (by omega), s.src.memRead_one (by omega), pcmVoice_duty_of_synth hsynth]
    simp only [Option.some.injEq]
    obtain ⟨hpulse, hsaw, htri⟩ := synthMode_spec s.cfg.mixopt (pcmVoice_mode_of_synth (src := s.src) hsynth)
    exact ⟨hpulse, hsaw, htri, ⟨_, hbyte, rfl⟩, trivial⟩
  · exact ⟨pcmVoice_mode_of_not_synth hno, hkind.trans (pcmResampler_of_not_synth _ hno)⟩

end Sys2Proof.Machine
end

