-- ==== Sys2Proof/Proofs/ChannelSources.lean ====
section
/-! The source sequence of every kind of channel: samples and their loop, the synth modes, the pulse, wave and noise channels
(R210, R211, R213, R255, R257, R258, R262). -/

namespace Sys2Proof.Machine

/-! ## Samples (R210, R211) -/

section sample
variable {src : Source} {v : PcmVoice} {j : Int}

theorem sampleSource_of_playIndex (hj : 0 ≤ j) {k : Nat} (hk : playIndex v j.toNat = some k) :
    sampleSource src v j = (rawSample src v k : Rat) / 128 := by
  rw [sampleSource, if_neg (not_lt.mpr hj), hk]

theorem sampleSource_before_end (hj : 0 ≤ j) (hend : j < v.endPos.toNat) :
    sampleSource src v j = (rawSample src v j.toNat : Rat) / 128 :=
  sampleSource_of_playIndex hj (if_pos (by omega))

theorem sampleSource_ended (hend : v.endPos.toNat ≤ j) (hloop : v.loop = false) : sampleSource src v j = 0 := by
  have hnone : playIndex v j.toNat = none := by rw [playIndex, if_neg (by omega), if_neg (by simp [hloop])]
  rw [sampleSource, if_neg (by omega), hnone]

/-- From loopStart on a looped channel plays the loop's samples in turn, its first pass included. -/
theorem sampleSource_in_loop (hstart : v.loopStart.toNat ≤ j) (hloop : v.loop = true)
    (hlen : v.loopStart.toNat < v.endPos.toNat) :
    sampleSource src v j =
      (rawSample src v
        (v.loopStart.toNat + (j - v.loopStart.toNat) % ((v.endPos.toNat : Int) - v.loopStart.toNat)).toNat : Rat) / 128 := by
  refine sampleSource_of_playIndex (by omega) ?_
  by_cases hend : j < v.endPos.toNat
  · rw [playIndex, if_pos (by omega), Int.emod_eq_of_lt (by omega) (by omega), add_sub_cancel]
  · have hmod : ((j - v.loopStart.toNat) % ((v.endPos.toNat : Int) - v.loopStart.toNat)).toNat =
        (j.toNat - v.loopStart.toNat) % (v.endPos.toNat - v.loopStart.toNat) := by
      rw [Int.toNat_emod (by omega) (by omega), Int.toNat_sub', Int.toNat_sub']
      simp
    rw [playIndex, if_neg (by omega), if_pos hloop, Int.toNat_add (by omega) (Int.emod_nonneg _ (by omega)), hmod,
      Int.toNat_natCast]

/-- The loop repeats with its length (R211). -/
theorem sampleSource_periodic (hstart : v.loopStart.toNat ≤ j) (hloop : v.loop = true)
    (hlen : v.loopStart.toNat < v.endPos.toNat) :
    sampleSource src v (j + (v.endPos.toNat - v.loopStart.toNat)) = sampleSource src v j := by
  rw [sampleSource_in_loop (by omega) hloop hlen, sampleSource_in_loop hstart hloop hlen, add_sub_right_comm,
    Int.add_emod_right]

/-- A decoded sample is a signed byte (R89, R90). -/
theorem rawSample_range (src : Source) (v : PcmVoice) (k : Nat) : -128 ≤ rawSample src v k ∧ rawSample src v k ≤ 127 := by
  have hbyte : ∀ b : BitVec 8, -128 ≤ b.toInt ∧ b.toInt ≤ 127 := by decide
  unfold rawSample
  split <;> exact hbyte _

theorem sampleSource_range (src : Source) (v : PcmVoice) (j : Int) :
    -1 ≤ sampleSource src v j ∧ sampleSource src v j ≤ 127 / 128 := by
  unfold sampleSource
  split
  · norm_num
  · split
    · next k _ =>
      obtain ⟨hlo, hhi⟩ := rawSample_range src v k
      have hlo : (-128 : Rat) ≤ rawSample src v k := by exact_mod_cast hlo
      have hhi : (rawSample src v k : Rat) ≤ 127 := by exact_mod_cast hhi
      constructor <;> linarith
    · norm_num

end sample

/-! ## Synth modes (R213) -/

section synth
variable {cycle : Nat} {v : PcmVoice} {j : Int}

theorem synthSource_pulse (hj : 0 ≤ j) (hmode : v.mode = .synthPulse) :
    synthSource cycle v j = if (j % (cycle : Int)).toNat * 256 < v.synthDuty.toNat * cycle then 1 else -1 := by
  rw [Int.toNat_emod hj (by omega), Int.toNat_natCast, synthSource, if_neg (not_lt.mpr hj), hmode]

theorem synthSource_saw (hj : 0 ≤ j) (hmode : v.mode = .synthSaw) :
    synthSource cycle v j = 2 * ((j % (cycle : Int)).toNat / cycle : Rat) - 1 := by
  rw [Int.toNat_emod hj (by omega), Int.toNat_natCast, synthSource, if_neg (not_lt.mpr hj), hmode]

theorem synthSource_tri (hj : 0 ≤ j) (hmode : v.mode = .synthTri) :
    synthSource cycle v j = 1 - 4 * |((j % (cycle : Int)).toNat / cycle : Rat) - 1 / 2| := by
  have habs : ∀ u : Rat, (if u < 1 / 2 then 1 / 2 - u else u - 1 / 2) = |u - 1 / 2| := fun u => by
    split
    · next h => rw [abs_of_neg (by linarith), neg_sub]
    · next h => rw [abs_of_nonneg (by linarith)]
  rw [Int.toNat_emod hj (by omega), Int.toNat_natCast, synthSource, if_neg (not_lt.mpr hj), hmode, ← habs]

end synth

/-! ## Pulse channels (R255) -/

/-- The duty patterns in the digits of R255. -/
def dutyDigits : List (List Nat) :=
  [[0, 0, 0, 0, 0, 0, 0, 1], [1, 0, 0, 0, 0, 0, 0, 1], [1, 0, 0, 0, 0, 1, 1, 1], [0, 1, 1, 1, 1, 1, 1, 0]]

theorem dutyTable_eq_digits :
    ∀ (duty : BitVec 2) (k : Fin 8),
      tableAt (tableAt dutyTable duty.toNat []) k false = true ↔ (dutyDigits.getD duty.toNat []).getD k 0 = 1 := by
  decide

theorem pulseSource_of_nonneg (duty : BitVec 2) {j : Int} (hj : 0 ≤ j) :
    pulseSource duty j = if (dutyDigits.getD duty.toNat []).getD (j % 8).toNat 0 = 1 then 1 else -1 := by
  have hstep : (j % 8).toNat = j.toNat % 8 := Int.toNat_emod hj (by decide)
  rw [pulseSource, if_neg (not_lt.mpr hj), hstep]
  exact if_congr (dutyTable_eq_digits duty ⟨j.toNat % 8, Nat.mod_lt _ (by decide)⟩) rfl rfl

/-! ## Wave channel (R257, R258) -/

section wave
variable {N : Nat} {j : Int}

theorem tableSource_of_nonneg (hj : 0 ≤ j) (ns : List Nat) (mean : Rat) :
    tableSource N ns mean j = ((ns.getD (j % (N : Int)).toNat 0 : Nat) - mean) / (15 / 2) := by
  rw [Int.toNat_emod hj (by omega), Int.toNat_natCast, tableSource, if_neg (not_lt.mpr hj), tableAt]

/-- A value of the table after a map of its nibbles that keeps 0, the value past the table's end. -/
theorem getD_map_nibbles {f : BitVec 4 → Nat} (hf : f 0 = 0) (ns : List (BitVec 4)) (k : Nat) :
    (ns.map f).getD k 0 = f (ns.getD k 0) := by
  rw [← hf, List.getD_map]

theorem waveSource_plain {accVol accQuant : Bool} (h : accVol = false ∨ accQuant = false) (level : Nat)
    (ns : List (BitVec 4)) (mean : Rat) (hj : 0 ≤ j) :
    waveSource N accVol accQuant level ns mean j = ((ns.getD (j % (N : Int)).toNat 0).toNat - mean) / (15 / 2) := by
  rw [waveSource, if_neg (by obtain h | h := h <;> simp [h]), tableSource_of_nonneg hj,
    getD_map_nibbles rfl]

/-- Q of R258 by the level (R259). -/
theorem quantize_volCode (level x : Nat) :
    quantize (volCode level) x =
      if level ≤ 1 then 0 else if level ≤ 5 then x / 4 else if level ≤ 9 then x / 2
      else if level ≤ 13 then 3 * x / 4 else x := by
  unfold volCode
  split_ifs <;> simp [quantize, Nat.shiftRight_eq_div_pow]

theorem quantize_zero (c : VolCode) : quantize c 0 = 0 := by cases c <;> rfl

theorem waveSource_quantized (level : Nat) (ns : List (BitVec 4)) (mean : Rat) (hj : 0 ≤ j) :
    waveSource N true true level ns mean j =
      (quantize (volCode level) (ns.getD (j % (N : Int)).toNat 0).toNat -
        ((ns.map fun x => quantize (volCode level) x.toNat).sum : Nat) / N) / (15 / 2) := by
  rw [waveSource, Bool.and_self, if_pos rfl, tableSource_of_nonneg hj, getD_map_nibbles (quantize_zero _), tableMean]

end wave

/-! ## A channel's source -/

section channel
variable {a : TickArgs} {src : Source} {c : Chan} {j : Int}

theorem source_of_sample {v : PcmVoice} (hv : c.voice = .pcm v) (hmode : v.mode = .sample ∨ v.mode = .dpcm) :
    c.source a src j = sampleSource src v j := by
  obtain hmode | hmode := hmode <;> simp only [Chan.source, hv, pcmSource, hmode]

theorem source_of_synth {v : PcmVoice} (hv : c.voice = .pcm v)
    (hmode : v.mode = .synthPulse ∨ v.mode = .synthSaw ∨ v.mode = .synthTri) :
    c.source a src j = synthSource a.par.synthCycle v j := by
  obtain hmode | hmode | hmode := hmode <;> simp only [Chan.source, hv, pcmSource, hmode]

theorem source_of_pulse {duty : BitVec 2} (hv : c.voice = .sq2 duty ∨ ∃ sw, c.voice = .sq1 duty sw) :
    c.source a src j = pulseSource duty j := by
  obtain hv | ⟨sw, hv⟩ := hv <;> simp only [Chan.source, hv]

theorem source_of_wave {p : BitVec 32} {ns : List (BitVec 4)} {mean : Rat} (hv : c.voice = .wave p ns mean) :
    c.source a src j = waveSource a.par.waveNibbles a.accVol a.accQuant c.envLevel ns mean j := by
  simp only [Chan.source, hv]

theorem source_of_noise {w : LfsrWidth} (hv : c.voice = .noise w) : c.source a src j = noiseSource w j := by
  simp only [Chan.source, hv]

/-- Before index 0 every source is silent. -/
theorem source_of_neg (hj : j < 0) : c.source a src j = 0 := by
  cases hv : c.voice with
  | pcm v =>
    cases hmode : v.mode with
    | sample => rw [source_of_sample hv (.inl hmode), sampleSource, if_pos hj]
    | dpcm => rw [source_of_sample hv (.inr hmode), sampleSource, if_pos hj]
    | synthPulse => rw [source_of_synth hv (.inl hmode), synthSource, if_pos hj]
    | synthSaw => rw [source_of_synth hv (.inr (.inl hmode)), synthSource, if_pos hj]
    | synthTri => rw [source_of_synth hv (.inr (.inr hmode)), synthSource, if_pos hj]
  | sq1 duty sw => rw [source_of_pulse (.inr ⟨sw, hv⟩), pulseSource, if_pos hj]
  | sq2 duty => rw [source_of_pulse (.inl hv), pulseSource, if_pos hj]
  | wave p ns mean => rw [source_of_wave hv, waveSource]; split <;> rw [tableSource, if_pos hj]
  | noise w => rw [source_of_noise hv, noiseSource, if_pos hj]

end channel

/-- Settles O39, kind by kind. -/
theorem channelSourceRules : Obligations.ChannelSourceRules := by
  intro a src c j
  refine ⟨source_of_neg, fun v hv hmode => ?_, fun v m u hv hj hm hu => ?_, fun duty hv hj => ?_,
    fun p ns mean N n hv hj hN hn => ?_, fun w hv => source_of_noise hv⟩
  · simp only [source_of_sample hv hmode]
    obtain ⟨hlo, hhi⟩ := sampleSource_range src v j
    exact ⟨sampleSource_before_end, sampleSource_ended, fun hend hloop hlen => sampleSource_in_loop (by omega) hloop hlen,
      sampleSource_periodic, hlo, hhi⟩
  · subst hu hm
    refine ⟨fun hmode => ?_, fun hmode => ?_, fun hmode => ?_⟩
    · rw [source_of_synth hv (.inl hmode), synthSource_pulse hj hmode]
    · rw [source_of_synth hv (.inr (.inl hmode)), synthSource_saw hj hmode]
    · rw [source_of_synth hv (.inr (.inr hmode)), synthSource_tri hj hmode]
  · rw [source_of_pulse hv]
    exact pulseSource_of_nonneg duty hj
  · subst hN hn
    refine ⟨fun hplain => ?_, fun hvol hquant Q hQ => ?_⟩
    · rw [source_of_wave hv, waveSource_plain hplain _ _ _ hj]
    · have hQ : Q = quantize (volCode c.envLevel) := funext fun x => (hQ x).trans (quantize_volCode _ x).symm
      rw [source_of_wave hv, hvol, hquant, waveSource_quantized _ _ _ hj, hQ]

end Sys2Proof.Machine
end

