-- ==== Sys2Proof/Proofs/Rates.lean ====
section
/-! The source rates as real numbers, their sign, and the comparisons that clamp the noise rate (R206, R208, R251, R253, R254,
R298). -/

namespace Sys2Proof

/-! ## Comparisons through the floor -/

/-- The floor that the search answers is that of the lower end of an interval, whichever precision it stops at. -/
theorem Alg.floorLoop_eq_lower (a : Alg) (fuel P : Nat) : ∃ P', a.floorLoop fuel P = ⌊(a.bounds P').1⌋ := by
  induction fuel generalizing P with
  | zero => exact ⟨P, rfl⟩
  | succ fuel ih =>
    rw [Alg.floorLoop]
    split
    · exact ⟨P, rfl⟩
    · exact ih _

theorem Alg.floor_eq_lower (a : Alg) : ∃ P, a.floor = ⌊(a.bounds P).1⌋ := a.floorLoop_eq_lower _ _

/-- A number below an integer has its floor below it, even where the search ran out of precision. -/
theorem Alg.floor_lt {a : Alg} (ha : a.wf = true) {m : Int} (h : a.toReal < m) : a.floor < m := by
  obtain ⟨P, hP⟩ := a.floor_eq_lower
  rw [hP, Int.floor_lt]
  have hlo : (((a.bounds P).1 : Rat) : ℝ) < m := (Alg.bounds_enclose ha P).1.trans_lt h
  exact_mod_cast hlo

/-- An integer that no lower end falls below is at most the floor. -/
theorem Alg.le_floor {a : Alg} {m : Int} (h : ∀ P, (m : Rat) ≤ (a.bounds P).1) : m ≤ a.floor := by
  obtain ⟨P, hP⟩ := a.floor_eq_lower
  rw [hP, Int.le_floor]
  exact h P

/-! ## One term q * 2^(k/3072) -/

theorem rpow_bracket {k : Nat} (hk : k < 3072) : (1 : ℝ) ≤ (2 : ℝ) ^ ((k : ℝ) / 3072) ∧ (2 : ℝ) ^ ((k : ℝ) / 3072) < 2 := by
  have hk : (k : ℝ) < 3072 := by exact_mod_cast hk
  exact ⟨Real.one_le_rpow (by norm_num) (by positivity),
    Real.rpow_lt_self_of_one_lt (by norm_num) ((div_lt_one (by norm_num)).mpr hk)⟩

theorem rootLow_bracket {k : Nat} (hk : k < 3072) (P : Nat) : 2 ^ P ≤ rootLow k P ∧ rootLow k P + 1 ≤ 2 * 2 ^ P := by
  obtain ⟨hone, htwo⟩ := rpow_bracket hk
  have hscale : (0 : ℝ) < 2 ^ P := by positivity
  rw [rootLow_eq_floor hk]
  constructor
  · exact Nat.le_floor (by push_cast; nlinarith)
  · exact (Nat.floor_lt (by positivity)).mpr (by push_cast; nlinarith)

/-- The lower end of a positive term is at least its coefficient, that of its negation at least twice the negated one. -/
theorem termBounds_bracket {k : Nat} (hk : k < 3072) {q : Rat} (hq : 0 < q) (P : Nat) :
    q ≤ (termBounds P (k, q)).1 ∧ -(2 * q) ≤ (termBounds P (k, -q)).1 := by
  obtain ⟨hlo, hhi⟩ := rootLow_bracket hk P
  have hlo : (1 : Rat) ≤ rootLow k P / (2 ^ P : Nat) := (one_le_div (by positivity)).mpr (by exact_mod_cast hlo)
  have hhi : ((rootLow k P + 1 : Nat) : Rat) / (2 ^ P : Nat) ≤ 2 := (div_le_iff₀ (by positivity)).mpr (by exact_mod_cast hhi)
  simp only [termBounds]
  split
  · exact ⟨le_rfl, by linarith⟩
  · rw [if_pos hq.le, if_neg (by linarith)]
    exact ⟨by nlinarith, by nlinarith⟩

section single
variable {k : Nat} {q : Rat}

theorem Alg.toReal_single (k : Nat) (q : Rat) : Alg.toReal ⟨[(k, q)]⟩ = q * (2 : ℝ) ^ ((k : ℝ) / 3072) := by
  rw [Alg.toReal_mk, List.map_singleton, List.sum_singleton, termReal]

theorem Alg.wf_single (hk : k < 3072) (hq : q ≠ 0) : Alg.wf ⟨[(k, q)]⟩ = true :=
  (Alg.wf_iff _).mpr ⟨fun _ h => List.mem_singleton.mp h ▸ ⟨hk, hq⟩, List.pairwise_singleton ..⟩

/-- A positive term lies from its coefficient to twice its coefficient, and at the coefficient only for the exponent 0. -/
theorem Alg.toReal_single_bracket (hk : k < 3072) (hq : 0 < q) :
    (q : ℝ) ≤ Alg.toReal ⟨[(k, q)]⟩ ∧ Alg.toReal ⟨[(k, q)]⟩ < 2 * q ∧ (Alg.toReal ⟨[(k, q)]⟩ = q → k = 0) := by
  have hq : (0 : ℝ) < q := by exact_mod_cast hq
  obtain ⟨hone, htwo⟩ := rpow_bracket hk
  rw [Alg.toReal_single]
  refine ⟨by nlinarith, by nlinarith, fun h => ?_⟩
  by_contra hk0
  have hpos : (0 : ℝ) < k := by exact_mod_cast Nat.pos_of_ne_zero hk0
  have hgt : (1 : ℝ) < (2 : ℝ) ^ ((k : ℝ) / 3072) := Real.one_lt_rpow (by norm_num) (by positivity)
  nlinarith

/-- Against an integer that the coefficient reaches, or that twice the coefficient does not exceed, `ltInt` is exact. -/
theorem Alg.ltInt_single (hk : k < 3072) (hq : 0 < q) {n : Int} (hn : (n : Rat) ≤ q ∨ 2 * q ≤ n) :
    Alg.ltInt ⟨[(k, q)]⟩ n = true ↔ Alg.toReal ⟨[(k, q)]⟩ < n := by
  obtain ⟨hlo, hhi, -⟩ := Alg.toReal_single_bracket hk hq
  rw [Alg.ltInt, decide_eq_true_eq]
  obtain hn | hn := hn
  · have hfloor : n ≤ Alg.floor ⟨[(k, q)]⟩ :=
      Alg.le_floor fun P => by simpa [Alg.bounds] using hn.trans (termBounds_bracket hk hq P).1
    have hreal : (n : ℝ) ≤ q := by exact_mod_cast hn
    exact iff_of_false (not_lt.mpr hfloor) (not_lt.mpr (hreal.trans hlo))
  · have hreal : (2 * q : ℝ) ≤ n := by exact_mod_cast hn
    have hlt := hhi.trans_le hreal
    exact iff_of_true (Alg.floor_lt (Alg.wf_single hk hq.ne') hlt) hlt

/-- Against such an integer, a positive one, `leInt` is exact too. -/
theorem Alg.leInt_single (hk : k < 3072) (hq : 0 < q) {n : Int} (hpos : 0 < n) (hn : (n : Rat) ≤ q ∨ 2 * q ≤ n) :
    Alg.leInt ⟨[(k, q)]⟩ n = true ↔ Alg.toReal ⟨[(k, q)]⟩ ≤ n := by
  obtain ⟨hlo, -, heq⟩ := Alg.toReal_single_bracket hk hq
  have hreal : ((Alg.ofRat (n : Rat)).sub ⟨[(k, q)]⟩).toReal = n - Alg.toReal ⟨[(k, q)]⟩ := by
    rw [Alg.toReal_sub, Alg.toReal_ofRat, Rat.cast_intCast]
  rw [Alg.leInt, decide_eq_true_eq]
  refine ⟨fun h => ?_, fun h => ?_⟩
  · by_contra hgt
    have hwf : ((Alg.ofRat (n : Rat)).sub ⟨[(k, q)]⟩).wf = true :=
      Alg.wf_add (Alg.wf_ofRat _) (Alg.wf_smul (Alg.wf_single hk hq.ne'))
    have hneg := Alg.floor_lt hwf (m := 0) (by rw [hreal]; push_cast; linarith)
    omega
  · by_cases hk0 : k = 0
    · have hrational : ((Alg.ofRat (n : Rat)).sub ⟨[(k, q)]⟩).Rational :=
        (Alg.rational_ofRat _).sub fun _ he => List.mem_singleton.mp he ▸ hk0
      rw [Alg.floor_rational hrational, hreal, Int.floor_nonneg]
      linarith
    · have hn : 2 * q ≤ n := hn.resolve_left fun hle => hk0 (heq (le_antisymm (h.trans (by exact_mod_cast hle)) hlo))
      have hterms : (Alg.ofRat (n : Rat)).sub ⟨[(k, q)]⟩ = ⟨[(0, (n : Rat)), (k, -q)]⟩ := by
        have hn0 : (n : Rat) ≠ 0 := by exact_mod_cast hpos.ne'
        simp [Alg.sub, Alg.add, Alg.smul, Alg.ofRat, Alg.insert, hn0, Nat.pos_of_ne_zero hk0]
      rw [hterms]
      refine Alg.le_floor fun P => ?_
      have hlower := (termBounds_bracket hk hq P).2
      simp only [Alg.bounds, List.foldr_cons, List.foldr_nil, termBounds_zero, add_zero, Int.cast_zero]
      linarith

end single

end Sys2Proof

namespace Sys2Proof.Machine

/-! ## The rates (R206, R208, R253) -/

/-- 2^((key − ref) / 12 + pitch / 3072) (R206, R253, R254). -/
theorem toReal_keyRatio (ref : Int) (key : BitVec 7) (pitch : BitVec 16) :
    (keyRatio ref key pitch).toReal = (2 : ℝ) ^ (((key.toNat : ℝ) - ref) / 12 + (pitch.toInt : ℝ) / 3072) := by
  rw [keyRatio, Alg.toReal_exp2]
  congr 1
  push_cast
  ring

theorem toReal_pcmRate_normal {v : PcmVoice} (h : v.fixed = false) (fixedRate : Word) (key : BitVec 7) (pitch : BitVec 16) :
    (pcmRate fixedRate v key pitch).toReal =
      (v.freq.toNat : ℝ) / 1024 * (2 : ℝ) ^ (((key.toNat : ℝ) - 60) / 12 + (pitch.toInt : ℝ) / 3072) := by
  rw [pcmRate, if_neg (by simp [h]), Alg.toReal_smul, toReal_keyRatio]
  push_cast
  rfl

theorem toReal_pcmRate_fixed {v : PcmVoice} (h : v.fixed = true) (fixedRate : Word) (key : BitVec 7) (pitch : BitVec 16) :
    (pcmRate fixedRate v key pitch).toReal = fixedRate.toNat := by
  rw [pcmRate, if_pos h, Alg.toReal_ofRat, Rat.cast_natCast]

theorem toReal_toneFreq (key : BitVec 7) (pitch : BitVec 16) :
    (toneFreq key pitch).toReal = 440 * (2 : ℝ) ^ (((key.toNat : ℝ) - 69) / 12 + (pitch.toInt : ℝ) / 3072) := by
  rw [toneFreq, Alg.toReal_smul, toReal_keyRatio]
  push_cast
  rfl

theorem toneFreq_pos (key : BitVec 7) (pitch : BitVec 16) : 0 < (toneFreq key pitch).toReal := by
  rw [toReal_toneFreq]; positivity

theorem toReal_sq1Freq_swept {sw : Sweep} (h : sw.active = true) (key : BitVec 7) (pitch : BitVec 16) :
    (sq1Freq sw key pitch).toReal = 131072 / (2048 - (sw.reg : ℝ)) := by
  rw [sq1Freq, if_pos h, Alg.toReal_ofRat]
  push_cast
  rfl

theorem sq1Freq_unswept {sw : Sweep} (h : sw.active = false) (key : BitVec 7) (pitch : BitVec 16) :
    sq1Freq sw key pitch = toneFreq key pitch := if_neg (by simp [h])

theorem sq1Freq_pos {sw : Sweep} (h : sw.reg ≤ Config.sweepMax) (key : BitVec 7) (pitch : BitVec 16) :
    0 < (sq1Freq sw key pitch).toReal := by
  cases hactive : sw.active with
  | false => rw [sq1Freq_unswept hactive]; exact toneFreq_pos ..
  | true =>
    have hreg : (sw.reg : ℝ) ≤ 2047 := by exact_mod_cast h
    rw [toReal_sq1Freq_swept hactive]
    exact div_pos (by norm_num) (by linarith)

/-! ## The noise rate (R254) -/

/-- NOISE_BASE times the key ratio, before the clamp. -/
def noiseTone (base : Rat) (key : BitVec 7) (pitch : BitVec 16) : Alg := (keyRatio 60 key pitch).smul base

theorem toReal_noiseTone (base : Rat) (key : BitVec 7) (pitch : BitVec 16) :
    (noiseTone base key pitch).toReal =
      (base : ℝ) * (2 : ℝ) ^ (((key.toNat : ℝ) - 60) / 12 + (pitch.toInt : ℝ) / 3072) := by
  rw [noiseTone, Alg.toReal_smul, toReal_keyRatio]
  push_cast
  rfl

theorem noiseRate_eq (base : Rat) (key : BitVec 7) (pitch : BitVec 16) :
    noiseRate base key pitch =
      if (noiseTone base key pitch).ltInt 4 = true then .ofRat 4
      else if (noiseTone base key pitch).leInt 524288 = true then noiseTone base key pitch
      else .ofRat 524288 := rfl

theorem noiseRate_pos {base : Rat} (h : 0 < base) (key : BitVec 7) (pitch : BitVec 16) :
    0 < (noiseRate base key pitch).toReal := by
  have hbase : (0 : ℝ) < base := by exact_mod_cast h
  have htone : 0 < (noiseTone base key pitch).toReal := by rw [toReal_noiseTone]; positivity
  rw [noiseRate_eq]
  split_ifs
  · simp
  · exact htone
  · simp

/-- With the default NOISE_BASE of 2^12 the tone is one term, whose coefficient is a power of 2. -/
theorem noiseTone_default (key : BitVec 7) (pitch : BitVec 16) :
    ∃ (k : Nat) (z : Int), k < 3072 ∧ noiseTone 4096 key pitch = ⟨[(k, (2 : Rat) ^ z)]⟩ := by
  have hterm : ∀ e : Int, (Alg.exp2 e).smul 4096 = ⟨[((e % 3072).toNat, (2 : Rat) ^ (12 + e / 3072))]⟩ := fun e => by
    rw [zpow_add₀ two_ne_zero, ← pow2_eq (e / 3072)]
    norm_num [Alg.smul, Alg.exp2, Config.pitchSteps]
  exact ⟨_, _, by omega, hterm _⟩

/-- A power of 2 is at most another, or the double of the other is at most it. -/
theorem pow_two_dichotomy (i : Nat) (z : Int) :
    (((2 ^ i : Int) : Int) : Rat) ≤ 2 ^ z ∨ 2 * (2 : Rat) ^ z ≤ ((2 ^ i : Int) : Int) := by
  push_cast
  rw [← zpow_natCast, ← zpow_one_add₀ two_ne_zero]
  obtain h | h := le_or_gt (i : Int) z
  · exact .inl (zpow_le_zpow_right₀ one_le_two h)
  · exact .inr (zpow_le_zpow_right₀ one_le_two (by omega))

/-- The clamp's bounds are powers of 2 too, so both comparisons with the default tone are exact. -/
theorem toReal_noiseRate_default (key : BitVec 7) (pitch : BitVec 16) :
    (noiseRate 4096 key pitch).toReal = max 4 (min 524288 (noiseTone 4096 key pitch).toReal) := by
  obtain ⟨k, z, hk, htone⟩ := noiseTone_default key pitch
  have hq : (0 : Rat) < 2 ^ z := by positivity
  have hlt := Alg.ltInt_single hk hq (pow_two_dichotomy 2 z)
  have hle := Alg.leInt_single hk hq (by decide) (pow_two_dichotomy 19 z)
  rw [← htone] at hlt hle
  norm_num at hlt hle
  rw [noiseRate_eq]
  split_ifs with h4 hmax
  · rw [hlt] at h4
    rw [max_eq_left ((min_le_right _ _).trans h4.le), Alg.toReal_ofRat]
    norm_num
  · rw [hlt, not_lt] at h4
    rw [min_eq_right (hle.mp hmax), max_eq_right h4]
  · rw [hle, not_le] at hmax
    rw [min_eq_left hmax.le, Alg.toReal_ofRat]
    norm_num

/-! ## The rate of a channel -/

section channel
variable {p : Config.Params} {fixedRate : Word} {c : Chan}

theorem rateHz_of_pcm {v : PcmVoice} (hv : c.voice = .pcm v) : c.rateHz p fixedRate = pcmRate fixedRate v c.key c.pitch := by
  simp only [Chan.rateHz, hv]

theorem toReal_rateHz_of_sq1 {duty : BitVec 2} {sw : Sweep} (hv : c.voice = .sq1 duty sw) :
    (c.rateHz p fixedRate).toReal = 8 * (sq1Freq sw c.key c.pitch).toReal := by
  simp only [Chan.rateHz, hv, Alg.toReal_smul, Rat.cast_ofNat]

theorem toReal_rateHz_of_sq2 {duty : BitVec 2} (hv : c.voice = .sq2 duty) :
    (c.rateHz p fixedRate).toReal = 8 * (toneFreq c.key c.pitch).toReal := by
  simp only [Chan.rateHz, hv, Alg.toReal_smul, Rat.cast_ofNat]

theorem toReal_rateHz_of_wave {w : BitVec 32} {ns : List (BitVec 4)} {m : Rat} (hv : c.voice = .wave w ns m) :
    (c.rateHz p fixedRate).toReal = p.waveNibbles * (toneFreq c.key c.pitch).toReal := by
  simp only [Chan.rateHz, hv, Alg.toReal_smul, Rat.cast_natCast]

theorem rateHz_of_noise {w : LfsrWidth} (hv : c.voice = .noise w) :
    c.rateHz p fixedRate = noiseRate p.noiseBase c.key c.pitch := by
  simp only [Chan.rateHz, hv]

theorem pcmRate_pos {v : PcmVoice} (hv : v.fixed = false → v.freq ≠ 0) (hrate : fixedRate ≠ 0) (key : BitVec 7)
    (pitch : BitVec 16) : 0 < (pcmRate fixedRate v key pitch).toReal := by
  have hpos : ∀ w : Word, w ≠ 0 → (0 : ℝ) < w.toNat := fun w hw =>
    Nat.cast_pos.mpr (Nat.pos_of_ne_zero fun h => hw (BitVec.eq_of_toNat_eq h))
  cases hfixed : v.fixed with
  | true => rw [toReal_pcmRate_fixed hfixed]; exact hpos _ hrate
  | false =>
    have hfreq := hpos _ (hv hfixed)
    rw [toReal_pcmRate_normal hfixed]
    positivity

/-- R298: a channel in its ranges has a positive rate. -/
theorem rateHz_pos (hbase : 0 < p.noiseBase) (hnibbles : 1 ≤ p.waveNibbles) (hsound : c.voice.Sound p)
    (hrate : fixedRate ≠ 0) : 0 < (c.rateHz p fixedRate).toReal := by
  have htone := toneFreq_pos c.key c.pitch
  cases hv : c.voice with
  | pcm v =>
    rw [hv] at hsound
    rw [rateHz_of_pcm hv]
    exact pcmRate_pos hsound.1 hrate _ _
  | sq1 duty sw =>
    rw [hv] at hsound
    rw [toReal_rateHz_of_sq1 hv]
    exact mul_pos (by norm_num) (sq1Freq_pos hsound.1 _ _)
  | sq2 duty => rw [toReal_rateHz_of_sq2 hv]; exact mul_pos (by norm_num) htone
  | wave w ns m => rw [toReal_rateHz_of_wave hv]; exact mul_pos (Nat.cast_pos.mpr hnibbles) htone
  | noise w => rw [rateHz_of_noise hv]; exact noiseRate_pos hbase _ _

end channel

/-- Settles O43: each rate by its type; only the noise clamp compares, exactly where its base is the default. -/
theorem ratesAreTheFormulas : Obligations.RatesAreTheFormulas := by
  refine ⟨fun fixedRate v key pitch => ⟨fun h => toReal_pcmRate_normal h .., fun h => toReal_pcmRate_fixed h ..⟩,
    toReal_toneFreq, fun p fixedRate c => ⟨fun v hv => rateHz_of_pcm hv, fun duty sw hv hsw => ?_, fun duty sw hv hsw => ?_,
      fun duty hv => toReal_rateHz_of_sq2 hv, fun w ns m hv => toReal_rateHz_of_wave hv, fun w x hv hx => ?_, rateHz_pos⟩⟩
  · rw [toReal_rateHz_of_sq1 hv, sq1Freq_unswept hsw]
  · rw [toReal_rateHz_of_sq1 hv, toReal_sq1Freq_swept hsw]
  · rw [rateHz_of_noise hv, hx, ← toReal_noiseTone]
    refine ⟨⟨_, Alg.wf_smul (Alg.wf_exp2 _), rfl, noiseRate_eq ..⟩, fun hbase => ?_⟩
    rw [hbase]
    exact toReal_noiseRate_default ..

end Sys2Proof.Machine
end

