-- ==== Sys2Proof/Proofs/ToneStarts.lean ====
section
/-! The four tone-generator starts: the procedure they share (R240 to R242, R247, R248), then the payload of each (R243, R244,
R246, R250, R251). -/

namespace Sys2Proof.Machine

/-! ## The common procedure (R240, R241, R247, R248) -/

/-- What an accepted tone-generator start with payload v leaves: the record of its slot, the stolen voices, and the frame. -/
structure ToneStarted (slot track : BitVec 8) (n : Note) (v : Voice) (s t : State) : Prop where
  frame : OnlySlots s t
  stolen : Stolen s.cfg.mixopt.cgbPoly v.type slot.toNat s t
  started : Started track n (t.chan slot.toNat)
  clamped : (t.chan slot.toNat).ClampedFrom n
  pan : (t.chan slot.toNat).PanRuled
  voice : (t.chan slot.toNat).voice = v
  rsKind : (t.chan slot.toNat).rsKind = cgbResampler v

theorem cgbResampler_eq (v : Voice) : cgbResampler v = if v.type = .noise then .nearest else .blep := by cases v <;> rfl

section common
variable {i : Instr} {slot track : BitVec 8} {n : Note} {v : Voice} {s : State}

/-- Stealing the voices and writing the new record is the common procedure. -/
theorem toneStarted_setChan (hstart : startError slot track n s = none) (hv : v.type ≠ .pcm) :
    ToneStarted slot track n v s ((stealVoices v.type slot.toNat s).setChan slot.toNat (newCgb track n v)) := by
  obtain ⟨hslot, -, -, hkey, hvelocity, -⟩ := startError_none hstart
  obtain ⟨hstarted, hclamped, hpan, hvoice, hkind⟩ := newCgb_spec track n v hv hkey hvelocity
  have hchan : ((stealVoices v.type slot.toNat s).setChan slot.toNat (newCgb track n v)).chan slot.toNat = newCgb track n v :=
    State.chan_setChan_self _ (by rwa [chSlots_stealVoices]) _
  rw [← hchan] at hstarted hclamped hpan hvoice hkind
  exact ⟨onlySlots_stealVoices .., stolen_setChan _ _ _ _, hstarted, hclamped, hpan, hvoice, hkind⟩

/-- A tone-generator start whose checks pass completes with the common procedure. -/
theorem exec_startsTone {T : ChType}
    (hx : exec i s = .next (s.afterError (commandError i s)
      ((stealVoices T slot.toNat s).setChan slot.toNat (newCgb track n v))))
    (hv : v.type = T) (hT : T ≠ .pcm) (hok : commandError i s = none) (hstart : startError slot track n s = none) :
    ∃ t, exec i s = .next t ∧ ToneStarted slot track n v s t := by
  subst hv
  exact ⟨_, by rw [hx, hok, State.afterError], toneStarted_setChan hstart hT⟩

end common

section each
variable {slot track rsv : BitVec 8} {n : Note} {s : State}

theorem exec_chStartSq1_accepted {sweep : BitVec 8} {duty : BitVec 2} {rsv5 : BitVec 22}
    (hok : commandError (.chStartSq1 slot track rsv n sweep duty rsv5) s = none) :
    ∃ t, exec (.chStartSq1 slot track rsv n sweep duty rsv5) s = .next t ∧
      ToneStarted slot track n (sq1Voice n sweep duty) s t :=
  exec_startsTone (exec_chStartSq1 ..) rfl (by decide) hok (none_of_reserved hok).2

theorem exec_chStartSq2_accepted {duty : BitVec 2} {rsv5 : BitVec 30}
    (hok : commandError (.chStartSq2 slot track rsv n duty rsv5) s = none) :
    ∃ t, exec (.chStartSq2 slot track rsv n duty rsv5) s = .next t ∧ ToneStarted slot track n (.sq2 duty) s t :=
  exec_startsTone (exec_chStartSq2 ..) rfl (by decide) hok (none_of_reserved hok).2

theorem exec_chStartWave_accepted {wavePos : BitVec 32} (hok : commandError (.chStartWave slot track rsv n wavePos) s = none) :
    ∃ t, exec (.chStartWave slot track rsv n wavePos) s = .next t ∧
      ToneStarted slot track n (waveVoice s.par.waveNibbles s.src wavePos) s t :=
  exec_startsTone (exec_chStartWave ..) rfl (by decide) hok (or_eq_none (none_of_reserved hok).2).1

theorem exec_chStartNoise_accepted {width7 : Bool} {rsv5 : BitVec 31}
    (hok : commandError (.chStartNoise slot track rsv n width7 rsv5) s = none) :
    ∃ t, exec (.chStartNoise slot track rsv n width7 rsv5) s = .next t ∧
      ToneStarted slot track n (.noise (lfsrWidth width7)) s t :=
  exec_startsTone (exec_chStartNoise ..) rfl (by decide) hok (none_of_reserved hok).2

/-- Each accepted tone-generator start is the common procedure with some payload of its type. -/
theorem exec_accepted_of_cgbOperands {i : Instr} {T : ChType} (hops : cgbOperands i = some (T, slot, track, n))
    (hok : commandError i s = none) : ∃ t v, exec i s = .next t ∧ v.type = T ∧ ToneStarted slot track n v s t := by
  cases i <;> cases hops
  case chStartSq1 => exact (exec_chStartSq1_accepted hok).imp fun _ ⟨hnext, htone⟩ => ⟨_, hnext, rfl, htone⟩
  case chStartSq2 => exact (exec_chStartSq2_accepted hok).imp fun _ ⟨hnext, htone⟩ => ⟨_, hnext, rfl, htone⟩
  case chStartWave => exact (exec_chStartWave_accepted hok).imp fun _ ⟨hnext, htone⟩ => ⟨_, hnext, rfl, htone⟩
  case chStartNoise => exact (exec_chStartNoise_accepted hok).imp fun _ ⟨hnext, htone⟩ => ⟨_, hnext, rfl, htone⟩

end each

/-- Settles O16: the common procedure, whatever the payload. -/
theorem cgbStartCommonProcedure : Obligations.CgbStartCommonProcedure := by
  intro i T slot track n s hops
  refine ⟨rejects i s, fun hok => ?_⟩
  obtain ⟨t, v, hnext, rfl, htone⟩ := exec_accepted_of_cgbOperands hops hok
  exact ⟨t, hnext, htone.frame, htone.stolen, htone.started, htone.clamped, htone.pan, congrArg Voice.type htone.voice,
    htone.rsKind.trans (cgbResampler_eq v)⟩

/-- Settles O18: the payload is the command's own field. -/
theorem sq2AndNoiseStartPayload : Obligations.Sq2AndNoiseStartPayload := by
  intro slot track rsv n s
  refine ⟨fun duty rsv5 => ⟨rejects _ s, fun hok => ?_⟩, fun width7 rsv5 => ⟨rejects _ s, fun hok => ?_⟩⟩
  · obtain ⟨t, hnext, htone⟩ := exec_chStartSq2_accepted hok
    exact ⟨t, hnext, htone.voice, htone.started, htone.stolen, htone.frame⟩
  · obtain ⟨t, hnext, htone⟩ := exec_chStartNoise_accepted hok
    exact ⟨t, hnext, htone.voice, htone.started, htone.stolen, htone.frame⟩

/-! ## The sweep of SQ1 (R243, R251) -/

theorem sweepTime_eq (byte : BitVec 8) : sweepTime byte = byte.toNat / 16 % 8 := by
  simp [sweepTime, Nat.shiftRight_eq_div_pow]

theorem sweepShift_eq (byte : BitVec 8) : sweepShift byte = byte.toNat % 8 := by
  simp [sweepShift]

theorem sweepInit_active_iff (byte : BitVec 8) (key : BitVec 7) (pitch : BitVec 16) :
    (sweepInit byte key pitch).active = true ↔ byte.toNat / 16 % 8 ≠ 0 ∧ byte.toNat % 8 ≠ 0 := by
  simp [sweepInit, sweepTime_eq, sweepShift_eq]

theorem sweepInit_reg_of_active {byte : BitVec 8} {key : BitVec 7} {pitch : BitVec 16}
    (h : (sweepInit byte key pitch).active = true) : (sweepInit byte key pitch).reg = sweepStart key pitch := if_pos h

/-- The number whose floor, clamped, is the first register: 2048 − 131072 / f0 and a half, for rounding half up (R251). -/
def sweepTarget (key : BitVec 7) (pitch : BitVec 16) : Alg :=
  (Alg.ofRat (2048 + 1 / 2)).sub ((Alg.exp2 (-(256 * ((key.toNat : Int) - 69) + pitch.toInt))).smul (131072 / 440))

theorem sweepStart_eq (key : BitVec 7) (pitch : BitVec 16) :
    (sweepStart key pitch : Int) = min 2047 (max 0 (sweepTarget key pitch).floor) := by
  have hnonneg : 0 ≤ clampInt (sweepTarget key pitch).floor 0 2047 := le_min (by decide) (le_max_left _ _)
  exact Int.toNat_of_nonneg hnonneg

theorem wf_sweepTarget (key : BitVec 7) (pitch : BitVec 16) : (sweepTarget key pitch).wf = true :=
  Alg.wf_add (Alg.wf_ofRat _) (Alg.wf_smul (Alg.wf_smul (Alg.wf_exp2 _)))

theorem toReal_sweepTarget (key : BitVec 7) (pitch : BitVec 16) :
    (sweepTarget key pitch).toReal = 2048 - 131072 / (toneFreq key pitch).toReal + 1 / 2 := by
  have hexp : ((-(256 * ((key.toNat : Int) - 69) + pitch.toInt) : Int) : ℝ) / 3072 =
      -(((key.toNat : ℝ) - 69) / 12 + (pitch.toInt : ℝ) / 3072) := by
    push_cast
    ring
  rw [toReal_toneFreq, sweepTarget, Alg.toReal_sub, Alg.toReal_smul, Alg.toReal_ofRat, Alg.toReal_exp2, hexp,
    Real.rpow_neg two_pos.le]
  push_cast
  field_simp
  ring

/-- Settles O17: the sweep starts as `sweepInit` leaves it, and its register is the clamped floor of `sweepTarget`. -/
theorem sq1StartPayload : Obligations.Sq1StartPayload := by
  intro slot track rsv n sweep duty rsv5 s hok
  obtain ⟨t, hnext, htone⟩ := exec_chStartSq1_accepted hok
  obtain ⟨hreg, -, -⟩ := sound_sq1Voice s.par n sweep duty
  refine ⟨t, _, hnext, htone.voice, rfl, rfl, hreg, sweepInit_active_iff .., fun hactive f0 hf0 => ?_⟩
  obtain ⟨-, -, -, hkey, -, -⟩ := startError_none (none_of_reserved hok).2
  have hkey : (n.key.setWidth 7).toNat = n.key.toNat := by rw [BitVec.toNat_setWidth]; omega
  have hreal := toReal_sweepTarget (n.key.setWidth 7) n.pitch
  rw [toReal_toneFreq, hkey, ← hf0] at hreal
  have hstart := sweepStart_eq (n.key.setWidth 7) n.pitch
  rw [← sweepInit_reg_of_active hactive] at hstart
  refine ⟨sweepTarget (n.key.setWidth 7) n.pitch, wf_sweepTarget .., hreal, hstart, fun hagree => ?_⟩
  obtain ⟨-, hfloor⟩ := floorIsReadFromAnEnclosure _ (wf_sweepTarget (n.key.setWidth 7) n.pitch)
  rw [hstart, ← hreal]
  congr 2
  exact hfloor 32 hagree _

/-! ## The table of WAVE (R92, R246, R256) -/

section waveTable
variable {N : Nat} {src : Source} {wavePos : Nat}

theorem length_waveTable (N : Nat) (src : Source) (wavePos : Nat) : (waveTable N src wavePos).length = N := by
  simp [waveTable]

/-- Nibble k of a byte that the source holds, the high one first (R92). -/
theorem waveNibble_spec {k : Nat} (h : wavePos + k / 2 < src.size) :
    ∃ b, src.memRead (wavePos + k / 2) 1 = some b ∧
      (waveNibble src wavePos k).toNat = if k % 2 = 0 then b / 16 else b % 16 := by
  refine ⟨_, src.memRead_one h, ?_⟩
  rw [waveNibble, apply_ite BitVec.toNat]
  have hbyte := dpcmNibble_eq (src.playByte (wavePos + k / 2)) k
  rw [dpcmNibble] at hbyte
  split_ifs at hbyte ⊢ <;> omega

theorem getD_waveTable {k : Nat} (hk : k < N) : (waveTable N src wavePos).getD k 0 = waveNibble src wavePos k := by
  rw [waveTable, getD_map _ _ (by simpa using hk) 0]
  simp [hk]

/-- One cycle of a table from any index on holds the table's values, in a rotated order. -/
theorem map_range_getD_rotated {α : Type} (xs : List α) (d : α) (j : Nat) :
    ((List.range xs.length).map fun k => xs.getD ((j + k) % xs.length) d) = xs.rotate j := by
  apply List.ext_getElem (by simp)
  intro k h1 h2
  have hk : (k + j) % xs.length < xs.length := Nat.mod_lt _ (by simp at h1; omega)
  simp [List.getElem_rotate, Nat.add_comm j k, List.getD_eq_getElem?_getD, List.getElem?_eq_getElem hk]

theorem sum_map_deviation (ns : List (BitVec 4)) (mean scale : Rat) :
    (ns.map fun x => ((x.toNat : Rat) - mean) / scale).sum = (((ns.map BitVec.toNat).sum : Nat) - ns.length * mean) / scale := by
  induction ns with
  | nil => simp
  | cons x ns ih =>
    simp only [List.map_cons, List.sum_cons, List.length_cons, ih]
    push_cast
    ring

/-- Over one cycle from any index on the deviations from the mean cancel (R256, R257). -/
theorem sum_waveSource_cycle (ns : List (BitVec 4)) {j : Int} (hj : 0 ≤ j) :
    ((List.range ns.length).map fun k : Nat =>
      waveSource ns.length false false 0 ns (tableMean ns.length (ns.map BitVec.toNat)) (j + (k : Int))).sum = 0 := by
  obtain ⟨j, rfl⟩ := Int.eq_ofNat_of_zero_le hj
  set mean := tableMean ns.length (ns.map BitVec.toNat) with hmean
  have hvalue : ∀ k : Nat, waveSource ns.length false false 0 ns mean ((j : Int) + k) =
      ((ns.getD ((j + k) % ns.length) 0).toNat - mean) / (15 / 2) := fun k => by
    rw [waveSource_plain (.inl rfl) _ _ _ (by omega)]
    rfl
  have hcycle : ((List.range ns.length).map fun k : Nat => waveSource ns.length false false 0 ns mean ((j : Int) + k)) =
      (ns.rotate j).map fun x => ((x.toNat : Rat) - mean) / (15 / 2) := by
    rw [← map_range_getD_rotated ns 0 j, List.map_map]
    exact List.map_congr_left fun k _ => hvalue k
  rw [hcycle, ((List.rotate_perm ns j).map _).sum_eq, sum_map_deviation, hmean, tableMean]
  obtain rfl | hne := eq_or_ne ns []
  · simp
  · have hlen : (ns.length : Rat) ≠ 0 := Nat.cast_ne_zero.mpr (List.length_pos_iff.mpr hne).ne'
    rw [mul_div_cancel₀ _ hlen, sub_self, zero_div]

end waveTable

theorem validRange_of_chStartWave {slot track rsv : BitVec 8} {n : Note} {wavePos : BitVec 32} {s : State}
    (hok : commandError (.chStartWave slot track rsv n wavePos) s = none) :
    wavePos.toNat + s.par.waveNibbles / 2 ≤ s.src.size := by
  obtain ⟨hrange, -⟩ := check_eq_none.mp (or_eq_none (none_of_reserved hok).2).2
  omega

/-- Settles O19: the payload is `waveVoice`, whose table the checks found inside the source. -/
theorem waveStartCopiesTable : Obligations.WaveStartCopiesTable := by
  rintro slot track rsv n wavePos s N rfl
  refine ⟨rejects _ s, fun hok => ?_⟩
  obtain ⟨t, hnext, htone⟩ := exec_chStartWave_accepted hok
  have hrange := validRange_of_chStartWave hok
  have hlen := length_waveTable s.par.waveNibbles s.src wavePos.toNat
  refine ⟨t, waveTable s.par.waveNibbles s.src wavePos.toNat, _, hnext, htone.voice, hlen, fun heven k hk => ?_, rfl,
    fun j hj => ?_, htone.started, htone.stolen, htone.frame⟩
  · rw [getD_waveTable hk]
    exact waveNibble_spec (by omega)
  · have hsum := sum_waveSource_cycle (waveTable s.par.waveNibbles s.src wavePos.toNat) hj
    rwa [hlen] at hsum

end Sys2Proof.Machine
end

