-- ==== Sys2Proof/Proofs/SweepConvergence.lean ====
section
/-! The sweep of SQ1 over time: its register moves one way inside its range and converges, its clock keeps a remainder (R251). -/

namespace Sys2Proof.Machine

/-! ## The steps of the register -/

section register
variable {byte : BitVec 8} {x : Nat}

theorem sweepStep_up (h : sweepDown byte = false) (x : Nat) :
    sweepStep byte x = min 2047 (x + x / 2 ^ sweepShift byte) := by
  rw [sweepStep, if_neg (by simp [h]), Nat.shiftRight_eq_div_pow, Config.sweepMax]

theorem sweepStep_down (h : sweepDown byte = true) (x : Nat) : sweepStep byte x = x - x / 2 ^ sweepShift byte := by
  rw [sweepStep, if_pos h, Nat.shiftRight_eq_div_pow]

/-- Ascending, the register does not fall. -/
theorem le_sweepSteps_up (h : sweepDown byte = false) (k : Nat) (hx : x ≤ 2047) : x ≤ sweepSteps byte k x := by
  induction k generalizing x with
  | zero => exact le_rfl
  | succ k ih =>
    have hstep : x ≤ sweepStep byte x := by rw [sweepStep_up h]; exact le_min hx (Nat.le_add_right _ _)
    exact hstep.trans (ih (sweepStep_le byte hx))

/-- Descending, the register does not rise. -/
theorem sweepSteps_down_le (h : sweepDown byte = true) (k : Nat) : sweepSteps byte k x ≤ x := by
  induction k generalizing x with
  | zero => exact le_rfl
  | succ k ih =>
    have hstep : sweepStep byte x ≤ x := by rw [sweepStep_down h]; exact Nat.sub_le _ _
    exact ih.trans hstep

/-- Ascending from 2^shift on, each step adds at least 1 up to the end of the range. -/
theorem sweepSteps_up_progress (h : sweepDown byte = false) (k : Nat) (hlo : 2 ^ sweepShift byte ≤ x) (hx : x ≤ 2047) :
    min 2047 (x + k) ≤ sweepSteps byte k x := by
  induction k generalizing x with
  | zero => exact Nat.min_le_right _ _
  | succ k ih =>
    have hmoves : 1 ≤ x / 2 ^ sweepShift byte := (Nat.one_le_div_iff (by positivity)).mpr hlo
    have hstep := sweepStep_up h x
    have hrest := ih (x := sweepStep byte x) (by omega) (sweepStep_le byte hx)
    show min 2047 (x + (k + 1)) ≤ sweepSteps byte k (sweepStep byte x)
    omega

/-- Descending, each step takes at least 1 away until the register is below 2^shift. -/
theorem sweepSteps_down_progress (h : sweepDown byte = true) (k : Nat) :
    sweepSteps byte k x < 2 ^ sweepShift byte ∨ sweepSteps byte k x + k ≤ x := by
  induction k generalizing x with
  | zero => exact .inr le_rfl
  | succ k ih =>
    obtain hlow | hhigh := lt_or_ge x (2 ^ sweepShift byte)
    · exact .inl ((sweepSteps_down_le h _).trans_lt hlow)
    · have hmoves : 1 ≤ x / 2 ^ sweepShift byte := (Nat.one_le_div_iff (by positivity)).mpr hhigh
      have hle : x / 2 ^ sweepShift byte ≤ x := Nat.div_le_self _ _
      have hstep := sweepStep_down h x
      obtain hrest | hrest := ih (x := sweepStep byte x)
      · exact .inl hrest
      · refine .inr ?_
        show sweepSteps byte k (sweepStep byte x) + (k + 1) ≤ x
        omega

end register

/-! ## The clock -/

/-- The clock of an active sweep in a tick: it gains TICK_LEN * 128 / rate, then loses k whole sweep times, with k steps of the
register. -/
theorem tick_of_active {sw : Sweep} (h : sw.active = true) (n : Nat) (rate : Word) :
    ∃ k : Nat, k = ⌊(sw.acc + n * 128 / rate.toNat) / sweepTime sw.byte⌋₊ ∧
      (sw.tick n rate).reg = sweepSteps sw.byte k sw.reg ∧
      (sw.tick n rate).acc = sw.acc + n * 128 / rate.toNat - k * sweepTime sw.byte := by
  refine ⟨_, rfl, ?_⟩
  rw [Sweep.tick, if_pos h]
  push_cast
  exact ⟨rfl, rfl⟩

/-- Once as many whole sweep times as fit are taken out, less than one is left. -/
theorem sub_floor_mul_lt {acc : Rat} {time : Nat} (h : time ≠ 0) : acc - (⌊acc / time⌋₊ : Rat) * time < time := by
  have htime : (0 : Rat) < time := Nat.cast_pos.mpr (Nat.pos_of_ne_zero h)
  have hfloor := (div_lt_iff₀ htime).mp (Nat.lt_floor_add_one (acc / time))
  linarith

/-- Settles O42: each step moves the register by at least 1 until it is where it converges, so 2047 or 2048 steps suffice; the
clock keeps a remainder. -/
theorem sweepConverges : Obligations.SweepConverges := by
  refine ⟨fun byte x k hx => ⟨sweepSteps_le byte k hx, fun hup => le_sweepSteps_up hup k hx, fun hdown =>
    sweepSteps_down_le hdown k⟩, fun byte x hx _ => ?_, fun n rate sw hactive htime _ hacc => ?_⟩
  · rw [← sweepShift_eq]
    refine ⟨fun hup hlo => ⟨2047, fun k hk => ?_⟩, fun hdown => ⟨2048, fun k hk => ?_⟩⟩
    · have hprogress := sweepSteps_up_progress hup k hlo hx
      have hmax : sweepSteps byte k x ≤ 2047 := sweepSteps_le byte k hx
      omega
    · exact (sweepSteps_down_progress hdown k).resolve_right (by omega)
  · rw [← sweepTime_eq] at htime ⊢
    obtain ⟨k, hk, hreg, hclock⟩ := tick_of_active hactive n rate
    refine ⟨k, hreg, by rw [hclock, sub_add_cancel], ?_, ?_⟩
    · rw [hclock, hk]
      exact sub_floor_mul_nonneg (by positivity) _
    · rw [hclock, hk]
      exact sub_floor_mul_lt htime

end Sys2Proof.Machine
end

