-- ==== Sys2Proof/Proofs/NoisePeriods.lean ====
section
/-! The noise LFSR: its register as a window on a sequence of bits, the doubling of that sequence's recurrence, and the two
periods (R262).

Bit j + w of the sequence is bit j XOR bit j + 1, that is x^w = 1 + x over the field of two elements; squaring such a relation
again and again leads to x^(2^w) = x. -/

namespace Sys2Proof.Machine

/-! ## The register as a window on a bit sequence -/

section window
variable {w : Nat}

theorem two_pow_width (hw : 0 < w) : 2 ^ w = 2 * 2 ^ (w - 1) := (mul_pow_sub_one hw.ne' 2).symm

/-- R262 in arithmetic: half the register, and the top bit where the two low bits differ. -/
theorem lfsrNext_eq {r : Nat} (hw : 0 < w) (h : r < 2 ^ w) :
    lfsrNext w r = r / 2 + if r % 2 = r / 2 % 2 then 0 else 2 ^ (w - 1) := by
  have hhalf : r / 2 < 2 ^ (w - 1) := by
    have hpow := two_pow_width hw
    omega
  rw [lfsrNext, Nat.shiftRight_eq_div_pow, pow_one, Nat.or_comm, ← Nat.shiftLeft_add_eq_or_of_lt hhalf, Nat.shiftLeft_eq,
    add_comm]
  obtain h0 | h0 := Nat.mod_two_eq_zero_or_one r <;> obtain h1 | h1 := Nat.mod_two_eq_zero_or_one (r / 2) <;> simp [h0, h1]

theorem lfsrNext_lt {r : Nat} (hw : 0 < w) (h : r < 2 ^ w) : lfsrNext w r < 2 ^ w := by
  have hpow := two_pow_width hw
  rw [lfsrNext_eq hw h]
  split <;> omega

theorem lfsrState_lt (hw : 0 < w) (j : Nat) : lfsrState w j < 2 ^ w := by
  induction j with
  | zero => exact Nat.sub_lt (by positivity) one_pos
  | succ j ih => exact lfsrNext_lt hw ih

/-- Bit j of the sequence is the low bit of r_j. -/
def lfsrBit (w j : Nat) : Bool := (lfsrState w j).testBit 0

theorem testBit_lfsrNext (r : Nat) {i : Nat} (hi : i + 1 < w) : (lfsrNext w r).testBit i = r.testBit (i + 1) := by
  have hlow : ¬i ≥ w - 1 := by omega
  simp [lfsrNext, Nat.testBit_shiftLeft, hlow, add_comm 1 i]

theorem testBit_lfsrNext_top {r : Nat} (hw : 0 < w) (h : r < 2 ^ w) :
    (lfsrNext w r).testBit (w - 1) = (r.testBit 0 ^^ r.testBit 1) := by
  have hout : r.testBit (1 + (w - 1)) = false := Nat.testBit_lt_two_pow (by rwa [Nat.add_sub_cancel' hw])
  have hfeed : ∀ x y : Nat, (x % 2 ^^^ y % 2).testBit 0 = (x.testBit 0 ^^ y.testBit 0) := fun x y => by
    rw [Nat.testBit_xor]; simp [Nat.testBit_zero]
  rw [lfsrNext, Nat.testBit_or, Nat.testBit_shiftRight, hout, Nat.testBit_shiftLeft]
  simp only [ge_iff_le, le_refl, decide_true, Nat.sub_self, Bool.true_and, Bool.false_or, hfeed, Nat.testBit_shiftRight, add_zero]

/-- Bit i of r_j is bit j + i of the sequence. -/
theorem testBit_lfsrState {i : Nat} (hi : i < w) (j : Nat) : (lfsrState w j).testBit i = lfsrBit w (j + i) := by
  induction i generalizing j with
  | zero => rfl
  | succ i ih => rw [← testBit_lfsrNext _ hi, ← add_assoc, add_right_comm]; exact ih (by omega) (j + 1)

/-- The recurrence of the sequence. -/
theorem lfsrBit_add_width (hw : 1 < w) (j : Nat) : lfsrBit w (j + w) = (lfsrBit w j ^^ lfsrBit w (j + 1)) := by
  have hpos : 0 < w := by omega
  have htop := testBit_lfsrNext_top hpos (lfsrState_lt hpos j)
  rw [testBit_lfsrState hpos, testBit_lfsrState hw] at htop
  have hwindow := testBit_lfsrState (show w - 1 < w by omega) (j + 1)
  rw [show j + 1 + (w - 1) = j + w by omega] at hwindow
  exact hwindow.symm.trans htop

/-- Registers are equal where their windows are. -/
theorem lfsrState_eq_of_bits (hw : 0 < w) {j k : Nat} (h : ∀ i, lfsrBit w (j + i) = lfsrBit w (k + i)) :
    lfsrState w j = lfsrState w k := by
  apply Nat.eq_of_testBit_eq
  intro i
  by_cases hi : i < w
  · rw [testBit_lfsrState hi, testBit_lfsrState hi, h]
  · have hle : 2 ^ w ≤ 2 ^ i := Nat.pow_le_pow_right two_pos (by omega)
    rw [Nat.testBit_lt_two_pow ((lfsrState_lt hw j).trans_le hle), Nat.testBit_lt_two_pow ((lfsrState_lt hw k).trans_le hle)]

end window

/-! ## Squaring a relation of the sequence -/

/-- The sequence b satisfies x^p = x^q + x^r over the field of two elements. -/
def BitRelation (b : Nat → Bool) (p q r : Nat) : Prop := ∀ j, b (j + p) = (b (j + q) ^^ b (j + r))

section relation
variable {b : Nat → Bool} {p q r : Nat}

theorem BitRelation.shift (h : BitRelation b p q r) (d : Nat) : BitRelation b (d + p) (d + q) (d + r) := fun j => by
  simpa only [add_assoc] using h (j + d)

/-- Squaring drops the mixed term, which occurs twice. -/
theorem BitRelation.double (h : BitRelation b p q r) : BitRelation b (2 * p) (2 * q) (2 * r) := fun j => by
  have hq := h (j + q)
  have hr := h (j + r)
  rw [add_right_comm] at hq hr
  rw [two_mul, ← add_assoc, h, hq, hr, add_right_comm j r q, two_mul, two_mul, ← add_assoc, ← add_assoc]
  cases b (j + q + r) <;> simp

theorem BitRelation.pow_two (h : BitRelation b p q r) (m : Nat) : BitRelation b (2 ^ m * p) (2 ^ m * q) (2 ^ m * r) := by
  induction m with
  | zero => simpa using h
  | succ m ih => simpa only [pow_succ', mul_assoc] using ih.double

/-- Both terms expanded by relations with a common term, which cancels. -/
theorem BitRelation.trans {q' r' m : Nat} (h : BitRelation b p q r) (hq : BitRelation b q q' m) (hr : BitRelation b r m r') :
    BitRelation b p q' r' := fun j => by
  rw [h, hq, hr]
  cases b (j + m) <;> simp

theorem BitRelation.symm (h : BitRelation b p q r) : BitRelation b p r q := fun j => by rw [h, Bool.xor_comm]

/-- A relation whose second term is the sum of another term and the first one. -/
theorem BitRelation.cancel {m : Nat} (h : BitRelation b p q r) (hr : BitRelation b r q m) (j : Nat) : b (j + p) = b (j + m) := by
  rw [h, hr]
  cases b (j + q) <;> simp

end relation

theorem bitRelation_lfsrBit {w : Nat} (hw : 1 < w) : BitRelation (lfsrBit w) w 0 1 := lfsrBit_add_width hw

/-- x^128 = x for w = 7. -/
theorem lfsrBit_seven (j : Nat) : lfsrBit 7 (j + 128) = lfsrBit 7 (j + 1) := by
  have h8 : BitRelation (lfsrBit 7) 8 1 2 := (bitRelation_lfsrBit (by decide)).shift 1
  have h128 : BitRelation (lfsrBit 7) 128 2 8 := (h8.pow_two 4).trans (h8.pow_two 1) (h8.pow_two 2)
  exact h128.cancel h8.symm j

/-- x^32768 = x for w = 15. -/
theorem lfsrBit_fifteen (j : Nat) : lfsrBit 15 (j + 32768) = lfsrBit 15 (j + 1) := by
  have h16 : BitRelation (lfsrBit 15) 16 1 2 := (bitRelation_lfsrBit (by decide)).shift 1
  have h256 : BitRelation (lfsrBit 15) 256 1 4 := (h16.pow_two 4).trans h16 (h16.pow_two 1)
  have h32768 : BitRelation (lfsrBit 15) 32768 16 2 :=
    (h256.pow_two 7).trans (h16.pow_two 3).symm (h256.pow_two 1).symm
  exact h32768.symm.cancel h16.symm j

/-! ## The periods -/

/-- Where x^(2^w) = x the registers repeat after 2^w − 1 steps: the recurrence carries the relation back to index 0. -/
theorem lfsrState_periodic {w : Nat} (hw : 1 < w) (h : ∀ j, lfsrBit w (j + 2 ^ w) = lfsrBit w (j + 1)) (j : Nat) :
    lfsrState w (j + (2 ^ w - 1)) = lfsrState w j := by
  have hpow : 0 < 2 ^ w := by positivity
  have hpos : ∀ j, 0 < j → lfsrBit w (j + (2 ^ w - 1)) = lfsrBit w j := fun j hj => by
    rw [show j + (2 ^ w - 1) = j - 1 + 2 ^ w by omega, h, Nat.sub_add_cancel hj]
  have hbit : ∀ j, lfsrBit w (j + (2 ^ w - 1)) = lfsrBit w j := fun j => by
    have hfar := lfsrBit_add_width hw (j + (2 ^ w - 1))
    rw [add_right_comm j _ w, add_right_comm j _ 1, hpos (j + w) (by omega), hpos (j + 1) (by omega),
      lfsrBit_add_width hw] at hfar
    exact (Bool.xor_left_inj.mp hfar).symm
  refine lfsrState_eq_of_bits (by omega) fun i => ?_
  rw [add_right_comm, hbit]

theorem lfsrState_eq_iterate (w j : Nat) : lfsrState w j = (lfsrNext w)^[j] (lfsrState w 0) := by
  induction j with
  | zero => rfl
  | succ j ih => rw [Function.iterate_succ_apply', ← ih]; rfl

theorem isPeriodicPt_lfsrNext {w k : Nat} :
    Function.IsPeriodicPt (lfsrNext w) k (lfsrState w 0) ↔ lfsrState w k = lfsrState w 0 := by
  rw [lfsrState_eq_iterate w k]; rfl

/-- A period is the least one if no quotient of it by a prime factor is a period. -/
theorem not_isPeriodicPt_of_prime_quotients {α : Type} {f : α → α} {x : α} {n k : Nat} (hn : Function.IsPeriodicPt f n x)
    (hquot : ∀ p, p.Prime → p ∣ n → ¬Function.IsPeriodicPt f (n / p) x) (hk : 0 < k) (hkn : k < n) :
    ¬Function.IsPeriodicPt f k x := by
  intro hperiod
  obtain ⟨a, ha⟩ := Nat.gcd_dvd_left n k
  have hane : a ≠ 1 := by
    rintro rfl
    have hle := Nat.gcd_le_right n hk
    omega
  obtain ⟨p, hp, m, rfl⟩ := Nat.exists_prime_and_dvd hane
  have hfactor : n = p * (n.gcd k * m) := by rw [mul_left_comm]; exact ha
  refine hquot p hp ⟨_, hfactor⟩ ((hn.gcd hperiod).trans_dvd ⟨m, ?_⟩)
  conv_lhs => rw [hfactor]
  exact Nat.mul_div_cancel_left _ hp.pos

theorem lfsrState_ne_seven {k : Nat} (hk : 0 < k) (hkn : k < 127) : lfsrState 7 k ≠ lfsrState 7 0 := by
  rw [Ne, ← isPeriodicPt_lfsrNext]
  refine not_isPeriodicPt_of_prime_quotients (isPeriodicPt_lfsrNext.mpr (lfsrState_periodic (by decide) lfsrBit_seven 0))
    (fun p hp hdvd => ?_) hk hkn
  rw [(Nat.prime_dvd_prime_iff_eq hp (by norm_num)).mp hdvd, isPeriodicPt_lfsrNext]
  decide

/-- 32767 = 7 * 31 * 151, and the registers at its quotients by these are not all ones. -/
theorem lfsrState_ne_fifteen {k : Nat} (hk : 0 < k) (hkn : k < 32767) : lfsrState 15 k ≠ lfsrState 15 0 := by
  rw [Ne, ← isPeriodicPt_lfsrNext]
  refine not_isPeriodicPt_of_prime_quotients (isPeriodicPt_lfsrNext.mpr (lfsrState_periodic (by decide) lfsrBit_fifteen 0))
    (fun p hp hdvd => ?_) hk hkn
  have hfactors : p ∣ 7 * 31 * 151 := hdvd
  rw [hp.dvd_mul, hp.dvd_mul, Nat.prime_dvd_prime_iff_eq hp (by norm_num), Nat.prime_dvd_prime_iff_eq hp (by norm_num),
    Nat.prime_dvd_prime_iff_eq hp (by norm_num)] at hfactors
  rw [isPeriodicPt_lfsrNext]
  obtain (rfl | rfl) | rfl := hfactors
  · decide +kernel
  · decide +kernel
  · decide +kernel

/-- Settles O41: the periods by squaring the recurrence, their minimality by the quotients by prime factors. -/
theorem noiseLfsrPeriods : Obligations.NoiseLfsrPeriods := by
  refine ⟨fun w hw => ?_, fun j => ⟨fun hj => ⟨if_pos hj, if_pos hj⟩, fun hj =>
    ⟨if_neg (not_lt.mpr hj), if_neg (not_lt.mpr hj)⟩⟩⟩
  have hpos : 0 < w := by omega
  refine ⟨rfl, fun j => lfsrNext_eq hpos (lfsrState_lt hpos j), ?_⟩
  obtain rfl | rfl := hw
  · exact ⟨lfsrState_periodic (by decide) lfsrBit_seven, fun k hk hkn => lfsrState_ne_seven hk hkn⟩
  · exact ⟨lfsrState_periodic (by decide) lfsrBit_fifteen, fun k hk hkn => lfsrState_ne_fifteen hk hkn⟩

end Sys2Proof.Machine
end

