-- ==== Sys2Proof/Proofs/ReverbBypass.lean ====
section
/-! Tone generators bypass the reverb: what the reverb instances see of a state is its PCM channels (R260, R332, R363). -/

namespace Sys2Proof.Machine

/-! ## What the PCM channels add (R363) -/

/-- A slot that is not selected adds nothing to a track's buffer. -/
theorem processSelected_silent {sel : Chan → Bool} {a : TickArgs} {src : Source} {c : Chan}
    (h : ¬(c.live = true ∧ sel c = true)) : (processSelected sel a src c).2 = [] := by
  rw [processSelected, if_neg (by simpa using h)]

/-- Mixing slot by slot: channels that agree wherever either is selected mix to the same buffer. -/
theorem mixInto_congr_of_selected {sel : Chan → Bool} {s s' : State} (a : TickArgs) (src : Source) (k : Nat) (buf : List Frame)
    (hslots : s'.chSlots = s.chSlots)
    (h : ∀ u, ((s.chan u).live = true ∧ sel (s.chan u) = true) ∨ ((s'.chan u).live = true ∧ sel (s'.chan u) = true) →
      s'.chan u = s.chan u) :
    mixInto k (s'.chans.map (processSelected sel a src)) buf = mixInto k (s.chans.map (processSelected sel a src)) buf := by
  rw [chans_eq_map s, chans_eq_map s', hslots]
  simp only [mixInto, List.foldl_map]
  refine List.foldl_ext _ _ _ fun b u _ => ?_
  by_cases hu : ((s.chan u).live = true ∧ sel (s.chan u) = true) ∨ ((s'.chan u).live = true ∧ sel (s'.chan u) = true)
  · rw [h u hu]
  · obtain ⟨hs, hs'⟩ := not_or.mp hu
    simp only [processSelected_silent hs, processSelected_silent hs', addFrames_nil, ite_self]

section agree
variable {s s' : State}

theorem AgreeOnPcm.tickArgs (h : AgreeOnPcm s s') : s'.tickArgs = s.tickArgs := by
  simp only [State.tickArgs, h.par, h.cfg, h.rate]

/-- The track buffers are the same when the reverbs run. -/
theorem AgreeOnPcm.buf_beforeReverb (h : AgreeOnPcm s s') {k : Nat} (hk : k < s.nTracks) :
    (s'.beforeReverb.track k).buf = (s.beforeReverb.track k).buf := by
  obtain ⟨hslots, htracks⟩ := h.sizes
  rw [Machine.buf_beforeReverb s hk, Machine.buf_beforeReverb s' (htracks ▸ hk), h.tickArgs, h.src, h.cfg]
  refine mixInto_congr_of_selected _ _ _ _ hslots fun u hu => h.pcm u ?_
  simpa only [Chan.isPcm_iff] using hu

/-! ## The reverbs after a tick (R332) -/

/-- A reverb that has no track is not processed. -/
theorem reverb_runReverbs_of_le (s : State) {k : Nat} (hk : s.nTracks ≤ k) : (runReverbs s).reverb k = s.reverb k := by
  obtain hr | hr := lt_or_ge k s.reverbs.length
  · unfold State.reverb runReverbs
    simp only [State.setTracks_reverbs, State.setReverbs_reverbs]
    rw [getD_mapFrom _ _ hr (.cleared .noReverb 0 0), getElem?_mapFrom, List.getElem?_eq_none hk]
    rfl
  · rw [State.reverb_of_le _ hr, State.reverb_of_le _ (by rwa [length_reverbs_runReverbs])]

theorem reverb_mixTick_of_le (s : State) {k : Nat} (hk : s.nTracks ≤ k) : (mixTick s).reverb k = s.reverb k :=
  reverb_runReverbs_of_le s.beforeReverb (by rwa [nTracks_beforeReverb])

theorem AgreeOnPcm.reverb_mixTick (h : AgreeOnPcm s s') {k : Nat} (hr : k < s.reverbs.length) :
    (mixTick s').reverb k = (mixTick s).reverb k := by
  obtain ⟨-, htracks⟩ := h.sizes
  have hrev : ∀ k, s'.reverb k = s.reverb k := fun k => by rw [State.reverb, State.reverb, h.reverbs]
  obtain hk | hk := lt_or_ge k s.nTracks
  · rw [Machine.reverb_mixTick s hk hr, Machine.reverb_mixTick s' (htracks ▸ hk) (h.reverbs ▸ hr), h.cfg, hrev, h.rev,
      h.buf_beforeReverb hk]
  · rw [reverb_mixTick_of_le s hk, reverb_mixTick_of_le s' (htracks ▸ hk), hrev]

end agree

/-- Settles O34: reverb by reverb, since its track's buffer of PCM sound is the same in both states. -/
theorem toneGeneratorsBypassReverb : Obligations.ToneGeneratorsBypassReverb := by
  intro s s' t t' hagree ht ht'
  obtain ⟨-, rfl⟩ := mxTick_next ht
  obtain ⟨-, rfl⟩ := mxTick_next ht'
  have hlen : (mixTick s').reverbs.length = (mixTick s).reverbs.length := by simp [hagree.reverbs]
  refine ext_getD (.cleared .noReverb 0 0) hlen fun k hk => hagree.reverb_mixTick ?_
  rwa [length_reverbs_mixTick, hagree.reverbs] at hk

end Sys2Proof.Machine
end

