-- ==== Sys2Proof/Proofs/KernelWeights.lean ====
section
/-! The weights of SINC, BLEP and BLAMP: the real kernels at and beyond the ends of their support, the sums of their weights,
and the real value of each weight that the model writes (R295 to R297). -/

namespace Sys2Proof

/-! ## What a comparison through the floor says

The floor is never above the number, so an affirmative `leInt` and a negative `ltInt` hold of the real value. -/

theorem Alg.wf_sub {a b : Alg} (ha : a.wf = true) (hb : b.wf = true) : (a.sub b).wf = true := Alg.wf_add ha (Alg.wf_smul hb)

theorem Alg.floor_le {a : Alg} (ha : a.wf = true) : (a.floor : ℝ) ≤ a.toReal :=
  le_of_not_gt fun h => lt_irrefl _ (Alg.floor_lt ha h)

theorem Alg.le_of_leInt {a : Alg} (ha : a.wf = true) {n : Int} (h : a.leInt n = true) : a.toReal ≤ n := by
  rw [Alg.leInt, decide_eq_true_eq] at h
  have hfloor := Alg.floor_le (Alg.wf_sub (Alg.wf_ofRat n) ha)
  rw [Alg.toReal_sub, Alg.toReal_ofRat, Rat.cast_intCast] at hfloor
  have h : (0 : ℝ) ≤ ((Alg.ofRat n).sub a).floor := by exact_mod_cast h
  linarith

theorem Alg.le_of_not_ltInt {a : Alg} (ha : a.wf = true) {n : Int} (h : ¬a.ltInt n = true) : n ≤ a.toReal := by
  rw [Alg.ltInt, decide_eq_true_eq, not_lt] at h
  have h : (n : ℝ) ≤ a.floor := by exact_mod_cast h
  exact h.trans (Alg.floor_le ha)

/-- Of a rational number both comparisons are exact. -/
theorem Alg.Rational.leInt_iff {a : Alg} (ha : a.Rational) (n : Int) : a.leInt n = true ↔ a.toReal ≤ n := by
  rw [Alg.leInt, decide_eq_true_eq, Alg.floor_rational ((Alg.rational_ofRat n).sub ha), Int.floor_nonneg, Alg.toReal_sub,
    Alg.toReal_ofRat, Rat.cast_intCast, sub_nonneg]

theorem Alg.Rational.ltInt_iff {a : Alg} (ha : a.Rational) (n : Int) : a.ltInt n = true ↔ a.toReal < n := by
  rw [Alg.ltInt, decide_eq_true_eq, Alg.floor_rational ha, Int.floor_lt]

/-! ## The band-limited step (R296) -/

section kernels
variable {half : Nat} {inc : ℝ}

theorem kernelHn_of_le {u : ℝ} (h : u ≤ -(half : ℝ)) : kernelHn half inc u = 0 := by
  have hhalf : (0 : ℝ) ≤ half := half.cast_nonneg
  obtain hlt | rfl := h.lt_or_eq
  · exact if_pos hlt
  · rw [kernelHn, if_neg (lt_irrefl _), if_neg (by linarith), intervalIntegral.integral_same, zero_div]

theorem kernelHn_of_ge (hmass : kernelMass half inc ≠ 0) {u : ℝ} (h : (half : ℝ) ≤ u) : kernelHn half inc u = 1 := by
  have hhalf : (0 : ℝ) ≤ half := half.cast_nonneg
  rw [kernelHn, if_neg (by linarith)]
  obtain hlt | rfl := h.lt_or_eq
  · exact if_pos hlt
  · rw [if_neg (lt_irrefl _)]
    exact div_self hmass

/-! ## The unit triangle and its smoothing (R297) -/

/-- The ramp from 0 at 0 to 1 at 1, of which the unit triangle is a difference. -/
noncomputable def unitRamp (u : ℝ) : ℝ := max 0 (min 1 u)

theorem unitRamp_of_le {u : ℝ} (h : u ≤ 0) : unitRamp u = 0 := max_eq_left ((min_le_right _ _).trans h)

theorem unitRamp_of_ge {u : ℝ} (h : 1 ≤ u) : unitRamp u = 1 := by
  rw [unitRamp, min_eq_left h, max_eq_right zero_le_one]

theorem triangle_eq_ramp_sub (u : ℝ) : max 0 (1 - |u|) = unitRamp (u + 1) - unitRamp u := by
  unfold unitRamp
  obtain h | h := le_total 0 u
  · rw [abs_of_nonneg h, min_eq_left (by linarith), max_eq_right (zero_le_one' ℝ)]
    obtain h1 | h1 := le_total u 1
    · rw [min_eq_right h1, max_eq_right h, max_eq_right (by linarith)]
    · rw [min_eq_left h1, max_eq_right (zero_le_one' ℝ), max_eq_left (by linarith), sub_self]
  · rw [abs_of_nonpos h, min_eq_right (by linarith : u ≤ 1), max_eq_left h, min_eq_right (by linarith), sub_zero]
    ring_nf

/-- Unit triangles at the integers from 0 to n sum to 1 on [0, n]: their ramps telescope. -/
theorem sum_triangle {n : Nat} {y : ℝ} (h0 : 0 ≤ y) (hn : y ≤ n) :
    ((List.range (n + 1)).map fun i : Nat => max 0 (1 - |y - i|)).sum = 1 := by
  have hterm (i : Nat) : max 0 (1 - |y - i|) = unitRamp (y + 1 - i) - unitRamp (y + 1 - (i + 1 : Nat)) := by
    rw [triangle_eq_ramp_sub]
    push_cast
    ring_nf
  simp only [hterm]
  rw [List.sum_range_sub', unitRamp_of_ge (by push_cast; linarith), unitRamp_of_le (by push_cast; linarith), sub_zero]

theorem continuous_triangle_mul_kernelH (d : ℝ) : Continuous fun v => max 0 (1 - |d - v|) * kernelH half inc v :=
  (by fun_prop : Continuous fun v => max 0 (1 - |d - v|)).mul (continuous_kernelH _ _)

/-- The smoothed triangle vanishes where the triangle does not meet the kernel's support. -/
theorem kernelTri_of_ge {d : ℝ} (h : half + 1 ≤ |d|) : kernelTri half inc d = 0 := by
  have hhalf : (0 : ℝ) ≤ half := half.cast_nonneg
  have hzero (v : ℝ) (hv : v ∈ Set.uIcc (-(half : ℝ)) half) : max 0 (1 - |d - v|) * kernelH half inc v = 0 := by
    rw [Set.uIcc_of_le (by linarith), Set.mem_Icc, ← abs_le] at hv
    have hdist := abs_sub_abs_le_abs_sub d v
    rw [max_eq_left (by linarith), zero_mul]
  rw [kernelTri, intervalIntegral.integral_congr (g := fun _ => 0) hzero, intervalIntegral.integral_zero, zero_div]

/-- BLAMP reads every source value whose weight is not 0. -/
theorem kernelTri_outside_window {t : ℝ} {j k : Int} (hlo : (j : ℝ) ≤ t) (hhi : t < j + 1)
    (hk : k < j - half ∨ j + half + 1 < k) : kernelTri half inc (t - k) = 0 := by
  refine kernelTri_of_ge (le_abs.mpr ?_)
  obtain hk | hk := hk
  · have hk : (k : ℝ) + 1 ≤ j - half := by exact_mod_cast hk
    exact .inl (by linarith)
  · have hk : (j : ℝ) + half + 1 + 1 ≤ k := by exact_mod_cast hk
    exact .inr (by linarith)

/-- The smoothed triangles that meet the kernel's support sum to 1, as the triangles do under the integral. -/
theorem sum_kernelTri (hmass : kernelMass half inc ≠ 0) {d : ℝ} (hlo : (half : ℝ) ≤ d) (hhi : d ≤ half + 1) :
    ((List.range (2 * half + 2)).map fun i : Nat => kernelTri half inc (d - i)).sum = 1 := by
  have htriangles (v : ℝ) (hv : v ∈ Set.uIcc (-(half : ℝ)) half) :
      ∑ i ∈ Finset.range (2 * half + 2), max 0 (1 - |d - i - v|) * kernelH half inc v = kernelH half inc v := by
    rw [Set.uIcc_of_le (by linarith [half.cast_nonneg (α := ℝ)])] at hv
    obtain ⟨hvlo, hvhi⟩ := hv
    have hsum := sum_triangle (n := 2 * half + 1) (y := d - v) (by linarith) (by push_cast; linarith)
    simp only [sub_right_comm d v] at hsum
    rw [← Finset.sum_mul]
    exact (congrArg (· * kernelH half inc v) hsum).trans (one_mul _)
  calc ((List.range (2 * half + 2)).map fun i : Nat => kernelTri half inc (d - i)).sum
      = ∑ i ∈ Finset.range (2 * half + 2), kernelTri half inc (d - i) := rfl
    _ = (∫ v in (-(half : ℝ))..half, ∑ i ∈ Finset.range (2 * half + 2), max 0 (1 - |d - i - v|) * kernelH half inc v) /
          kernelMass half inc := by
        rw [intervalIntegral.integral_finsetSum fun i _ => (continuous_triangle_mul_kernelH _).intervalIntegrable _ _,
          Finset.sum_div]
        rfl
    _ = kernelMass half inc / kernelMass half inc := by rw [intervalIntegral.integral_congr htriangles, kernelMass]
    _ = 1 := div_self hmass

end kernels

end Sys2Proof

namespace Sys2Proof.Machine

/-! ## The weights as the model writes them -/

section weights
variable {half : Nat} {inc u τ : Alg}

@[simp] theorem toReal_offsetFrom (τ : Alg) (k : Int) : (offsetFrom τ k).toReal = τ.toReal - k := by
  rw [offsetFrom, Alg.toReal_sub, Alg.toReal_ofRat, Rat.cast_intCast]

theorem wf_offsetFrom (hτ : τ.wf = true) (k : Int) : (offsetFrom τ k).wf = true := Alg.wf_sub hτ (Alg.wf_ofRat k)

/-- The weight written as 0 or 1 is that of an integer offset at an increment of at most 1. -/
theorem toReal_sincWeight (half : Nat) (hinc : inc.wf = true) (hpos : 0 < inc.toReal) (d : Alg) :
    (sincWeight half inc d).toReal = kernelH half inc.toReal d.toReal := by
  unfold sincWeight
  split
  · next q hq =>
    split
    · next hint =>
      obtain ⟨hden, hle⟩ := hint
      have hone : inc.toReal ≤ 1 := by simpa using Alg.le_of_leInt hinc hle
      obtain ⟨m, rfl⟩ : ∃ m : Int, q = m := ⟨q.num, (Rat.coe_int_num_of_den_eq_one hden).symm⟩
      rw [Alg.toReal_of_toRat? hq, Rat.cast_intCast, kernelH_int half hpos hone, SReal.toReal_ofRat]
      simp only [Int.cast_eq_zero]
      split_ifs <;> simp
    · rfl
  · rfl

/-- The weight written as 0 or 1 is that of an offset outside the support or at its ends. -/
theorem toReal_stepWeight (hu : u.wf = true) (hmass : kernelMass half inc.toReal ≠ 0) :
    (stepWeight half inc u).toReal = kernelHn half inc.toReal u.toReal := by
  unfold stepWeight
  split
  · next hle =>
    rw [SReal.toReal_zero, kernelHn_of_le (by simpa using Alg.le_of_leInt hu hle)]
  · split
    · rfl
    · next hlt =>
      rw [SReal.toReal_ofRat, Rat.cast_one, kernelHn_of_ge hmass (by simpa using Alg.le_of_not_ltInt hu hlt)]

/-- A rational offset at the lower end of the support or below it has the weight 0, whatever the kernel's integral is. -/
theorem toReal_stepWeight_of_le (hu : u.Rational) (h : u.toReal ≤ -(half : ℝ)) : (stepWeight half inc u).toReal = 0 := by
  rw [stepWeight, if_pos ((hu.leInt_iff _).mpr (by simpa using h)), SReal.toReal_zero]

/-- A rational offset at the upper end of the support or above it has the weight 1, whatever the kernel's integral is. -/
theorem toReal_stepWeight_of_ge (hhalf : 0 < half) (hu : u.Rational) (h : (half : ℝ) ≤ u.toReal) :
    (stepWeight half inc u).toReal = 1 := by
  have hpos : (0 : ℝ) < half := Nat.cast_pos.mpr hhalf
  have hlow : ¬u.leInt (-(half : Int)) = true := by
    rw [hu.leInt_iff]
    push_cast
    linarith
  have hhigh : ¬u.ltInt half = true := by
    rw [hu.ltInt_iff]
    push_cast
    linarith
  rw [stepWeight, if_neg hlow, if_neg hhigh, SReal.toReal_ofRat, Rat.cast_one]

end weights

/-! ## Sums of weights -/

theorem toReal_sumFrom (w : Int → SReal) (lo : Int) (n : Nat) :
    (sumFrom w lo n).toReal = ((List.range n).map fun i : Nat => (w (lo + i)).toReal).sum := by
  rw [sumFrom, toReal_foldl_plus, SReal.toReal_zero, zero_add]

/-- Over a constant source a weighted sum is the constant times the sum of the weights. -/
theorem toReal_sumFrom_constant {x : Int → Rat} {C : Rat} (hx : ∀ j, x j = C) (w : Int → SReal) (lo : Int) (n : Nat) :
    (sumFrom (fun k => (w k).smul (x k)) lo n).toReal = C * (sumFrom w lo n).toReal := by
  simp only [toReal_sumFrom, SReal.toReal_smul, hx, List.sum_map_mul_left]

/-- The differences of a sequence of weights telescope. -/
theorem toReal_sumFrom_minus (w : Int → SReal) (lo : Int) (n : Nat) :
    (sumFrom (fun k => (w k).minus (w (k + 1))) lo n).toReal = (w lo).toReal - (w (lo + n)).toReal := by
  have h := List.sum_range_sub' n fun i : Nat => (w (lo + i)).toReal
  simpa only [toReal_sumFrom, SReal.toReal_minus, Nat.cast_succ, Nat.cast_zero, add_zero, add_assoc] using h

end Sys2Proof.Machine
end

