-- ==== Sys2Proof/Proofs/Resamplers.lean ====
section
/-! The six resampler kernels as the formulas of their rules, and on a constant source (R291 to R297, R299). -/

namespace Sys2Proof.Machine

/-! ## NEAREST, LINEAR and CUBIC (R292, R293, R294) -/

theorem toReal_fraction (τ : Alg) : (fraction τ).toReal = τ.toReal - τ.floor := by
  rw [fraction, Alg.toReal_sub, Alg.toReal_ofRat, Rat.cast_intCast]

section kernels
variable (half : Nat) (x : Int → Rat) (τ inc : Alg)

theorem toReal_kernelAt_nearest : (kernelAt half .nearest x τ inc).toReal = x τ.floor := SReal.toReal_ofRat _

theorem toReal_kernelAt_linear :
    (kernelAt half .linear x τ inc).toReal =
      x τ.floor + (τ.toReal - τ.floor) * (x (τ.floor + 1) - x τ.floor) := by
  simp only [kernelAt, linearAt, SReal.toReal, Alg.toReal_add, Alg.toReal_smul, Alg.toReal_ofRat, toReal_fraction]
  push_cast
  ring

theorem toReal_kernelAt_cubic {j : Int} {f : ℝ} (hj : j = τ.floor) (hf : f = τ.toReal - j) :
    (kernelAt half .cubic x τ inc).toReal =
      x j + 1 / 2 * f * ((x (j + 1) - x (j - 1)) +
        f * ((2 * x (j - 1) - 5 * x j + 4 * x (j + 1) - x (j + 2)) +
          f * (3 * (x j - x (j + 1)) + x (j + 2) - x (j - 1)))) := by
  subst hj hf
  simp only [kernelAt, cubicAt, SReal.toReal, Alg.toReal_add, Alg.toReal_mul, Alg.toReal_smul, Alg.toReal_ofRat,
    toReal_fraction]
  push_cast
  ring

/-! ## SINC, BLEP and BLAMP (R295, R296, R297) -/

/-- The sum of SINC's weights, by which it divides. -/
theorem toReal_sincMass (hinc : inc.wf = true) (hpos : 0 < inc.toReal) :
    (sumFrom (fun k => sincWeight half inc (offsetFrom τ k)) (τ.floor - half + 1) (2 * half)).toReal =
      ((List.range (2 * half)).map fun i : Nat =>
        kernelH half inc.toReal (τ.toReal - (τ.floor - half + 1 + i : Int))).sum := by
  simp only [toReal_sumFrom, toReal_sincWeight half hinc hpos, toReal_offsetFrom]

theorem toReal_kernelAt_sinc (hinc : inc.wf = true) (hpos : 0 < inc.toReal) :
    (kernelAt half .sinc x τ inc).toReal =
      ((List.range (2 * half)).map fun i : Nat =>
        (x (τ.floor - half + 1 + i) : ℝ) * kernelH half inc.toReal (τ.toReal - (τ.floor - half + 1 + i : Int))).sum /
      ((List.range (2 * half)).map fun i : Nat =>
        kernelH half inc.toReal (τ.toReal - (τ.floor - half + 1 + i : Int))).sum := by
  rw [kernelAt, sincAt, SReal.toReal_over, toReal_sincMass half τ inc hinc hpos]
  simp only [toReal_sumFrom, SReal.toReal_smul, toReal_sincWeight half hinc hpos, toReal_offsetFrom]

theorem toReal_kernelAt_blep (hτ : τ.wf = true) (hmass : kernelMass half inc.toReal ≠ 0) :
    (kernelAt half .blep x τ inc).toReal =
      ((List.range (2 * half + 1)).map fun i : Nat =>
        (x (τ.floor - half + i) : ℝ) * (kernelHn half inc.toReal (τ.toReal - (τ.floor - half + i : Int)) -
          kernelHn half inc.toReal (τ.toReal - (τ.floor - half + i : Int) - 1))).sum := by
  simp only [kernelAt, blepAt, toReal_sumFrom, SReal.toReal_smul, SReal.toReal_minus,
    toReal_stepWeight (wf_offsetFrom hτ _) hmass, toReal_offsetFrom, Int.cast_add _ (1 : Int), Int.cast_one, sub_sub]

theorem toReal_kernelAt_blamp :
    (kernelAt half .blamp x τ inc).toReal =
      ((List.range (2 * half + 2)).map fun i : Nat =>
        (x (τ.floor - half + i) : ℝ) * kernelTri half inc.toReal (τ.toReal - (τ.floor - half + i : Int))).sum := by
  simp only [kernelAt, blampAt, toReal_sumFrom, SReal.toReal_smul, rampWeight, SReal.toReal, toReal_offsetFrom]

end kernels

/-- Where the increment is at most 1, all weights of SINC at an integer but that of the value there are 0. -/
theorem toReal_kernelAt_sinc_int {half : Nat} (hhalf : 0 < half) (x : Int → Rat) {inc : Rat} (hpos : 0 < inc)
    (hone : inc ≤ 1) (m : Int) : (kernelAt half .sinc x (Alg.ofRat m) (Alg.ofRat inc)).toReal = x m := by
  have hpos : (0 : ℝ) < inc := by exact_mod_cast hpos
  have hone : (inc : ℝ) ≤ 1 := by exact_mod_cast hone
  have hweight (i : Nat) : kernelH half inc ((m : ℝ) - (m - half + 1 + i : Int)) = if i = half - 1 then 1 else 0 := by
    rw [← Int.cast_sub, kernelH_int half hpos hone]
    exact if_congr (by omega) rfl rfl
  have hsingle (y : Nat → ℝ) :
      ((List.range (2 * half)).map fun i => y i * if i = half - 1 then 1 else 0).sum = y (half - 1) := by
    rw [← List.sum_toFinset _ List.nodup_range]
    simp only [List.toFinset_range, mul_ite, mul_one, mul_zero, Finset.sum_ite_eq']
    exact if_pos (Finset.mem_range.mpr (by omega))
  have hmass : ((List.range (2 * half)).map fun i => if i = half - 1 then (1 : ℝ) else 0).sum = 1 := by
    simpa only [one_mul] using hsingle fun _ => 1
  have hmid : m - half + 1 + (half - 1 : Nat) = m := by omega
  rw [toReal_kernelAt_sinc half x _ _ (Alg.wf_ofRat _) (by rwa [Alg.toReal_ofRat])]
  simp only [Alg.floor_ofRat, Int.floor_intCast, Alg.toReal_ofRat, Rat.cast_intCast, hweight]
  rw [hsingle fun i => x (m - half + 1 + i), hmid, hmass, div_one]

/-- Settles O49: the kernels compute in the field, where every operation has its real value. -/
theorem polynomialKernels : Obligations.PolynomialKernels := by
  refine ⟨Alg.floor_ofRat, fun half x τ inc j f hj hf => ?_⟩
  refine ⟨?_, ?_, toReal_kernelAt_cubic half x τ inc hj hf⟩
  · rw [toReal_kernelAt_nearest, hj]
  · rw [toReal_kernelAt_linear, hf, hj]

/-- Settles O51: a weight written as a number is the kernel's value there, so each kernel is its rule's sum. -/
theorem bandLimitedKernels : Obligations.BandLimitedKernels := by
  refine ⟨fun half x τ inc j hτ hinc hpos hj => ?_, fun half x inc m hhalf hpos hone =>
    toReal_kernelAt_sinc_int hhalf x hpos hone m⟩
  subst hj
  exact ⟨toReal_kernelAt_sinc half x τ inc hinc hpos, toReal_kernelAt_blep half x τ inc hτ,
    toReal_kernelAt_blamp half x τ inc, fun hlo hhi k hk => kernelTri_outside_window hlo hhi hk⟩

/-! ## Constant sources (R299) -/

section constant
variable {half : Nat} {x : Int → Rat} {C : Rat} {τ inc : Alg}

theorem toReal_kernelAt_sinc_constant (hx : ∀ j, x j = C) (hinc : inc.wf = true) (hpos : 0 < inc.toReal)
    (hmass : ((List.range (2 * half)).map fun i : Nat =>
      kernelH half inc.toReal (τ.toReal - (τ.floor - half + 1 + i : Int))).sum ≠ 0) :
    (kernelAt half .sinc x τ inc).toReal = C := by
  rw [← toReal_sincMass half τ inc hinc hpos] at hmass
  rw [kernelAt, sincAt, SReal.toReal_over, toReal_sumFrom_constant hx, mul_div_cancel_right₀ _ hmass]

/-- The weights of BLEP telescope to the difference of the first step and the one after the last. -/
theorem toReal_kernelAt_blep_constant (hx : ∀ j, x j = C)
    (hfirst : (stepWeight half inc (offsetFrom τ (τ.floor - half))).toReal = 1)
    (hlast : (stepWeight half inc (offsetFrom τ (τ.floor + half + 1))).toReal = 0) :
    (kernelAt half .blep x τ inc).toReal = C := by
  have hend : τ.floor - half + (2 * half + 1 : Nat) = τ.floor + half + 1 := by push_cast; ring
  rw [kernelAt, blepAt, toReal_sumFrom_constant hx, toReal_sumFrom_minus, hend, hfirst, hlast, sub_zero, mul_one]

/-- The offset of the first index that BLEP reads is at or above the kernel's support. -/
theorem le_offset_of_first (hlo : (τ.floor : ℝ) ≤ τ.toReal) : (half : ℝ) ≤ (offsetFrom τ (τ.floor - half)).toReal := by
  rw [toReal_offsetFrom]
  push_cast
  linarith

/-- The offset of the index after the last is at or below it. -/
theorem offset_after_last_le (hhi : τ.toReal ≤ τ.floor + 1) :
    (offsetFrom τ (τ.floor + half + 1)).toReal ≤ -(half : ℝ) := by
  rw [toReal_offsetFrom]
  push_cast
  linarith

theorem toReal_kernelAt_blep_constant_of_mass (hx : ∀ j, x j = C) (hτ : τ.wf = true) (hhi : τ.toReal < τ.floor + 1)
    (hmass : kernelMass half inc.toReal ≠ 0) : (kernelAt half .blep x τ inc).toReal = C := by
  refine toReal_kernelAt_blep_constant hx ?_ ?_
  · rw [toReal_stepWeight (wf_offsetFrom hτ _) hmass]
    exact kernelHn_of_ge hmass (le_offset_of_first (Alg.floor_le hτ))
  · rw [toReal_stepWeight (wf_offsetFrom hτ _) hmass]
    exact kernelHn_of_le (offset_after_last_le hhi.le)

theorem toReal_kernelAt_blep_constant_of_rational (hx : ∀ j, x j = C) (hhalf : 0 < half) (hτ : τ.Rational) :
    (kernelAt half .blep x τ inc).toReal = C := by
  have hfloor := Alg.floor_rational hτ
  have hoffset : ∀ k, (offsetFrom τ k).Rational := fun k => hτ.sub (Alg.rational_ofRat k)
  refine toReal_kernelAt_blep_constant hx ?_ ?_
  · exact toReal_stepWeight_of_ge hhalf (hoffset _) (le_offset_of_first (hfloor ▸ Int.floor_le _))
  · exact toReal_stepWeight_of_le (hoffset _) (offset_after_last_le (hfloor ▸ (Int.lt_floor_add_one _).le))

theorem toReal_kernelAt_blamp_constant (hx : ∀ j, x j = C) (hτ : τ.wf = true) (hhi : τ.toReal < τ.floor + 1)
    (hmass : kernelMass half inc.toReal ≠ 0) : (kernelAt half .blamp x τ inc).toReal = C := by
  have hlo := Alg.floor_le hτ
  have hoffset (i : Nat) : τ.toReal - (τ.floor - half + i : Int) = τ.toReal - τ.floor + half - i := by
    push_cast
    ring
  rw [toReal_kernelAt_blamp]
  simp only [hx, hoffset, List.sum_map_mul_left]
  rw [sum_kernelTri hmass (by linarith) (by linarith), mul_one]

end constant

/-- Settles O50: over a constant source each kernel is the constant times the sum of its weights, which is 1. -/
theorem resamplersPreserveConstants : Obligations.ResamplersPreserveConstants := by
  intro half x C inc hx
  refine ⟨fun kind t n => ?_, fun τ => ⟨?_, ?_, ?_⟩,
    fun τ hinc hpos hmass => toReal_kernelAt_sinc_constant hx hinc hpos hmass,
    fun τ hτ hhi hmass => ⟨toReal_kernelAt_blep_constant_of_mass hx hτ hhi hmass,
      toReal_kernelAt_blamp_constant hx hτ hhi hmass⟩,
    fun hhalf q => toReal_kernelAt_blep_constant_of_rational hx hhalf (Alg.rational_ofRat q)⟩
  · rw [resample, List.length_map, List.length_range]
  · rw [toReal_kernelAt_nearest, hx]
  · rw [toReal_kernelAt_linear]
    simp only [hx]
    ring
  · rw [toReal_kernelAt_cubic half x τ inc rfl rfl]
    simp only [hx]
    ring

end Sys2Proof.Machine
end

