-- ==== Sys2Proof/Proofs/ReverbFrames.lean ====
section
/-! The reverb instances frame by frame: what one frame does in each kind, silence from empty buffers, and the decay of the
NORMAL tail (R331, R333, R334, R340 to R342). -/

namespace Sys2Proof

/-! ## Frames of bounded magnitude -/

/-- Both sides of a frame have magnitude at most M. -/
def Frame.AtMost (M : ℝ) (u : Frame) : Prop := |u.l.toReal| ≤ M ∧ |u.r.toReal| ≤ M

theorem Frame.AtMost.mono {M K : ℝ} {u : Frame} (h : u.AtMost M) (hMK : M ≤ K) : u.AtMost K :=
  ⟨h.1.trans hMK, h.2.trans hMK⟩

/-- The sides of two frames of magnitude at most M add up to at most 4M. -/
theorem Frame.AtMost.abs_sum_le {M : ℝ} {u v : Frame} (hu : u.AtMost M) (hv : v.AtMost M) :
    |u.l.toReal + u.r.toReal + v.l.toReal + v.r.toReal| ≤ 4 * M := by
  obtain ⟨hul, hur⟩ := hu
  obtain ⟨hvl, hvr⟩ := hv
  rw [abs_le] at *
  constructor <;> linarith

end Sys2Proof

namespace Sys2Proof.Machine

/-! ## The intensity (R331) -/

/-- The range of the intensity, whichever value it is taken from. -/
theorem sevenBits_over_128_range (v : BitVec 7) : 0 ≤ (v.toNat : Rat) / 128 ∧ (v.toNat : Rat) / 128 ≤ 127 / 128 := by
  have hv : (v.toNat : Rat) ≤ 127 := by exact_mod_cast Nat.le_of_lt_succ v.isLt
  exact ⟨by positivity, by linarith⟩

theorem intensity_forced {m : SoundMode} (h : m.forcedRevEn = true) (rev : BitVec 7) :
    intensity m rev = m.forcedRevVal.toNat / 128 := if_pos h

theorem intensity_own {m : SoundMode} (h : ¬m.forcedRevEn = true) (rev : BitVec 7) :
    intensity m rev = rev.toNat / 128 := if_neg h

/-! ## The parts of a frame as reals -/

section real
variable (i : Rat) (rv : Reverb) (u : Frame)

@[simp] theorem toReal_mono : (mono u).toReal = (u.l.toReal + u.r.toReal) / 2 := by
  rw [mono, SReal.toReal_smul, SReal.toReal_plus]
  push_cast
  ring

@[simp] theorem toReal_addBoth_l (a : SReal) : (addBoth u a).l.toReal = u.l.toReal + a.toReal := SReal.toReal_plus _ _

@[simp] theorem toReal_addBoth_r (a : SReal) : (addBoth u a).r.toReal = u.r.toReal + a.toReal := SReal.toReal_plus _ _

@[simp] theorem toReal_tapSum (buf : DelayBuf) (p len : Nat) (taps : List (Int × SReal)) :
    (tapSum buf p len taps).toReal = (taps.map fun da => da.2.toReal *
      (((DelayBuf.read (((p : Int) + da.1) % (len : Int)).toNat buf).l.toReal +
        (DelayBuf.read (((p : Int) + da.1) % (len : Int)).toNat buf).r.toReal) / 2)).sum := by
  rw [tapSum, toReal_foldl_plus, SReal.toReal_zero, zero_add]
  simp only [SReal.toReal_times, toReal_mono]

theorem toReal_normalRev :
    (rv.normalRev i).toReal =
      ((DelayBuf.read rv.p rv.buf).l.toReal + (DelayBuf.read rv.p rv.buf).r.toReal +
        (DelayBuf.read ((rv.p + rv.dLen) % rv.len) rv.buf).l.toReal +
        (DelayBuf.read ((rv.p + rv.dLen) % rv.len) rv.buf).r.toReal) * (i : ℝ) / 4 := by
  simp only [Reverb.normalRev, SReal.toReal_smul, SReal.toReal_plus]
  push_cast
  ring

end real

/-! ## One frame, kind by kind -/

section frame
variable {rv : Reverb}

theorem Reverb.frame_normal (h : rv.kind = .normal) (i : Rat) (x : Frame) : rv.frame i x = rv.normalFrame i x := by
  simp only [Reverb.frame, h]

/-- GAME1 and GAME2 differ in their coefficient sets only (R340). -/
theorem Reverb.frame_game {g : Config.GameTaps}
    (h : (rv.kind = .game1 ∧ g = Config.game1Taps) ∨ (rv.kind = .game2 ∧ g = Config.game2Taps)) (i : Rat) (x : Frame) :
    rv.frame i x = rv.gameFrame g i x := by
  obtain ⟨hk, rfl⟩ | ⟨hk, rfl⟩ := h
  · simp only [Reverb.frame, hk]
  · simp only [Reverb.frame, hk]

theorem Reverb.frame_test (h : rv.kind = .test) (i : Rat) (x : Frame) :
    rv.frame i x = rv.testFrame Config.testCoef i x := by
  simp only [Reverb.frame, h]

theorem Reverb.frame_noReverb (h : rv.kind = .noReverb) (i : Rat) (x : Frame) : rv.frame i x = (rv, x) := by
  simp only [Reverb.frame, h]

/-- All that a frame of a kind other than NONE can do: its output is stored, and the second buffer and the filter state
change. -/
theorem Reverb.frame_stores (h : rv.kind ≠ .noReverb) (i : Rat) (x : Frame) :
    ∃ buf2 p2 z1 z2, (rv.frame i x).1 =
      { rv.store (rv.frame i x).2 with buf2 := buf2, p2 := p2, z1 := z1, z2 := z2 } := by
  unfold Reverb.frame
  split
  case h_5 hk => exact absurd hk h
  all_goals exact ⟨_, _, _, _, rfl⟩

theorem Reverb.read_store (hwf : DelayBuf.wf rv.buf = true) (y : Frame) (j : Nat) :
    DelayBuf.read j (rv.store y).buf = if j = rv.p then y else DelayBuf.read j rv.buf :=
  DelayBuf.read_write hwf _ _ _

theorem Reverb.process_cons (i : Rat) (x : Frame) (xs : List Frame) :
    rv.process i (x :: xs) =
      (((rv.frame i x).1.process i xs).1, (rv.frame i x).2 :: ((rv.frame i x).1.process i xs).2) := rfl

/-- NONE passes a buffer unchanged and keeps its state (R334). -/
theorem Reverb.process_noReverb (h : rv.kind = .noReverb) (i : Rat) (xs : List Frame) : rv.process i xs = (rv, xs) := by
  induction xs with
  | nil => rfl
  | cons x xs ih => rw [Reverb.process_cons, Reverb.frame_noReverb h, ih]

end frame

/-- Settles O35: each clause reads off the kind's frame, with every operation on samples taken to the reals. -/
theorem reverbFrameOfEachKind : Obligations.ReverbFrameOfEachKind := by
  refine ⟨fun m rev => ?_, fun i rv x hk => ?_, fun i rv x hk => ?_, fun i rv x g hk => ?_, fun i rv x v k hk hcoef hv => ?_,
    fun i rv rv' x y xs hframe => ?_, fun i rv => rfl, fun i rv xs hk => Reverb.process_noReverb hk i xs⟩
  · by_cases hm : m.forcedRevEn = true
    · rw [intensity_forced hm, if_pos hm]
      exact ⟨rfl, sevenBits_over_128_range _⟩
    · rw [intensity_own hm, if_neg hm]
      exact ⟨rfl, sevenBits_over_128_range _⟩
  · obtain ⟨buf2, p2, z1, z2, hstore⟩ := Reverb.frame_stores hk i x
    refine ⟨_, (rv.frame i x).2, Prod.ext hstore rfl, rfl, rfl, rfl, rfl, rfl, fun hwf => Reverb.read_store hwf _⟩
  · refine ⟨_, _, Reverb.frame_normal hk i x, rfl, ?_⟩
    rintro rev rfl
    rw [← toReal_normalRev]
    exact ⟨toReal_addBoth_l _ _, toReal_addBoth_r _ _⟩
  · refine ⟨_, _, _, Reverb.frame_game hk i x, rfl, fun hwf j => DelayBuf.read_write hwf _ _ _, ?_⟩
    rintro r1 r2 rev rfl rfl rfl
    simp only [toReal_addBoth_l, toReal_addBoth_r, toReal_tapSum, toReal_mono, SReal.toReal_plus, SReal.toReal_smul,
      SReal.toReal_times, and_self]
  · subst hcoef hv
    refine ⟨_, _, Reverb.frame_test hk i x, rfl, ?_⟩
    rintro wl wr rfl rfl
    simp only [biquad, SReal.toReal_plus, SReal.toReal_minus, SReal.toReal_times, SReal.toReal_smul, and_self]
  · rw [Reverb.process_cons, hframe]

/-! ## No spontaneous energy (R342) -/

/-- Both buffers are empty and the filter state is zero, as RESET leaves them (R58, R452). -/
structure Reverb.Silent (rv : Reverb) : Prop where
  buf : rv.buf = []
  buf2 : rv.buf2 = []
  z1 : rv.z1 = Frame.zero
  z2 : rv.z2 = Frame.zero

/-- Every tap of an empty buffer contributes the number 0. -/
theorem tapSum_nil (p len : Nat) (taps : List (Int × SReal)) : tapSum [] p len taps = .zero :=
  List.foldl_fixed' (fun _ => rfl) taps

/-- A biquad at rest stays at rest. -/
theorem biquad_zero (k : Config.TestCoef) : biquad k .zero .zero .zero = (.zero, .zero, .zero) := rfl

section silent
variable {rv : Reverb} (h : rv.Silent) (i : Rat)
include h

theorem Reverb.Silent.normalFrame :
    (rv.normalFrame i .zero).2 = .zero ∧ (rv.normalFrame i .zero).1.Silent := by
  obtain ⟨hbuf, hbuf2, hz1, hz2⟩ := h
  simp only [Reverb.normalFrame, Reverb.normalRev, Reverb.store, hbuf]
  exact ⟨rfl, rfl, hbuf2, hz1, hz2⟩

theorem Reverb.Silent.gameFrame (g : Config.GameTaps) :
    (rv.gameFrame g i .zero).2 = .zero ∧ (rv.gameFrame g i .zero).1.Silent := by
  obtain ⟨hbuf, hbuf2, hz1, hz2⟩ := h
  simp only [Reverb.gameFrame, Reverb.store, hbuf, hbuf2, tapSum_nil]
  exact ⟨rfl, rfl, rfl, hz1, hz2⟩

theorem Reverb.Silent.testFrame (k : Config.TestCoef) :
    (rv.testFrame k i .zero).2 = .zero ∧ (rv.testFrame k i .zero).1.Silent := by
  obtain ⟨hbuf, hbuf2, hz1, hz2⟩ := h
  simp only [Reverb.testFrame, Reverb.store, hbuf, hz1, hz2, DelayBuf.read, Frame.zero, biquad_zero]
  exact ⟨rfl, rfl, hbuf2, rfl, rfl⟩

theorem Reverb.Silent.frame : (rv.frame i .zero).2 = .zero ∧ (rv.frame i .zero).1.Silent := by
  unfold Reverb.frame
  split
  case h_1 => exact h.normalFrame i
  case h_2 => exact h.gameFrame i _
  case h_3 => exact h.gameFrame i _
  case h_4 => exact h.testFrame i _
  case h_5 => exact ⟨rfl, h⟩

end silent

theorem Reverb.Silent.process {rv : Reverb} (h : rv.Silent) (i : Rat) (n : Nat) :
    (rv.process i (List.replicate n .zero)).2 = List.replicate n .zero ∧
      (rv.process i (List.replicate n .zero)).1.Silent := by
  induction n generalizing rv with
  | zero => exact ⟨rfl, h⟩
  | succ n ih =>
    obtain ⟨hout, hnext⟩ := h.frame i
    obtain ⟨houts, hlast⟩ := ih hnext
    exact ⟨congrArg₂ List.cons hout houts, hlast⟩

/-- Settles O36: a silent reverb answers silence with silence, frame by frame. -/
theorem reverbHasNoSpontaneousEnergy : Obligations.ReverbHasNoSpontaneousEnergy := by
  intro i rv n hbuf hbuf2 hz1 hz2
  obtain ⟨hout, hlast⟩ := Reverb.Silent.process ⟨hbuf, hbuf2, hz1, hz2⟩ i n
  exact ⟨hout, hlast.buf, hlast.buf2, hlast.z1, hlast.z2⟩

/-! ## The decay of the NORMAL tail (R342) -/

section decay
variable {rv : Reverb} {i : Rat} {M : ℝ}

/-- A NORMAL frame of silence puts out a quarter of I times four values of the buffer. -/
theorem Reverb.normalFrame_atMost (hi : 0 ≤ i) (hM : ∀ j, (DelayBuf.read j rv.buf).AtMost M) :
    (rv.normalFrame i .zero).2.AtMost (i * M) := by
  have hrev : |(rv.normalRev i).toReal| ≤ i * M := by
    have hi : (0 : ℝ) ≤ i := by exact_mod_cast hi
    rw [toReal_normalRev, mul_div_assoc, abs_mul, abs_of_nonneg (show (0 : ℝ) ≤ i / 4 by positivity)]
    calc _ ≤ 4 * M * ((i : ℝ) / 4) := mul_le_mul_of_nonneg_right ((hM _).abs_sum_le (hM _)) (by positivity)
      _ = i * M := by ring
  constructor
  · simpa [Reverb.normalFrame, Frame.zero] using hrev
  · simpa [Reverb.normalFrame, Frame.zero] using hrev

/-- Storing a frame within K leaves within K every entry that was, and the one at p. -/
theorem Reverb.read_store_atMost (hwf : DelayBuf.wf rv.buf = true) {K : ℝ} {y : Frame} (hy : y.AtMost K) {j : Nat}
    (hj : (DelayBuf.read j rv.buf).AtMost K ∨ j = rv.p) : (DelayBuf.read j (rv.store y).buf).AtMost K := by
  rw [Reverb.read_store hwf]
  split_ifs with hp
  · exact hy
  · exact hj.resolve_right hp

/-- After n frames of silence: the output is at most I times the bound M, and so is every entry that was within it before or
that the n frames have written. -/
theorem Reverb.process_silence_atMost (hk : rv.kind = .normal) (hb : rv.Bounded) (hi : 0 ≤ i) (hi1 : i ≤ 1)
    (hM : ∀ j, (DelayBuf.read j rv.buf).AtMost M) (n : Nat) :
    (∀ y ∈ (rv.process i (List.replicate n .zero)).2, y.AtMost (i * M)) ∧
      ∀ j, (DelayBuf.read j rv.buf).AtMost (i * M) ∨ (∃ k < n, j = (rv.p + k) % rv.len) →
        (DelayBuf.read j (rv.process i (List.replicate n .zero)).1.buf).AtMost (i * M) := by
  induction n generalizing rv with
  | zero => exact ⟨by simp [Reverb.process], fun j hj => hj.resolve_right (by simp)⟩
  | succ n ih =>
    have ⟨_, hp, hwf, _⟩ := hb
    have hle : (i : ℝ) * M ≤ M := mul_le_of_le_one_left ((abs_nonneg _).trans (hM 0).1) (by exact_mod_cast hi1)
    have hout := Reverb.normalFrame_atMost hi hM
    obtain ⟨houts, hlast⟩ := ih (rv := rv.store (rv.normalFrame i .zero).2) hk (hb.store _) fun j =>
      Reverb.read_store_atMost hwf (hout.mono hle) (.inl (hM j))
    rw [List.replicate_succ, Reverb.process_cons, Reverb.frame_normal hk]
    refine ⟨List.forall_mem_cons.mpr ⟨hout, houts⟩, fun j hj => hlast j ?_⟩
    obtain hj | ⟨k, hkn, hj⟩ := hj
    · exact .inl (Reverb.read_store_atMost hwf hout (.inl hj))
    · cases k with
      | zero => exact .inl (Reverb.read_store_atMost hwf hout (.inr (hj.trans (Nat.mod_eq_of_lt hp))))
      | succ k =>
        refine .inr ⟨k, Nat.lt_of_succ_lt_succ hkn, hj.trans ?_⟩
        rw [Reverb.store, Nat.mod_add_mod, Nat.add_right_comm, Nat.add_assoc]

/-- L steps from any position of a circular buffer pass every other. -/
theorem exists_circular_offset {p j len : Nat} (hp : p < len) (hj : j < len) : ∃ k < len, j = (p + k) % len := by
  refine ⟨(j + (len - p)) % len, Nat.mod_lt _ (Nat.zero_lt_of_lt hj), ?_⟩
  rw [Nat.add_mod_mod, show p + (j + (len - p)) = j + len by omega, Nat.add_mod_right, Nat.mod_eq_of_lt hj]

end decay

/-- Settles O37: in L frames of silence every entry of the buffer is written, and what is written is within I * M. -/
theorem normalReverbTailDecays : Obligations.NormalReverbTailDecays := by
  intro i rv M hk hb hi hi1 hM
  have ⟨_, hp, _⟩ := hb
  obtain ⟨hout, hlast⟩ := Reverb.process_silence_atMost hk hb hi hi1 hM rv.len
  exact ⟨hout, fun j hj => hlast j (.inr (exists_circular_offset hp hj))⟩

end Sys2Proof.Machine
end

