-- ==== Sys2Proof/Proofs/Effects.lean ====
section
/-! Every command as its checks and its effect, and what follows for two runs that are to be compared: they agree after any
command if they agree after its effect and after a rejection (R411, R412). -/

namespace Sys2Proof.Machine

/-- The slots after the MONO policy of a start of type T on slot i (R240, R242). -/
def stolenSlots (T : ChType) (i : Nat) (poly : Bool) (chans : List Chan) : List Chan :=
  if poly then chans else mapFrom (fun u c => if c.stolenBy T i u then c.steal else c) 0 chans

/-- The MONO policy writes the slots and nothing else. -/
theorem stealVoices_eq (T : ChType) (i : Nat) (s : State) :
    stealVoices T i s = s.setChans (stolenSlots T i s.cfg.mixopt.cgbPoly s.chans) := by
  unfold stealVoices stolenSlots
  split <;> rfl

/-- What a command does to the state once its checks have passed. -/
def effectOf : Instr → State → State
  | .nop _ _, s => s
  | .cfgWr _ index value, s => s.setCfg ((s.cfg.write index value).getD s.cfg)
  | .reset _ _, s => doReset s
  | .chStartPcm slot track _ n info, s => s.setChan slot.toNat (newPcm s track n info)
  | .chStartSq1 slot track _ n sweep duty _, s =>
    (stealVoices .sq1 slot.toNat s).setChan slot.toNat (newCgb track n (sq1Voice n sweep duty))
  | .chStartSq2 slot track _ n duty _, s => (stealVoices .sq2 slot.toNat s).setChan slot.toNat (newCgb track n (.sq2 duty))
  | .chStartWave slot track _ n wavePos, s =>
    (stealVoices .wave slot.toNat s).setChan slot.toNat (newCgb track n (waveVoice s.par.waveNibbles s.src wavePos))
  | .chStartNoise slot track _ n width7 _, s =>
    (stealVoices .noise slot.toNat s).setChan slot.toNat (newCgb track n (.noise (lfsrWidth width7)))
  | .chSetVol slot volMR volML, s => s.setChan slot.toNat ((s.chan slot.toNat).setVol volMR volML)
  | .chSetPitch slot pitch, s => s.setChan slot.toNat ((s.chan slot.toNat).setPitch pitch)
  | .chTickNote slot _, s => s.setChan slot.toNat (s.chan slot.toNat).tickNote
  | .chRelease slot _, s => s.setChan slot.toNat (s.chan slot.toNat).release
  | .chReleaseFast slot _, s => s.setChan slot.toNat (s.chan slot.toNat).releaseFast
  | .mxTick _ _, s => mixTick s
  | .mxFade _ mode _ length, s => s.setMx (s.mx.startFade mode length)
  | .trkMute track mute _, s => s.setTrack track.toNat { s.track track.toNat with mute := mute }
  | .trkReverb track intensity _, s => s.setTrack track.toNat { s.track track.toNat with rev := intensity }

theorem exec_next_iff_of_eq {i : Instr} {s t u : State} (hx : exec i s = .next u) (hi : i ≠ .mxTick 0 0) :
    exec i s = .next t ↔ (i = .mxTick 0 0 → s.FootprintsValid) ∧ t = u := by
  rw [hx, Host.Outcome.next.injEq]
  exact ⟨fun h => ⟨fun h0 => absurd h0 hi, h.symm⟩, fun h => h.2.symm⟩

/-- All that a command can answer with a next state: the rejection or its effect; only MX_TICK's guard can stand against it. -/
theorem exec_next_iff (i : Instr) (s t : State) :
    exec i s = .next t ↔
      (i = .mxTick 0 0 → s.FootprintsValid) ∧ t = s.afterError (commandError i s) (effectOf i s) := by
  cases i with
  | nop => exact exec_next_iff_of_eq (exec_nop ..) nofun
  | cfgWr => exact exec_next_iff_of_eq (exec_cfgWr ..) nofun
  | reset => exact exec_next_iff_of_eq (exec_reset ..) nofun
  | chStartPcm => exact exec_next_iff_of_eq (exec_chStartPcm ..) nofun
  | chStartSq1 => exact exec_next_iff_of_eq (exec_chStartSq1 ..) nofun
  | chStartSq2 => exact exec_next_iff_of_eq (exec_chStartSq2 ..) nofun
  | chStartWave => exact exec_next_iff_of_eq (exec_chStartWave ..) nofun
  | chStartNoise => exact exec_next_iff_of_eq (exec_chStartNoise ..) nofun
  | chSetVol => exact exec_next_iff_of_eq (exec_chSetVol ..) nofun
  | chSetPitch => exact exec_next_iff_of_eq (exec_chSetPitch ..) nofun
  | chTickNote => exact exec_next_iff_of_eq (exec_chTickNote ..) nofun
  | chRelease => exact exec_next_iff_of_eq (exec_chRelease ..) nofun
  | chReleaseFast => exact exec_next_iff_of_eq (exec_chReleaseFast ..) nofun
  | mxTick a imm =>
    by_cases hwf : a = 0 ∧ imm = 0
    · obtain ⟨rfl, rfl⟩ := hwf
      obtain ⟨hvalid, he⟩ | ⟨hinvalid, off, he⟩ := exec_mxTick_cases s
      · rw [he, Host.Outcome.next.injEq]
        exact ⟨fun h => ⟨fun _ => hvalid, h.symm⟩, fun h => h.2.symm⟩
      · rw [he]
        exact ⟨nofun, fun h => absurd (h.1 rfl) hinvalid⟩
    · refine exec_next_iff_of_eq ?_ fun h => hwf ⟨by cases h; rfl, by cases h; rfl⟩
      rw [exec_mxTick, commandError_mxTick, if_neg hwf, if_neg hwf]
      rfl
  | mxFade => exact exec_next_iff_of_eq (exec_mxFade ..) nofun
  | trkMute => exact exec_next_iff_of_eq (exec_trkMute ..) nofun
  | trkReverb => exact exec_next_iff_of_eq (exec_trkReverb ..) nofun

/-- A command's checks read the slots, the number of tracks, the byte source and the parameters. -/
theorem commandError_congr {s s' : State} (hpar : s'.par = s.par) (hchans : s'.chans = s.chans)
    (hcount : s'.nTracks = s.nTracks) (hsrc : s'.src = s.src) (i : Instr) : commandError i s' = commandError i s := by
  have hslots : s'.chSlots = s.chSlots := congrArg List.length hchans
  have hchan : ∀ u, s'.chan u = s.chan u := fun u => by rw [State.chan, State.chan, hchans]
  cases i <;> simp only [commandError, startError, channelError, hslots, hchan, hcount, hpar, hsrc]

/-- The track of an accepted track command is one of the N_TRACKS (R372, R373). -/
theorem track_lt_of_accepted {w : Bool} {track : BitVec 8} {s : State}
    (hok : (if w = false then some ErrCode.reserved
      else if s.nTracks ≤ track.toNat then some ErrCode.badTrack else none) = none) :
    track.toNat < s.nTracks :=
  Nat.lt_of_not_le (check_eq_none.mp (none_of_reserved hok).2).1

/-- A command whose checks pass completes with its effect, MX_TICK where its guard passes too. -/
theorem exec_of_accepted {i : Instr} {s : State} (htick : i = .mxTick 0 0 → s.FootprintsValid)
    (hok : commandError i s = none) : exec i s = .next (effectOf i s) :=
  (exec_next_iff i s _).mpr ⟨htick, by rw [hok]; rfl⟩

/-- Two states in which a command's checks report the same are related after it if they are after a rejection and after its
effect. -/
theorem exec_related {R : State → State → Prop} {i : Instr} {s s' t : State} (h : exec i s = .next t)
    (hvalid : s.FootprintsValid → s'.FootprintsValid) (herror : commandError i s' = commandError i s)
    (hreject : ∀ e, R (s.rejectedWith e) (s'.rejectedWith e))
    (heffect : commandError i s = none → R (effectOf i s) (effectOf i s')) :
    ∃ t', exec i s' = .next t' ∧ R t t' := by
  obtain ⟨htick, rfl⟩ := (exec_next_iff i s t).mp h
  refine ⟨_, (exec_next_iff i s' _).mpr ⟨fun hi => hvalid (htick hi), rfl⟩, ?_⟩
  rw [herror]
  cases he : commandError i s with
  | none => exact heffect he
  | some e => exact hreject e

end Sys2Proof.Machine
end

