-- ==== Sys2Proof/Proofs/MuteFlags.lean ====
section
/-! A mute flag is seen by the master buffer alone: two states that differ in mute flags and output only stay so (R368). -/

namespace Sys2Proof.Machine

/-- s with other tracks, another master buffer and another host side: all in which a mute flag can show. -/
def State.withOutput (tracks : List Track) (master : List Frame) (port : Port) (s : State) : State :=
  ((s.setTracks tracks).setMx { s.mx with master := master }).setPort port

/-- RESET clears the flag and the intensity of every track (R452). -/
theorem track_doReset (s : State) {k : Nat} (hk : k < s.nTracks) :
    (doReset s).track k = { s.track k with mute := false, rev := 0 } :=
  getD_map _ _ hk _ _

theorem nTracks_doReset (s : State) : (doReset s).nTracks = s.nTracks := List.length_map _

/-- Every slot's channel runs and leaves if it is DEAD, whatever its type (R360, R366). -/
theorem chans_mixTick (s : State) :
    (mixTick s).chans = s.chans.map fun c => (c.ticked s.tickArgs s.src).purged := by
  have hlen : (mixTick s).chans.length = s.chans.length := chSlots_mixTick s
  refine ext_getD .free (by rw [hlen, List.length_map]) fun u hu => ?_
  rw [getD_map _ _ (hlen ▸ hu) .free]
  exact chan_mixTick s u

section agree
variable {s s' : State}

/-- Of two states that agree but for mute flags, the second is the first with other tracks and other output. -/
theorem AgreeButMute.eq_withOutput (h : AgreeButMute s s') :
    s' = s.withOutput s'.tracks s'.mx.master s'.port := by
  have hmx : s'.mx = { s.mx with master := s'.mx.master } := by
    simpa using congrArg (fun m : Mixer => { m with master := s'.mx.master }) h.mx
  have hpar := h.par
  have hcfg := h.cfg
  have hchans := h.chans
  have hreverbs := h.reverbs
  have hsrc := h.src
  cases s'
  simp only at hpar hcfg hchans hreverbs hsrc hmx
  subst hpar hcfg hchans hreverbs hsrc
  simp only [State.withOutput, State.setTracks, State.setMx, State.setPort, ← hmx]

/-! ## Updates that both states make -/

theorem AgreeButMute.rejectedWith (h : AgreeButMute s s') (e : ErrCode) :
    AgreeButMute (s.rejectedWith e) (s'.rejectedWith e) := by
  refine ⟨h.par, h.count, h.cfg, h.chans, h.tracks, h.reverbs, ?_, h.src⟩
  rw [h.eq_withOutput]
  rfl

theorem AgreeButMute.setCfg (h : AgreeButMute s s') {c c' : Cfg} (hc : c' = c) :
    AgreeButMute (s.setCfg c) (s'.setCfg c') :=
  ⟨h.par, h.count, hc, h.chans, h.tracks, h.reverbs, h.mx, h.src⟩

theorem AgreeButMute.setChans (h : AgreeButMute s s') {cs cs' : List Chan} (hc : cs' = cs) :
    AgreeButMute (s.setChans cs) (s'.setChans cs') :=
  ⟨h.par, h.count, h.cfg, hc, h.tracks, h.reverbs, h.mx, h.src⟩

theorem AgreeButMute.setChan (h : AgreeButMute s s') (k : Nat) {c c' : Chan} (hc : c' = c) :
    AgreeButMute (s.setChan k c) (s'.setChan k c') :=
  h.setChans (by rw [h.chans, hc])

theorem AgreeButMute.stealVoices (h : AgreeButMute s s') (T : ChType) (k : Nat) :
    AgreeButMute (stealVoices T k s) (stealVoices T k s') := by
  rw [stealVoices_eq, stealVoices_eq]
  exact h.setChans (by rw [h.cfg, h.chans])

/-- A channel command rewrites the record of one slot (R220 to R224). -/
theorem AgreeButMute.onChannel (h : AgreeButMute s s') (k : Nat) (f : Chan → Chan) :
    AgreeButMute (s.setChan k (f (s.chan k))) (s'.setChan k (f (s'.chan k))) :=
  h.setChan k (by rw [State.chan, State.chan, h.chans])

/-- The named track is written in both, with the same intensity and buffer. -/
theorem AgreeButMute.setTrack (h : AgreeButMute s s') {k : Nat} (hk : k < s.nTracks) {x x' : Track}
    (hx : x'.rev = x.rev ∧ x'.buf = x.buf) : AgreeButMute (s.setTrack k x) (s'.setTrack k x') := by
  refine ⟨h.par, by simp [h.count], h.cfg, h.chans, fun u => ?_, h.reverbs, h.mx, h.src⟩
  by_cases hu : u = k
  · subst hu
    rw [s.track_setTrack_self hk, s'.track_setTrack_self (h.count ▸ hk)]
    exact hx
  · rw [s.track_setTrack_ne hu, s'.track_setTrack_ne hu]
    exact h.tracks u

theorem AgreeButMute.startFade (h : AgreeButMute s s') (mode : BitVec 2) (length : Word) :
    AgreeButMute (s.setMx (s.mx.startFade mode length)) (s'.setMx (s'.mx.startFade mode length)) := by
  refine ⟨h.par, h.count, h.cfg, h.chans, h.tracks, h.reverbs, ?_, h.src⟩
  rw [h.eq_withOutput]
  simp only [State.setMx_mx, Mixer.startFade]
  split_ifs <;> rfl

theorem AgreeButMute.doReset (h : AgreeButMute s s') : AgreeButMute (doReset s) (doReset s') := by
  refine ⟨h.par, by rw [nTracks_doReset, nTracks_doReset, h.count], h.cfg, ?_, fun k => ?_, ?_, ?_, h.src⟩
  · rw [h.eq_withOutput]; rfl
  · obtain hk | hk := lt_or_ge k s.nTracks
    · rw [track_doReset s hk, track_doReset s' (h.count ▸ hk)]
      exact ⟨rfl, (h.tracks k).2⟩
    · rw [State.track_of_le (Machine.doReset s) (by rwa [nTracks_doReset]),
        State.track_of_le _ (by rwa [nTracks_doReset, h.count])]
      exact ⟨rfl, rfl⟩
  · rw [h.eq_withOutput]; rfl
  · rw [h.eq_withOutput]; rfl

/-! ## The render tick -/

theorem AgreeButMute.agreeOnPcm (h : AgreeButMute s s') : AgreeOnPcm s s' where
  par := h.par
  sizes := ⟨congrArg List.length h.chans, h.count⟩
  cfg := h.cfg
  pcm _ _ := by rw [State.chan, State.chan, h.chans]
  rev k := (h.tracks k).1
  reverbs := h.reverbs
  rate := by rw [h.eq_withOutput]; rfl
  src := h.src

/-- The tracks enter a tick through their number and intensities alone: their buffers are cleared, their mute flags unread. -/
theorem AgreeButMute.track_mixTick (h : AgreeButMute s s') (k : Nat) :
    ((mixTick s').track k).rev = ((mixTick s).track k).rev ∧ ((mixTick s').track k).buf = ((mixTick s).track k).buf := by
  obtain hk | hk := lt_or_ge k s.nTracks
  · have hk' : k < s'.nTracks := h.count ▸ hk
    obtain ⟨hrev, -⟩ := h.tracks k
    rw [track_mixTick_eq s hk, track_mixTick_eq s' hk']
    refine ⟨hrev, ?_⟩
    simp only [h.agreeOnPcm.buf_beforeReverb hk, hrev]
    rw [h.eq_withOutput]
    rfl
  · rw [State.track_of_le (Machine.mixTick s) (by rwa [nTracks_mixTick]),
      State.track_of_le _ (by rwa [nTracks_mixTick, h.count])]
    exact ⟨rfl, rfl⟩

theorem AgreeButMute.mixTick (h : AgreeButMute s s') : AgreeButMute (mixTick s) (mixTick s') := by
  refine ⟨?_, ?_, ?_, ?_, h.track_mixTick, ?_, ?_, ?_⟩
  · rw [mixTick_par, mixTick_par, h.par]
  · rw [nTracks_mixTick, nTracks_mixTick, h.count]
  · rw [mixTick_cfg, mixTick_cfg, h.cfg]
  · rw [chans_mixTick, chans_mixTick, h.agreeOnPcm.tickArgs, h.chans, h.src]
  · refine ext_getD (.cleared .noReverb 0 0) (by simp [h.reverbs]) fun k hk => h.agreeOnPcm.reverb_mixTick ?_
    rwa [length_reverbs_mixTick, h.reverbs] at hk
  · rw [mixTick_mx s, mixTick_mx s', h.eq_withOutput]; rfl
  · rw [mixTick_src, mixTick_src, h.src]

/-! ## Every command -/

theorem AgreeButMute.footprintsValid (h : AgreeButMute s s') (hvalid : s.FootprintsValid) : s'.FootprintsValid := by
  rw [State.FootprintsValid, h.chans, h.src]
  exact hvalid

end agree

/-- Settles O32: the updates of both states agree, command by command; the master buffer alone reads the flags. -/
theorem muteSilencesOnlyTheMaster : Obligations.MuteSilencesOnlyTheMaster := by
  intro i s s' t h he
  refine exec_related he h.footprintsValid (commandError_congr h.par h.chans h.count h.src i) h.rejectedWith fun hok => ?_
  cases i with
  | nop => exact h
  | cfgWr => exact h.setCfg (by rw [h.cfg])
  | reset => exact h.doReset
  | chStartPcm => exact h.setChan _ (by rw [newPcm, newPcm, h.cfg, h.src])
  | chStartSq1 => exact (h.stealVoices ..).setChan _ rfl
  | chStartSq2 => exact (h.stealVoices ..).setChan _ rfl
  | chStartWave => exact (h.stealVoices ..).setChan _ (by rw [h.par, h.src])
  | chStartNoise => exact (h.stealVoices ..).setChan _ rfl
  | chSetVol => exact h.onChannel ..
  | chSetPitch => exact h.onChannel ..
  | chTickNote => exact h.onChannel _ Chan.tickNote
  | chRelease => exact h.onChannel _ Chan.release
  | chReleaseFast => exact h.onChannel _ Chan.releaseFast
  | mxTick => exact h.mixTick
  | mxFade => exact h.startFade ..
  | trkMute => exact h.setTrack (track_lt_of_accepted hok) ⟨(h.tracks _).1, (h.tracks _).2⟩
  | trkReverb => exact h.setTrack (track_lt_of_accepted hok) ⟨rfl, (h.tracks _).2⟩

end Sys2Proof.Machine
end

