-- ==== Sys2Proof/Proofs/SystemAndTrackRules.lean ====
section
/-! NOP, MX_FADE and the track commands: what they check and what they write (R370, R372 to R374). -/

namespace Sys2Proof.Machine

/-- Settles O12: with nothing reserved set NOP's checks pass, and its effect is the state itself. -/
theorem nopChangesNothing : Obligations.NopChangesNothing := by
  intro a imm s
  refine ⟨exec_of_accepted nofun rfl, fun h => rejects (.nop a imm) s .reserved (if_pos ?_)⟩
  rw [WellFormed, Bool.and_eq_false_iff, beq_eq_false_iff_ne, beq_eq_false_iff_ne]
  exact h

/-- Settles O30: the reserved fields come first among the checks; the three modes are those of `startFade`. -/
theorem mxFadeRule : Obligations.MxFadeRule := by
  intro a mode rsv W s
  refine ⟨rejects _ s, fun h => if_pos ?_, fun hok => ⟨_, exec_of_accepted nofun hok, onlyMixer_setMx s _, ?_, ?_, ?_⟩⟩
  · simp only [WellFormed, Bool.and_eq_false_iff, beq_eq_false_iff_ne, bne_eq_false_iff_eq]
    tauto
  · rintro rfl; rfl
  · rintro rfl; rfl
  · rintro rfl; rfl

/-- Settles O31: an accepted command names a track that there is, and writes that track. -/
theorem trackCommandRules : Obligations.TrackCommandRules := by
  intro track s
  refine ⟨fun mute rsv => ⟨rejects _ s, fun hok => ?_⟩, fun intensity rsv => ⟨rejects _ s, fun hok => ?_⟩⟩
  · exact ⟨_, exec_of_accepted nofun hok, onlyTrack_setTrack s _ _, s.track_setTrack_self (track_lt_of_accepted hok) _⟩
  · exact ⟨_, exec_of_accepted nofun hok, onlyTrack_setTrack s _ _, s.track_setTrack_self (track_lt_of_accepted hok) _⟩

end Sys2Proof.Machine
end

