-- ==== Sys2Proof/Proofs/DacConfiguration.lean ====
section
/-! The DAC configuration is stored and read back, and no command reads it (R34, R377). -/

namespace Sys2Proof.Machine

/-- The register file with another DAC configuration. -/
def Cfg.withDac (d : BitVec 4) (c : Cfg) : Cfg := { c with soundmode := { c.soundmode with dacCfg := d } }

theorem State.withDac_eq_setCfg (s : State) (d : BitVec 4) : s.withDac d = s.setCfg (s.cfg.withDac d) := rfl

/-- Bits [7:4] of SOUNDMODE are the DAC configuration (R34). -/
theorem SoundMode.extract_dacCfg_pack (m : SoundMode) : m.pack.extractLsb' 4 4 = m.dacCfg := by
  apply BitVec.eq_of_getLsbD_eq
  intro i hi
  simp only [SoundMode.pack, BitVec.getLsbD_append, BitVec.getLsbD_extractLsb']
  grind

/-- A write stores the same value whatever the DAC configuration is; a write of SOUNDMODE replaces it, no other does (R39). -/
theorem write_withDac (c : Cfg) (d : BitVec 4) (index : BitVec 16) (w : Word) :
    ∃ d', ((c.withDac d).write index w).getD (c.withDac d) = ((c.write index w).getD c).withDac d' := by
  unfold Cfg.write
  split
  case h_3 =>
    cases SoundMode.unpack w with
    | none => exact ⟨d, rfl⟩
    | some m => exact ⟨m.dacCfg, rfl⟩
  case h_5 => cases MixOpt.unpack w <;> exact ⟨d, rfl⟩
  case h_8 => exact ⟨d, rfl⟩
  all_goals split_ifs <;> exact ⟨d, rfl⟩

/-- Of all effects only the write of SOUNDMODE has to do with the DAC configuration. -/
theorem effectOf_withDac (i : Instr) (s : State) (d : BitVec 4) :
    ∃ d', effectOf i (s.withDac d) = (effectOf i s).withDac d' := by
  simp only [State.withDac_eq_setCfg]
  cases i with
  | cfgWr a index value =>
    obtain ⟨d', hd⟩ := write_withDac s.cfg d index value
    exact ⟨d', congrArg s.setCfg hd⟩
  | _ =>
    simp only [effectOf, stealVoices_eq]
    exact ⟨d, rfl⟩

/-- Settles O14: the field reads back from the word, and every command runs the same but for it. -/
theorem dacConfigurationHasNoEffect : Obligations.DacConfigurationHasNoEffect := by
  refine fun i s t d => ⟨SoundMode.extract_dacCfg_pack _, fun he => ?_⟩
  obtain ⟨_, he', d', rfl⟩ := exec_related (R := fun t t' => ∃ d', t' = t.withDac d') he (s' := s.withDac d) id
    (commandError_congr rfl rfl rfl rfl i) (fun e => ⟨d, rfl⟩) fun _ => effectOf_withDac i s d
  exact ⟨d', he'⟩

end Sys2Proof.Machine
end

