-- ==== Sys2Proof/Proofs/MasterBuffer.lean ====
section
/-! The master buffer as the sum of the unmuted tracks, and where the tick's output goes (R368, R369, R378). -/

namespace Sys2Proof

/-- Adding frames adds them side by side, frame by frame. -/
theorem toReal_getD_addFrames (b y : List Frame) {i : Nat} (hi : i < b.length) :
    ((addFrames b y).getD i .zero).l.toReal = (b.getD i .zero).l.toReal + (y.getD i .zero).l.toReal ∧
      ((addFrames b y).getD i .zero).r.toReal = (b.getD i .zero).r.toReal + (y.getD i .zero).r.toReal := by
  simp only [List.getD_eq_getElem?_getD, getElem?_addFrames, List.getElem?_eq_getElem hi]
  cases y[i]? with
  | none => simp [Frame.zero]
  | some g => simp [Frame.plus]

end Sys2Proof

namespace Sys2Proof.Machine

/-! ## The sum over the tracks (R368) -/

theorem tracks_eq_map (s : State) : s.tracks = (List.range s.nTracks).map s.track := by
  apply List.ext_getElem
  · simp [State.nTracks]
  · intro u hu _
    simp [State.track, hu]

/-- A sum over the tracks, track by track. -/
theorem sum_tracks (s : State) (g : Track → ℝ) :
    (s.tracks.map g).sum = ((List.range s.nTracks).map fun u => g (s.track u)).sum := by
  rw [tracks_eq_map, List.map_map]
  rfl

/-- Summing from the frames m on: each unmuted track adds its frame. -/
theorem toReal_getD_foldl_tracks (ts : List Track) (m : List Frame) {k : Nat} (hk : k < m.length) :
    ((ts.foldl (fun m t => if t.mute then m else addFrames m t.buf) m).getD k .zero).l.toReal =
        (m.getD k .zero).l.toReal + (ts.map fun t => if t.mute = true then 0 else (t.buf.getD k .zero).l.toReal).sum ∧
      ((ts.foldl (fun m t => if t.mute then m else addFrames m t.buf) m).getD k .zero).r.toReal =
        (m.getD k .zero).r.toReal + (ts.map fun t => if t.mute = true then 0 else (t.buf.getD k .zero).r.toReal).sum := by
  induction ts generalizing m with
  | nil => simp
  | cons t ts ih =>
    simp only [List.foldl_cons, List.map_cons, List.sum_cons]
    by_cases hmute : t.mute = true
    · simp only [if_pos hmute, zero_add]
      exact ih m hk
    · simp only [if_neg hmute, ← add_assoc]
      obtain ⟨hl, hr⟩ := toReal_getD_addFrames m t.buf hk
      rw [← hl, ← hr]
      exact ih _ (by rwa [length_addFrames])

theorem toReal_getD_masterOf {n k : Nat} (hk : k < n) (ts : List Track) :
    ((masterOf n ts).getD k .zero).l.toReal =
        (ts.map fun t => if t.mute = true then 0 else (t.buf.getD k .zero).l.toReal).sum ∧
      ((masterOf n ts).getD k .zero).r.toReal =
        (ts.map fun t => if t.mute = true then 0 else (t.buf.getD k .zero).r.toReal).sum := by
  have hsum := toReal_getD_foldl_tracks ts (List.replicate n .zero) (by rwa [List.length_replicate])
  have hsilent : (List.replicate n Frame.zero).getD k .zero = .zero := by simp [hk]
  rw [hsilent] at hsum
  simp only [show Frame.zero.l = .zero from rfl, show Frame.zero.r = .zero from rfl, SReal.toReal_zero, zero_add] at hsum
  exact hsum

/-! ## The host side (R369, R378) -/

/-- The host side enters no effect: of the state it changes the host side alone. -/
theorem effectOf_setPort (i : Instr) (s : State) (p : Port) :
    ∃ p', effectOf i (s.setPort p) = (effectOf i s).setPort p' := by
  cases i with
  | mxTick => exact ⟨p.push (mixTick s).mx.master, rfl⟩
  | _ =>
    simp only [effectOf, stealVoices_eq]
    exact ⟨p, rfl⟩

theorem exec_setPort {i : Instr} {s t : State} (h : exec i s = .next t) (p : Port) :
    ∃ p', exec i (s.setPort p) = .next (t.setPort p') := by
  obtain ⟨_, he', p', rfl⟩ := exec_related (R := fun t t' => ∃ p', t' = t.setPort p') h (s' := s.setPort p) id
    (commandError_congr rfl rfl rfl rfl i) (fun _ => ⟨p, rfl⟩) fun _ => effectOf_setPort i s p
  exact ⟨p', he'⟩

theorem push_of_exporting {p : Port} (h : p.exporting = true) (frames : List Frame) :
    p.push frames = { p with returned := frames } := if_pos h

theorem push_of_not_exporting {p : Port} (h : p.exporting = false) (frames : List Frame) :
    p.push frames = { p with pending := p.pending ++ frames } := if_neg (by simp [h])

/-- Settles O33: the sum over the tracks as the tick leaves them; which way the output takes is a part of the host side. -/
theorem masterSumsUnmutedTracks : Obligations.MasterSumsUnmutedTracks := by
  refine ⟨fun s t htick => ?_, fun i s t on he => ?_⟩
  · obtain ⟨-, rfl⟩ := mxTick_next htick
    refine ⟨fun hoff => ?_, fun hon => ?_, fun k hk => ⟨(mixTick s).mx.master.getD k .zero, ?_, ?_⟩⟩
    · rw [mixTick_port, push_of_not_exporting hoff]
    · rw [mixTick_port, push_of_exporting hon]
    · have hlen : k < (mixTick s).mx.master.length := by rwa [mixTick_master, length_masterOf]
      simp [hlen]
    · have hsum := toReal_getD_masterOf hk (mixTick s).tracks
      rw [sum_tracks, sum_tracks, nTracks_mixTick] at hsum
      rw [mixTick_master]
      exact hsum
  · obtain ⟨p', he'⟩ := exec_setPort he { s.port with exporting := on }
    exact ⟨_, he', rfl⟩

end Sys2Proof.Machine
end

