-- ==== Sys2Proof/Proofs/Fade.lean ====
section
/-! The master fade: one tick of it, and a fade-out over its whole length (R367, R370, R378). -/

namespace Sys2Proof.Machine

/-! ## One tick (R367) -/

/-- The fade after a tick, with the two ways to end as one condition. -/
theorem fadeTick_eq (m : Mixer) :
    m.fadeTick =
      { m with
        fadePos := m.nextFadePos
        fadeState :=
          if (m.fadeState = .fadeIn ∧ m.nextFadePos = 1) ∨ (m.fadeState = .fadeOut ∧ m.nextFadePos = 0) then .idle
          else m.fadeState
        fadeDone := m.fadeDone || decide (m.fadeState = .fadeOut ∧ m.nextFadePos = 0) } := by
  unfold Mixer.fadeTick
  congr 1
  · exact (ite_or ..).symm
  · by_cases h : m.fadeState = .fadeOut ∧ m.nextFadePos = 0 <;> simp [h]

/-- Frame k of a faded buffer (R367). -/
theorem getElem?_fadeFrames {e k : Nat} {p0 p1 : Rat} {buf : List Frame} {f : Frame} (h : buf[k]? = some f) :
    (fadeFrames e p0 p1 buf)[k]? = some (f.smul (p0 ^ e + (p1 ^ e - p0 ^ e) * (k / buf.length))) := by
  rw [fadeFrames, getElem?_mapFrom, h, Option.map_some, ratPow_eq, ratPow_eq, lerp, Nat.zero_add]

/-- Settles O28: the position p is `nextFadePos`, in the track buffers and in the mixer after the tick. -/
theorem fadeOfATick : Obligations.FadeOfATick := by
  intro s
  refine ⟨s.mx.nextFadePos, fun h => ?_, fun h => ?_, fun h => ?_, fun u e hu he => ?_, fun t htick => ?_⟩
  · simp only [Mixer.nextFadePos, h]
  · simp only [Mixer.nextFadePos, h]
  · simp only [Mixer.nextFadePos, h]
  · subst he
    rw [track_fade s hu]
    refine ⟨length_fadeFrames .., fun k f hf => ⟨_, getElem?_fadeFrames hf, ?_, ?_⟩⟩
    · rw [Frame.smul, SReal.toReal_smul, mul_comm]
    · rw [Frame.smul, SReal.toReal_smul, mul_comm]
  · obtain ⟨-, rfl⟩ := mxTick_next htick
    rw [mixTick_mx, fadeTick_eq]
    exact ⟨rfl, rfl, rfl⟩

/-! ## A whole fade-out (R370, R378) -/

/-- "Has the song ended" is FADE_DONE, bit 8 of STATUS (R40, R378). -/
theorem songEnded_eq (s : State) : s.songEnded = s.mx.fadeDone := by
  simp only [State.songEnded, State.status, BitVec.getLsbD_append, BitVec.getLsbD_ofBool]
  rfl

/-- The mixer j ticks into a fade-out of length W that began at position 1: still fading before the W-th tick, over and done
after it. -/
structure Mixer.FadingOut (W j : Nat) (m : Mixer) : Prop where
  pos : m.fadePos = 1 - (j : Rat) / W
  step : m.fadeStep = 1 / (W : Rat)
  running : j < W → m.fadeState = .fadeOut ∧ m.fadeDone = false
  ended : j = W → m.fadeState = .idle ∧ m.fadeDone = true

theorem fadingOut_startFade {m : Mixer} (hpos : m.fadePos = 1) {W : Word} (hW : W ≠ 0) :
    (m.startFade 2 W).FadingOut W.toNat 0 := by
  refine ⟨?_, rfl, fun _ => ⟨rfl, rfl⟩, fun h => absurd (BitVec.eq_of_toNat_eq h.symm) hW⟩
  show m.fadePos = _
  simp [hpos]

/-- A tick takes 1/W off the position, which is 0 after the W-th tick and not before. -/
theorem Mixer.FadingOut.fadeTick {W j : Nat} {m : Mixer} (h : m.FadingOut W j) (hj : j < W) :
    m.fadeTick.FadingOut W (j + 1) := by
  have hW : (0 : Rat) < W := by exact_mod_cast Nat.zero_lt_of_lt hj
  obtain ⟨hstate, hdone⟩ := h.running hj
  have hle : ((j + 1 : Nat) : Rat) / W ≤ 1 := (div_le_one hW).mpr (by exact_mod_cast hj)
  have hnext : m.nextFadePos = 1 - ((j + 1 : Nat) : Rat) / W := by
    have hpos : m.fadePos - m.fadeStep = 1 - ((j + 1 : Nat) : Rat) / W := by
      rw [h.pos, h.step]
      push_cast
      ring
    simp only [Mixer.nextFadePos, hstate]
    rw [hpos, max_eq_right (sub_nonneg.mpr hle)]
  have hend : m.nextFadePos = 0 ↔ j + 1 = W := by
    rw [hnext, sub_eq_zero, eq_comm, div_eq_one_iff_eq hW.ne', Nat.cast_inj]
  rw [fadeTick_eq]
  refine ⟨hnext, h.step, fun hlt => ?_, fun heq => ?_⟩
  · simp [hstate, hdone, hend, hlt.ne]
  · simp [hstate, hend, heq]

/-- j ticks of the fade-out, from its i-th tick on. -/
theorem fadingOut_ticksFrom {W i j : Nat} {s t : State} (h : s.mx.FadingOut W i) (hticks : TicksFrom j s t)
    (hle : i + j ≤ W) : t.mx.FadingOut W (i + j) := by
  induction j generalizing i s with
  | zero =>
    cases hticks
    exact h
  | succ j ih =>
    obtain ⟨u, htick, hrest⟩ := hticks
    obtain ⟨-, rfl⟩ := mxTick_next htick
    have hnext : (mixTick s).mx.FadingOut W (i + 1) := by
      have htick := h.fadeTick (show i < W by omega)
      rw [mixTick_mx]
      exact ⟨htick.pos, htick.step, htick.running, htick.ended⟩
    rw [show i + (j + 1) = i + 1 + j by omega] at hle ⊢
    exact ih hnext hrest hle

/-- Settles O29: MX_FADE begins the fade-out, and each tick takes it one step further. -/
theorem fadeOutLastsItsLength : Obligations.FadeOutLastsItsLength := by
  intro s u t W j hpos hW hfade hticks hle
  have hstart : u.mx.FadingOut W.toNat 0 := by
    have hok : commandError (.mxFade 0 2 0 W) s = none := by simpa [commandError, WellFormed] using hW
    obtain ⟨-, rfl⟩ := (exec_next_iff _ s u).mp hfade
    rw [hok]
    exact fadingOut_startFade hpos hW
  have hfading := fadingOut_ticksFrom hstart hticks (by rwa [Nat.zero_add])
  rw [Nat.zero_add] at hfading
  rw [songEnded_eq]
  refine ⟨hfading.pos, fun hlt => ?_, fun heq => ?_⟩
  · obtain ⟨hstate, hdone⟩ := hfading.running hlt
    exact ⟨hstate, hdone, hdone⟩
  · obtain ⟨hstate, hdone⟩ := hfading.ended heq
    exact ⟨hstate, hdone, hdone⟩

end Sys2Proof.Machine
end

