-- ==== Sys2Proof/Proofs/TickStages.lean ====
section
/-! What a render tick writes and what it leaves, slot by slot, track by track and reverb by reverb: its frame, the purge, and
its stages as real sums (R360 to R369, R332, R214, R260). -/

namespace Sys2Proof.Machine

/-! ## The slots (R360, R366) -/

theorem purged_eq (c : Chan) :
    c.purged = if c.live = true ∧ c.envState = .dead then { c with live := false } else c := by
  simp [Chan.purged]

/-- A free slot is left alone by the tick and by the purge. -/
theorem purged_ticked_of_free (a : TickArgs) (src : Source) {c : Chan} (h : c.live = false) :
    (c.ticked a src).purged = c := by
  simp [Chan.ticked, Chan.purged, h]

theorem purged_ticked_of_live (a : TickArgs) (src : Source) {c : Chan} (h : c.live = true) :
    (c.ticked a src).purged =
      if (c.process a src).1.envState = .dead then { (c.process a src).1 with live := false } else (c.process a src).1 := by
  simp [Chan.ticked, purged_eq, h]

/-- The purge writes `live` alone, which is not among the fields that a tick keeps. -/
theorem TickKeeps.purged {c d : Chan} (h : TickKeeps c d) : TickKeeps c d.purged := by
  unfold Chan.purged
  split
  · exact ⟨h.track, h.note, h.length, h.adsr, h.volumes, h.pitch, h.stop, h.pan, h.rsKind, h.type, h.voice, h.sweep⟩
  · exact h

theorem tickKeeps_ticked (a : TickArgs) (src : Source) (c : Chan) : TickKeeps c (c.ticked a src) := by
  unfold Chan.ticked
  split
  · exact tickKeeps_process a src c
  · exact .refl c

/-- Settles O26: the purge of each slot, which a slot out of range does not have; a live slot after a tick is not DEAD. -/
theorem tickPurgesDeadChannels : Obligations.TickPurgesDeadChannels := by
  refine ⟨fun s u => ?_, fun s t htick c hc hlive hdead => ?_⟩
  · obtain hu | hu := lt_or_ge u s.chSlots
    · rw [chan_purge s hu, purged_eq]
    · rw [s.chan_of_le hu, State.chan_of_le _ (by rwa [chSlots_purge])]
      rfl
  · obtain ⟨-, rfl⟩ := mxTick_next htick
    obtain ⟨u, -, rfl⟩ := State.exists_chan_of_mem hc
    rw [chan_mixTick] at hlive hdead
    obtain ⟨he, -, hsounds⟩ := Chan.purged_of_live hlive
    exact hsounds (he ▸ hdead)

/-! ## The frame of a tick -/

/-- No frame changes the kind or the geometry of a reverb (R58). -/
theorem reverbFrame_geometry (i : Rat) (rv : Reverb) (x : Frame) :
    (rv.frame i x).1.kind = rv.kind ∧ (rv.frame i x).1.nBuf = rv.nBuf ∧ (rv.frame i x).1.dLen = rv.dLen ∧
      (rv.frame i x).1.len = rv.len := by
  by_cases hk : rv.kind = .noReverb
  · rw [Reverb.frame_noReverb hk]
    exact ⟨rfl, rfl, rfl, rfl⟩
  · obtain ⟨_, _, _, _, he⟩ := Reverb.frame_stores hk i x
    rw [he]
    exact ⟨rfl, rfl, rfl, rfl⟩

theorem reverbProcess_geometry (i : Rat) (rv : Reverb) (xs : List Frame) :
    (rv.process i xs).1.kind = rv.kind ∧ (rv.process i xs).1.nBuf = rv.nBuf ∧ (rv.process i xs).1.dLen = rv.dLen ∧
      (rv.process i xs).1.len = rv.len := by
  induction xs generalizing rv with
  | nil => exact ⟨rfl, rfl, rfl, rfl⟩
  | cons x xs ih =>
    have hframe := reverbFrame_geometry i rv x
    have hrest := ih (rv.frame i x).1
    simp only [hframe] at hrest
    exact hrest

theorem reverb_mixTick_geometry (s : State) {k : Nat} (hr : k < s.reverbs.length) :
    ((mixTick s).reverb k).kind = (s.reverb k).kind ∧ ((mixTick s).reverb k).nBuf = (s.reverb k).nBuf ∧
      ((mixTick s).reverb k).dLen = (s.reverb k).dLen ∧ ((mixTick s).reverb k).len = (s.reverb k).len := by
  obtain hk | hk := lt_or_ge k s.nTracks
  · rw [reverb_mixTick s hk hr]
    exact reverbProcess_geometry ..
  · rw [reverb_mixTick_of_le s hk]
    exact ⟨rfl, rfl, rfl, rfl⟩

theorem mxTick_faults_iff (s : State) :
    (∃ off, exec (.mxTick 0 0) s = .fault (.outsideByteSource off)) ↔ ¬s.FootprintsValid := by
  obtain ⟨hvalid, he⟩ | ⟨hinvalid, hfault⟩ := exec_mxTick_cases s
  · rw [he]
    exact ⟨nofun, fun h => absurd hvalid h⟩
  · exact ⟨fun _ => hinvalid, fun _ => hfault⟩

/-- Settles O24: the guard passes exactly for valid footprints; each part of the state is read off the tick's own lemma. -/
theorem tickCompletesAndFrame : Obligations.TickCompletesAndFrame := by
  refine fun s => ⟨fun hvalid => ?_, mxTick_faults_iff s⟩
  have hsrc := mixTick_src s
  refine ⟨mixTick s, exec_of_accepted (fun _ => hvalid) rfl, mixTick_par s, mixTick_cfg s, ⟨hsrc, fun _ => by rw [hsrc]⟩,
    chSlots_mixTick s, nTracks_mixTick s, length_reverbs_mixTick s, rfl, ?_, rfl, rfl, rfl, rfl, mixTick_port s,
    fun k hk => ?_, fun k hk => reverb_mixTick_geometry s hk, fun u => ?_⟩
  · rw [mixTick_master, length_masterOf]
  · obtain ⟨buf, he, hlen⟩ := track_mixTick s hk
    rw [he]
    exact ⟨rfl, rfl, hlen⟩
  · rw [chan_mixTick]
    exact ⟨(tickKeeps_ticked _ _ _).purged, purged_ticked_of_free _ _⟩

/-! ## The sums of a tick (R363) -/

/-- Side `side` of frame i, summed as reals over what `Process` adds for the channels of s that satisfy p. -/
noncomputable def State.slotSum (s : State) (p : Chan → Prop) [DecidablePred p] (i : Nat) (side : Frame → SReal) : ℝ :=
  ((List.range s.chSlots).map fun u : Nat =>
    if p (s.chan u) then (side (((s.chan u).process s.tickArgs s.src).2.getD i .zero)).toReal else 0).sum

/-- A live channel of track k that a stage of the tick selects. -/
abbrev Chan.OnTrack (k : Nat) (sel : Chan → Bool) (c : Chan) : Prop := c.live = true ∧ c.track = k ∧ sel c = true

/-- What a slot adds to a side of frame i of track k: nothing, unless a selected live channel of the track is there. -/
theorem toReal_processSelected {sel : Chan → Bool} (a : TickArgs) (src : Source) (k i : Nat) (c : Chan)
    {side : Frame → SReal} (hside : (side .zero).toReal = 0) :
    (if (processSelected sel a src c).1.track = k then (side ((processSelected sel a src c).2.getD i .zero)).toReal else 0) =
      if c.OnTrack k sel then (side ((c.process a src).2.getD i .zero)).toReal else 0 := by
  by_cases hsel : c.live = true ∧ sel c = true
  · have he : processSelected sel a src c = c.process a src := if_pos (by simpa using hsel)
    simp [he, hsel, Chan.OnTrack]
  · have hoff : ¬c.OnTrack k sel := fun ⟨hlive, _, hs⟩ => hsel ⟨hlive, hs⟩
    rw [processSelected_silent hsel, if_neg hoff, List.getD_nil, hside, ite_self]

/-- The frames that the selected channels of a track add to a buffer, as sums over the slots. -/
theorem toReal_mixSelected (sel : Chan → Bool) (s : State) (k : Nat) (buf : List Frame) {i : Nat} (hi : i < buf.length) :
    ((mixInto k (s.chans.map (processSelected sel s.tickArgs s.src)) buf).getD i .zero).l.toReal =
        (buf.getD i .zero).l.toReal + s.slotSum (Chan.OnTrack k sel) i Frame.l ∧
      ((mixInto k (s.chans.map (processSelected sel s.tickArgs s.src)) buf).getD i .zero).r.toReal =
        (buf.getD i .zero).r.toReal + s.slotSum (Chan.OnTrack k sel) i Frame.r := by
  obtain ⟨hl, hr⟩ := toReal_getD_mixInto k (s.chans.map (processSelected sel s.tickArgs s.src)) buf i hi
  have hzero := SReal.toReal_zero
  rw [hl, hr, List.map_map, List.map_map, sum_chans, sum_chans]
  simp only [Function.comp_def, toReal_processSelected (side := Frame.l) _ _ _ _ _ hzero,
    toReal_processSelected (side := Frame.r) _ _ _ _ _ hzero, State.slotSum, and_self]

/-- The input of a track's reverb: the live PCM channels of the track over silence (R363). -/
theorem toReal_buf_beforeReverb (s : State) {k i : Nat} (hk : k < s.nTracks) (hi : i < s.cfg.tickLen.toNat) :
    ((s.beforeReverb.track k).buf.getD i .zero).l.toReal = s.slotSum (Chan.OnTrack k Chan.isPcm) i Frame.l ∧
      ((s.beforeReverb.track k).buf.getD i .zero).r.toReal = s.slotSum (Chan.OnTrack k Chan.isPcm) i Frame.r := by
  have hsilent : (List.replicate s.cfg.tickLen.toNat Frame.zero).getD i .zero = .zero := by simp [hi]
  have hmix := toReal_mixSelected Chan.isPcm s k (.replicate s.cfg.tickLen.toNat .zero) (by rwa [List.length_replicate])
  rw [hsilent, show Frame.zero.l.toReal = 0 from SReal.toReal_zero, show Frame.zero.r.toReal = 0 from SReal.toReal_zero,
    zero_add, zero_add] at hmix
  rw [buf_beforeReverb s hk]
  exact hmix

/-- When the tone generators run, each slot has been through the PCM stage. -/
theorem chan_beforeReverb (s : State) {u : Nat} (hu : u < s.chSlots) :
    s.beforeReverb.chan u = (processSelected Chan.isPcm s.tickArgs s.src (s.chan u)).1 :=
  chan_runChannels _ _ (clearBuffers _ s) hu

/-- The PCM stage leaves every tone generator as it was, and every PCM channel one (R360). -/
theorem slotSum_beforeReverb (s : State) (k i : Nat) (side : Frame → SReal) :
    s.beforeReverb.slotSum (Chan.OnTrack k fun c => !c.isPcm) i side =
      s.slotSum (Chan.OnTrack k fun c => !c.isPcm) i side := by
  have hslots : s.beforeReverb.chSlots = s.chSlots := chSlots_runChannels _ _ _
  unfold State.slotSum
  rw [hslots]
  refine congrArg List.sum (List.map_congr_left fun u hu => ?_)
  rw [chan_beforeReverb s (List.mem_range.mp hu)]
  by_cases hsel : (s.chan u).live = true ∧ (s.chan u).isPcm = true
  · have he : processSelected Chan.isPcm s.tickArgs s.src (s.chan u) = (s.chan u).process s.tickArgs s.src :=
      if_pos (by simpa using hsel)
    simp [he, hsel, Chan.OnTrack]
  · have he : processSelected Chan.isPcm s.tickArgs s.src (s.chan u) = (s.chan u, []) := if_neg (by simpa using hsel)
    rw [he]
    rfl

/-- A track's frame after a tick: the reverb's output and the tone generators, times the fade factor (R332, R363, R367). -/
theorem toReal_buf_mixTick (s : State) {k i : Nat} {rv : Reverb} {wet : List Frame} {g : Rat} (hk : k < s.nTracks)
    (hi : i < s.cfg.tickLen.toNat)
    (hwet : (s.reverb k).process (intensity s.cfg.soundmode (s.track k).rev) (s.beforeReverb.track k).buf = (rv, wet))
    (hg : g = s.mx.fadePos ^ s.par.fadeExp +
      (s.mx.nextFadePos ^ s.par.fadeExp - s.mx.fadePos ^ s.par.fadeExp) * (i / s.cfg.tickLen.toNat)) :
    (((mixTick s).track k).buf.getD i .zero).l.toReal =
        ((wet.getD i .zero).l.toReal + s.slotSum (Chan.OnTrack k fun c => !c.isPcm) i Frame.l) * g ∧
      (((mixTick s).track k).buf.getD i .zero).r.toReal =
        ((wet.getD i .zero).r.toReal + s.slotSum (Chan.OnTrack k fun c => !c.isPcm) i Frame.r) * g := by
  have hlen : wet.length = s.cfg.tickLen.toNat := by
    have hproc := length_reverbProcess (intensity s.cfg.soundmode (s.track k).rev) (s.reverb k) (s.beforeReverb.track k).buf
    rwa [hwet, buf_beforeReverb s hk, length_mixInto, List.length_replicate] at hproc
  have hmix := toReal_mixSelected (fun c => !c.isPcm) s.beforeReverb k wet (hlen ▸ hi)
  rw [slotSum_beforeReverb, slotSum_beforeReverb] at hmix
  obtain ⟨hl, hr⟩ := hmix
  rw [track_mixTick_eq s hk, hwet, getD_fadeFrames _ _ _ _ _ (by rwa [length_mixInto, hlen]), length_mixInto, hlen, ratPow_eq,
    ratPow_eq, lerp, ← hg, ← hl, ← hr]
  simp only [Frame.smul, SReal.toReal_smul]
  exact ⟨mul_comm _ _, mul_comm _ _⟩

theorem slotSum_pcm (s : State) (k i : Nat) (side : Frame → SReal) :
    s.slotSum (Chan.OnTrack k Chan.isPcm) i side = ((List.range s.chSlots).map fun u : Nat =>
      if (s.chan u).live = true ∧ (s.chan u).track = k ∧ (s.chan u).type = .pcm then
        (side (((s.chan u).process s.tickArgs s.src).2.getD i .zero)).toReal else 0).sum := by
  simp only [State.slotSum, Chan.OnTrack, Chan.isPcm_iff]

theorem slotSum_tone (s : State) (k i : Nat) (side : Frame → SReal) :
    s.slotSum (Chan.OnTrack k fun c => !c.isPcm) i side = ((List.range s.chSlots).map fun u : Nat =>
      if (s.chan u).live = true ∧ (s.chan u).track = k ∧ (s.chan u).type ≠ .pcm then
        (side (((s.chan u).process s.tickArgs s.src).2.getD i .zero)).toReal else 0).sum := by
  simp only [State.slotSum, Chan.OnTrack, Bool.not_eq_true', Chan.isPcm_eq_false_iff]

/-- `Process` after the envelope step: nothing more for a DEAD channel, else the sweep tick of an SQ1 and the rendering
(R214, R260). -/
theorem process_cases (a : TickArgs) (src : Source) {c e : Chan} (he : e = c.stepEnvelope a.par.interframes a.susBug) :
    (e.envState = .dead → c.process a src = (e, [])) ∧
      (e.envState ≠ .dead →
        (∀ duty sw, e.voice = .sq1 duty sw →
          c.process a src = ({ e with voice := .sq1 duty (sw.tick a.n a.rate) } : Chan).render a src) ∧
        ((∀ duty sw, e.voice ≠ .sq1 duty sw) → c.process a src = e.render a src)) := by
  subst he
  refine ⟨process_dead, fun hsounds => ?_⟩
  rw [process_sounds hsounds]
  obtain ⟨duty, sw, hv, hs⟩ | ⟨hv, hs⟩ := sweepTick_cases a (c.stepEnvelope a.par.interframes a.susBug)
  · rw [hs]
    refine ⟨fun duty' sw' hv' => ?_, fun hno => absurd hv (hno duty sw)⟩
    rw [hv] at hv'
    cases hv'
    rfl
  · rw [hs]
    exact ⟨fun duty sw hv' => absurd hv' (hv duty sw), fun _ => rfl⟩

/-- Settles O25: the slots by `Process` and the purge; of each track the input of its reverb, and what the tones and the fade
make of the output. -/
theorem tickRunsEveryStageInOrder : Obligations.TickRunsEveryStageInOrder := by
  refine ⟨fun s t a htick ha => ?_, fun a src c e he => process_cases a src he⟩
  obtain ⟨-, rfl⟩ := mxTick_next htick
  obtain rfl : a = s.tickArgs := ha
  refine ⟨fun u => ⟨fun hfree => ?_, fun hlive c hc => ?_⟩, fun k hk => ?_⟩
  · rw [chan_mixTick, purged_ticked_of_free _ _ hfree]
  · rw [chan_mixTick, purged_ticked_of_live _ _ hlive, hc]
  · obtain ⟨buf, htrack, hlen⟩ := track_mixTick s hk
    refine ⟨(s.beforeReverb.track k).buf, _, _, ?_, fun i hi => ?_, rfl, reverb_mixTick s hk, by rw [htrack]; exact hlen,
      fun i hi g hg => ?_⟩
    · rw [buf_beforeReverb s hk, length_mixInto, List.length_replicate]
      rfl
    · rw [← slotSum_pcm s k i Frame.l, ← slotSum_pcm s k i Frame.r]
      exact toReal_buf_beforeReverb s hk hi
    · rw [← slotSum_tone s k i Frame.l, ← slotSum_tone s k i Frame.r]
      exact toReal_buf_mixTick s hk hi rfl hg

end Sys2Proof.Machine
end

