-- ==== Sys2Proof/Proofs/RejectionStatus.lean ====
section
/-! The error status: a rejection writes LAST_ERR and ERR_COUNT, an accepted command other than RESET leaves both (R411). -/

namespace Sys2Proof.Machine

/-- No effect but RESET's writes LAST_ERR or ERR_COUNT. -/
theorem effectOf_keeps_status {i : Instr} (hi : ∀ a imm, i ≠ .reset a imm) (s : State) :
    (effectOf i s).mx.lastErr = s.mx.lastErr ∧ (effectOf i s).mx.errCount = s.mx.errCount := by
  cases i with
  | reset a imm => exact absurd rfl (hi a imm)
  | mxTick =>
    rw [effectOf, mixTick_mx, fadeTick_eq]
    exact ⟨rfl, rfl⟩
  | mxFade =>
    rw [effectOf, State.setMx_mx, Mixer.startFade]
    split_ifs <;> exact ⟨rfl, rfl⟩
  | _ => simp [effectOf, stealVoices_eq]

/-- Settles O6: a command answers with its rejection or with its effect, and no effect but RESET's writes the status. -/
theorem rejectionChangesOnlyStatus : Obligations.RejectionChangesOnlyStatus := by
  refine fun i s => ⟨rejects i s, fun n e => runFront_rejected, fun hok hi t hexec => ?_⟩
  obtain ⟨-, rfl⟩ := (exec_next_iff i s t).mp hexec
  rw [hok]
  exact effectOf_keeps_status hi s

end Sys2Proof.Machine
end

