-- ==== Sys2Proof/Proofs/HostSide.lean ====
section
/-! The host side over a step: the queue and the frames that wait for it, what the audio agent takes, the rendezvous, and what a
command adds to it (R378, R435 to R438). -/

namespace Sys2Proof.Machine

/-! ## The queue (R436, R437) -/

theorem Port.flush_of_room {p : Port} (h : p.ring.length + p.pending.length ≤ ringFrames) :
    p.flush = { p with ring := p.ring ++ p.pending, pending := [] } := by
  obtain ⟨he, hnil | hfull⟩ | ⟨he, -⟩ := p.flush_cases
  · rw [he]
    cases p
    cases hnil
    rw [List.append_nil]
  · omega
  · exact he

theorem Port.flush_of_full {p : Port} (h : ringFrames < p.ring.length + p.pending.length) : p.flush = p := by
  obtain ⟨he, -⟩ | ⟨-, hroom⟩ := p.flush_cases
  · exact he
  · omega

theorem Port.request_of_le {p : Port} {m : Nat} (h : m ≤ p.ring.length) :
    p.request m = { p with heard := p.ring.take m, ring := p.ring.drop m } := if_pos h

theorem Port.request_of_lt {p : Port} {m : Nat} (h : p.ring.length < m) :
    p.request m = { p with heard := List.replicate m Frame.zero } := if_neg (by omega)

/-- Settles O55: the two outcomes of a request. -/
theorem audioRequestRule : Obligations.AudioRequestRule :=
  fun _ _ => ⟨Port.request_of_le, Port.request_of_lt⟩

/-- The frames that a request takes, followed by what it leaves, are the frames there were. -/
theorem Port.request_frames (m : Nat) (p : Port) :
    (if m ≤ p.ring.length then p.ring.take m else []) ++ ((p.request m).ring ++ (p.request m).pending) =
      p.ring ++ p.pending := by
  split
  · next h => rw [request_of_le h, ← List.append_assoc, List.take_append_drop]
  · next h => rw [request_of_lt (Nat.lt_of_not_le h), List.nil_append]

theorem Port.request_heard (m : Nat) (p : Port) :
    (p.request m).heard = if m ≤ p.ring.length then p.ring.take m else List.replicate m .zero := by
  unfold request
  split <;> rfl

theorem Port.length_ring_flush_le {p : Port} (h : p.ring.length ≤ ringFrames) : p.flush.ring.length ≤ ringFrames := by
  obtain ⟨he, -⟩ | ⟨he, hroom⟩ := p.flush_cases
  · rwa [he]
  · rwa [he, List.length_append]

/-- No other agent adds to the queue. -/
theorem Port.length_ring_agent_le (turn : HostTurn) (p : Port) : (p.agent turn).ring.length ≤ p.ring.length := by
  cases turn with
  | audio m =>
    rw [agent, request]
    split
    · exact (List.length_drop ..).trans_le (Nat.sub_le ..)
    · exact le_rfl
  | _ => exact le_rfl

/-! ## The rendezvous (R435) -/

theorem Port.takeSlot_of_taken {p : Port} {ws : List Word} (h : p.invocation = some ws) : p.takeSlot = p := by
  simp only [takeSlot, h]

theorem Port.takeSlot_of_free {p : Port} {ws : List Word} {rest : List (List Word)} (hfree : p.invocation = none)
    (hcallers : p.callers = ws :: rest) : p.takeSlot = { p with invocation := some ws, callers := rest } := by
  simp only [takeSlot, hfree, hcallers]

/-- What follows a whole command has no part in its decoding (R122). -/
theorem decode_append {ws : List Word} {i : Instr} {n : Nat} (h : decode ws = .instr i n) (rest : List Word) :
    decode (ws ++ rest) = .instr i n := by
  obtain ⟨-, htake, rfl⟩ := encodeInvertsDecode ws i n h
  rw [← List.take_append_drop (encode i).length ws, htake, List.append_assoc, decode_encode_append]

/-- Settles O57: a taken slot outlasts the other agents' turn, and the words it holds come to the front of the stream. -/
theorem rendezvousServicedFirst : Obligations.RendezvousServicedFirst := by
  refine ⟨fun s ws i n hpending hturns hslot hd => ?_, fun p ws => Port.takeSlot_of_taken,
    fun p ws rest => Port.takeSlot_of_free⟩
  have hturn : s.port.hostTurn = s.port := by
    rw [Port.hostTurn_quiet hturns, Port.flush_of_nil hpending, Port.takeSlot_of_taken hslot]
  rw [step_ready (hturn.symm ▸ hpending), hturn, Port.service_of_some hslot]
  exact runFront_instr (decode_append hd _)

/-! ## The other agents' turn -/

theorem Port.hostTurn_cons {p : Port} {turn : HostTurn} {rest : List HostTurn} (h : p.turns = turn :: rest) :
    p.hostTurn = (({ p.flush with turns := rest }.agent turn).flush).takeSlot := by
  unfold hostTurn
  rw [flush_turns, h]

theorem Port.length_ring_hostTurn_le {p : Port} (h : p.ring.length ≤ ringFrames) :
    p.hostTurn.ring.length ≤ ringFrames := by
  cases hturns : p.turns with
  | nil =>
    rw [hostTurn_quiet hturns, takeSlot_ring]
    exact length_ring_flush_le h
  | cons turn rest =>
    rw [hostTurn_cons hturns, takeSlot_ring]
    exact length_ring_flush_le ((length_ring_agent_le turn _).trans (length_ring_flush_le h))

/-- The other agents' turn takes the delivered frames off the front and keeps the others in their order. -/
theorem delivered_append_hostTurn (s : State) :
    s.delivered ++ (s.port.hostTurn.ring ++ s.port.hostTurn.pending) = s.port.ring ++ s.port.pending := by
  rw [← Port.flush_frames s.port]
  cases hturns : s.port.turns with
  | nil =>
    rw [Port.hostTurn_quiet hturns, Port.takeSlot_ring, Port.takeSlot_pending, State.delivered, hturns]
    rfl
  | cons turn rest =>
    rw [Port.hostTurn_cons hturns, Port.takeSlot_ring, Port.takeSlot_pending, Port.flush_frames, State.delivered, hturns]
    cases turn with
    | audio m => exact Port.request_frames m { s.port.flush with turns := rest }
    | _ => rfl

theorem hostTurn_heard (s : State) : s.port.hostTurn.heard = s.heardNext := by
  cases hturns : s.port.turns with
  | nil => rw [Port.hostTurn_quiet hturns, Port.takeSlot_heard, Port.flush_heard, State.heardNext, hturns]
  | cons turn rest =>
    rw [Port.hostTurn_cons hturns, Port.takeSlot_heard, Port.flush_heard, State.heardNext, hturns]
    cases turn with
    | audio m => exact Port.request_heard m { s.port.flush with turns := rest }
    | _ => exact Port.flush_heard s.port

/-- No other agent writes what the last tick off the ring buffer returned (R378). -/
theorem Port.hostTurn_returned (p : Port) : p.hostTurn.returned = p.returned := by
  cases hturns : p.turns with
  | nil => rw [hostTurn_quiet hturns, takeSlot_returned, flush_returned]
  | cons turn rest =>
    rw [hostTurn_cons hturns, takeSlot_returned, flush_returned]
    cases turn with
    | audio m =>
      obtain ⟨-, -, -, -, -, hreturned, -⟩ := request_rest m { p.flush with turns := rest }
      exact hreturned.trans (flush_returned p)
    | _ => exact flush_returned p

/-! ## What a step leaves of the host side (R369, R378) -/

/-- q is p but for commands, callers and turns: the same frames on every path of the output, and the same path selected. -/
structure Port.SameOutput (p q : Port) : Prop where
  pending : q.pending = p.pending
  ring : q.ring = p.ring
  heard : q.heard = p.heard
  exporting : q.exporting = p.exporting
  returned : q.returned = p.returned

theorem Port.sameOutput_service (p : Port) : p.SameOutput p.service :=
  ⟨service_pending p, service_ring p, service_heard p, service_exporting p, service_returned p⟩

theorem sameOutput_consume {p : Port} {s : State} (h : p.SameOutput s.port) (n : Nat) : p.SameOutput (s.consume n).port :=
  ⟨h.pending, h.ring, h.heard, h.exporting, h.returned⟩

/-- A command hands the host side a tick's output and nothing else. -/
theorem port_effectOf {i : Instr} {s : State} (hi : i ≠ .mxTick 0 0) :
    (s.afterError (commandError i s) (effectOf i s)).port = s.port := by
  cases i with
  | mxTick a imm =>
    have hrsv : ¬(a = 0 ∧ imm = 0) := fun ⟨ha, himm⟩ => hi (by rw [ha, himm])
    rw [commandError_mxTick, if_neg hrsv]
    rfl
  | _ =>
    simp only [effectOf, stealVoices_eq]
    unfold State.afterError
    split <;> rfl

theorem exec_port {i : Instr} {s t : State} (h : exec i s = .next t) :
    t.port = if i = .mxTick 0 0 then s.port.push t.mx.master else s.port := by
  split
  · next hi =>
    subst hi
    obtain ⟨-, rfl⟩ := mxTick_next h
    exact mixTick_port s
  · next hi =>
    obtain ⟨-, rfl⟩ := (exec_next_iff i s t).mp h
    exact port_effectOf hi

theorem commandOfStep_of_waits {s : State} (h : s.port.hostTurn.pending ≠ []) : s.commandOfStep = none := if_neg h

theorem commandOfStep_of_instr {s : State} {i : Instr} {n : Nat} (h : s.port.hostTurn.pending = [])
    (hd : decode s.port.hostTurn.service.cmds = .instr i n) : s.commandOfStep = some i := by
  rw [State.commandOfStep, if_pos h, hd]

theorem commandOfStep_of_no_instr {s : State} (hd : ∀ i n, decode s.port.hostTurn.service.cmds ≠ .instr i n) :
    s.commandOfStep = none := by
  unfold State.commandOfStep
  split
  · split
    · next i n he => exact absurd he (hd i n)
    · rfl
    · rfl
  · rfl

/-- All that a step leaves of the host side: the other agents' turn, words taken from the stream, and the output of the tick
if it ran one, with no frames waiting before it. -/
theorem step_port {s t : State} (h : step s = .next t) :
    ∃ p, s.port.hostTurn.SameOutput p ∧
      ((s.commandOfStep = some (.mxTick 0 0) ∧ p.pending = [] ∧ t.port = p.push t.mx.master) ∨
        (s.commandOfStep ≠ some (.mxTick 0 0) ∧ t.port = p)) := by
  have hidle : s.commandOfStep = none → s.commandOfStep ≠ some (.mxTick 0 0) := fun hnone => by rw [hnone]; nofun
  obtain ⟨hwaits, he⟩ | ⟨hready, he⟩ := step_cases s
  · cases he.symm.trans h
    exact ⟨s.port.hostTurn, ⟨rfl, rfl, rfl, rfl, rfl⟩, .inr ⟨hidle (commandOfStep_of_waits hwaits), rfl⟩⟩
  · have hserved := s.port.hostTurn.sameOutput_service
    rw [he] at h
    obtain ⟨i, n, hd, hf⟩ | ⟨hd, hf⟩ | ⟨hd, hf⟩ := runFront_cases (s.setPort s.port.hostTurn.service)
    · have hcmd := commandOfStep_of_instr hready hd
      have hport := exec_port (hf.symm.trans h)
      refine ⟨_, sameOutput_consume (s := s.setPort s.port.hostTurn.service) hserved n, ?_⟩
      rw [hcmd, ne_eq, Option.some_inj]
      split at hport
      · next hi => exact .inl ⟨hi, hserved.pending.trans hready, hport⟩
      · next hi => exact .inr ⟨hi, hport⟩
    · cases hf.symm.trans h
      have hno := commandOfStep_of_no_instr fun _ _ hinstr => nomatch hd.symm.trans hinstr
      exact ⟨_, sameOutput_consume (s := s.setPort s.port.hostTurn.service) hserved 1, .inr ⟨hidle hno, rfl⟩⟩
    · cases hf.symm.trans h
      have hno := commandOfStep_of_no_instr fun _ _ hinstr => nomatch hd.symm.trans hinstr
      exact ⟨_, hserved, .inr ⟨hidle hno, rfl⟩⟩

theorem Port.push_ring (frames : List Frame) (p : Port) : (p.push frames).ring = p.ring := by
  obtain ⟨-, he⟩ | ⟨-, he⟩ := p.push_cases frames <;> rw [he]

/-- A command leaves the queue to the other agents. -/
theorem step_ring {s t : State} (h : step s = .next t) : t.port.ring = s.port.hostTurn.ring := by
  obtain ⟨p, hsame, ⟨-, -, ht⟩ | ⟨-, ht⟩⟩ := step_port h
  · rw [ht, Port.push_ring, hsame.ring]
  · rw [ht, hsame.ring]

/-- Settles O54: the waiting branch of the step, the two outcomes of `flush`, and the bound through the other agents' turn. -/
theorem renderAgentWaitsForRoom : Obligations.RenderAgentWaitsForRoom := by
  refine ⟨fun s hwaits => ?_, fun p => ⟨Port.flush_of_room, Port.flush_of_full⟩, fun s t hbounded hstep => ?_⟩
  · exact ⟨_, renderTurn_waits hwaits, rfl, rfl, rfl, rfl, rfl, rfl, rfl⟩
  · rw [State.RingBounded, step_ring hstep]
    exact Port.length_ring_hostTurn_le hbounded

/-- Settles O56: the other agents' turn takes the delivered frames off the front, and a tick appends its output behind all others
or returns it. -/
theorem framesDeliveredOnceInOrder : Obligations.FramesDeliveredOnceInOrder := by
  rintro s t _ _ hstep rfl rfl
  have hturn := delivered_append_hostTurn s
  rw [← hostTurn_heard, ← Port.hostTurn_returned s.port, ← hturn]
  obtain ⟨p, hsame, ⟨hcmd, hnone, ht⟩ | ⟨hcmd, ht⟩⟩ := step_port hstep
  · rw [← hsame.pending, ← hsame.ring, ← hsame.heard, ← hsame.exporting, ← hsame.returned]
    obtain ⟨hpath, he⟩ | ⟨hpath, he⟩ := p.push_cases t.mx.master
    · rw [ht, he]
      simp [hcmd, hpath, hnone]
    · rw [ht, he]
      simp [hcmd, hpath, hnone]
  · rw [if_neg fun h => hcmd h.1, if_neg fun h => hcmd h.1, ht]
    simp [hsame.pending, hsame.ring, hsame.heard, hsame.exporting, hsame.returned]

end Sys2Proof.Machine
end

