-- ==== Sys2Proof/Proofs/Reset.lean ====
section
/-! RESET and the state after power-on: what the sequence of R452 leaves in every part of the state, that it is a function of
the configuration registers, and that power-on has performed it and leaves a good state (R450, R452, R454). -/

namespace Sys2Proof.Machine

/-! ## The sequence of R452, part by part -/

@[simp] theorem doReset_mx (s : State) : (doReset s).mx = s.mx.afterReset s.cfg.outRate := rfl
@[simp] theorem chSlots_doReset (s : State) : (doReset s).chSlots = s.chSlots := List.length_map _

/-- Every reverb takes the latched kind and geometry, whatever it was (R330). -/
@[simp] theorem doReset_reverbs (s : State) :
    (doReset s).reverbs = List.replicate s.reverbs.length s.cfg.freshReverb := List.map_const

theorem reverb_doReset (s : State) {k : Nat} (hk : k < s.reverbs.length) : (doReset s).reverb k = s.cfg.freshReverb :=
  getD_map _ _ hk (.cleared .noReverb 0 0) _

/-- No track is muted or has an intensity; a track that is not there reads so too. -/
theorem track_doReset_cleared (s : State) (k : Nat) :
    ((doReset s).track k).mute = false ∧ ((doReset s).track k).rev = 0 := by
  obtain hk | hk := lt_or_ge k s.nTracks
  · rw [track_doReset s hk]
    exact ⟨rfl, rfl⟩
  · rw [State.track_of_le _ (by rwa [nTracks_doReset])]
    exact ⟨rfl, rfl⟩

/-- An accepted RESET has no guard. -/
theorem exec_reset_accepted (s : State) : exec (.reset 0 0) s = .next (doReset s) :=
  exec_of_accepted nofun rfl

/-- Settles O9: RESET's only check is of its reserved fields; each assignment is read off the sequence's lemma for its part. -/
theorem resetSequence : Obligations.ResetSequence := by
  refine fun a imm s => ⟨rejects _ s, fun h => if_pos ?_, doReset s, exec_reset_accepted s, rfl, chSlots_doReset s,
    nTracks_doReset s, by simp, rfl, rfl, ⟨rfl, fun _ => rfl⟩, rfl, live_doReset s, track_doReset_cleared s, fun k hk => ?_,
    rfl, rfl, rfl, rfl, rfl, rfl, rfl⟩
  · rw [WellFormed, Bool.and_eq_false_iff, beq_eq_false_iff_ne, beq_eq_false_iff_ne]
    exact h
  · rw [reverb_doReset s hk]
    exact ⟨rfl, rfl, rfl, rfl, fun _ => rfl, rfl, fun _ => rfl, rfl, rfl, rfl⟩

/-! ## RESET as a function of the configuration registers (R454) -/

theorem agreeSpecified_doReset {s s' : State} (hpar : s'.par = s.par) (hslots : s'.chSlots = s.chSlots)
    (htracks : s'.nTracks = s.nTracks) (hreverbs : s'.reverbs.length = s.reverbs.length) (hcfg : s'.cfg = s.cfg)
    (hsrc : s'.src = s.src) (hport : s'.port = s.port) : AgreeSpecified (doReset s) (doReset s') where
  par := hpar
  sizes := by simp only [chSlots_doReset, nTracks_doReset, hslots, htracks, and_self]
  cfg := hcfg
  slots u := by simp [live_doReset]
  tracks k := by
    obtain ⟨hmute, hrev⟩ := track_doReset_cleared s k
    obtain ⟨hmute', hrev'⟩ := track_doReset_cleared s' k
    exact ⟨hmute'.trans hmute.symm, hrev'.trans hrev.symm⟩
  reverbs := by rw [doReset_reverbs, doReset_reverbs, hreverbs, hcfg]
  mx := by
    rw [doReset_mx, doReset_mx, hcfg]
    rfl
  src := hsrc
  port := hport

/-- Settles O10: RESET completes with its sequence, which overwrites all that R453 specifies. -/
theorem resetDependsOnConfigurationOnly : Obligations.ResetDependsOnConfigurationOnly := by
  intro s s' t t' hpar hslots htracks hreverbs hcfg hsrc hport ht ht'
  cases (exec_reset_accepted s).symm.trans ht
  cases (exec_reset_accepted s').symm.trans ht'
  exact agreeSpecified_doReset hpar hslots htracks hreverbs hcfg hsrc hport

/-! ## Power-on (R450) -/

/-- The state after power-on is one that RESET leaves as it is, with any parameters. -/
theorem doReset_powerOn (b : Config.Build) : doReset (.powerOn b) = .powerOn b := by
  simp only [doReset, State.powerOn, State.setChans, State.setTracks, State.setReverbs, State.setMx, List.map_replicate]
  rfl

/-- `floor(48000 / (FRAME_RATE × INTERFRAMES))` with the defaults of R7 (R33). -/
theorem tickLen_reset : State.reset.cfg.tickLen = 200 := by
  have hfloor : ⌊(48000 / (16777216 / 280896 * ((4 : Nat) : Rat)) : Rat)⌋ = 200 :=
    Int.floor_eq_iff.mpr ⟨by norm_num, by norm_num⟩
  exact congrArg (fun k : Int => BitVec.ofNat 32 k.toNat) hfloor

/-- INTERFRAMES times the reset value of TICK_LEN (R38). -/
theorem revD_reset : State.reset.cfg.revD = 800 :=
  congrArg (fun w : Word => BitVec.ofNat 32 (4 * w.toNat)) tickLen_reset

/-- A slot after power-on is free. -/
theorem live_reset {c : Chan} (hc : c ∈ State.reset.chans) : c.live = false := by
  rw [List.eq_of_mem_replicate hc]
  rfl

/-- Settles O8: the registers by their reset values; `doReset_powerOn` says that RESET has been performed. -/
theorem powerOnState : Obligations.PowerOnState := by
  refine ⟨rfl, tickLen_reset, rfl, rfl, rfl, rfl, revD_reset, rfl, rfl, rfl, rfl, rfl, fun b => ⟨?_, ?_, ?_⟩⟩
  · rw [exec_reset_accepted, doReset_powerOn]
  · exact List.length_replicate
  · exact List.length_replicate

theorem legal_default : Config.Params.default.Legal := by
  norm_num [Config.Params.Legal, Config.Params.default]

theorem cfgLegal_reset : State.reset.CfgLegal := by
  rw [State.CfgLegal, tickLen_reset, revD_reset]
  exact ⟨rfl, rfl, rfl, rfl, rfl, rfl⟩

/-- Settles O58: no slot is live, and the reverbs are as RESET leaves them, whose geometry the legal registers give. -/
theorem invariantAtReset : Obligations.InvariantAtReset := by
  have hfree : ∀ {p : Chan → Prop}, ∀ c ∈ State.reset.chans, c.live = true → p c := fun c hc hlive =>
    absurd hlive (by rw [live_reset hc]; decide)
  exact ⟨{
    built := ⟨legal_default, by decide, rfl⟩
    footprints := hfree
    cfg := cfgLegal_reset
    chans := hfree
    noDead := hfree
    reverbs := fun rv hrv => by
      rw [List.eq_of_mem_replicate hrv]
      exact reverbBounded_freshReverb cfgLegal_reset
    fade := ⟨zero_le_one, le_rfl, le_rfl⟩
    times := hfree
    source := Source.wf_reset }, Nat.zero_le _⟩

end Sys2Proof.Machine
end

