-- ==== Sys2Proof/Proofs/UnspecifiedValues.lean ====
section
/-! No rule reads an unspecified value: two states that agree on all that R453 specifies do so after every command, and a render
tick gives them the same track buffers and the same output (R42, R48, R361, R453). -/

namespace Sys2Proof.Machine

/-! ## Slots that agree (R42) -/

/-- The slot of `AgreeSpecified`: the same channel lives in both records, or none does in either. -/
def Chan.SameLive (c d : Chan) : Prop := d.live = c.live ∧ (c.live = true → d = c)

namespace Chan.SameLive
variable {c d : Chan}

theorem of_eq (h : d = c) : c.SameLive d := ⟨congrArg Chan.live h, fun _ => h⟩

theorem of_free (hc : c.live = false) (hd : d.live = false) : c.SameLive d :=
  ⟨hd.trans hc.symm, fun hlive => absurd (hc.symm.trans hlive) (by decide)⟩

theorem eq_or_free (h : c.SameLive d) : d = c ∨ c.live = false ∧ d.live = false := by
  obtain ⟨hlive, heq⟩ := h
  cases hc : c.live with
  | true => exact .inl (heq hc)
  | false => exact .inr ⟨rfl, hlive.trans hc⟩

/-- Slots that agree still do after an update that starts no channel in a free slot. -/
theorem map (h : c.SameLive d) {f : Chan → Chan} (hf : ∀ x : Chan, x.live = false → (f x).live = false) :
    (f c).SameLive (f d) := by
  obtain rfl | ⟨hc, hd⟩ := h.eq_or_free
  · exact of_eq rfl
  · exact of_free (hf c hc) (hf d hd)

end Chan.SameLive

theorem processSelected_live (sel : Chan → Bool) (a : TickArgs) (src : Source) (c : Chan) :
    (processSelected sel a src c).1.live = c.live := by
  unfold processSelected
  split
  · exact process_live a src c
  · rfl

@[simp] theorem chSlots_beforeReverb (s : State) : s.beforeReverb.chSlots = s.chSlots := chSlots_runChannels _ _ _

section agree
variable {s s' : State}

theorem AgreeSpecified.chan (h : AgreeSpecified s s') (u : Nat) : (s.chan u).SameLive (s'.chan u) := h.slots u

/-- All of the mixer but the master buffer is the same. -/
theorem AgreeSpecified.mixer (h : AgreeSpecified s s') {α : Type} {f : Mixer → α}
    (hf : ∀ m : Mixer, f { m with master := [] } = f m) : f s'.mx = f s.mx := by
  rw [← hf s'.mx, h.mx, hf]

/-! ## Updates that both states make -/

/-- A write of the mixer that does not read the master buffer. -/
theorem AgreeSpecified.setMx (h : AgreeSpecified s s') {f : Mixer → Mixer}
    (hf : ∀ m : Mixer, { f { m with master := [] } with master := [] } = { f m with master := [] }) :
    AgreeSpecified (s.setMx (f s.mx)) (s'.setMx (f s'.mx)) :=
  ⟨h.par, h.sizes, h.cfg, h.slots, h.tracks, h.reverbs, h.mixer (f := fun m => { f m with master := [] }) hf, h.src, h.port⟩

theorem AgreeSpecified.rejectedWith (h : AgreeSpecified s s') (e : ErrCode) :
    AgreeSpecified (s.rejectedWith e) (s'.rejectedWith e) :=
  h.setMx (f := fun m => { m with lastErr := some e, errCount := .ofNat 16 (min 0xFFFF (m.errCount.toNat + 1)) })
    fun _ => rfl

theorem AgreeSpecified.startFade (h : AgreeSpecified s s') (mode : BitVec 2) (length : Word) :
    AgreeSpecified (s.setMx (s.mx.startFade mode length)) (s'.setMx (s'.mx.startFade mode length)) :=
  h.setMx fun m => by
    unfold Mixer.startFade
    split_ifs <;> rfl

theorem AgreeSpecified.setCfg (h : AgreeSpecified s s') {c c' : Cfg} (hc : c' = c) :
    AgreeSpecified (s.setCfg c) (s'.setCfg c') :=
  ⟨h.par, h.sizes, hc, h.slots, h.tracks, h.reverbs, h.mx, h.src, h.port⟩

theorem AgreeSpecified.setChans (h : AgreeSpecified s s') {cs cs' : List Chan}
    (hlen : (s'.setChans cs').chSlots = (s.setChans cs).chSlots)
    (hslots : ∀ u, ((s.setChans cs).chan u).SameLive ((s'.setChans cs').chan u)) :
    AgreeSpecified (s.setChans cs) (s'.setChans cs') :=
  ⟨h.par, ⟨hlen, h.sizes.2⟩, h.cfg, hslots, h.tracks, h.reverbs, h.mx, h.src, h.port⟩

/-- The named slot takes the same record in both. -/
theorem AgreeSpecified.setChan (h : AgreeSpecified s s') {k : Nat} (hk : k < s.chSlots) {c c' : Chan} (hc : c' = c) :
    AgreeSpecified (s.setChan k c) (s'.setChan k c') := by
  obtain ⟨hslots, -⟩ := h.sizes
  refine h.setChans (by simpa [State.chSlots] using hslots) fun u => ?_
  by_cases hu : u = k
  · subst hu
    refine .of_eq ?_
    exact (s'.chan_setChan_self (hslots ▸ hk) c').trans (hc.trans (s.chan_setChan_self hk c).symm)
  · have hkeep := s.chan_setChan_ne hu c
    have hkeep' := s'.chan_setChan_ne hu c'
    exact hkeep ▸ hkeep' ▸ h.chan u

/-- A channel command rewrites the record of a live channel (R220 to R224). -/
theorem AgreeSpecified.onChannel (h : AgreeSpecified s s') {slot : BitVec 8} (hok : channelError slot s = none)
    (f : Chan → Chan) :
    AgreeSpecified (s.setChan slot.toNat (f (s.chan slot.toNat))) (s'.setChan slot.toNat (f (s'.chan slot.toNat))) := by
  obtain ⟨hslot, hlive⟩ := channelError_none hok
  obtain ⟨-, heq⟩ := h.chan slot.toNat
  exact h.setChan hslot (congrArg f (heq hlive))

/-- The MONO policy steals from live channels alone (R240). -/
theorem AgreeSpecified.stealVoices (h : AgreeSpecified s s') (T : ChType) (k : Nat) :
    AgreeSpecified (stealVoices T k s) (stealVoices T k s') := by
  obtain ⟨hslots, -⟩ := h.sizes
  have hlen : (Machine.stealVoices T k s').chSlots = (Machine.stealVoices T k s).chSlots := by simpa using hslots
  have hchan : ∀ u, ((Machine.stealVoices T k s).chan u).SameLive ((Machine.stealVoices T k s').chan u) := fun u => by
    obtain hu | hu := lt_or_ge u s.chSlots
    · rw [chan_stealVoices T k s hu, chan_stealVoices T k s' (hslots ▸ hu), h.cfg]
      refine (h.chan u).map
        (f := fun x => if s.cfg.mixopt.cgbPoly = false ∧ x.stolenBy T k u = true then x.steal else x) fun x hx => ?_
      split_ifs <;> exact hx
    · rw [State.chan_of_le (Machine.stealVoices T k s) (by simpa using hu), State.chan_of_le _ (by simpa [hslots] using hu)]
      exact .of_eq rfl
  rw [stealVoices_eq, stealVoices_eq] at hlen hchan ⊢
  exact h.setChans hlen hchan

/-- The common procedure of the tone-generator starts (R240). -/
theorem AgreeSpecified.startCgb (h : AgreeSpecified s s') {slot track : BitVec 8} {n : Note}
    (hstart : startError slot track n s = none) (T : ChType) {c c' : Chan} (hc : c' = c) :
    AgreeSpecified ((Machine.stealVoices T slot.toNat s).setChan slot.toNat c)
      ((Machine.stealVoices T slot.toNat s').setChan slot.toNat c') := by
  obtain ⟨hslot, -⟩ := startError_none hstart
  exact (h.stealVoices T slot.toNat).setChan (by rwa [chSlots_stealVoices]) hc

/-- The named track is written in both, with the same flag and intensity. -/
theorem AgreeSpecified.setTrack (h : AgreeSpecified s s') {k : Nat} (hk : k < s.nTracks) {x x' : Track}
    (hx : x'.mute = x.mute ∧ x'.rev = x.rev) : AgreeSpecified (s.setTrack k x) (s'.setTrack k x') := by
  obtain ⟨hslots, htracks⟩ := h.sizes
  refine ⟨h.par, ⟨hslots, by simpa using htracks⟩, h.cfg, h.slots, fun u => ?_, h.reverbs, h.mx, h.src, h.port⟩
  by_cases hu : u = k
  · subst hu
    rw [s.track_setTrack_self hk, s'.track_setTrack_self (htracks ▸ hk)]
    exact hx
  · rw [s.track_setTrack_ne hu, s'.track_setTrack_ne hu]
    exact h.tracks u

theorem AgreeSpecified.doReset (h : AgreeSpecified s s') : AgreeSpecified (doReset s) (doReset s') := by
  obtain ⟨hslots, htracks⟩ := h.sizes
  exact agreeSpecified_doReset h.par hslots htracks (congrArg List.length h.reverbs) h.cfg h.src h.port

/-! ## The render tick -/

theorem AgreeSpecified.agreeOnPcm (h : AgreeSpecified s s') : AgreeOnPcm s s' where
  par := h.par
  sizes := h.sizes
  cfg := h.cfg
  pcm u hu := by
    obtain ⟨hlive, heq⟩ := h.chan u
    obtain ⟨hs, -⟩ | ⟨hs', -⟩ := hu
    · exact heq hs
    · exact heq (hlive ▸ hs')
  rev k := (h.tracks k).2
  reverbs := h.reverbs
  rate := h.mixer fun _ => rfl
  src := h.src

theorem AgreeSpecified.chan_beforeReverb (h : AgreeSpecified s s') (u : Nat) :
    (s.beforeReverb.chan u).SameLive (s'.beforeReverb.chan u) := by
  obtain ⟨hslots, -⟩ := h.sizes
  obtain hu | hu := lt_or_ge u s.chSlots
  · rw [Machine.chan_beforeReverb s hu, Machine.chan_beforeReverb s' (hslots ▸ hu), h.agreeOnPcm.tickArgs, h.src]
    exact (h.chan u).map fun x hx => (processSelected_live ..).trans hx
  · rw [s.beforeReverb.chan_of_le (by rwa [chSlots_beforeReverb]),
      s'.beforeReverb.chan_of_le (by rwa [chSlots_beforeReverb, hslots])]
    exact .of_eq rfl

/-- The tone generators, which run after the reverbs, add the same to a track's buffer (R363). -/
theorem AgreeSpecified.mixInto_tones (h : AgreeSpecified s s') (a : TickArgs) (src : Source) (k : Nat) (buf : List Frame) :
    mixInto k (s'.beforeReverb.chans.map (processSelected (fun c => !c.isPcm) a src)) buf =
      mixInto k (s.beforeReverb.chans.map (processSelected (fun c => !c.isPcm) a src)) buf := by
  obtain ⟨hslots, -⟩ := h.sizes
  refine mixInto_congr_of_selected a src k buf (by simpa using hslots) fun u hu => ?_
  obtain ⟨hlive, heq⟩ := h.chan_beforeReverb u
  exact heq (hu.elim And.left fun hu' => hlive ▸ hu'.1)

/-- A track after a tick: its buffer is written before it is read, from live channels and the reverb (R361). -/
theorem AgreeSpecified.track_mixTick (h : AgreeSpecified s s') (k : Nat) : (mixTick s').track k = (mixTick s).track k := by
  obtain ⟨-, htracks⟩ := h.sizes
  obtain hk | hk := lt_or_ge k s.nTracks
  · obtain ⟨hmute, hrev⟩ := h.tracks k
    have hpos : s'.mx.fadePos = s.mx.fadePos := h.mixer fun _ => rfl
    have hnext : s'.mx.nextFadePos = s.mx.nextFadePos := h.mixer fun _ => rfl
    rw [track_mixTick_eq s hk, track_mixTick_eq s' (htracks ▸ hk), h.agreeOnPcm.buf_beforeReverb hk, h.mixInto_tones]
    simp only [h.agreeOnPcm.tickArgs, h.src, h.par, h.cfg, hmute, hrev, hpos, hnext, State.reverb, h.reverbs]
  · rw [State.track_of_le (Machine.mixTick s) (by rwa [nTracks_mixTick]),
      State.track_of_le _ (by rwa [nTracks_mixTick, htracks])]

theorem AgreeSpecified.tracks_mixTick (h : AgreeSpecified s s') : (mixTick s').tracks = (mixTick s).tracks := by
  have hlen : (mixTick s').nTracks = (mixTick s).nTracks := by
    rw [nTracks_mixTick, nTracks_mixTick, h.sizes.2]
  exact ext_getD .reset hlen fun k _ => h.track_mixTick k

theorem AgreeSpecified.master_mixTick (h : AgreeSpecified s s') : (mixTick s').mx.master = (mixTick s).mx.master := by
  rw [mixTick_master, mixTick_master, h.tracks_mixTick, h.cfg]

theorem AgreeSpecified.mixTick (h : AgreeSpecified s s') : AgreeSpecified (mixTick s) (mixTick s') where
  par := by rw [mixTick_par, mixTick_par, h.par]
  sizes := by simpa using h.sizes
  cfg := by rw [mixTick_cfg, mixTick_cfg, h.cfg]
  slots u := by
    rw [chan_mixTick, chan_mixTick, h.agreeOnPcm.tickArgs, h.src]
    exact (h.chan u).map (f := fun x => (x.ticked s.tickArgs s.src).purged) fun x hx => by
      rwa [purged_ticked_of_free _ _ hx]
  tracks k := by
    rw [h.track_mixTick]
    exact ⟨rfl, rfl⟩
  reverbs := ext_getD (.cleared .noReverb 0 0) (by simp [h.reverbs]) fun k hk => h.agreeOnPcm.reverb_mixTick <| by
    rwa [length_reverbs_mixTick, h.reverbs] at hk
  mx := h.mixer (f := fun m => { m.fadeTick with master := [], tickCount := m.tickCount + 1 }) fun _ => rfl
  src := by rw [mixTick_src, mixTick_src, h.src]
  port := by rw [mixTick_port, mixTick_port, h.port, h.master_mixTick]

/-! ## Every command -/

theorem AgreeSpecified.footprintsValid (h : AgreeSpecified s s') (hvalid : s.FootprintsValid) : s'.FootprintsValid := by
  intro c hc hlive
  obtain ⟨u, -, rfl⟩ := State.exists_chan_of_mem hc
  obtain ⟨hsame, heq⟩ := h.chan u
  rw [hsame] at hlive
  rw [heq hlive, h.src]
  exact hvalid _ (s.chan_mem (State.lt_of_live hlive)) hlive

/-- Of a slot a command's checks read whether it is live. -/
theorem AgreeSpecified.commandError (h : AgreeSpecified s s') (i : Instr) : commandError i s' = commandError i s := by
  obtain ⟨hslots, htracks⟩ := h.sizes
  have hlive : ∀ u, (s'.chan u).live = (s.chan u).live := fun u => (h.chan u).1
  cases i <;>
    simp only [Machine.commandError, startError, channelError, hslots, htracks, hlive, h.par, h.src]

theorem AgreeSpecified.effectOf (h : AgreeSpecified s s') {i : Instr} (hok : Machine.commandError i s = none) :
    AgreeSpecified (effectOf i s) (effectOf i s') := by
  cases i with
  | nop => exact h
  | cfgWr => exact h.setCfg (by rw [h.cfg])
  | reset => exact h.doReset
  | chStartPcm =>
    obtain ⟨hstart, -⟩ := or_eq_none (none_of_reserved hok).2
    obtain ⟨hslot, -⟩ := startError_none hstart
    exact h.setChan hslot (by rw [newPcm, newPcm, h.cfg, h.src])
  | chStartSq1 => exact h.startCgb (none_of_reserved hok).2 .sq1 rfl
  | chStartSq2 => exact h.startCgb (none_of_reserved hok).2 .sq2 rfl
  | chStartWave =>
    obtain ⟨hstart, -⟩ := or_eq_none (none_of_reserved hok).2
    exact h.startCgb hstart .wave (by rw [h.par, h.src])
  | chStartNoise => exact h.startCgb (none_of_reserved hok).2 .noise rfl
  | chSetVol _ volMR volML => exact h.onChannel (none_of_reserved hok).2 (Chan.setVol volMR volML)
  | chSetPitch _ pitch => exact h.onChannel (none_of_reserved hok).2 (Chan.setPitch pitch)
  | chTickNote => exact h.onChannel (none_of_reserved hok).2 Chan.tickNote
  | chRelease => exact h.onChannel (none_of_reserved hok).2 Chan.release
  | chReleaseFast => exact h.onChannel (none_of_reserved hok).2 Chan.releaseFast
  | mxTick => exact h.mixTick
  | mxFade => exact h.startFade ..
  | trkMute => exact h.setTrack (track_lt_of_accepted hok) ⟨rfl, (h.tracks _).2⟩
  | trkReverb => exact h.setTrack (track_lt_of_accepted hok) ⟨(h.tracks _).1, rfl⟩

end agree

/-- Settles O11: the checks and the effects of every command agree; after a tick so do the buffers that it wrote. -/
theorem noRuleReadsUnspecified : Obligations.NoRuleReadsUnspecified := by
  intro i s s' t h he
  obtain ⟨t', he', ht⟩ := exec_related he h.footprintsValid (h.commandError i) h.rejectedWith h.effectOf
  refine ⟨t', he', ht, ?_⟩
  rintro a imm rfl hok
  obtain ⟨-, rfl⟩ := (exec_next_iff _ s t).mp he
  obtain ⟨-, rfl⟩ := (exec_next_iff _ s' t').mp he'
  rw [h.commandError, hok]
  exact ⟨h.master_mixTick, h.tracks_mixTick⟩

end Sys2Proof.Machine
end
